-- ==== Sys2Proof/Word.lean ====
section
/-! DEFINITION. The words of the machine and the one sparse map that holds registers, buffers and memory. -/

namespace Sys2Proof

/-- A thread register, a doubleword of memory, an address (R17). -/
abbrev Word := BitVec 64

/-- The smallest addressable unit. -/
abbrev Byte := BitVec 8

/-- A sparse map from numbers to values. A key that is not listed holds a default the reader names.
The canonical form (`SMap.wf`): keys strictly rising, no value equal to the default. -/
abbrev SMap (α : Type) := List (Nat × α)

namespace SMap

variable {α : Type}

/-- The value at `k`; `d` where `k` is not listed. -/
def get (d : α) : SMap α → Nat → α
  | [], _ => d
  | (k', v) :: t, k => if k = k' then v else get d t k

/-- List `v` at `k`, in key order. -/
def insert : SMap α → Nat → α → SMap α
  | [], k, v => [(k, v)]
  | (k', v') :: t, k, v =>
    if k < k' then (k, v) :: (k', v') :: t
    else if k = k' then (k, v) :: t
    else (k', v') :: insert t k v

/-- No longer list `k`. -/
def erase : SMap α → Nat → SMap α
  | [], _ => []
  | (k', v') :: t, k => if k = k' then erase t k else (k', v') :: erase t k

/-- Write `v` at `k`: the default is not listed. -/
def set [DecidableEq α] (d : α) (m : SMap α) (k : Nat) (v : α) : SMap α :=
  if v = d then erase m k else insert m k v

/-- Every listed key is above `k` and every list value differs from `d`, keys strictly rising. -/
def above [DecidableEq α] (d : α) : Nat → SMap α → Bool
  | _, [] => true
  | k, (k', v') :: t => decide (k < k') && decide (v' ≠ d) && above d k' t

/-- The canonical form. -/
def wf [DecidableEq α] (d : α) : SMap α → Bool
  | [] => true
  | (k, v) :: t => decide (v ≠ d) && above d k t

end SMap

/-- The signed value of a word (s of R77). -/
abbrev sval (w : Word) : Int := w.toInt

/-- wrap64 of R77. -/
abbrev wrap64 (n : Int) : Word := BitVec.ofInt 64 n

end Sys2Proof
end

