-- ==== Sys2Proof/Syntax.lean ====
section
/-! DEFINITION. The instructions and the steps of the machine: one constructor per row of the opcode table.
The first 176 are the encoded instructions; the others are the steps that the table lists without an encoding
(what engines, homes, the dispatcher, the host link, the fabric and the harbourmaster do). A step's operands say
which agent moves and what the outside sends. -/

namespace Sys2Proof

/-- A register field (R28). -/
abbrev Reg := BitVec 7

/-- Scalar type codes (R42): FP64, FP32, FP16, BF16. -/
inductive FTy | d | s | h | b
  deriving DecidableEq, Repr

/-- Packed type codes (R42). -/
inductive PTy | bf16x4 | h4 | e4x8 | e5x8 | i8x8
  deriving DecidableEq, Repr

/-- Atom operation codes (R42), 0 to 11. -/
inductive AtomOp | add | smin | smax | umin | umax | and | or | xor | exch | fadd | fmax | famax
  deriving DecidableEq, Repr

/-- Placement codes of spawn (R190). -/
inductive Place | any | c | q | d | p | pod
  deriving DecidableEq, Repr

/-- A launch queue: of a VF, or of the physical function of a port (R315, R316). -/
inductive QueueId
  | vf (v q : Nat)
  | pf (port q : Nat)
  deriving DecidableEq, Repr

/-- Who wrote an inbound access (R345): a PCIe requester, or a package with its fabric tag. -/
inductive Requester
  | pcie (id : Nat)
  | fabric (src ftag : Nat)
  deriving DecidableEq, Repr

/-- A fabric packet: the header of R349 and its data flits. -/
structure Packet where
  ftag : Nat := 0
  dst : Nat := 0
  src : Nat := 0
  status : Nat := 0
  kind : Nat := 0
  nflit : Nat := 0
  vc : Nat := 0
  gid : Nat := 0
  gpa : Nat := 0
  ttag : Nat := 0
  size : Nat := 0
  op : Nat := 0
  mask : BitVec 128 := 0
  opd0 : BitVec 64 := 0
  opd1 : BitVec 64 := 0
  data : BitVec 1536 := 0
  deriving DecidableEq, Repr

/-- The register spaces that the host reaches (R308, R316, R361, R362, R388). -/
inductive RegSpace
  | vfOwn (vf : Nat)
  | translation (vf : Nat)
  | partition (p : Nat)
  | pf (port : Nat)
  /-- the SR-IOV capability in the configuration space of a port's physical function (R339, R340) -/
  | config (port : Nat)
  deriving DecidableEq, Repr

/-- A unit whose corrected errors are counted (R378), coded as R391 codes a proposal's unit. -/
structure FaultUnit where
  utype : Nat
  code : BitVec 64
  deriving DecidableEq, Repr

/-- The states of a trusted device interface (R339, R341). -/
inductive Tdisp | unlocked | lock | run
  deriving DecidableEq, Repr

inductive Instr
  -- integer register-register (R79 to R86)
  | add (d a b : Reg) | sub (d a b : Reg) | and (d a b : Reg) | or (d a b : Reg) | xor (d a b : Reg)
  | andn (d a b : Reg) | orn (d a b : Reg) | min (d a b : Reg) | max (d a b : Reg) | minu (d a b : Reg)
  | maxu (d a b : Reg)
  | shl (d a b : Reg) | shr (d a b : Reg) | sra (d a b : Reg) | rot (d a b : Reg)
  | mul (d a b : Reg) | mulh (d a b : Reg) | mulhu (d a b : Reg)
  | div (d a b : Reg) | divu (d a b : Reg) | rem (d a b : Reg) | remu (d a b : Reg)
  | clz (d a : Reg) | ctz (d a : Reg) | popc (d a : Reg) | brev (d a : Reg)
  | cmpEq (d a b : Reg) | cmpNe (d a b : Reg) | cmpLt (d a b : Reg) | cmpGe (d a b : Reg)
  | cmpLtu (d a b : Reg) | cmpGeu (d a b : Reg)
  | sel (d a b : Reg) | lea (d a b : Reg) (n : BitVec 4)
  | bfx (d a b : Reg) | bfxS (d a b : Reg) | bfi (d a b : Reg)
  -- integer immediate (R87, R88)
  | addi (d a : Reg) (i : BitVec 11) | andi (d a : Reg) (i : BitVec 11) | ori (d a : Reg) (i : BitVec 11)
  | xori (d a : Reg) (i : BitVec 11)
  | shli (d a : Reg) (n : BitVec 6) | shri (d a : Reg) (n : BitVec 6) | srai (d a : Reg) (n : BitVec 6)
  | cmpiEq (d a : Reg) (i : BitVec 11) | cmpiNe (d a : Reg) (i : BitVec 11) | cmpiLt (d a : Reg) (i : BitVec 11)
  | cmpiGe (d a : Reg) (i : BitVec 11) | cmpiLtu (d a : Reg) (i : BitVec 11) | cmpiGeu (d a : Reg) (i : BitVec 11)
  | limm (d : Reg) (i : BitVec 32) | lhi (d : Reg) (i : BitVec 32)
  -- control (R89 to R96, R208)
  | beqz (a : Reg) (o : BitVec 18) | bnez (a : Reg) (o : BitVec 18) | bltz (a : Reg) (o : BitVec 18)
  | bgez (a : Reg) (o : BitVec 18) | blez (a : Reg) (o : BitVec 18) | bgtz (a : Reg) (o : BitVec 18)
  | jmp (o : BitVec 25) | call (o : BitVec 25) | callr (a : Reg) | ret | jr (a : Reg)
  | recWait | win (n : BitVec 7) | brk (n : BitVec 7) | yield
  -- floating point (R100 to R116)
  | fadd (t : FTy) (d a b : Reg) | fsub (t : FTy) (d a b : Reg) | fmul (t : FTy) (d a b : Reg)
  | fmin (t : FTy) (d a b : Reg) | fmax (t : FTy) (d a b : Reg)
  | fma (t : FTy) (d a b : Reg) | fms (t : FTy) (d a b : Reg) | fnma (t : FTy) (d a b : Reg)
  | fabs (t : FTy) (d a : Reg) | fneg (t : FTy) (d a : Reg) | fclass (t : FTy) (d a : Reg) | frnd (t : FTy) (d a : Reg)
  | fcmpEq (t : FTy) (d a b : Reg) | fcmpLt (t : FTy) (d a b : Reg) | fcmpLe (t : FTy) (d a b : Reg)
  | fcmpUn (t : FTy) (d a b : Reg)
  | fcvt (t src : FTy) (d a : Reg)
  | icvtSf (t : FTy) (d a : Reg) | icvtUf (t : FTy) (d a : Reg) | icvtFs (t : FTy) (d a : Reg) | icvtFu (t : FTy) (d a : Reg)
  | cmul (single : Bool) (d a b : Reg) | cma (single : Bool) (d a b : Reg)
  | padd (p : PTy) (d a b : Reg) | psub (p : PTy) (d a b : Reg) | pmul (p : PTy) (d a b : Reg)
  | pfma (p : PTy) (d a b : Reg) | pmax (p : PTy) (d a b : Reg) | pmin (p : PTy) (d a b : Reg)
  | pamax (p : PTy) (d a b : Reg) | pdot (p : PTy) (d a b : Reg)
  | punpkLo (p : PTy) (d a : Reg) | punpkHi (p : PTy) (d a : Reg)
  | fdiv (t : FTy) (d a b : Reg) (k : BitVec 4) | fsqrt (t : FTy) (d a : Reg) (k : BitVec 4)
  | pcvt (t src : PTy) (sat scl : Bool) (d a b : Reg)
  -- memory, buffers and atomics (R121 to R140)
  | ldB (d a : Reg) (i : BitVec 7) (k : BitVec 4) | ldH (d a : Reg) (i : BitVec 7) (k : BitVec 4)
  | ldW (d a : Reg) (i : BitVec 7) (k : BitVec 4) | ldD (d a : Reg) (i : BitVec 7) (k : BitVec 4)
  | ldBS (d a : Reg) (i : BitVec 7) (k : BitVec 4) | ldHS (d a : Reg) (i : BitVec 7) (k : BitVec 4)
  | ldWS (d a : Reg) (i : BitVec 7) (k : BitVec 4) | ldDExt (d a : Reg) (i : BitVec 7) (k : BitVec 4)
  | stB (x a : Reg) (i : BitVec 7) | stH (x a : Reg) (i : BitVec 7) | stW (x a : Reg) (i : BitVec 7)
  | stD (x a : Reg) (i : BitVec 7)
  | lda (d a : Reg) (i : BitVec 7) (k : BitVec 4) | sta (x a : Reg) (i : BitVec 7)
  | ldc (d a : Reg) (i : BitVec 7) (k : BitVec 4) | stc (x a : Reg) (i : BitVec 7)
  | pref (sc : Bool) (a : Reg) | seal (a b : Reg) | unseal (a b : Reg)
  | atom (op : AtomOp) (seq dbl : Bool) (d a b : Reg) (k : BitVec 4)
  | cas (seq dbl : Bool) (d a b : Reg) (k : BitVec 4) | cas2 (d a b : Reg) (k : BitVec 4)
  -- tasks, synchronisation, system (R190 to R216)
  | spawn (pl : Place) (e n g : Reg) | await (c : Reg) | exit (x : Reg) | waitge (m v c : Reg)
  | signal (a v : Reg) | bar | barl (a : Reg) | barreg (a : Reg)
  | elect (d : Reg) | voteCnt (d a : Reg) | voteRank (d a : Reg) | voteEq (d a : Reg)
  | shflFrom (d a b : Reg) | shflRot (d a b : Reg) | shflMirror (d a b : Reg) | shflLead (d a b : Reg)
  | gred (op : AtomOp) (d a : Reg)
  | rds (d n : Reg) (k : BitVec 4) | wrs (n a : Reg) | rdsy (d n : Reg) | wrsy (n a : Reg)
  | tlbi (x a b : Reg) | resume (a : Reg) | halt (a b : Reg) | eret | kill (a : Reg)
  -- matrix (R153 to R164)
  | mm (t : BitVec 2) (f a b : Reg) | mms (t : BitVec 2) (f a b : Reg) | mmc (f a b : Reg)
  | mmconv (t : BitVec 2) (f a b : Reg) | mmz (m : BitVec 4) | acvt (d a b : Reg) (k : BitVec 4)
  | aload (t : BitVec 2) (a b : Reg) | amax (d b : Reg) (k : BitVec 4) | tmark (m : BitVec 4) | fvote (f : Reg)
  -- quay (R169 to R187)
  | qkick (d a : Reg) (k : BitVec 4) | qwaitk (d : Reg) | qcopy (f : BitVec 4) (d a b : Reg)
  | qlin (d a b : Reg) | qgath (d a b : Reg) | qscat (d a b : Reg) | qfill (d a b : Reg) | qred (d a b : Reg)
  | qcbk (d a b : Reg) | qstamp (d b : Reg) | qmoor (d a b : Reg) | qunmoor (d a b : Reg)
  | qtlIssued (d : Reg) | qtlDone (d : Reg) | qdrain
  -- steps of the core engines and the dispatcher
  | pick (core : Nat) | quayThreadPick (core : Nat)
  | longLatencyResult (tag : Nat) (ok : Bool)
  | recRelease (core berth : Nat) | barRelease (core berth : Nat)
  | barrierGenerationRelease (level inst ctx slot : Nat)
  | taskComplete (ctx frame : Nat) | taskPlacement (ctx frame core : Nat) | sliceEnd (core vf : Nat)
  | matrixOpExecute (core : Nat) | matrixOpRetire (core : Nat)
  | qpContextStart (core : Nat) | copyUnit (core num : Nat) | copyRetire (core num : Nat)
  | stampWrite (core : Nat) | codebookSlotWrite (core num : Nat)
  -- steps of the homes
  | writeback (core ctx line : Nat)
  | sealEntryInstall (die : Nat) | unsealComplete (ctx base size : Nat)
  | scrubClear (block : Nat)
  | faultRecordWrite (vf : Nat) | replayPointerWrite (vf : Nat) (v : BitVec 32)
  | stage2ShootdownGpa (vf gpa : Nat) | stage2ShootdownVf (vf : Nat) | shootdownCompletion
  | transfer (vf stack count : Nat) | reclaim (vf stack count : Nat) | assign (vf : Nat) | assignRaw (vf : Nat)
  | release (vf : Nat) | readDescriptor (vf : Nat) | discard (go : Requester × Nat)
  -- launch queues and partitions
  | nopRecord (q : QueueId) | launch (q : QueueId) | timedLaunch (q : QueueId) | timedRelease (id : Nat)
  | setLayout (q : QueueId) | setCodebook (q : QueueId) | gangSwitch (q : QueueId) | tearDown (q : QueueId)
  | queueStopClear (q : QueueId)
  | merge (p : Nat) | split (p : Nat) | lend (p tgt : Nat) | revoke (p : Nat)
  -- host link, keys, firmware
  | inboundRead (r : Requester) (vf gpa len : Nat)
  | inboundAtomicop (r : Requester) (vf gpa : Nat) (op : AtomOp) (isCas dbl : Bool) (v w : BitVec 64)
  | inboundPacketAck (vf idx : Nat)
  -- fabric
  | fabricRead (p : Packet)
  | fabricAtomic (p : Packet)
  | beaconSend (gang : Nat)
  | spawnPacket (p : Packet)
  -- gangs
  | gangSwitchInstant (idx : Nat) | reportSend (idx : Nat) | stragglerTimeout (idx : Nat)
  -- the harbourmaster
  | pairRetirement (island : Nat)
  | haltDrainComplete (ctx : Nat)
  | registerWrite (w : Requester × RegSpace) (off : Nat) (v : BitVec 64)
  | inboundPostedWrite (r : Requester) (vf gpa len : Nat) (data : List (BitVec 8))
  -- requests of the host that can wait behind another (R335)
  | setKey (secured : Bool) (vf : Nat) (obj : List (BitVec 8)) | eraseKey (via : Bool × Nat) (obj : List (BitVec 8))
  | fwWrite (head off total len : Nat) (rest : List (BitVec 8)) | functionLevelReset (vf : Nat) | tdispStop (vf : Nat)
  | tdispStateChange (vf : Nat) (st : Tdisp) | securedSpdmSession (vf : Nat)
  -- the tideline's own
  | lockLossTimeout | holdoverExpiry | beaconLossTimeout
  -- steps that come from outside, or that other steps contain
  | restart | listProposals | authoriseProposal | setPowerCap | readSensors | setIdentityAndRoutes | readIdentity
  | loadMiss (core ctx line : Nat) | ownershipRequest (core ctx line : Nat) | sealedFill (core ctx line : Nat)
  | homeWrite (vf gpa len : Nat) (data : BitVec 1024) | powerCapStep (island watts : Nat)
  | thermalStep (die tenths : Nat) | hotRowEvent (stack bank row : Nat)
  | refreshManagementWindowEnd (stack bank row : Nat) | coldStart (ok : Bool) | warmStart (ok : Bool)
  | linkRetrainComplete (link : Nat) | atsInvalidationRequest (vf addr : Nat)
  | priPageResponse (vf addr : Nat) (success : Bool) | correctedError (u : FaultUnit)
  | fabricReadResponse (p : Packet) | fabricWrite (p : Packet) | fabricAcknowledgement (p : Packet)
  | fabricAtomicResponse (p : Packet) | reduceWrite (p : Packet) | signalPacket (p : Packet)
  | timeBeacon (p : Packet) | gangReport (p : Packet) | gangRelease (p : Packet) | echoRequest (p : Packet)
  | echoReply (p : Packet) | podBarrierArrival (p : Packet) | podBarrierRelease (p : Packet)
  | joinPacket (p : Packet) | flitReplay (link : Nat) | linkRetrain (link : Nat)
  | fabricUnreachableTimeout (dst : Nat) | ptpSync (offset : Int)
  deriving DecidableEq, Repr

end Sys2Proof
end

