-- ==== Sys2Proof/WellFormed.lean ====
section
/-! DEFINITION. What a constructor's operands must satisfy to be an instruction of the part (R22, R41 to R43, R92). -/

namespace Sys2Proof

def odd (r : Reg) : Bool := r.getLsbD 0
/-- Packed types of eight elements (R116). -/
def wide8 : PTy → Bool
  | .bf16x4 | .h4 => false
  | _ => true
/-- Targets on which `pcvt` may saturate (R43). -/
def satTarget : PTy → Bool
  | .bf16x4 | .h4 => false
  | _ => true

/-- Whether the operands are ones that an encoding admits. Steps without an encoding are always well formed. -/
def Instr.wf : Instr → Bool
  | .lea _ _ _ n => n ≤ 4
  | .fcvt t src _ _ => t != src
  | .cmul _ d a b => !odd d && !odd a && !odd b
  | .cma _ d a b => !odd d && !odd a && !odd b
  | .cas2 d _ b _ => !odd d && !odd b
  | .pcvt t src sat scl d a b =>
    t != src && (!sat || satTarget t) && (scl || b == 0) &&
    !(wide8 t && !wide8 src && odd a) && !(wide8 src && !wide8 t && odd d)
  | .gred op _ _ => op != .exch
  | .rds _ n k => n ≤ 12 && (n == 11 || k == 0)
  | .wrs n _ => n == 12
  | .rdsy _ n => n ≤ 7
  | .wrsy n _ => n ≤ 7
  | _ => true

/-- The ill-formed ones are the terms of the constructors above only; every other term is an instruction. -/
abbrev Instr.WellFormed (i : Instr) : Prop := i.wf = true

end Sys2Proof
end

