-- ==== Sys2Proof/Decode.lean ====
section
/-! DEFINITION. The decoder, total on any bytes, rejecting by name (R28 to R44), and the encoder of the same maps (R40 to R43). -/

namespace Sys2Proof

/-- Why a word is no instruction (R44), or why the bytes hold none. -/
inductive DecodeError
  /-- fewer bytes than the opcode's length -/
  | truncated
  | opcode
  | function
  | zeroField
  | oddPair
  | bundle
  | specialRegister
  deriving DecidableEq, Repr

/-- The opcode of a first word (R28). -/
def opOf (w : BitVec 32) : BitVec 7 := w.extractLsb' 25 7
/-- Whether an opcode is of class 111, whose words are 64 bits long (R29, R32). -/
def isLong (op : BitVec 7) : Bool := op.extractLsb' 4 3 == 0b111#3
def imm11 (w : BitVec 32) : BitVec 11 := w.extractLsb' 0 11

def ftyOf (c : BitVec 2) : FTy := match c with
  | 0 => .d
  | 1 => .s
  | 2 => .h
  | _ => .b
def fty (k : BitVec 4) : FTy := ftyOf (k.extractLsb' 0 2)
def pty (c : BitVec 3) : Option PTy := match c with
  | 0 => some .bf16x4
  | 1 => some .h4
  | 2 => some .e4x8
  | 3 => some .e5x8
  | 4 => some .i8x8
  | _ => none
def atomOf (c : BitVec 4) : Option AtomOp := match c with
  | 0 => some .add
  | 1 => some .smin
  | 2 => some .smax
  | 3 => some .umin
  | 4 => some .umax
  | 5 => some .and
  | 6 => some .or
  | 7 => some .xor
  | 8 => some .exch
  | 9 => some .fadd
  | 10 => some .fmax
  | 11 => some .famax
  | _ => none
def placeOf (c : BitVec 3) : Option Place := match c with
  | 0 => some .any
  | 1 => some .c
  | 2 => some .q
  | 3 => some .d
  | 4 => some .p
  | 5 => some .pod
  | _ => none

/-- The rule of `pcvt` in R43 and its pair fields (R116). -/
def checkPcvt (t src : PTy) (sat scl : Bool) (d a b : Reg) : Except DecodeError Instr :=
  if t = src || (sat && !satTarget t) then .error .bundle
  else if !scl && b ≠ 0 then .error .zeroField
  else if (wide8 t && !wide8 src && odd a) || (wide8 src && !wide8 t && odd d) then .error .oddPair
  else .ok (.pcvt t src sat scl d a b)

/-- Decode a first word and, for class 111, the second (ignored otherwise): the opcode map of R40 to R43. -/
def decodeWords (w w2 : BitVec 32) : Except DecodeError Instr :=
  let d : Reg := w.extractLsb' 18 7
  let a : Reg := w.extractLsb' 11 7
  let b : Reg := w.extractLsb' 4 7
  let k : BitVec 4 := w.extractLsb' 0 4
  match opOf w with
  | 0x00 => (match k with
    | 0 => .ok (.add d a b)
    | 1 => .ok (.sub d a b)
    | 2 => .ok (.and d a b)
    | 3 => .ok (.or d a b)
    | 4 => .ok (.xor d a b)
    | 5 => .ok (.andn d a b)
    | 6 => .ok (.orn d a b)
    | 7 => .ok (.min d a b)
    | 8 => .ok (.max d a b)
    | 9 => .ok (.minu d a b)
    | 10 => .ok (.maxu d a b)
    | _ => .error .function)
  | 0x01 => (match k with
    | 0 => .ok (.shl d a b)
    | 1 => .ok (.shr d a b)
    | 2 => .ok (.sra d a b)
    | 3 => .ok (.rot d a b)
    | _ => .error .function)
  | 0x02 => (match k with
    | 0 => .ok (.mul d a b)
    | 1 => .ok (.mulh d a b)
    | 2 => .ok (.mulhu d a b)
    | _ => .error .function)
  | 0x03 => (match k with
    | 0 => .ok (.div d a b)
    | 1 => .ok (.divu d a b)
    | 2 => .ok (.rem d a b)
    | 3 => .ok (.remu d a b)
    | _ => .error .function)
  | 0x05 => (match k with
    | 0 => .ok (.cmpEq d a b)
    | 1 => .ok (.cmpNe d a b)
    | 2 => .ok (.cmpLt d a b)
    | 3 => .ok (.cmpGe d a b)
    | 4 => .ok (.cmpLtu d a b)
    | 5 => .ok (.cmpGeu d a b)
    | _ => .error .function)
  | 0x06 => (match k with
    | 0 => .ok (.sel d a b)
    | _ => .error .function)
  | 0x08 => (match k with
    | 0 => .ok (.bfx d a b)
    | 1 => .ok (.bfxS d a b)
    | _ => .error .function)
  | 0x09 => (match k with
    | 0 => .ok (.bfi d a b)
    | _ => .error .function)
  | 0x04 => if b ≠ 0 then .error .zeroField else (match k with
    | 0 => .ok (.clz d a)
    | 1 => .ok (.ctz d a)
    | 2 => .ok (.popc d a)
    | 3 => .ok (.brev d a)
    | _ => .error .function)
  | 0x07 => if k ≤ 4 then .ok (.lea d a b k) else .error .function
  | 0x10 => .ok (.addi d a (imm11 w))
  | 0x11 => .ok (.andi d a (imm11 w))
  | 0x12 => .ok (.ori d a (imm11 w))
  | 0x13 => .ok (.xori d a (imm11 w))
  | 0x18 => .ok (.cmpiEq d a (imm11 w))
  | 0x19 => .ok (.cmpiNe d a (imm11 w))
  | 0x1a => .ok (.cmpiLt d a (imm11 w))
  | 0x1b => .ok (.cmpiGe d a (imm11 w))
  | 0x1c => .ok (.cmpiLtu d a (imm11 w))
  | 0x1d => .ok (.cmpiGeu d a (imm11 w))
  | 0x14 => if w.extractLsb' 6 5 ≠ 0 then .error .zeroField else .ok (.shli d a (w.extractLsb' 0 6))
  | 0x15 => if w.extractLsb' 6 5 ≠ 0 then .error .zeroField else .ok (.shri d a (w.extractLsb' 0 6))
  | 0x16 => if w.extractLsb' 6 5 ≠ 0 then .error .zeroField else .ok (.srai d a (w.extractLsb' 0 6))
  | 0x20 => (match k.extractLsb' 2 2 with
    | 0 => .ok (.fadd (fty k) d a b)
    | 1 => .ok (.fsub (fty k) d a b)
    | 2 => .ok (.fmul (fty k) d a b)
    | _ => .ok (.fmin (fty k) d a b))
  | 0x21 => (match k.extractLsb' 2 2 with
    | 0 => .ok (.fmax (fty k) d a b)
    | 1 => .ok (.fma (fty k) d a b)
    | 2 => .ok (.fms (fty k) d a b)
    | _ => .ok (.fnma (fty k) d a b))
  | 0x23 => (match k.extractLsb' 2 2 with
    | 0 => .ok (.fcmpEq (fty k) d a b)
    | 1 => .ok (.fcmpLt (fty k) d a b)
    | 2 => .ok (.fcmpLe (fty k) d a b)
    | _ => .ok (.fcmpUn (fty k) d a b))
  | 0x22 => if b ≠ 0 then .error .zeroField else (match k.extractLsb' 2 2 with
    | 0 => .ok (.fabs (fty k) d a)
    | 1 => .ok (.fneg (fty k) d a)
    | 2 => .ok (.fclass (fty k) d a)
    | _ => .ok (.frnd (fty k) d a))
  | 0x25 => if b ≠ 0 then .error .zeroField else (match k.extractLsb' 2 2 with
    | 0 => .ok (.icvtSf (fty k) d a)
    | 1 => .ok (.icvtUf (fty k) d a)
    | 2 => .ok (.icvtFs (fty k) d a)
    | _ => .ok (.icvtFu (fty k) d a))
  | 0x24 => if b.extractLsb' 2 5 ≠ 0 then .error .zeroField else if k.extractLsb' 2 2 ≠ 0 then .error .function
    else if b.extractLsb' 0 2 = k.extractLsb' 0 2 then .error .function
    else .ok (.fcvt (fty k) (ftyOf (b.extractLsb' 0 2)) d a)
  | 0x26 => if odd d || odd a || odd b then .error .oddPair else (match k with
    | 0 => .ok (.cmul false d a b)
    | 1 => .ok (.cmul true d a b)
    | 4 => .ok (.cma false d a b)
    | 5 => .ok (.cma true d a b)
    | _ => .error .function)
  | 0x27 => (match pty (k.extractLsb' 0 3) with
    | none => .error .function
    | some p => if k.extractLsb' 3 1 = 0 then .ok (.padd p d a b) else .ok (.psub p d a b))
  | 0x28 => (match pty (k.extractLsb' 0 3) with
    | none => .error .function
    | some p => if k.extractLsb' 3 1 = 0 then .ok (.pmul p d a b) else .ok (.pfma p d a b))
  | 0x29 => (match pty (k.extractLsb' 0 3) with
    | none => .error .function
    | some p => if k.extractLsb' 3 1 = 0 then .ok (.pmax p d a b) else .ok (.pmin p d a b))
  | 0x2a => (match pty (k.extractLsb' 0 3) with
    | none => .error .function
    | some p => if k.extractLsb' 3 1 = 0 then .ok (.pamax p d a b) else .ok (.pdot p d a b))
  | 0x2b => if b ≠ 0 then .error .zeroField else (match pty (k.extractLsb' 0 3) with
    | none => .error .function
    | some p => if k.extractLsb' 3 1 = 0 then .ok (.punpkLo p d a) else .ok (.punpkHi p d a))
  | 0x30 => .ok (.ldB d a b k)
  | 0x31 => .ok (.ldH d a b k)
  | 0x32 => .ok (.ldW d a b k)
  | 0x33 => .ok (.ldD d a b k)
  | 0x34 => .ok (.ldBS d a b k)
  | 0x35 => .ok (.ldHS d a b k)
  | 0x36 => .ok (.ldWS d a b k)
  | 0x37 => .ok (.ldDExt d a b k)
  | 0x3c => .ok (.lda d a b k)
  | 0x3e => .ok (.ldc d a b k)
  | 0x38 => if k ≠ 0 then .error .zeroField else .ok (.stB d a b)
  | 0x39 => if k ≠ 0 then .error .zeroField else .ok (.stH d a b)
  | 0x3a => if k ≠ 0 then .error .zeroField else .ok (.stW d a b)
  | 0x3b => if k ≠ 0 then .error .zeroField else .ok (.stD d a b)
  | 0x3d => if k ≠ 0 then .error .zeroField else .ok (.sta d a b)
  | 0x3f => if k ≠ 0 then .error .zeroField else .ok (.stc d a b)
  | 0x40 => .ok (.beqz d (w.extractLsb' 0 18))
  | 0x41 => .ok (.bnez d (w.extractLsb' 0 18))
  | 0x42 => .ok (.bltz d (w.extractLsb' 0 18))
  | 0x43 => .ok (.bgez d (w.extractLsb' 0 18))
  | 0x44 => .ok (.blez d (w.extractLsb' 0 18))
  | 0x45 => .ok (.bgtz d (w.extractLsb' 0 18))
  | 0x46 => .ok (.jmp (w.extractLsb' 0 25))
  | 0x47 => .ok (.call (w.extractLsb' 0 25))
  | 0x48 => (match k with
    | 0 => if d ≠ 0 || b ≠ 0 then .error .zeroField else .ok (.callr a)
    | 1 => if d ≠ 0 || a ≠ 0 || b ≠ 0 then .error .zeroField else .ok .ret
    | 2 => if d ≠ 0 || b ≠ 0 then .error .zeroField else .ok (.jr a)
    | 3 => if d ≠ 0 || a ≠ 0 || b ≠ 0 then .error .zeroField else .ok .recWait
    | 4 => if d ≠ 0 || a ≠ 0 then .error .zeroField else .ok (.win b)
    | 5 => if d ≠ 0 || a ≠ 0 then .error .zeroField else .ok (.brk b)
    | 6 => if d ≠ 0 || a ≠ 0 || b ≠ 0 then .error .zeroField else .ok .yield
    | _ => .error .function)
  | 0x49 => if k.extractLsb' 3 1 ≠ 0 then .error .function else (match placeOf (k.extractLsb' 0 3) with
    | none => .error .function
    | some p => .ok (.spawn p d a b))
  | 0x4a => (match k with
    | 0 => if d ≠ 0 || b ≠ 0 then .error .zeroField else .ok (.await a)
    | 1 => if d ≠ 0 || b ≠ 0 then .error .zeroField else .ok (.exit a)
    | 2 => .ok (.waitge d a b)
    | _ => .error .function)
  | 0x4b => (match k with
    | 0 => if d ≠ 0 then .error .zeroField else .ok (.signal a b)
    | 1 => if d ≠ 0 || a ≠ 0 || b ≠ 0 then .error .zeroField else .ok .bar
    | 2 => if d ≠ 0 || b ≠ 0 then .error .zeroField else .ok (.barl a)
    | 3 => if d ≠ 0 || b ≠ 0 then .error .zeroField else .ok (.barreg a)
    | _ => .error .function)
  | 0x4c => (match k with
    | 0 => if a ≠ 0 || b ≠ 0 then .error .zeroField else .ok (.elect d)
    | 1 => if b ≠ 0 then .error .zeroField else .ok (.voteCnt d a)
    | 2 => if b ≠ 0 then .error .zeroField else .ok (.voteRank d a)
    | 3 => if b ≠ 0 then .error .zeroField else .ok (.voteEq d a)
    | 4 => .ok (.shflFrom d a b)
    | 5 => .ok (.shflRot d a b)
    | 6 => .ok (.shflMirror d a b)
    | 7 => .ok (.shflLead d a b)
    | _ => .error .function)
  | 0x4d => if b ≠ 0 then .error .zeroField else (match atomOf k with
    | none => .error .function
    | some .exch => .error .function
    | some op => .ok (.gred op d a))
  | 0x4e => if a ≠ 0 then .error .zeroField else if b > 12 then .error .specialRegister else if b ≠ 11 && k ≠ 0 then .error .zeroField
    else .ok (.rds d b k)
  | 0x4f => (match k with
    | 0 => if d ≠ 0 then .error .zeroField else if b ≠ 12 then .error .specialRegister else .ok (.wrs b a)
    | 1 => if a ≠ 0 then .error .zeroField else if b > 7 then .error .specialRegister else .ok (.rdsy d b)
    | 2 => if d ≠ 0 then .error .zeroField else if b > 7 then .error .specialRegister else .ok (.wrsy b a)
    | 3 => .ok (.tlbi d a b)
    | 4 => if d ≠ 0 || b ≠ 0 then .error .zeroField else .ok (.resume a)
    | 5 => if d ≠ 0 then .error .zeroField else .ok (.halt a b)
    | 6 => if d ≠ 0 || a ≠ 0 || b ≠ 0 then .error .zeroField else .ok .eret
    | 7 => if d ≠ 0 || b ≠ 0 then .error .zeroField else .ok (.kill a)
    | _ => .error .function)
  | 0x50 => if k.extractLsb' 2 2 ≠ 0 then .error .zeroField else .ok (.mm (k.extractLsb' 0 2) d a b)
  | 0x51 => if k.extractLsb' 2 2 ≠ 0 then .error .zeroField else .ok (.mms (k.extractLsb' 0 2) d a b)
  | 0x53 => if k.extractLsb' 2 2 ≠ 0 then .error .zeroField else .ok (.mmconv (k.extractLsb' 0 2) d a b)
  | 0x52 => if k ≠ 0 then .error .function else .ok (.mmc d a b)
  | 0x54 => if d ≠ 0 || a ≠ 0 || b ≠ 0 then .error .zeroField else .ok (.mmz k)
  | 0x58 => if d ≠ 0 || a ≠ 0 || b ≠ 0 then .error .zeroField else .ok (.tmark k)
  | 0x55 => .ok (.acvt d a b k)
  | 0x56 => if d ≠ 0 || k.extractLsb' 2 2 ≠ 0 then .error .zeroField else .ok (.aload (k.extractLsb' 0 2) a b)
  | 0x57 => if a ≠ 0 then .error .zeroField else .ok (.amax d b k)
  | 0x59 => if a ≠ 0 || b ≠ 0 then .error .zeroField else if k ≠ 0 then .error .function else .ok (.fvote d)
  | 0x60 => if b ≠ 0 then .error .zeroField else .ok (.qkick d a k)
  | 0x61 => if a ≠ 0 || b ≠ 0 || k ≠ 0 then .error .zeroField else .ok (.qwaitk d)
  | 0x62 => .ok (.qcopy k d a b)
  | 0x63 => if k ≠ 0 then .error .zeroField else .ok (.qlin d a b)
  | 0x64 => if k ≠ 0 then .error .zeroField else .ok (.qgath d a b)
  | 0x65 => if k ≠ 0 then .error .zeroField else .ok (.qscat d a b)
  | 0x66 => if k ≠ 0 then .error .zeroField else .ok (.qfill d a b)
  | 0x67 => if k ≠ 0 then .error .zeroField else .ok (.qred d a b)
  | 0x68 => if k ≠ 0 then .error .zeroField else .ok (.qcbk d a b)
  | 0x6a => if k ≠ 0 then .error .zeroField else .ok (.qmoor d a b)
  | 0x6b => if k ≠ 0 then .error .zeroField else .ok (.qunmoor d a b)
  | 0x69 => if a ≠ 0 || k ≠ 0 then .error .zeroField else .ok (.qstamp d b)
  | 0x6c => if a ≠ 0 || b ≠ 0 then .error .zeroField else (match k with
    | 0 => .ok (.qtlIssued d)
    | 1 => .ok (.qtlDone d)
    | _ => .error .function)
  | 0x6d => if d ≠ 0 || a ≠ 0 || b ≠ 0 || k ≠ 0 then .error .zeroField else .ok .qdrain
  | 0x70 => if a ≠ 0 || b ≠ 0 || k ≠ 0 then .error .zeroField else .ok (.limm d w2)
  | 0x71 => if a ≠ 0 || b ≠ 0 || k ≠ 0 then .error .zeroField else .ok (.lhi d w2)
  | 0x72 => if w2.extractLsb' 2 30 ≠ 0 then .error .bundle else .ok (.fdiv (ftyOf (w2.extractLsb' 0 2)) d a b k)
  | 0x73 => if b ≠ 0 then .error .zeroField else if w2.extractLsb' 2 30 ≠ 0 then .error .bundle
    else .ok (.fsqrt (ftyOf (w2.extractLsb' 0 2)) d a k)
  | 0x74 => if k ≠ 0 then .error .zeroField else if w2.extractLsb' 8 24 ≠ 0 then .error .bundle
    else (match pty (w2.extractLsb' 0 3), pty (w2.extractLsb' 3 3) with
      | some src, some t => checkPcvt t src (w2.extractLsb' 6 1 = 1) (w2.extractLsb' 7 1 = 1) d a b
      | _, _ => .error .bundle)
  | 0x75 => if w2.extractLsb' 6 26 ≠ 0 then .error .bundle else (match atomOf (w2.extractLsb' 0 4) with
    | none => .error .bundle
    | some op => .ok (.atom op (w2.extractLsb' 4 1 = 1) (w2.extractLsb' 5 1 = 1) d a b k))
  | 0x76 => if w2.extractLsb' 6 26 ≠ 0 || w2.extractLsb' 0 4 ≠ 0 then .error .bundle
    else .ok (.cas (w2.extractLsb' 4 1 = 1) (w2.extractLsb' 5 1 = 1) d a b k)
  | 0x77 => if odd d || odd b then .error .oddPair else if w2 ≠ 0 then .error .bundle else .ok (.cas2 d a b k)
  | 0x78 => if d ≠ 0 || b ≠ 0 || k ≠ 0 then .error .zeroField else if w2.extractLsb' 1 31 ≠ 0 then .error .bundle
    else .ok (.pref (w2.extractLsb' 0 1 = 1) a)
  | 0x79 => if d ≠ 0 || k ≠ 0 then .error .zeroField else if w2 ≠ 0 then .error .bundle else .ok (.seal a b)
  | 0x7a => if d ≠ 0 || k ≠ 0 then .error .zeroField else if w2 ≠ 0 then .error .bundle else .ok (.unseal a b)
  | _ => .error .opcode

/-- The little-endian word at the head of a byte list. -/
def takeWord : List Byte → Option (BitVec 32 × List Byte)
  | b0 :: b1 :: b2 :: b3 :: rest => some (b3 ++ b2 ++ b1 ++ b0, rest)
  | _ => none

/-- The instruction at the head of a byte list, and the bytes after it. -/
def decode (bytes : List Byte) : Except DecodeError (Instr × List Byte) :=
  match takeWord bytes with
  | none => .error .truncated
  | some (w, rest) =>
    if isLong (opOf w) then
      match takeWord rest with
      | none => .error .truncated
      | some (w2, rest2) => (decodeWords w w2).map fun i => (i, rest2)
    else (decodeWords w 0).map fun i => (i, rest)

/-- The `n` low bytes of a number, least significant first. -/
def bytesOf : Nat → Nat → List Byte
  | 0, _ => []
  | n + 1, w => BitVec.ofNat 8 w :: bytesOf n (w / 256)

/-- What the decoder reads from a row's bits, numbered as the opcode table numbers them. -/
def decodeTableWord (_nbits w : Nat) : Option Instr :=
  match decode (bytesOf 8 w) with
  | .ok (i, _) => some i
  | .error _ => none

/-! ### The encoder -/

def fT (op : BitVec 7) (d a b : Reg) (k : BitVec 4) : BitVec 32 := op ++ d ++ a ++ b ++ k
def fI (op : BitVec 7) (d a : Reg) (i : BitVec 11) : BitVec 32 := op ++ d ++ a ++ i
def bit1 (b : Bool) : BitVec 1 := BitVec.ofBool b
def ftyCode : FTy → BitVec 2
  | .d => 0
  | .s => 1
  | .h => 2
  | .b => 3
def ptyCode : PTy → BitVec 3
  | .bf16x4 => 0
  | .h4 => 1
  | .e4x8 => 2
  | .e5x8 => 3
  | .i8x8 => 4
def atomCode : AtomOp → BitVec 4
  | .add => 0
  | .smin => 1
  | .smax => 2
  | .umin => 3
  | .umax => 4
  | .and => 5
  | .or => 6
  | .xor => 7
  | .exch => 8
  | .fadd => 9
  | .fmax => 10
  | .famax => 11
def placeCode : Place → BitVec 3
  | .any => 0
  | .c => 1
  | .q => 2
  | .d => 3
  | .p => 4
  | .pod => 5

/-- The words of an encoded instruction; a step that the table lists without an encoding has none. -/
def encode : Instr → List (BitVec 32)
  | .add d a b => [fT 0x00 d a b 0]
  | .sub d a b => [fT 0x00 d a b 1]
  | .and d a b => [fT 0x00 d a b 2]
  | .or d a b => [fT 0x00 d a b 3]
  | .xor d a b => [fT 0x00 d a b 4]
  | .andn d a b => [fT 0x00 d a b 5]
  | .orn d a b => [fT 0x00 d a b 6]
  | .min d a b => [fT 0x00 d a b 7]
  | .max d a b => [fT 0x00 d a b 8]
  | .minu d a b => [fT 0x00 d a b 9]
  | .maxu d a b => [fT 0x00 d a b 10]
  | .shl d a b => [fT 0x01 d a b 0]
  | .shr d a b => [fT 0x01 d a b 1]
  | .sra d a b => [fT 0x01 d a b 2]
  | .rot d a b => [fT 0x01 d a b 3]
  | .mul d a b => [fT 0x02 d a b 0]
  | .mulh d a b => [fT 0x02 d a b 1]
  | .mulhu d a b => [fT 0x02 d a b 2]
  | .div d a b => [fT 0x03 d a b 0]
  | .divu d a b => [fT 0x03 d a b 1]
  | .rem d a b => [fT 0x03 d a b 2]
  | .remu d a b => [fT 0x03 d a b 3]
  | .cmpEq d a b => [fT 0x05 d a b 0]
  | .cmpNe d a b => [fT 0x05 d a b 1]
  | .cmpLt d a b => [fT 0x05 d a b 2]
  | .cmpGe d a b => [fT 0x05 d a b 3]
  | .cmpLtu d a b => [fT 0x05 d a b 4]
  | .cmpGeu d a b => [fT 0x05 d a b 5]
  | .sel d a b => [fT 0x06 d a b 0]
  | .bfx d a b => [fT 0x08 d a b 0]
  | .bfxS d a b => [fT 0x08 d a b 1]
  | .bfi d a b => [fT 0x09 d a b 0]
  | .clz d a => [fT 0x04 d a 0 0]
  | .ctz d a => [fT 0x04 d a 0 1]
  | .popc d a => [fT 0x04 d a 0 2]
  | .brev d a => [fT 0x04 d a 0 3]
  | .lea d a b n => [fT 0x07 d a b n]
  | .addi d a i => [fI 0x10 d a i]
  | .andi d a i => [fI 0x11 d a i]
  | .ori d a i => [fI 0x12 d a i]
  | .xori d a i => [fI 0x13 d a i]
  | .cmpiEq d a i => [fI 0x18 d a i]
  | .cmpiNe d a i => [fI 0x19 d a i]
  | .cmpiLt d a i => [fI 0x1a d a i]
  | .cmpiGe d a i => [fI 0x1b d a i]
  | .cmpiLtu d a i => [fI 0x1c d a i]
  | .cmpiGeu d a i => [fI 0x1d d a i]
  | .shli d a n => [fI 0x14 d a (0#5 ++ n)]
  | .shri d a n => [fI 0x15 d a (0#5 ++ n)]
  | .srai d a n => [fI 0x16 d a (0#5 ++ n)]
  | .fadd t d a b => [fT 0x20 d a b (0#2 ++ ftyCode t)]
  | .fsub t d a b => [fT 0x20 d a b (1#2 ++ ftyCode t)]
  | .fmul t d a b => [fT 0x20 d a b (2#2 ++ ftyCode t)]
  | .fmin t d a b => [fT 0x20 d a b (3#2 ++ ftyCode t)]
  | .fmax t d a b => [fT 0x21 d a b (0#2 ++ ftyCode t)]
  | .fma t d a b => [fT 0x21 d a b (1#2 ++ ftyCode t)]
  | .fms t d a b => [fT 0x21 d a b (2#2 ++ ftyCode t)]
  | .fnma t d a b => [fT 0x21 d a b (3#2 ++ ftyCode t)]
  | .fcmpEq t d a b => [fT 0x23 d a b (0#2 ++ ftyCode t)]
  | .fcmpLt t d a b => [fT 0x23 d a b (1#2 ++ ftyCode t)]
  | .fcmpLe t d a b => [fT 0x23 d a b (2#2 ++ ftyCode t)]
  | .fcmpUn t d a b => [fT 0x23 d a b (3#2 ++ ftyCode t)]
  | .fabs t d a => [fT 0x22 d a 0 (0#2 ++ ftyCode t)]
  | .fneg t d a => [fT 0x22 d a 0 (1#2 ++ ftyCode t)]
  | .fclass t d a => [fT 0x22 d a 0 (2#2 ++ ftyCode t)]
  | .frnd t d a => [fT 0x22 d a 0 (3#2 ++ ftyCode t)]
  | .icvtSf t d a => [fT 0x25 d a 0 (0#2 ++ ftyCode t)]
  | .icvtUf t d a => [fT 0x25 d a 0 (1#2 ++ ftyCode t)]
  | .icvtFs t d a => [fT 0x25 d a 0 (2#2 ++ ftyCode t)]
  | .icvtFu t d a => [fT 0x25 d a 0 (3#2 ++ ftyCode t)]
  | .fcvt t src d a => [fT 0x24 d a (0#5 ++ ftyCode src) (0#2 ++ ftyCode t)]
  | .cmul s d a b => [fT 0x26 d a b (0#3 ++ bit1 s)]
  | .cma s d a b => [fT 0x26 d a b (0b010#3 ++ bit1 s)]
  | .padd p d a b => [fT 0x27 d a b (0#1 ++ ptyCode p)]
  | .psub p d a b => [fT 0x27 d a b (1#1 ++ ptyCode p)]
  | .pmul p d a b => [fT 0x28 d a b (0#1 ++ ptyCode p)]
  | .pfma p d a b => [fT 0x28 d a b (1#1 ++ ptyCode p)]
  | .pmax p d a b => [fT 0x29 d a b (0#1 ++ ptyCode p)]
  | .pmin p d a b => [fT 0x29 d a b (1#1 ++ ptyCode p)]
  | .pamax p d a b => [fT 0x2a d a b (0#1 ++ ptyCode p)]
  | .pdot p d a b => [fT 0x2a d a b (1#1 ++ ptyCode p)]
  | .punpkLo p d a => [fT 0x2b d a 0 (0#1 ++ ptyCode p)]
  | .punpkHi p d a => [fT 0x2b d a 0 (1#1 ++ ptyCode p)]
  | .ldB d a i k => [fT 0x30 d a i k]
  | .ldH d a i k => [fT 0x31 d a i k]
  | .ldW d a i k => [fT 0x32 d a i k]
  | .ldD d a i k => [fT 0x33 d a i k]
  | .ldBS d a i k => [fT 0x34 d a i k]
  | .ldHS d a i k => [fT 0x35 d a i k]
  | .ldWS d a i k => [fT 0x36 d a i k]
  | .ldDExt d a i k => [fT 0x37 d a i k]
  | .lda d a i k => [fT 0x3c d a i k]
  | .ldc d a i k => [fT 0x3e d a i k]
  | .stB x a i => [fT 0x38 x a i 0]
  | .stH x a i => [fT 0x39 x a i 0]
  | .stW x a i => [fT 0x3a x a i 0]
  | .stD x a i => [fT 0x3b x a i 0]
  | .sta x a i => [fT 0x3d x a i 0]
  | .stc x a i => [fT 0x3f x a i 0]
  | .beqz a o => [(0x40#7 ++ a ++ o).cast (by omega)]
  | .bnez a o => [(0x41#7 ++ a ++ o).cast (by omega)]
  | .bltz a o => [(0x42#7 ++ a ++ o).cast (by omega)]
  | .bgez a o => [(0x43#7 ++ a ++ o).cast (by omega)]
  | .blez a o => [(0x44#7 ++ a ++ o).cast (by omega)]
  | .bgtz a o => [(0x45#7 ++ a ++ o).cast (by omega)]
  | .jmp o => [(0x46#7 ++ o).cast (by omega)]
  | .call o => [(0x47#7 ++ o).cast (by omega)]
  | .callr a => [fT 0x48 0 a 0 0]
  | .ret => [fT 0x48 0 0 0 1]
  | .jr a => [fT 0x48 0 a 0 2]
  | .recWait => [fT 0x48 0 0 0 3]
  | .win b => [fT 0x48 0 0 b 4]
  | .brk b => [fT 0x48 0 0 b 5]
  | .yield => [fT 0x48 0 0 0 6]
  | .spawn pl e n g => [fT 0x49 e n g (0#1 ++ placeCode pl)]
  | .await a => [fT 0x4a 0 a 0 0]
  | .exit a => [fT 0x4a 0 a 0 1]
  | .waitge d a b => [fT 0x4a d a b 2]
  | .signal a b => [fT 0x4b 0 a b 0]
  | .bar => [fT 0x4b 0 0 0 1]
  | .barl a => [fT 0x4b 0 a 0 2]
  | .barreg a => [fT 0x4b 0 a 0 3]
  | .elect d => [fT 0x4c d 0 0 0]
  | .voteCnt d a => [fT 0x4c d a 0 1]
  | .voteRank d a => [fT 0x4c d a 0 2]
  | .voteEq d a => [fT 0x4c d a 0 3]
  | .shflFrom d a b => [fT 0x4c d a b 4]
  | .shflRot d a b => [fT 0x4c d a b 5]
  | .shflMirror d a b => [fT 0x4c d a b 6]
  | .shflLead d a b => [fT 0x4c d a b 7]
  | .gred op d a => [fT 0x4d d a 0 (atomCode op)]
  | .rds d n k => [fT 0x4e d 0 n k]
  | .wrs n a => [fT 0x4f 0 a n 0]
  | .rdsy d n => [fT 0x4f d 0 n 1]
  | .wrsy n a => [fT 0x4f 0 a n 2]
  | .tlbi x a b => [fT 0x4f x a b 3]
  | .resume a => [fT 0x4f 0 a 0 4]
  | .halt a b => [fT 0x4f 0 a b 5]
  | .eret => [fT 0x4f 0 0 0 6]
  | .kill a => [fT 0x4f 0 a 0 7]
  | .mm t f a b => [fT 0x50 f a b (0#2 ++ t)]
  | .mms t f a b => [fT 0x51 f a b (0#2 ++ t)]
  | .mmconv t f a b => [fT 0x53 f a b (0#2 ++ t)]
  | .mmc f a b => [fT 0x52 f a b 0]
  | .mmz m => [fT 0x54 0 0 0 m]
  | .tmark m => [fT 0x58 0 0 0 m]
  | .acvt d a b k => [fT 0x55 d a b k]
  | .aload t a b => [fT 0x56 0 a b (0#2 ++ t)]
  | .amax d b k => [fT 0x57 d 0 b k]
  | .fvote f => [fT 0x59 f 0 0 0]
  | .qkick d a k => [fT 0x60 d a 0 k]
  | .qwaitk d => [fT 0x61 d 0 0 0]
  | .qcopy f d a b => [fT 0x62 d a b f]
  | .qlin d a b => [fT 0x63 d a b 0]
  | .qgath d a b => [fT 0x64 d a b 0]
  | .qscat d a b => [fT 0x65 d a b 0]
  | .qfill d a b => [fT 0x66 d a b 0]
  | .qred d a b => [fT 0x67 d a b 0]
  | .qcbk d a b => [fT 0x68 d a b 0]
  | .qmoor d a b => [fT 0x6a d a b 0]
  | .qunmoor d a b => [fT 0x6b d a b 0]
  | .qstamp d b => [fT 0x69 d 0 b 0]
  | .qtlIssued d => [fT 0x6c d 0 0 0]
  | .qtlDone d => [fT 0x6c d 0 0 1]
  | .qdrain => [fT 0x6d 0 0 0 0]
  | .limm d i => [fT 0x70 d 0 0 0, i]
  | .lhi d i => [fT 0x71 d 0 0 0, i]
  | .fdiv t d a b k => [fT 0x72 d a b k, 0#30 ++ ftyCode t]
  | .fsqrt t d a k => [fT 0x73 d a 0 k, 0#30 ++ ftyCode t]
  | .pcvt t src sat scl d a b => [fT 0x74 d a b 0, (0#24 ++ bit1 scl ++ bit1 sat ++ ptyCode t ++ ptyCode src).cast (by omega)]
  | .atom op seq dbl d a b k => [fT 0x75 d a b k, (0#26 ++ bit1 dbl ++ bit1 seq ++ atomCode op).cast (by omega)]
  | .cas seq dbl d a b k => [fT 0x76 d a b k, (0#26 ++ bit1 dbl ++ bit1 seq ++ 0#4).cast (by omega)]
  | .cas2 d a b k => [fT 0x77 d a b k, 0]
  | .pref sc a => [fT 0x78 0 a 0 0, (0#31 ++ bit1 sc)]
  | .seal a b => [fT 0x79 0 a b 0, 0]
  | .unseal a b => [fT 0x7a 0 a b 0, 0]
  | .pick _ => []
  | .quayThreadPick _ => []
  | .longLatencyResult _ _ => []
  | .recRelease _ _ => []
  | .barRelease _ _ => []
  | .barrierGenerationRelease _ _ _ _ => []
  | .taskComplete _ _ => []
  | .taskPlacement _ _ _ => []
  | .sliceEnd _ _ => []
  | .matrixOpExecute _ => []
  | .matrixOpRetire _ => []
  | .qpContextStart _ => []
  | .copyUnit _ _ => []
  | .copyRetire _ _ => []
  | .stampWrite _ => []
  | .codebookSlotWrite _ _ => []
  | .loadMiss _ _ _ => []
  | .writeback _ _ _ => []
  | .ownershipRequest _ _ _ => []
  | .sealedFill _ _ _ => []
  | .sealEntryInstall _ => []
  | .unsealComplete _ _ _ => []
  | .homeWrite _ _ _ _ => []
  | .scrubClear _ => []
  | .faultRecordWrite _ => []
  | .replayPointerWrite _ _ => []
  | .stage2ShootdownGpa _ _ => []
  | .stage2ShootdownVf _ => []
  | .shootdownCompletion => []
  | .transfer _ _ _ => []
  | .reclaim _ _ _ => []
  | .assign _ => []
  | .assignRaw _ => []
  | .release _ => []
  | .readDescriptor _ => []
  | .discard _ => []
  | .nopRecord _ => []
  | .launch _ => []
  | .timedLaunch _ => []
  | .timedRelease _ => []
  | .setLayout _ => []
  | .setCodebook _ => []
  | .gangSwitch _ => []
  | .tearDown _ => []
  | .queueStopClear _ => []
  | .merge _ => []
  | .split _ => []
  | .lend _ _ => []
  | .revoke _ => []
  | .inboundPostedWrite _ _ _ _ _ => []
  | .inboundRead _ _ _ _ => []
  | .inboundAtomicop _ _ _ _ _ _ _ _ => []
  | .inboundPacketAck _ _ => []
  | .setKey _ _ _ => []
  | .eraseKey _ _ => []
  | .fwWrite _ _ _ _ _ => []
  | .functionLevelReset _ => []
  | .tdispStop _ => []
  | .fabricRead _ => []
  | .fabricReadResponse _ => []
  | .fabricWrite _ => []
  | .fabricAcknowledgement _ => []
  | .fabricAtomic _ => []
  | .fabricAtomicResponse _ => []
  | .reduceWrite _ => []
  | .signalPacket _ => []
  | .timeBeacon _ => []
  | .beaconSend _ => []
  | .gangReport _ => []
  | .gangRelease _ => []
  | .echoRequest _ => []
  | .echoReply _ => []
  | .podBarrierArrival _ => []
  | .podBarrierRelease _ => []
  | .spawnPacket _ => []
  | .joinPacket _ => []
  | .flitReplay _ => []
  | .linkRetrain _ => []
  | .fabricUnreachableTimeout _ => []
  | .ptpSync _ => []
  | .lockLossTimeout => []
  | .holdoverExpiry => []
  | .beaconLossTimeout => []
  | .gangSwitchInstant _ => []
  | .reportSend _ => []
  | .stragglerTimeout _ => []
  | .restart => []
  | .listProposals => []
  | .authoriseProposal => []
  | .setPowerCap => []
  | .readSensors => []
  | .setIdentityAndRoutes => []
  | .readIdentity => []
  | .correctedError _ => []
  | .pairRetirement _ => []
  | .powerCapStep _ _ => []
  | .thermalStep _ _ => []
  | .hotRowEvent _ _ _ => []
  | .haltDrainComplete _ => []
  | .coldStart _ => []
  | .warmStart _ => []
  | .registerWrite _ _ _ => []
  | .linkRetrainComplete _ => []
  | .refreshManagementWindowEnd _ _ _ => []
  | .atsInvalidationRequest _ _ => []
  | .priPageResponse _ _ _ => []
  | .tdispStateChange _ _ => []
  | .securedSpdmSession _ => []

/-- The bytes of an instruction in memory (R3). -/
def encodeBytes (i : Instr) : List Byte := (encode i).flatMap fun w => bytesOf 4 w.toNat

end Sys2Proof
end

