-- ==== Sys2Proof/Machine/Formats.lean ====
section
/-! DEFINITION. Number formats, rounding and flags (R52 to R73): every helper that arithmetic uses, over exact values. -/

namespace Sys2Proof.Machine

/-- An exact value over the reals extended by infinities and NaN (R63): `fin neg m e` is (−1)^neg · m · 2^e. -/
inductive Ext
  | nan (signalling : Bool)
  | inf (neg : Bool)
  | fin (neg : Bool) (m : Nat) (e : Int)
  deriving DecidableEq, Repr

/-- How the top exponent field is used (R53, R61). -/
inductive Top | ieee | e4m3 | acc
  deriving DecidableEq, Repr

/-- A floating-point format (R52, R61, R62). -/
structure Fmt where
  ebits : Nat
  fbits : Nat
  bias : Nat
  top : Top
  deriving DecidableEq, Repr

def fp64 : Fmt := ⟨11, 52, 1023, .ieee⟩
def fp32 : Fmt := ⟨8, 23, 127, .ieee⟩
def fp16 : Fmt := ⟨5, 10, 15, .ieee⟩
def bf16 : Fmt := ⟨8, 7, 127, .ieee⟩
def e4m3 : Fmt := ⟨4, 3, 7, .e4m3⟩
def e5m2 : Fmt := ⟨5, 2, 15, .ieee⟩
def a56 : Fmt := ⟨10, 45, 511, .acc⟩
def a112 : Fmt := ⟨15, 96, 16383, .acc⟩

def Fmt.bits (f : Fmt) : Nat := 1 + f.ebits + f.fbits
/-- Whether the format has signalling NaNs (R54): the four IEEE formats of 16 bits and more. -/
def Fmt.hasSignalling (f : Fmt) : Bool := f.top == .ieee && f.bits > 8
/-- The exponent of the least significant bit of a subnormal. -/
def Fmt.qmin (f : Fmt) : Int := 1 - (f.bias : Int) - f.fbits
/-- The largest finite magnitude, as m · 2^e (R52, R61). -/
def Fmt.maxFin (f : Fmt) : Nat × Int :=
  match f.top with
  | .e4m3 => (14, 5)
  | _ => (2 ^ (f.fbits + 1) - 1, (2 ^ f.ebits : Nat) - 2 - (f.bias : Int) - f.fbits)
/-- The canonical NaN (R54, R61, R62). -/
def Fmt.canonNan (f : Fmt) : Nat :=
  match f.top with
  | .ieee => (2 ^ f.ebits - 1) * 2 ^ f.fbits + 2 ^ (f.fbits - 1)
  | .e4m3 => 0x7f
  | .acc => (2 ^ f.ebits - 1) * 2 ^ f.fbits
/-- The pattern of an infinity; E4M3 has none and takes its NaN (R53, R61, R64). -/
def Fmt.infBits (f : Fmt) (neg : Bool) : Nat :=
  match f.top with
  | .ieee => (if neg then 2 ^ (f.bits - 1) else 0) + (2 ^ f.ebits - 1) * 2 ^ f.fbits
  | .e4m3 => f.canonNan
  | .acc => (if neg then 2 ^ (f.bits - 1) else 0) + (2 ^ f.ebits - 1) * 2 ^ f.fbits + 2 ^ (f.fbits - 1)
def Fmt.maxBits (f : Fmt) (neg : Bool) : Nat :=
  (if neg then 2 ^ (f.bits - 1) else 0) +
  match f.top with
  | .e4m3 => 0x7e
  | _ => (2 ^ f.ebits - 1) * 2 ^ f.fbits - 1

/-- The value of a bit pattern (R52, R53, R61). A finite value keeps its significand integer M and exponent (R68). -/
def decodeF (f : Fmt) (x : Nat) : Ext :=
  let frac := x % 2 ^ f.fbits
  let e := x / 2 ^ f.fbits % 2 ^ f.ebits
  let neg := decide (x / 2 ^ (f.bits - 1) % 2 = 1)
  let finite := if e = 0 then Ext.fin neg frac f.qmin
    else Ext.fin neg (2 ^ f.fbits + frac) ((e : Int) - f.bias - f.fbits)
  if e = 2 ^ f.ebits - 1 then
    match f.top with
    | .ieee =>
      if frac = 0 then .inf neg
      else .nan (f.hasSignalling && decide (frac < 2 ^ (f.fbits - 1)))
    | .e4m3 => if frac = 7 then .nan false else finite
    | .acc => if frac = 2 ^ (f.fbits - 1) then .inf neg else .nan false
  else finite

/-- Sticky flags as bits 4 to 0: nx, uf, of, dz, nv, which are bits [6:2] of `tmode` (R24). -/
abbrev Flags := BitVec 5
abbrev flagNv : Flags := 0b00001
abbrev flagDz : Flags := 0b00010
abbrev flagOf : Flags := 0b00100
abbrev flagUf : Flags := 0b01000
abbrev flagNx : Flags := 0b10000

/-- Rounding modes (R24). -/
abbrev rne : BitVec 2 := 0b00
abbrev rtz : BitVec 2 := 0b01
abbrev rup : BitVec 2 := 0b10
abbrev rdn : BitVec 2 := 0b11

/-- Whether a value between two neighbours goes to the neighbour of larger magnitude (R63). -/
def roundsAway (rm : BitVec 2) (neg : Bool) (n rest half : Nat) : Bool :=
  if rest = 0 then false
  else if rm = rne then decide (rest > half) || (decide (rest = half) && decide (n % 2 = 1))
  else if rm = rtz then false
  else if rm = rup then !neg
  else neg

/-- m · 2^e as an integer multiple n of 2^q, rounded, with whether anything was lost. -/
def roundAt (rm : BitVec 2) (neg : Bool) (m : Nat) (e q : Int) : Nat × Bool :=
  if q ≤ e then (m * 2 ^ (e - q).toNat, false)
  else
    let s := (q - e).toNat
    let n := m / 2 ^ s
    let rest := m % 2 ^ s
    (if roundsAway rm neg n rest (2 ^ (s - 1)) then n + 1 else n, decide (rest ≠ 0))

/-- m · 2^e against n · 2^q, all nonnegative. -/
def dyLt (m : Nat) (e : Int) (n : Nat) (q : Int) : Bool :=
  if e ≤ q then decide (m < n * 2 ^ (q - e).toNat) else decide (m * 2 ^ (e - q).toNat < n)
def dyEq (m : Nat) (e : Int) (n : Nat) (q : Int) : Bool :=
  if e ≤ q then decide (m = n * 2 ^ (q - e).toNat) else decide (m * 2 ^ (e - q).toNat = n)

/-- encode(w, f) of R63 for a representable n · 2^q. -/
def encodeF (f : Fmt) (neg : Bool) (n : Nat) (q : Int) : Nat :=
  let sb := if neg then 2 ^ (f.bits - 1) else 0
  let (n, q) := if n = 2 ^ (f.fbits + 1) then (2 ^ f.fbits, q + 1) else (n, q)
  if n < 2 ^ f.fbits then sb + n
  else sb + (q + f.fbits + f.bias).toNat * 2 ^ f.fbits + (n - 2 ^ f.fbits)

/-- overflow_result (R64). -/
def overflowResult (f : Fmt) (neg : Bool) (rm : BitVec 2) (sat : Bool) : Nat :=
  if sat || rm = rtz || (rm = rup && neg) || (rm = rdn && !neg) then f.maxBits neg else f.infBits neg

/-- round_fmt for the floating-point formats (R63), with the flags it raises. -/
def roundFmt (v : Ext) (f : Fmt) (rm : BitVec 2) (sat : Bool) : Nat × Flags :=
  match v with
  | .nan _ => (f.canonNan, 0)
  | .inf neg => (if sat then f.maxBits neg else f.infBits neg, 0)
  | .fin neg m e =>
    if m = 0 then ((if neg then 2 ^ (f.bits - 1) else 0), 0)
    else
      let qU : Int := e + (Nat.log2 m + 1 : Nat) - (f.fbits + 1 : Nat)
      let (nU, _) := roundAt rm neg m e qU
      let (mx, ex) := f.maxFin
      if dyLt mx ex nU qU then (overflowResult f neg rm sat, flagOf ||| flagNx)
      else
        let q := if qU < f.qmin then f.qmin else qU
        let (n, lost) := roundAt rm neg m e q
        let tiny := dyLt nU qU (2 ^ f.fbits) f.qmin
        (encodeF f neg n q, (if lost then flagNx else 0) ||| (if lost && tiny then flagUf else 0))

/-- round_int (R63, R105, R109) of a finite value. -/
def roundInt (rm : BitVec 2) (neg : Bool) (m : Nat) (e : Int) : Int × Bool :=
  let (n, lost) := roundAt rm neg m e 0
  (if neg then -(n : Int) else n, lost)

/-- The INT8 path of round_fmt (R63, R65). -/
def roundInt8 (v : Ext) (rm : BitVec 2) (sat : Bool) : Nat × Flags :=
  match v with
  | .nan _ => (if sat then 0 else 0x80, flagNv)
  | .inf neg => (if sat then (if neg then 0x80 else 0x7f) else 0x80, flagNv)
  | .fin neg m e =>
    let (n, lost) := roundInt rm neg m e
    if n < -128 || n > 127 then (if sat then (if n < 0 then 0x80 else 0x7f) else 0x80, flagNv)
    else ((n % 256).toNat, if lost then flagNx else 0)

/-- A target of round_fmt: a float format or INT8 (format code 6). -/
inductive Tgt | flt (f : Fmt) | int8
  deriving DecidableEq, Repr
def roundTgt (v : Ext) (t : Tgt) (rm : BitVec 2) (sat : Bool) : Nat × Flags :=
  match t with
  | .flt f => roundFmt v f rm sat
  | .int8 => roundInt8 v rm sat

/-! ### Exact arithmetic -/

def Ext.isNan : Ext → Bool
  | .nan _ => true
  | _ => false
def Ext.isSig : Ext → Bool
  | .nan s => s
  | _ => false
def Ext.isZero : Ext → Bool
  | .fin _ m _ => m == 0
  | _ => false
def Ext.neg : Ext → Ext
  | .nan s => .nan s
  | .inf n => .inf (!n)
  | .fin n m e => .fin (!n) m e
def Ext.isNeg : Ext → Bool
  | .nan _ => false
  | .inf n => n
  | .fin n _ _ => n
def Ext.abs : Ext → Ext
  | .nan s => .nan s
  | .inf _ => .inf false
  | .fin _ m e => .fin false m e
/-- nv of a signalling operand (R54). -/
def sigFlag (xs : List Ext) : Flags := if xs.any Ext.isSig then flagNv else 0

/-- The exact product; the second part is an invalid case, 0 × ∞. -/
def Ext.mul (a b : Ext) : Ext × Bool :=
  match a, b with
  | .nan _, _ => (.nan false, false)
  | _, .nan _ => (.nan false, false)
  | .inf n, .inf n' => (.inf (n != n'), false)
  | .inf n, .fin n' m _ => if m = 0 then (.nan false, true) else (.inf (n != n'), false)
  | .fin n m _, .inf n' => if m = 0 then (.nan false, true) else (.inf (n != n'), false)
  | .fin n m e, .fin n' m' e' => (.fin (n != n') (m * m') (e + e'), false)

def signed (neg : Bool) (m : Nat) : Int := if neg then -(m : Int) else m

/-- The least exponent among finite nonzero terms; 0 where there is none. -/
def minExp : List Ext → Option Int
  | [] => none
  | .fin _ m e :: t =>
    if m = 0 then minExp t
    else match minExp t with
      | none => some e
      | some e' => some (if e < e' then e else e')
  | _ :: t => minExp t
/-- The sum of finite terms as a multiple of 2^q. -/
def sumAt (q : Int) : List Ext → Int
  | [] => 0
  | .fin n m e :: t => signed n (m * 2 ^ (e - q).toNat) + sumAt q t
  | _ :: t => sumAt q t

/-- The exact sum of the terms (R63, R71, R114): NaN where a term is, or where infinities of both signs meet, which is
invalid, beside a NaN too (R66, R110). An exact zero keeps the sign that all terms share; otherwise it is +0, and −0 under RDN (R63). -/
def sumExt (rm : BitVec 2) (ts : List Ext) : Ext × Bool :=
  let clash := ts.any (· == .inf false) && ts.any (· == .inf true)
  if ts.any Ext.isNan then (.nan false, clash)
  else if clash then (.nan false, true)
  else if ts.any (· == .inf false) then (.inf false, false)
  else if ts.any (· == .inf true) then (.inf true, false)
  else
    match minExp ts with
    | none =>
      if ts.all Ext.isNeg then (.fin (!ts.isEmpty) 0 0, false)
      else if ts.any Ext.isNeg then (.fin (rm = rdn) 0 0, false)
      else (.fin false 0 0, false)
    | some q =>
      let z := sumAt q (ts.filter fun x => !x.isZero)
      if z = 0 then (.fin (rm = rdn) 0 0, false)
      else (.fin (decide (z < 0)) z.natAbs q, false)

/-- Floor of the square root of n, by bits from 2^k down. -/
def isqrtGo (n : Nat) : Nat → Nat → Nat
  | 0, r => r
  | k + 1, r => let c := r + 2 ^ k; isqrtGo n k (if c * c ≤ n then c else r)
def isqrt (n : Nat) : Nat := isqrtGo n (Nat.log2 n / 2 + 1) 0

/-- a / b with a sticky lowest bit, so that one rounding of it is the rounding of the quotient (R104). -/
def Ext.div (a b : Ext) : Ext × Flags :=
  match a, b with
  | .nan _, _ => (.nan false, 0)
  | _, .nan _ => (.nan false, 0)
  | .inf _, .inf _ => (.nan false, flagNv)
  | .inf n, .fin n' _ _ => (.inf (n != n'), 0)
  | .fin n _ _, .inf n' => (.fin (n != n') 0 0, 0)
  | .fin n m e, .fin n' m' e' =>
    if m' = 0 then (if m = 0 then (.nan false, flagNv) else (.inf (n != n'), flagDz))
    else if m = 0 then (.fin (n != n') 0 0, 0)
    else
      let k := 128 + Nat.log2 m'
      let q := m * 2 ^ k / m'
      let st := if m * 2 ^ k % m' = 0 then 0 else 1
      (.fin (n != n') (2 * q + st) (e - e' - k - 1), 0)

/-- √a with a sticky lowest bit (R104). -/
def Ext.sqrt (a : Ext) : Ext × Flags :=
  match a with
  | .nan _ => (.nan false, 0)
  | .inf true => (.nan false, flagNv)
  | .inf false => (.inf false, 0)
  | .fin n m e =>
    if m = 0 then (.fin n 0 0, 0)
    else if n then (.nan false, flagNv)
    else
      let (m, e) := if e % 2 = 0 then (m, e) else (2 * m, e - 1)
      let k : Nat := 128
      let r := isqrt (m * 2 ^ (2 * k))
      let st := if r * r = m * 2 ^ (2 * k) then 0 else 1
      (.fin false (2 * r + st) (e / 2 - k - 1), 0)

/-- a < b and a = b on values that are not NaN; −0 equals +0 (R107). -/
def Ext.lt (a b : Ext) : Bool :=
  match a, b with
  | .nan _, _ => false
  | _, .nan _ => false
  | .inf n, .inf n' => n && !n'
  | .inf n, .fin _ _ _ => n
  | .fin _ _ _, .inf n' => !n'
  | .fin n m e, .fin n' m' e' =>
    if m = 0 && m' = 0 then false
    else if m = 0 then !n'
    else if m' = 0 then n
    else if n && !n' then true
    else if !n && n' then false
    else if n then dyLt m' e' m e
    else dyLt m e m' e'
def Ext.eq (a b : Ext) : Bool :=
  match a, b with
  | .nan _, _ => false
  | _, .nan _ => false
  | a, b => !(a.lt b) && !(b.lt a)

/-! ### Scalar and packed types -/

def FTy.fmt : FTy → Fmt
  | .d => fp64
  | .s => fp32
  | .h => fp16
  | .b => bf16

/-- The scalar operand of a register (R55). -/
def rdF (t : FTy) (w : Word) : Ext := decodeF (FTy.fmt t) (w.toNat % 2 ^ (FTy.fmt t).bits)
/-- The low bits of a register that a scalar occupies. -/
def lowF (t : FTy) (w : Word) : Word := BitVec.ofNat 64 (w.toNat % 2 ^ (FTy.fmt t).bits)

/-- min_num and max_num (R101) on bit patterns of a format. -/
def minNum (f : Fmt) (a b : Nat) : Nat × Flags :=
  let x := decodeF f a; let y := decodeF f b
  let fl := sigFlag [x, y]
  if x.isNan && y.isNan then (f.canonNan, fl)
  else if x.isNan then (b, fl)
  else if y.isNan then (a, fl)
  else if x.lt y || (x.eq y && x.isNeg) then (a, fl)
  else (b, fl)
def maxNum (f : Fmt) (a b : Nat) : Nat × Flags :=
  let x := decodeF f a; let y := decodeF f b
  let fl := sigFlag [x, y]
  if x.isNan && y.isNan then (f.canonNan, fl)
  else if x.isNan then (b, fl)
  else if y.isNan then (a, fl)
  else if y.lt x || (x.eq y && !x.isNeg) then (a, fl)
  else (b, fl)

/-- The class mask (R106). -/
def classMask (f : Fmt) (x : Nat) : Nat :=
  match decodeF f x with
  | .inf true => 1
  | .inf false => 0x80
  | .nan true => 0x100
  | .nan false => 0x200
  | .fin neg m _ =>
    if m = 0 then (if neg then 0x8 else 0x10)
    else if m < 2 ^ f.fbits then (if neg then 0x4 else 0x20)
    else (if neg then 0x2 else 0x40)

/-- The float format of a packed type, none for `.i8x8`, and its element width and count (R42, R55). -/
def PTy.fmt : PTy → Option Fmt
  | .bf16x4 => some bf16
  | .h4 => some fp16
  | .e4x8 => some e4m3
  | .e5x8 => some e5m2
  | .i8x8 => none
def PTy.width : PTy → Nat
  | .bf16x4 | .h4 => 16
  | _ => 8
def PTy.count (p : PTy) : Nat := 64 / PTy.width p
/-- Element i of a packed register. -/
def elemAt (p : PTy) (w : Word) (i : Nat) : Nat := w.toNat / 2 ^ (PTy.width p * i) % 2 ^ PTy.width p
/-- A packed register from its elements, lowest first. -/
def packEls (p : PTy) (es : List Nat) : Word :=
  BitVec.ofNat 64 (es.foldr (fun e acc => e % 2 ^ PTy.width p + 2 ^ PTy.width p * acc) 0)
/-- The signed value of an 8-bit pattern. -/
def s8 (x : Nat) : Int := if x % 256 < 128 then (x % 256 : Nat) else (x % 256 : Nat) - 256
def wrap8 (n : Int) : Nat := (n % 256).toNat
/-- The exact value of a packed element. -/
def elemVal (p : PTy) (x : Nat) : Ext :=
  match PTy.fmt p with
  | some f => decodeF f x
  | none => .fin (decide (s8 x < 0)) (s8 x).natAbs 0

/-! ### Element formats of the matrix array (R52, R57, R68, R69) -/

/-- Float format of a code 0 to 5. -/
def fmtOf : Nat → Option Fmt
  | 0 => some fp64
  | 1 => some fp32
  | 2 => some fp16
  | 3 => some bf16
  | 4 => some e4m3
  | 5 => some e5m2
  | _ => none
/-- The exact value of an element of format code 0 to 7 (CB4 elements are decoded first, as BF16). -/
def decodeEl (code x : Nat) : Ext :=
  match fmtOf code with
  | some f => decodeF f x
  | none =>
    if code = 6 then .fin (decide (s8 x < 0)) (s8 x).natAbs 0
    else if code = 7 then .fin false (x % 256) 0
    else decodeF bf16 x
/-- Significand width W of a code (R52), and slice count S (R68). -/
def sigWidth : Nat → Nat
  | 0 => 53
  | 1 => 24
  | 2 => 11
  | 3 => 8
  | 4 => 4
  | 5 => 3
  | _ => 8
def slices : Nat → Nat
  | 0 => 7
  | 1 => 3
  | 2 => 2
  | _ => 1
/-- Element size in bytes (R142, R177); CB4 packs two codes in a byte and CF64 (9) takes 16, CF32 (10) takes 8. -/
def elBytes : Nat → Nat
  | 0 => 8
  | 1 => 4
  | 2 | 3 => 2
  | 9 => 16
  | 10 => 8
  | _ => 1

/-- trunc_planes (R69) on a value that `decodeEl` gave for format code `f`. -/
def truncPlanes (f p : Nat) (x : Ext) : Ext :=
  match x with
  | .fin neg m e =>
    let s := slices f; let up := 8 * s - sigWidth f
    let m8 := m * 2 ^ up
    let c := 2 ^ (8 * (s - p))
    .fin neg (m8 / c * c) (e - up)
  | _ => x

/-- A value times a power of two, exact. -/
def Ext.scale (x : Ext) (k : Int) : Ext :=
  match x with
  | .fin n m e => .fin n m (e + k)
  | _ => x

/-- mm_cell (R71): the prior cell plus the exact products, rounded once; NaN from a scale of 255 enters as NaN.
The flags are those of R67: nv where the cell becomes NaN from operands that held none, of on overflow. A signalling NaN
among the elements raises nothing: R54 speaks of each operation, R67 of matrix operations alone (DESIGN CHOICE, log 144). -/
def mmCell (acc : Fmt) (c : Nat) (prods : List (Ext × Ext)) (k : Int) : Nat × Flags :=
  let ps := prods.map fun (x, y) => x.mul y
  let prior := decodeF acc c
  let terms := prior :: ps.map fun p => p.1.scale k
  let (v, clash) := sumExt rne terms
  let hadNan := prior.isNan || prods.any fun (x, y) => x.isNan || y.isNan
  let (bits, fl) := roundFmt v acc rne false
  (bits, (if v.isNan && !hadNan && (clash || ps.any (·.2)) then flagNv else 0) ||| (fl &&& flagOf))

/-! ### DS4 streams (R59, R60) -/

/-- `n` bits of a stream from bit `pos`, least significant first. -/
def bitsAt (byte : Nat → Nat) (pos : Nat) : Nat → Nat
  | 0 => 0
  | n + 1 => byte (pos / 8) / 2 ^ (pos % 8) % 2 + 2 * bitsAt byte (pos + 1) n
/-- ds4_decode: the exponent of block `i`, the last of i + 1 blocks read from `pos` (R60). -/
def ds4Go (byte : Nat → Nat) : Nat → Nat → Nat → Bool → Nat
  | 0, _, prev, _ => prev
  | n + 1, pos, prev, first =>
    let q := bitsAt byte pos 4
    if q = 8 then ds4Go byte n (pos + 12) (bitsAt byte (pos + 4) 8) false
    else
      let e : Int := if first || prev = 255 then 255 else
        let d : Int := if q < 8 then q else (q : Int) - 16
        let e := (prev : Int) + d
        if e < 0 || e > 254 then 255 else e
      ds4Go byte n (pos + 4) e.toNat false
def ds4Decode (byte : Nat → Nat) (i : Nat) : Nat := ds4Go byte (i + 1) 0 255 true

end Sys2Proof.Machine
end

