-- ==== Sys2Proof/Config.lean ====
section
/-! DEFINITION. What the spec leaves open: free values (constants with no body, applied to a counter of the
state, so that nothing can be proved of any one value) and what one part fixes that the spec does not print. -/

namespace Sys2Proof.Config

/-- The nanoseconds that pass before step `n` (DESIGN CHOICE, log 4). The tideline never decreases (R358). -/
opaque elapsed : Nat → Nat

/-- An open choice of the spec ("one of"), the `n`-th that is made (DESIGN CHOICE, log 3). -/
opaque freeChoice : Nat → Nat

/-- A byte whose value the spec leaves open: byte `addr` of a block that was written with these contents under one
key and is read under another (R290, DESIGN CHOICE, log 12). -/
opaque freeByte : (addr : Nat) → (written read : BitVec 512) → (contents : Nat) → Byte

/-- A doubleword whose value the spec leaves open or does not state, the `n`-th that is needed (DESIGN CHOICE, log 5). -/
opaque freeWord : Nat → Word

/-- The key that the `n`-th start generates for slot 0 (R342, R382, DESIGN CHOICE, log 14). -/
opaque startKey : Nat → BitVec 512

/-- The 64-bit serial number, the steppings (ten bytes), the fused security version (R390, DESIGN CHOICE, log 15). -/
opaque serial : BitVec 64
opaque stepping : Nat → Byte
opaque fusedVersion0 : BitVec 32

/-- What the signature check of a firmware image answers (R384, R385): whether it verifies, and its security
version. The signature scheme is a published standard the spec does not restate (R8, DESIGN CHOICE, log 16). -/
opaque imageVerifies : List Byte → Bool
opaque imageVersion : List Byte → BitVec 32
/-- Bytes that the image store holds (R344, DESIGN CHOICE, log 16). -/
opaque imageStore : Nat
opaque digest384 : List Byte → BitVec 384

/-- The version of the boot ROM, SPDM measurement 1 (R384). -/
opaque romVersion : BitVec 384

/-- How often a step that can be taken is passed over before it is taken (R223, R232, DESIGN CHOICE, log 140). -/
opaque patience : Nat → Nat

/-- The lines of device memory whose homes answer late while step `n` runs (R37, R137, R262, DESIGN CHOICE, log 141). -/
opaque slowLines : Nat → List Nat

/-- The lines that instruction fetch holds ahead of need when step `n` runs: core, context, line (R35, DESIGN CHOICE, log 32). -/
opaque codeAhead : Nat → List (Nat × Nat × Nat)

/-- What an uncorrectable error strikes (R377, R380). -/
inductive Strike
  /-- the sectors of a block of device memory -/
  | block (b : Nat)
  /-- an 8-byte unit of host memory -/
  | host (unit : Nat)
  /-- an L1 line: core, context, line -/
  | line (core ctx ln : Nat)
  /-- a stack-cache line, by its home address -/
  | cache (a : Nat)
  /-- the TLB entries of a core that cover an address of a context -/
  | tlb (core ctx va : Nat)
  /-- the last-level TLB entries of a die that cover an address of a context -/
  | llt (die ctx va : Nat)
  /-- the registers of a thread -/
  | regs (core berth tid : Nat)
  /-- a core's A-buffer (0), W-buffer (1) or tile `n - 2` -/
  | buffer (core n : Nat)
  deriving DecidableEq, Repr

/-- The uncorrectable errors that are to come, each with the tideline nanosecond at which it strikes (R377, R380,
DESIGN CHOICE, log 83). -/
opaque strikes : List (Nat × Strike)

/-- The 2 MiB page at which the hypervisor will map a frame that is moved into a VF, where no entry of its array names the frame yet (R283,
DEDUCED, log 66). -/
opaque frameGpa : (vf frame : Nat) → BitVec 21

/-- What a core-pair island draws at this moment, by which the harbourmaster orders its steps (R387, DESIGN CHOICE, log 17). -/
opaque draw : (moment island : Nat) → Nat

/-- The PCIe Vendor and Device IDs in configuration space, which carry the part number in a form that the spec does not give (R390,
DESIGN CHOICE, log 15). -/
opaque vendorId : BitVec 16
opaque deviceId : BitVec 16

/-- A sensor reading the spec does not determine (R391 command 5, DESIGN CHOICE, log 17). -/
opaque sensor : Nat → BitVec 16

end Sys2Proof.Config
end

