-- ==== Sys2Proof/Machine/State.lean ====
section
/-! DEFINITION. Everything the spec gives the machine, as plain data, and the machine right after a start. -/

namespace Sys2Proof.Machine

/-- Why a run ends in a fault. -/
inductive Fault
  /-- Raised by `step` when the pending issue names a core above 255 or a quay thread above 3: no such engine exists
  (R9, R12). Safe: no step makes such an issue. -/
  | noSuchEngine
  deriving DecidableEq, Repr

/-- Why a run ends in a refusal. -/
inductive Refusal
  /-- Raised by `exec` for an instruction that has no meaning yet. Safe. -/
  | notModelled (mnemonic : String)
  deriving DecidableEq, Repr

/-- A thread: of a group in a berth (0 to 31), or a quay thread of the core, which the model files under berth 32. -/
structure LaneId where
  core : Nat
  berth : Nat
  tid : Nat
  deriving DecidableEq, Repr

/-- The berth number under which the model files quay threads. -/
abbrev quayBerth : Nat := 32

/-- What a long-latency access has returned so far (R37, R38). -/
inductive Arrival
  /-- nothing yet -/
  | waiting
  /-- the value -/
  | value (w : Word)
  /-- an uncorrectable data error, with cause, subcause and GPA of its record -/
  | error (cause sub : Nat) (gpa : Word)
  deriving DecidableEq, Repr

/-- What is owed to a window at its close (R99, R123, R353). -/
structure Closing where
  flags : BitVec 5 := 0
  ext : Bool := false
  fabric : Bool := false
  deriving DecidableEq, Repr

/-- An open lookahead window (R37, R93): the physical register, what remains of the count, the result. -/
structure Window where
  phys : Nat
  count : Nat
  arrival : Arrival
  cancelled : Bool := false
  closing : Closing := {}
  /-- the transaction or matrix operation whose result this is; 0 for none -/
  tag : Nat := 0
  /-- the window of the second register of a pair (R139); that of the first stands before it -/
  second : Bool := false
  /-- address of L and of its data -/
  ifa : Word := 0
  fva : Word := 0
  /-- window base and registers with which L issued (DEDUCED, log 22) -/
  wb : Nat := 16
  regs : SMap Word := []
  deriving DecidableEq, Repr

/-- A lane that reissues L alone, with no window, after a data error (R38): where it goes on, the registers whose part of
the result was cancelled, and the thread's own window base and registers, which come back when L completes (DEDUCED, log 22). -/
structure Reissue where
  back : Word
  gone : List Nat := []
  wb : Nat := 16
  regs : SMap Word := []
  deriving DecidableEq, Repr

/-- What a stalled thread waits for (R37, R67, R131, R149 to R151, R169, R173, R251, R255). -/
inductive Stall
  /-- a copy of its context in flight has these bytes of a space -/
  | copy (space lo n : Nat)
  /-- the same of the A-buffer, or a queued operation has still to read them -/
  | bytes (lo n : Nat)
  /-- a tile of a core is busy -/
  | tile (core t : Nat)
  /-- the matrix queue is full -/
  | matrixQueue
  /-- matrix work that the thread is gathered on -/
  | matrixWork
  /-- matrix operations queued, or copies in flight, on the core -/
  | engines
  /-- the kick queue is full -/
  | kicks
  /-- 64 copies are in flight -/
  | copies
  /-- publications that other packages have not acknowledged -/
  | unacked
  /-- the same, for the stamps of a `signal` -/
  | stamps
  /-- a line of another package, in which its code or a descriptor lies -/
  | code
  /-- a page of host memory that has been requested -/
  | page (vf page : Nat)
  /-- the 768 non-posted requests of a port are outstanding (R339) -/
  | tags (port : Nat)
  /-- a line on which an earlier access of its core and context has still to be performed -/
  | line (ln : Nat)
  deriving DecidableEq, Repr

/-- Why a thread is not ready (R228), or that it is. -/
inductive Wait
  | ready
  | atRec
  | atBar
  /-- waiting at `barl`, with its control word -/
  | atBarl (w : Word)
  /-- stalled; it reissues its instruction when what it waits for has happened -/
  | stalled (why : Stall)
  /-- held at the close of a window (R37) -/
  | held
  /-- parked by a trap; the frame of the trap task -/
  | trapped (frame : Nat)
  /-- parked by a system fault, or a stopped quay thread -/
  | faulted
  /-- a quay thread waiting in `qwaitk`, with its place in the order of waiting and its destination (R170) -/
  | qwaiting (place dest : Nat)
  /-- a quay thread in `qdrain`, until this number is done (R174) -/
  | draining (upto : Nat)
  /-- waiting for a seal, an unseal, a shoot-down, or a register destination of an engine -/
  | engine
  | exited
  deriving DecidableEq, Repr

/-- The thread's own state (R17 to R24, R37). Registers are filed by physical number; a quay thread has window base 16,
under which x0 to x63 are p0 to p63. -/
structure Thread where
  id : LaneId
  ctx : Nat
  pc : Word
  wb : Nat := 16
  regs : SMap Word := []
  /-- nx, uf, of, dz, nv: bits [6:2] of `tmode` -/
  flags : BitVec 5 := 0
  rm : BitVec 2 := 0
  windows : List Window := []
  wait : Wait := .ready
  reissue : Option Reissue := none
  /-- it has executed `yield` and has issued nothing since (R228) -/
  yielded : Bool := false
  /-- it was resumed or replayed and reissues its access for itself alone (R120, R275, R306) -/
  alone : Bool := false
  deriving DecidableEq, Repr

/-- A group in a berth (R217, R218); `halted` is halted in place (R323). -/
structure Group where
  core : Nat
  berth : Nat
  ctx : Nat
  frame : Nat
  width : Nat
  nreg : Nat
  pair : Bool := false
  halted : Bool := false
  deriving DecidableEq, Repr

/-- A write-notice (R256): the listed lines in slot order, and the signature. -/
structure Notice where
  list : List Nat := []
  sig : BitVec 1024 := 0
  deriving DecidableEq, Repr

/-- Which kind of write a home performs, with the context and the notice of a stamp (R237). -/
inductive WriteKind
  | plain
  | signal (ctx : Nat) (n : Notice)
  | stamp (ctx : Nat) (n : Notice)
  | inbound (fabric : Bool)
  deriving DecidableEq, Repr

/-- The continuation that a task's threads have fixed (R196, R219, R220). -/
structure Agreed where
  /-- 1 `await`, 2 `waitge`, 3 a successor -/
  kind : Nat
  addr : Word := 0
  value : Word := 0
  cont : Word
  wb : Nat
  wt : Nat
  wm : Nat := 0
  wv : Nat := 0
  deriving DecidableEq, Repr

/-- The registers of a trap task, its record's contents and the threads that its trap parked (R211, R212). -/
structure TrapInfo where
  cause : Nat
  fva : Word
  ifa : Word
  epc : Word
  trec : Nat
  parked : BitVec 64
  core : Nat
  berth : Nat
  frame : Nat
  deriving DecidableEq, Repr

/-- Where a task stands. -/
inductive Phase
  /-- waits in the dispatcher for a first start -/
  | queued
  /-- waits in the dispatcher as a released continuation -/
  | queuedCont
  /-- runs in a berth -/
  | running (core berth : Nat)
  /-- ended by `await` or `waitge`, not released -/
  | waiting
  /-- ended with no continuation, children still pending -/
  | ending
  deriving DecidableEq, Repr

/-- A task and its frame header (R219). The header's fields are also written to the frame's memory. -/
structure Task where
  ctx : Nat
  frame : Nat
  width : Nat
  nreg : Nat
  pair : Bool := false
  prio : Nat := 0
  phase : Phase
  place : Place := .any
  /-- the core of the spawn, for the level of a placement -/
  origin : Nat := 0
  rm : BitVec 2 := 0
  parent : Nat := 0
  /-- 1 + pkgid of the parent's package for a remote parent, else 0 (R193) -/
  parentPkg : Nat := 0
  cont : Word := 0
  pending : Nat := 0
  tix : Nat := 0
  nkid : Nat := 0
  desc : BitVec 32 := 0
  kind : Nat := 0
  entry : Word := 0
  arg : Word := 0
  notice : Notice := {}
  agreed : Option Agreed := none
  /-- threads whose state `await` or `waitge` saved -/
  saved : List Nat := []
  /-- the home address of the waitge unit and its key slot, once the task has ended -/
  waitAt : Option (Nat × Nat) := none
  /-- the GPA of that unit, by which its home is found anew when a frame has moved (R281) -/
  waitGpa : Nat := 0
  /-- the header's fields that only `await`, `waitge` and `exit` write: word 0x1c below, 0x30 above (DESIGN CHOICE, log 21) -/
  rest : Nat := 0
  /-- rounding modes of the threads that have ended, for a successor (R200) -/
  endRm : List (Nat × BitVec 2) := []
  /-- the thread that ended last by an instruction, with that instruction's address, while a successor is pending (R200) -/
  lastEnd : Option (LaneId × Word) := none
  launch : Option Nat := none
  trap : Option TrapInfo := none
  /-- `sy.epc` as the last `wrsy` of a privileged task that is no trap task left it (R26) -/
  privEpc : Word := 0
  /-- the external edge and the fabric invalidation owed at the start (R193, R237, R353) -/
  owesExt : Bool := false
  owesFabric : Bool := false
  /-- whether the frame is still allocated, its granules, and the block reservations it holds (R396) -/
  granules : Nat := 0
  deriving DecidableEq, Repr

/-- Why a context stopped (R96, R200, R211, R275, R380): the report to the host. -/
structure StopReport where
  cause : Nat
  sub : Nat := 0
  value : Word := 0
  deriving DecidableEq, Repr

/-- A context (R319, R320) with its layout table (R177) and its debugger halt (R216). -/
structure Ctx where
  id : Nat
  vf : Nat
  priv : Bool := false
  prio : Nat := 0
  hbase : Word := 0
  hsize : Word := 0
  s1root : Word := 0
  qentry : Word := 0
  spill : Word := 0
  ss : Word := 0
  tvec : Word := 0
  gang : Nat := 0
  layouts : SMap (BitVec 1024) := []
  stopped : Option StopReport := none
  /-- 0 running, 1 draining, 2 quiet -/
  dbg : Nat := 0
  /-- queue that created it -/
  queue : Option QueueId := none
  /-- `sy.halt` as a `halt` of this context left it: the context it halted last -/
  haltTarget : Option Nat := none
  /-- a thread of it has taken an external edge, and one that came over the fabric: each later edge carries them on (R236,
  R353) -/
  ext : Bool := false
  fabric : Bool := false
  /-- what its completed launches have written: a later launch sees it (DEDUCED, log 162) -/
  notice : Notice := {}
  deriving DecidableEq, Repr

/-- An entry of the picker's ring (R228). -/
structure RingEntry where
  ctx : Nat
  pc : Word
  lanes : List LaneId
  isOpen : Bool
  deriving DecidableEq, Repr

/-- A byte interval of a space: 0 global, 1 A-buffer, 2 W-buffer (R184, R260). `hi` is past the last byte. -/
structure Range where
  space : Nat
  lo : Nat
  hi : Nat
  deriving DecidableEq, Repr

/-- A queued matrix operation (R149), with its operands as issued. -/
inductive MatKind
  | mm (t : Nat) (f : BitVec 32) (a b : Nat)
  | mms (t : Nat) (f : BitVec 32) (a b : Nat)
  | mmc (f : BitVec 32) (a b : Nat)
  | mmconv (t : Nat) (f : BitVec 32) (pos : Word) (b : Nat)
  | mmz (mask : BitVec 4)
  | aload (t a : Nat) (ctl : Word)
  | acvt (a : Nat) (ctl : Word)
  | amax (ctl : Word)
  deriving DecidableEq, Repr

structure MatOp where
  seq : Nat
  kind : MatKind
  ctx : Nat
  pair : Bool
  lanes : List LaneId
  /-- what it will read in the A-buffer and the W-buffer (R151) -/
  reads : List Range := []
  executed : Bool := false
  flags : BitVec 5 := 0
  result : Word := 0
  deriving DecidableEq, Repr

/-- The copy instructions. -/
inductive CopyKind | qcopy | qlin | qgath | qscat | qfill | qred | qcbk | qstamp
  deriving DecidableEq, Repr

/-- A copy (or a `qstamp`) from its number to its stamp (R171 to R176, R260). -/
structure Copy where
  num : Nat
  kind : CopyKind
  ctx : Nat
  quay : Nat
  k : BitVec 4 := 0
  desc : List Word := []
  record : BitVec 1024 := 0
  stamp : Word := 0
  dst : Option Range := none
  /-- the scale entries of a `qcopy` into the W-buffer lie in the A-buffer (DEDUCED, log 148) -/
  dst2 : Option Range := none
  src : Option Range := none
  /-- units performed and units in all -/
  done : Nat := 0
  total : Nat := 0
  /-- the matrix operations numbered below this were issued before the copy: it writes after they have read (R151, R186) -/
  after : Nat := 0
  /-- lines of other packages that have come for the next unit: package, GPA, line -/
  fetched : List (Nat × Nat × BitVec 1024) := []
  /-- accesses that the quay processor's core had made for the context before it, and that are still to be performed: its
  units are later than they (R236) -/
  behind : List Nat := []
  parked : Bool := false
  retired : Bool := false
  /-- it was let go on while its gang was out, and waits until the gang is in (R367) -/
  held : Bool := false
  /-- its stamp is on its way to another package -/
  stampSent : Bool := false
  /-- abandoned by disposition 1: no stamp (R275) -/
  abandoned : Bool := false
  /-- the core to which its context's rows have gone after a revocation (R327, DEDUCED, log 164) -/
  rows : Option Nat := none
  deriving DecidableEq, Repr

/-- A kick in the queue: context, mailbox, and the kicking frame's notice (R169, R257). -/
structure Kick where
  ctx : Nat
  mailbox : Word
  notice : Notice
  deriving DecidableEq, Repr

/-- A core (R12): buffers, tiles, queues, picker, quay processor. -/
structure Core where
  tenant : Option Nat := none
  sliceStart : Nat := 0
  /-- the split of R251, in 64 KiB units -/
  split : Nat := 2
  lastCtx : Option Nat := none
  /-- contexts whose contents lie in the A-buffer, W-buffer, C-buffer (R324) -/
  rowA : Option Nat := none
  rowW : Option Nat := none
  rowC : Option Nat := none
  liveMask : BitVec 4 := 0xf
  /-- the mask that the C-buffer's context left when the core began work for another (R159) -/
  rowLive : BitVec 4 := 0xf
  /-- the split is to fall to lim as soon as the core's engines are idle, and the split that a partition which has taken the core
  gives it (R250) -/
  splitDue : Bool := false
  splitTake : Option Nat := none
  ring : List RingEntry := []
  matQ : List MatOp := []
  kicks : List Kick := []
  kickCount : Nat := 0
  qctx : Option Nat := none
  qrr : Nat := 0
  qplace : Nat := 0
  timeline : Nat := 0
  /-- the largest number whose stamp is written or would be (R174) -/
  stamped : Nat := 0
  qnotice : Notice := {}
  /-- notices of contexts that the QP has served before, for their stamps and for a later service (R237) -/
  oldNotices : List (Nat × Notice) := []
  copies : List Copy := []
  /-- on a follower: the context whose pair tasks reserve it (R225) -/
  pairCtx : Option Nat := none
  /-- per VF, the epoch last applied (R346) -/
  epochs : SMap Nat := []
  /-- pending lines of a context (R252): (context, line) -/
  pendingLines : List (Nat × Nat) := []
  abuf : SMap Byte := []
  wbuf : SMap Byte := []
  /-- cell (tile, row, column) at 16384·tile + 128·row + column -/
  tiles : SMap (BitVec 56) := []
  /-- codebook slots of the pair are kept with the even core: slot ↦ (the contexts that have loaded it, 32 bytes) -/
  codebook : SMap (Option (List Nat × BitVec 256)) := []
  /-- powered off as part of a retired pair (R379) -/
  retired : Bool := false
  deriving DecidableEq, Repr

/-- What the device image holds of a quay processor (R324). -/
structure QpImage where
  threads : List Thread
  notice : Notice
  kicks : List Kick
  deriving DecidableEq, Repr

/-- Rows of a context spilled from a core (R324): what the spill slot and the device image hold. -/
structure Spilled where
  core : Nat
  ctx : Nat
  a : Option (SMap Byte) := none
  w : Option (SMap Byte) := none
  c : Option (SMap (BitVec 56)) := none
  /-- the split and the live-tile mask with which the A-buffer and the C-buffer were spilled -/
  split : Nat := 0
  live : BitVec 4 := 0
  /-- the core in whose spill slot the rows stand, where the image has been taken to another core (R327, R376) -/
  slot : Option Nat := none
  groups : List (Group × List Thread) := []
  /-- the quay processor: its threads, its notice, the queued kicks of the context -/
  quay : Option QpImage := none
  /-- the blocks at slot offset 0x12_0000 that the device image has been written to, each with its mark (DESIGN CHOICE, log 52) -/
  image : List (Nat × Nat) := []
  deriving DecidableEq, Repr

/-- The state of an L1 copy (R253). -/
inductive LineSt | shared | owned
  deriving DecidableEq, Repr

/-- Where a translation ends (R268, R313, R350). A device address is stack · 2^38 + offset. -/
inductive Target
  | device (addr : Nat)
  | host (addr : Nat)
  | fabric (pkg gpa : Nat)
  deriving DecidableEq, Repr

/-- An L1 line (R252, R346). Byte i of the line is bits [8i + 7:8i] of `data`. -/
structure L1Line where
  core : Nat
  ctx : Nat
  line : Nat
  st : LineSt := .shared
  sealed : Bool := false
  /-- the GPA of the line, its home address, and the translation its bytes are written back with -/
  gpa : Nat := 0
  home : Target := .device 0
  key : Nat := 0
  ce : Bool := false
  vf : Nat := 0
  valid : BitVec 128 := 0
  dirty : BitVec 128 := 0
  data : BitVec 1024 := 0
  deriving DecidableEq, Repr

/-- A cached combined translation (R271). `llt` is the last-level TLB of the die of `core`. -/
structure TlbEntry where
  llt : Bool
  core : Nat
  ctx : Nat
  vf : Nat
  base : Nat
  size : Nat
  target : Target
  gpa : Nat
  key : Nat
  ce : Bool
  r : Bool
  w : Bool
  x : Bool
  w1 : Bool
  x1 : Bool
  /-- the ranges that the stage-1 and the stage-2 entries behind it cover, in bytes (R215) -/
  s1 : Nat := 4096
  s2 : Nat := 2097152
  deriving DecidableEq, Repr

/-- A block descriptor (R286). -/
structure Desc where
  zf : Bool := false
  owned : Bool := false
  vf : Nat := 0
  run : BitVec 31 := 0
  fb : Bool := false
  scrub : Bool := false
  count : Nat := 0
  codec : Nat := 0
  /-- assigned under a name with D[43] = 1 (R313, R328) -/
  spread : Bool := false
  deriving DecidableEq, Repr

/-- A growth reservation (R295): of a core's L1, or of a frame (R396). -/
structure Resv where
  block : Nat
  vf : Nat
  holder : Nat ⊕ (Nat × Nat)
  r : Nat
  deriving DecidableEq, Repr

/-- Where a block of a frame lies, as it translated when the frame was allocated or at its last write (R396). -/
structure FrameBlock where
  ctx : Nat
  frame : Nat
  /-- virtual address / 512 -/
  block : Nat
  target : Target
  gpa : Nat
  key : Nat
  ce : Bool
  vf : Nat
  deriving DecidableEq, Repr

/-- A seal entry of a die (R259), and a seal that waits for one (R128). -/
structure SealEntry where
  die : Nat
  ctx : Nat
  base : Nat
  lg : Nat
  copies : Nat := 0
  deriving DecidableEq, Repr

structure SealWait where
  ctx : Nat
  base : Nat
  lg : Nat
  dies : List Nat
  lanes : List LaneId
  deriving DecidableEq, Repr

structure UnsealWait where
  ctx : Nat
  base : Nat
  lg : Nat
  lanes : List LaneId
  deriving DecidableEq, Repr

/-- A level barrier (R203, R204): `inst` is the core, quad, die or package number, or the gang. -/
structure Barrier where
  level : Nat
  inst : Nat
  ctx : Nat
  slot : Nat
  registered : List (Nat × Nat) := []
  arrived : List (Nat × Nat) := []
  generation : Nat := 0
  /-- pod level at the coordinator: (package, arrived, registered) and the merged notice -/
  pods : List (Nat × Nat × Nat) := []
  podNotice : Notice := {}
  deriving DecidableEq, Repr

/-- A launch in progress (R320, R364). -/
structure Launch where
  id : Nat
  queue : QueueId
  ctx : Nat
  remaining : Nat
  cpla : Word := 0
  irq : Bool := false
  /-- roots not yet released, with T and the gang of a timed launch -/
  timed : Option (Word × Nat) := none
  frames : List Nat := []
  slot : Nat := 0
  deriving DecidableEq, Repr

/-- A fault record (R276) with what the device keeps for its replay. -/
structure FaultRec where
  src : Nat
  width : Nat := 0
  sub : Nat := 0
  cause : Nat
  fva : Word := 0
  ifa : Word := 0
  gpa : Word := 0
  lanes : BitVec 64 := 0
  info : Word := 0
  ctx : Nat := 0
  qt : Nat := 0
  berth : Nat := 0
  core : Nat := 0
  index : Nat := 0
  deriving DecidableEq, Repr

/-- The counters of a VF and a stack (R293). -/
structure Counters where
  used : Nat := 0
  grant : Nat := 0
  rsv : Nat := 0
  pool : Nat := 0
  rlow : Nat := 0
  rtarget : Nat := 0
  burst : Nat := 0
  guar : Nat := 0
  lostwb : Nat := 0
  btarget : Nat := 0
  evt : Bool := false
  /-- a reserve-low event is posted and rsv has not reached rlow again (R298) -/
  posted : Bool := false
  deriving DecidableEq, Repr

/-- A launch queue's registers (R315). -/
structure Queue where
  base : Word := 0
  host : Bool := false
  en : Bool := false
  lg : Nat := 4
  tail : BitVec 32 := 0
  head : BitVec 32 := 0
  cpl : BitVec 32 := 0
  err : Nat := 0
  stop : Bool := false
  /-- the set-codebook record at the head has been read when this many matrix operations had been issued (R186, R318) -/
  cbkSeq : Option Nat := none
  deriving DecidableEq, Repr

/-- A packet of an inbound posted write: bytes of one 128-byte line, not yet acknowledged by its home (R345, R351,
R353). -/
structure InPacket where
  req : Requester
  /-- GPA of the line -/
  line : Nat
  mask : BitVec 128
  data : BitVec 1024
  /-- the posted write it belongs to, in the order of arrival at the ordering point -/
  write : Nat
  /-- a reduce-write's operation -/
  red : Option Nat := none
  /-- the fabric packet that is to be acknowledged -/
  reply : Option Packet := none
  /-- no write of its own but the place of a discard: the next GPA, and how many blocks are left (R300) -/
  discard : Option (Nat × Nat) := none
  deriving DecidableEq, Repr

/-- A virtual function: its translation block, its own register space, its ordering point, its interface state. -/
structure Vf where
  weight : Nat := 1
  en : Bool := false
  part : Nat := 0
  s2base : Word := 0
  gpab : Nat := 21
  sdbusy : Bool := false
  lbase : Word := 0
  logOvf : Bool := false
  logEn : Bool := false
  logLg : Nat := 10
  lwr : BitVec 32 := 0
  lrd : BitVec 32 := 0
  fen : Bool := false
  ftag : Nat := 0
  counters : SMap Counters := []
  cmdAddr : Word := 0
  cmdResult : Nat := 0
  cmdDesc : Word := 0
  masks : SMap (BitVec 22) := []
  occSel : Nat := 0
  mquota : Nat := 0
  mused : Nat := 0
  fqbase : Word := 0
  fqEn : Bool := false
  fqLg : Nat := 4
  fqWr : BitVec 32 := 0
  fqRp : BitVec 32 := 0
  mlost : Nat := 0
  /-- records that wait inside the device, and written records not yet replayed -/
  fqWaiting : List FaultRec := []
  fqLive : List FaultRec := []
  dgpa : Word := 0
  dcount : BitVec 32 := 0
  dprog : BitVec 32 := 0
  dstat : Nat := 0
  queues : SMap Queue := []
  epoch : Nat := 0
  current : Notice := {}
  previous : Notice := {}
  inbound : List InPacket := []
  tdisp : Tdisp := .unlocked
  session : Bool := false
  deriving DecidableEq, Repr

/-- A partition block (R311, R250). -/
structure Partition where
  ocr : Nat := 128
  shape : Nat := 0
  mode : Bool := false
  margin : BitVec 128 := 0
  lent : BitVec 128 := 0
  oper : BitVec 128 := 0
  dflt : Nat := 2
  lim : Nat := 6
  tq : Nat := 1000
  detail : Nat := 0
  status : Nat := 0
  /-- islands lent to this partition -/
  borrowed : BitVec 128 := 0
  /-- the islands that a revoke takes back, until they have returned (R327) -/
  taking : Option (BitVec 128) := none
  /-- a merge (true) or split whose steps have begun (R328) -/
  joining : Option Bool := none
  /-- per priority, the VF that the round-robin serves and how many tasks it may still place (R322) -/
  turns : SMap (Nat × Nat) := []
  deriving DecidableEq, Repr

/-- A key slot (R342): its owner (none for slot 0) and its key. -/
structure KeySlot where
  owner : Option Nat
  key : BitVec 512
  /-- which loading of a key this is -/
  gen : Nat := 0
  deriving DecidableEq, Repr

/-- A stack-cache line (R329 to R334); its data is the home's plaintext. -/
structure ScLine where
  stack : Nat
  slice : Nat
  set : Nat
  way : Nat
  off : Nat
  vf : Nat
  tc : Nat
  dirty : Bool := false
  moored : Bool := false
  /-- the context that moored it -/
  moorCtx : Nat := 0
  /-- the key under which its plaintext was decoded or written: its loading and its value (R290, R291) -/
  mark : Nat × BitVec 512 := (0, 0)
  /-- the plaintext itself, where the block has been rewritten for another VF since (R291, R329, R334) -/
  held : Option (BitVec 1024) := none
  used : Int
  deriving DecidableEq, Repr

/-- The tideline block (R358 to R361). Time is kept in units of 2^-16 ns. -/
structure Tide where
  now : Nat := 0
  frac : BitVec 16 := 0
  state : Nat := 0
  en : Bool := false
  p2p : Bool := false
  transport : Nat := 0
  domain : Nat := 0
  offset : BitVec 64 := 0
  good : Nat := 0
  everLocked : Bool := false
  /-- tideline at the last accepted Sync, the loss of lock, the last usable beacon, the start -/
  lastSync : Nat := 0
  lostAt : Nat := 0
  lastBeacon : Option Nat := none
  /-- what slewing still has to take away or add, in the same unit -/
  slew : Int := 0
  deriving DecidableEq, Repr

/-- A gang entry (R362). -/
structure Gang where
  valid : Bool := false
  coord : Nat := 0
  master : Nat := 0
  gid : Nat := 0
  gstate : Nat := 0
  members : BitVec 512 := 0
  lastT : Word := 0
  nstrag : BitVec 32 := 0
  sv : Bool := false
  strag : Nat := 0
  /-- whether the gang is in, also while a switch is pending -/
  isIn : Bool := false
  /-- when the next time beacon is due (R373) -/
  beaconAt : Nat := 0
  deriving DecidableEq, Repr

/-- What the context image of a full spill holds behind its first 32 bytes (R375); the spec gives it no format. -/
structure Image where
  ctx : Nat
  gid : Nat
  t : Word
  tasks : List Task := []
  waiting : List (Nat × Nat) := []
  layouts : SMap (BitVec 1024) := []
  seals : List (Nat × Nat) := []
  barriers : List Barrier := []
  /-- timeline value of each core's QP -/
  timelines : List (Nat × Nat) := []
  /-- the core images, with their rows -/
  cores : List Spilled := []
  /-- the block of device memory in which it begins, with its mark (R324) -/
  mark : Option (Nat × Nat) := none
  /-- codebook marks: even core, slot, bytes -/
  codebook : List (Nat × Nat × BitVec 256) := []
  deriving DecidableEq, Repr

/-- An accepted gang switch (R365 to R372). -/
structure Switch where
  t : Word
  gout : Nat
  gin : Nat
  full : Bool
  restore : Bool
  irq : Bool
  rpt : Word
  port : Nat
  acted : Option Nat := none
  barrier : Bool := false
  beacon : Bool := false
  reportSent : Bool := false
  reports : List Nat := []
  timedOut : Bool := false
  strag : Bool := false
  sdone : Bool := false
  rdone : Bool := false
  deriving DecidableEq, Repr

/-- A fabric transaction whose answer is outstanding (R349): who waits for it. -/
structure Pending where
  ttag : Nat
  packet : Packet
  lane : Option LaneId := none
  core : Nat := 0
  ctx : Nat := 0
  copy : Option Nat := none
  /-- the access: address of L and effective address -/
  ifa : Word := 0
  fva : Word := 0
  bytes : Nat := 8
  signed : Bool := false
  off : Nat := 0
  /-- the bytes of the line that the L1 held when the read was sent -/
  own : BitVec 128 := 0
  ownData : BitVec 1024 := 0
  /-- the GPA of the access -/
  agpa : Nat := 0
  /-- an atomic or an `ld.d.ext`: it acts in its thread's order, and in lane order within its instruction (R137, R242); the
  instruction it belongs to -/
  ordered : Bool := false
  batch : Nat := 0
  /-- the line has been invalidated since it was asked for: the answer leaves no copy (R240, R258) -/
  stale : Bool := false
  /-- key slot, compress-enable and VF with which a late access to device memory is made -/
  key : Nat := 0
  ce : Bool := false
  vf : Nat := 0
  deriving DecidableEq, Repr

/-- A fabric or PCIe link (R348). -/
structure Link where
  retraining : Bool := false
  replays : Nat := 0
  deriving DecidableEq, Repr

/-- A repair proposal (R379, R391). -/
structure Proposal where
  id : Nat
  kind : Nat
  unit : FaultUnit
  state : Nat := 0
  count : Nat
  first : Word
  deriving DecidableEq, Repr

/-- The harbourmaster: mailbox, events, non-volatile store, power (R378 to R391). -/
structure Hm where
  req : SMap Byte := []
  rsp : SMap Byte := []
  seq : BitVec 32 := 0
  status : Nat := 0
  evbase : Word := 0
  evlg : Nat := 8
  evwr : BitVec 32 := 0
  evrd : BitVec 32 := 0
  evlost : Nat := 0
  /-- corrected errors, with the tideline of each (ns), newest first -/
  errors : List (FaultUnit × Nat) := []
  proposals : List Proposal := []
  spares : List (Nat × FaultUnit) := []
  retiredPairs : List Nat := []
  failedWarm : Nat := 0
  trained : Bool := false
  cap : Nat := 2600
  islands : SMap Nat := []
  routes : SMap Byte := []
  pkgid : Nat := 0
  podid : Nat := 0
  latency : SMap Nat := []
  discards : Nat := 0
  /-- the partial image, the stored image, the start's measurements and the fused minimum version -/
  fwPart : Option (Nat × List Byte) := none
  fwImage : List Byte := []
  /-- SPDM measurement 1, the boot ROM's version, and 2, the digest of the image (R384) -/
  measured1 : BitVec 384 := 0
  measured : BitVec 384 := 0
  fused : Option (BitVec 32) := none
  recovery : Bool := false
  /-- a warm start has failed: the package has stopped (R382) -/
  stopped : Bool := false
  deriving DecidableEq, Repr

/-- What leaves the package. -/
inductive Output
  | msixPf (port : Nat)
  | msixVf (port vf : Nat)
  | post (addr : Nat) (bytes : List Byte)
  | packet (p : Packet)
  | completion (status : Nat) (bytes : List Byte)
  | atomicToHost (addr : Nat) (op : AtomOp) (isCas dbl : Bool) (v w : Word) (tag : Nat)
  | readHost (addr len tag : Nat)
  | stop (ctx : Nat) (rep : StopReport)
  | doe (code status : Nat)
  /-- a PRI page request (R268, R339) -/
  | pageRequest (vf page : Nat)
  deriving DecidableEq, Repr

/-- A pending shoot-down (R272): the lanes that wait for it, or the VF's register. -/
structure Shootdown where
  kind : Nat
  ctx : Nat
  vf : Nat
  addr : Nat
  lanes : List LaneId := []
  register : Bool := false
  /-- copies that held a removed translation: (core, number) -/
  copies : List (Nat × Nat) := []
  /-- accesses that translated before it and are not performed yet, by their tags -/
  pends : List Nat := []
  /-- at its end, the slots that the VF owns are erased (R343) -/
  erase : Bool := false
  deriving DecidableEq, Repr

/-- What the picker or the quay processor has picked: an instruction issues for these lanes (R229, R166). -/
structure Issue where
  core : Nat
  quay : Bool
  ctx : Nat
  pc : Word
  lanes : List LaneId
  deriving DecidableEq, Repr

/-- The machine. -/
structure State where
  issue : Option Issue := none
  agenda : List Instr := []
  freeCount : Nat := 0
  threads : List Thread := []
  groups : List Group := []
  tasks : List Task := []
  /-- tasks in the dispatcher, oldest first: (context, frame) -/
  waiting : List (Nat × Nat) := []
  ctxs : List Ctx := []
  cores : SMap Core := []
  spilled : List Spilled := []
  /-- spilled bytes that wait for a page of host memory: core, context, address (R268, R324) -/
  lateSpills : List (Nat × Nat × Nat × List Byte) := []
  l1 : List L1Line := []
  tlb : List TlbEntry := []
  mem : SMap Byte := []
  descs : SMap Desc := []
  /-- the key (its loading and its value) that a block was last written under -/
  blockKeys : SMap (Nat × BitVec 512) := []
  keyGens : Nat := 1
  undecodable : List Nat := []
  /-- uncorrectable errors that are to come, with their time, and those that have struck (R377, R380) -/
  strikes : List (Nat × Config.Strike) := []
  struck : List Config.Strike := []
  /-- lines of device memory whose homes answer late now (R37, R262) -/
  slow : List Nat := []
  /-- lines that a frame's threads have written and that its notice does not name yet: context, frame, line (R240, R255); a
  core's quay threads stand under `quayFrame` -/
  wrote : List (Nat × Nat × Nat) := []
  /-- the instruction that accesses memory now, by the last tag before it (R137) -/
  batch : Nat := 0
  /-- blocks whose reservation on a core the instruction in progress needs: core, block (R126) -/
  holding : List (Nat × Nat) := []
  /-- lines that instruction fetch holds (R33, R35) -/
  code : List L1Line := []
  /-- where the blocks of allocated frames lie (R396), and where a frame move has put a block (R279) -/
  frameMap : List FrameBlock := []
  moved : SMap Nat := []
  /-- per 8-byte unit, the last write that the home performed, where it was no plain store (R237) -/
  lastWrites : SMap WriteKind := []
  resvs : List Resv := []
  free : SMap Nat := []
  seals : List SealEntry := []
  sealWaits : List SealWait := []
  unsealWaits : List UnsealWait := []
  barriers : List Barrier := []
  launches : List Launch := []
  launchIds : Nat := 0
  vfs : SMap Vf := []
  pfQueues : SMap Queue := []
  parts : SMap Partition := []
  keys : SMap (Option KeySlot) := []
  /-- NumVFs of the physical functions of ports 0 and 1 (R340, DESIGN CHOICE, log 23) -/
  numVfs : Nat × Nat := (1024, 0)
  sc : List ScLine := []
  scClock : Int := 0
  tide : Tide := {}
  gangs : SMap Gang := []
  /-- context images in spill areas (R375) -/
  images : List Image := []
  switches : List Switch := []
  releases : List (Nat × Word) := []
  /-- reports of other members on switches whose record is not accepted here yet (R368) -/
  earlyReports : List Packet := []
  /-- inbound posted writes that have arrived at the ordering points (R345) -/
  inWrites : Nat := 0
  pendings : List Pending := []
  ttags : Nat := 0
  heldPackets : List Packet := []
  /-- requests from outside that wait: a shoot-down behind another (R267), reads, atomics and discards behind posted
  writes (R300, R345) -/
  deferred : List Instr := []
  /-- children from other packages whose frame is not granted yet (R193) -/
  spawnHeld : List Packet := []
  links : SMap Link := []
  hotRows : List (Nat × Nat × Nat) := []
  shootdowns : List Shootdown := []
  matSeq : Nat := 0
  seqOrder : Nat := 0
  hm : Hm := {}
  hostMem : SMap Byte := []
  /-- what the host's own processors write to host memory: from this tideline nanosecond on, these bytes there -/
  hostWrites : List (Nat × Nat × List Byte) := []
  ats : List (Nat × Nat) := []
  priRefused : List (Nat × Nat) := []
  /-- host pages that are missing, and those of them that have been requested (R268, R339) -/
  hostMissing : List (Nat × Nat) := []
  priAsked : List (Nat × Nat) := []
  /-- steps that could be taken and were passed over, and how often each still may be (R223, R232) -/
  passes : List (Instr × Nat) := []
  starts : Nat := 0
  out : List Output := []
  deriving DecidableEq, Repr

/-- Sectors of a stack (R285). -/
abbrev stackSectors : Nat := 1610612736

/-- The default of each map. -/
abbrev Core.init : Core := {}
abbrev Vf.init : Vf := {}
abbrev Desc.init : Desc := {}
abbrev Counters.init : Counters := {}
abbrev Queue.init : Queue := {}

/-- A partition block after a start: block 0 holds the package (R310, R311). -/
def Partition.init (p : Nat) : Partition := { shape := if p = 0 then 3 else 0 }

/-- What a byte of device memory reads as when nothing is listed: every block is zero codec after the full scrub (R382). -/
abbrev memDefault : Byte := 0

/-- The machine after its first start, at power-on (R4, R382): a cold start has stored its training results and has measured
the shipped image, of which the spec prints nothing (PRESUMED, log 19); nothing else is in the non-volatile store (R11). -/
def State.reset : State where
  keys := [(0, some { owner := none, key := Config.startKey 0, gen := 1 })]
  hm := { trained := true, measured1 := Config.romVersion, measured := Config.digest384 [] }
  strikes := Config.strikes

/-- The memory's canonical form: addresses strictly rising, no entry equal to what an unlisted address reads as. -/
def Memory.wf (m : SMap Byte) : Bool := SMap.wf memDefault m

end Sys2Proof.Machine
end

