-- ==== Sys2Proof/Machine/Access.lean ====
section
/-! DEFINITION. Reading and writing the parts of the state: tables of records, a thread's registers and windows,
notices, the ring, free values. -/

namespace Sys2Proof.Machine

/-! ### Tables -/

/-- The first record that `p` picks becomes `a`; where there is none, `a` is added at the end. -/
def upsert {α : Type} (p : α → Bool) (a : α) : List α → List α
  | [] => [a]
  | b :: t => if p b then a :: t else b :: upsert p a t

/-- Whether `l` lists `a`. -/
def has {α : Type} [DecidableEq α] (l : List α) (a : α) : Bool := l.any (fun x => decide (x = a))

/-- `a` at the end of `l`, once. -/
def addOnce {α : Type} [DecidableEq α] (l : List α) (a : α) : List α := if has l a then l else l ++ [a]

/-- `n`-th element of a list. -/
def nth? {α : Type} : List α → Nat → Option α
  | [], _ => none
  | a :: _, 0 => some a
  | _ :: t, n + 1 => nth? t n

/-- How many of the low `n` bits are set. -/
def popCount {w : Nat} (x : BitVec w) : Nat → Nat
  | 0 => 0
  | n + 1 => popCount x n + if x.getLsbD n then 1 else 0

/-- `n` bytes of a number, least significant first (R3). -/
def toBytes (v : Nat) : Nat → List Byte
  | 0 => []
  | n + 1 => BitVec.ofNat 8 (v % 256) :: toBytes (v / 256) n

/-- The number that bytes hold, least significant first (R3). -/
def ofBytes : List Byte → Nat
  | [] => 0
  | b :: t => b.toNat + 256 * ofBytes t

/-- Bits `[hi:lo]` of a number. -/
def bits (v hi lo : Nat) : Nat := v / 2 ^ lo % 2 ^ (hi + 1 - lo)

/-- `n` consecutive keys of a byte map. -/
def readMap (d : Byte) (m : SMap Byte) (a : Nat) : Nat → List Byte
  | 0 => []
  | n + 1 => SMap.get d m a :: readMap d m (a + 1) n

def writeMap (d : Byte) (m : SMap Byte) (a : Nat) : List Byte → SMap Byte
  | [] => m
  | b :: t => writeMap d (SMap.set d m a b) (a + 1) t

/-! ### Lookups -/

def State.coreAt (s : State) (c : Nat) : Core := SMap.get Core.init s.cores c
def State.setCore (s : State) (c : Nat) (k : Core) : State := { s with cores := SMap.set Core.init s.cores c k }
def State.modCore (s : State) (c : Nat) (f : Core → Core) : State := s.setCore c (f (s.coreAt c))

def State.vf (s : State) (v : Nat) : Vf := SMap.get Vf.init s.vfs v
def State.setVf (s : State) (v : Nat) (x : Vf) : State := { s with vfs := SMap.set Vf.init s.vfs v x }
def State.modVf (s : State) (v : Nat) (f : Vf → Vf) : State := s.setVf v (f (s.vf v))

def State.part (s : State) (p : Nat) : Partition := SMap.get (Partition.init p) s.parts p
def State.setPart (s : State) (p : Nat) (x : Partition) : State :=
  { s with parts := SMap.set (Partition.init p) s.parts p x }

def State.desc (s : State) (b : Nat) : Desc := SMap.get Desc.init s.descs b
def State.setDesc (s : State) (b : Nat) (d : Desc) : State := { s with descs := SMap.set Desc.init s.descs b d }

def State.freeAt (s : State) (st : Nat) : Nat := SMap.get stackSectors s.free st
def State.setFree (s : State) (st n : Nat) : State := { s with free := SMap.set stackSectors s.free st n }

def State.cnt (s : State) (v st : Nat) : Counters := SMap.get Counters.init (s.vf v).counters st
def State.setCnt (s : State) (v st : Nat) (c : Counters) : State :=
  s.modVf v fun x => { x with counters := SMap.set Counters.init x.counters st c }

/-- The key slot's contents; none for an empty slot (R342). -/
def State.key? (s : State) (slot : Nat) : Option KeySlot := SMap.get none s.keys slot

def noThread (id : LaneId) : Thread := { id := id, ctx := 0, pc := 0, wait := .exited }

def State.thread (s : State) (id : LaneId) : Thread :=
  (s.threads.find? fun t => decide (t.id = id)).getD (noThread id)

def State.putThread (s : State) (t : Thread) : State :=
  { s with threads := upsert (fun u => decide (u.id = t.id)) t s.threads }

def State.modThread (s : State) (id : LaneId) (f : Thread → Thread) : State :=
  s.putThread { f (s.thread id) with id := id }

def State.group? (s : State) (core berth : Nat) : Option Group :=
  s.groups.find? fun g => g.core == core && g.berth == berth

def State.putGroup (s : State) (g : Group) : State :=
  { s with groups := upsert (fun h => h.core == g.core && h.berth == g.berth) g s.groups }

def State.dropGroup (s : State) (core berth : Nat) : State :=
  { s with
    groups := s.groups.filter fun g => !(g.core == core && g.berth == berth)
    threads := s.threads.filter fun t => !(t.id.core == core && t.id.berth == berth) }

def State.task? (s : State) (ctx frame : Nat) : Option Task :=
  s.tasks.find? fun t => t.ctx == ctx && t.frame == frame

def State.putTask (s : State) (t : Task) : State :=
  { s with tasks := upsert (fun u => u.ctx == t.ctx && u.frame == t.frame) t s.tasks }

def State.dropTask (s : State) (ctx frame : Nat) : State :=
  { s with tasks := s.tasks.filter fun t => !(t.ctx == ctx && t.frame == frame) }

def State.ctx? (s : State) (id : Nat) : Option Ctx := s.ctxs.find? fun c => c.id == id

def State.putCtx (s : State) (c : Ctx) : State := { s with ctxs := upsert (fun d => d.id == c.id) c s.ctxs }

def State.vfOf (s : State) (ctx : Nat) : Nat := ((s.ctx? ctx).map (·.vf)).getD 0

/-- The active block of the partition that a VF lies in: its own block, or the block that has absorbed it (R309, R310,
R328). -/
def State.vfPart (s : State) (v : Nat) : Nat :=
  let b := (s.vf v).part
  if (s.part b).shape ≠ 0 then b else if (s.part (b / 2 * 2)).shape ≠ 0 then b / 2 * 2 else 0

/-- The partition block of a context's VF (R309). -/
def State.partOf (s : State) (ctx : Nat) : Nat := s.vfPart (s.vfOf ctx)

/-- The task whose threads a berth runs. -/
def State.taskOf? (s : State) (core berth : Nat) : Option Task :=
  match s.group? core berth with
  | none => none
  | some g => s.task? g.ctx g.frame

def State.output (s : State) (o : Output) : State := { s with out := s.out ++ [o] }

/-- Bytes of host memory that are written anew are sound. -/
def soundHost (a n : Nat) (l : List Config.Strike) : List Config.Strike :=
  l.filter fun x => match x with
    | .host u => !(decide (a / 8 ≤ u) && decide (u * 8 < a + n))
    | _ => true

/-- Whether host memory holds an error in one of `n` bytes (R380). -/
def State.hostBad (s : State) (a n : Nat) : Bool :=
  s.struck.any fun x => match x with
    | .host u => decide (a / 8 ≤ u) && decide (u * 8 < a + n)
    | _ => false

/-- A posted write to host memory. -/
def State.post (s : State) (a : Nat) (bs : List Byte) : State :=
  { s with hostMem := writeMap 0 s.hostMem a bs, struck := soundHost a bs.length s.struck, out := s.out ++ [.post a bs] }

def State.gang (s : State) (i : Nat) : Gang := SMap.get {} s.gangs i

/-! ### Gangs (R362, R363) -/

/-- The gang id of the sending context (R349, R363). -/
def State.gidOf (s : State) (ctx : Nat) : Nat := ((s.ctx? ctx).map (·.gang)).getD 0

/-- The valid entry of a gang identifier; 0 names no gang. -/
def State.gangEntry (s : State) (gid : Nat) : Option (Nat × Gang) :=
  if gid = 0 then none else s.gangs.find? fun p => p.2.valid && p.2.gid == gid

def State.gangMembers (s : State) (gid : Nat) : List Nat :=
  match s.gangEntry gid with
  | none => []
  | some g => (List.range 512).filter g.2.members.getLsbD

/-- Whether the context's gang is in, or it has none. -/
def State.gangIn (s : State) (ctx : Nat) : Bool :=
  let gid := s.gidOf ctx
  gid == 0 || ((s.gangEntry gid).map fun g => g.2.isIn).getD true

/-! ### Free values and open choices -/

/-- An open choice among `n`; with one candidate or none there is nothing to choose. -/
def State.pickNat (s : State) (n : Nat) : Nat × State :=
  if n ≤ 1 then (0, s)
  else (Config.freeChoice s.freeCount % n, { s with freeCount := s.freeCount + 1 })

/-- One of the candidates, which one is left open. -/
def State.choose {α : Type} (s : State) (l : List α) : Option α × State :=
  let p := s.pickNat l.length
  (nth? l p.1, p.2)

/-! ### Free stretches (R222, R292) -/

/-- Free stretches between allocated ones, as (first, length); `ivs` in ascending order. -/
def gaps (lo hi : Nat) : List (Nat × Nat) → List (Nat × Nat)
  | [] => if lo < hi then [(lo, hi - lo)] else []
  | (a, n) :: t => if lo < a then (lo, a - lo) :: gaps (max lo (a + n)) hi t else gaps (max lo (a + n)) hi t

def insertIv (p : Nat × Nat) : List (Nat × Nat) → List (Nat × Nat)
  | [] => [p]
  | q :: t => if p.1 ≤ q.1 then p :: q :: t else q :: insertIv p t

/-- How many pieces of `g` units the gaps hold. -/
def fits (g : Nat) (gs : List (Nat × Nat)) : Nat := gs.foldl (fun n p => n + p.2 / g) 0

/-- The `k`-th place of `g` units in the gaps. -/
def placeAt (g : Nat) : List (Nat × Nat) → Nat → Option Nat
  | [], _ => none
  | (a, n) :: t, k => if n < g then placeAt g t k else if k < n - g + 1 then some (a + k) else placeAt g t (k - (n - g + 1))

/-- Places for `n` pieces of `g` units in [lo, hi): each one of those that leave room for the rest. -/
def State.places (s : State) (lo hi g : Nat) (ivs : List (Nat × Nat)) : Nat → List Nat × State
  | 0 => ([], s)
  | n + 1 =>
    let gs := gaps lo hi ivs
    let total := gs.foldl (fun m p => m + (p.2 + 1 - g)) 0
    let c := s.pickNat total
    let tight := (placeAt g gs 0).getD lo
    let p := (placeAt g gs c.1).getD tight
    let p := if n ≤ fits g (gaps lo hi (insertIv (p, g) ivs)) then p else tight
    let r := c.2.places lo hi g (insertIv (p, g) ivs) n
    (p :: r.1, r.2)

/-! ### Registers (R17, R18, R21) -/

def Thread.phys (t : Thread) (r : Reg) : Nat := if r.toNat < 16 then r.toNat else t.wb + (r.toNat - 16)

def Thread.physAt (t : Thread) (p : Nat) : Word := SMap.get 0 t.regs p

/-- x[r]: x0 reads as zero (R17). -/
def Thread.rd (t : Thread) (r : Reg) : Word := if r = 0 then 0 else t.physAt (t.phys r)

/-- Write a physical register; a write to p0 is discarded. -/
def Thread.setPhys (t : Thread) (p : Nat) (v : Word) : Thread :=
  if p = 0 then t else { t with regs := SMap.set 0 t.regs p v }

/-- The write of an instruction: it cancels the results of open windows that are bound to the same physical
register (R37, R93). -/
def Thread.cancel (t : Thread) (p : Nat) : Thread :=
  { t with windows := t.windows.map fun w => if w.phys = p then { w with cancelled := true } else w }

def Thread.wr (t : Thread) (r : Reg) (v : Word) : Thread :=
  if r = 0 then t else (t.cancel (t.phys r)).setPhys (t.phys r) v

/-- The two registers of a pair field; a field that holds 0 reads as zero in both (R22, R98, R139). -/
def Thread.rdLo (t : Thread) (r : Reg) : Word := t.rd r
def Thread.rdHi (t : Thread) (r : Reg) : Word := if r = 0 then 0 else t.rd (r + 1)

def Thread.wrPair (t : Thread) (r : Reg) (lo hi : Word) : Thread :=
  if r = 0 then t else (t.wr r lo).wr (r + 1) hi

/-! ### Write-notices (R256) -/

def lineOf (a : Nat) : Nat := a / 128

def h1 (l : Nat) : Nat := (Nat.xor (Nat.xor (Nat.xor l (l / 2 ^ 10)) (l / 2 ^ 20)) (l / 2 ^ 30)) % 1024
def h2 (l : Nat) : Nat := (Nat.xor (Nat.xor (l / 2 ^ 3) (l / 2 ^ 16)) (l / 2 ^ 29)) % 1024

def bitAt {w : Nat} (n : Nat) : BitVec w := BitVec.ofNat w (2 ^ n)

/-- Add a line: nothing if listed; else the lowest free entry; else the signature. -/
def Notice.add (n : Notice) (l : Nat) : Notice :=
  if has n.list l then n
  else if n.list.length < 8 then { n with list := n.list ++ [l] }
  else { n with sig := n.sig ||| bitAt (h1 l) ||| bitAt (h2 l) }

def Notice.addAll (n : Notice) (ls : List Nat) : Notice := ls.foldl Notice.add n

def Notice.merge (a b : Notice) : Notice :=
  let c := a.addAll b.list
  { c with sig := c.sig ||| b.sig }

/-- Every line is named when more than 512 signature bits are set (R258). -/
def Notice.all (n : Notice) : Bool := !(n.sig == 0) && decide (512 < popCount n.sig 1024)

def Notice.names (n : Notice) (l : Nat) : Bool :=
  has n.list l || (n.sig.getLsbD (h1 l) && n.sig.getLsbD (h2 l))

/-- A notice that names every line. -/
def Notice.full : Notice := { sig := BitVec.allOnes 1024 }

/-! ### Cores (R11) -/

def dieOf (core : Nat) : Nat := core / 32
/-- The `coreid` of a core (R11). -/
def coreid (core : Nat) : Word := BitVec.ofNat 64 (core % 32)
def leaderOf (core : Nat) : Nat := core / 2 * 2
def isLeader (core : Nat) : Bool := core % 2 == 0
def quadOf (core : Nat) : Nat := core / 4

/-- The dies of a partition block of this shape (R310). -/
def shapeDies (p shape : Nat) : List Nat :=
  let n := if shape = 1 then 2 else if shape = 2 then 4 else if shape = 3 then 8 else 0
  (List.range n).map (2 * p + ·)

def State.partDies (s : State) (p : Nat) : List Nat := shapeDies p (s.part p).shape

/-- The cores on which a partition's groups can run: its own less those lent out, and those lent to it (R217, R326). -/
def State.partCores (s : State) (p : Nat) : List Nat :=
  let b := s.part p
  let ds := s.partDies p
  (List.range 256).filter fun c =>
    let isl := c / 2
    !(s.coreAt c).retired && ((has ds (dieOf c) && !b.lent.getLsbD isl) || b.borrowed.getLsbD isl)

/-- The number of no context. -/
abbrev noCtx : Nat := 2 ^ 64

/-! ### Readiness and the ring (R228, R231) -/

def Ctx.runs (c : Ctx) : Bool := c.stopped.isNone && c.dbg == 0

def State.ctxRuns (s : State) (ctx : Nat) : Bool := ((s.ctx? ctx).map Ctx.runs).getD false

def State.groupRuns (s : State) (core berth : Nat) : Bool :=
  ((s.group? core berth).map fun g => !g.halted).getD false

def State.isReady (s : State) (t : Thread) : Bool :=
  decide (t.wait = .ready) && s.ctxRuns t.ctx && s.groupRuns t.id.core t.id.berth

def joinRing (ctx : Nat) (pc : Word) (id : LaneId) : List RingEntry → List RingEntry
  | [] => [{ ctx := ctx, pc := pc, lanes := [id], isOpen := true }]
  | e :: t =>
    if e.isOpen && e.ctx == ctx && decide (e.pc = pc) then { e with lanes := e.lanes ++ [id] } :: t
    else e :: joinRing ctx pc id t

def leaveRing (id : LaneId) (r : List RingEntry) : List RingEntry :=
  (r.map fun e => { e with lanes := e.lanes.filter fun x => !decide (x = id) }).filter fun e => !e.lanes.isEmpty

def inRing (id : LaneId) (r : List RingEntry) : Bool := r.any fun e => has e.lanes id

/-- The entry of threads that have executed `yield` accepts no others (R228). -/
def closedEntry (ctx : Nat) (pc : Word) (ids : List LaneId) : RingEntry := { ctx := ctx, pc := pc, lanes := ids, isOpen := false }

/-- Whether a thread that is ready has no entry yet. Quay threads are picked by the quay processor and join no ring (R231). -/
def State.joins (s : State) (id : LaneId) : Bool :=
  decide (id.berth < quayBerth) && s.isReady (s.thread id) && !inRing id (s.coreAt id.core).ring

/-- A thread that is ready joins the oldest open entry with its context and PC, or a new one; after `yield` it makes a
closed entry (R228). -/
def State.join (s : State) (id : LaneId) : State :=
  let t := s.thread id
  if s.joins id then
    s.modCore id.core fun k =>
      { k with ring := if t.yielded then k.ring ++ [closedEntry t.ctx t.pc [id]] else joinRing t.ctx t.pc id k.ring }
  else s

def State.leave (s : State) (id : LaneId) : State :=
  s.modCore id.core fun k => { k with ring := leaveRing id k.ring }

/-- Make a thread ready. -/
def State.ready (s : State) (id : LaneId) : State :=
  (s.modThread id fun t => { t with wait := .ready }).join id

/-- Lane order (R119): ascending berth, then `tid`. -/
def laneLe (a b : LaneId) : Bool :=
  decide (a.core < b.core) || (a.core == b.core && (decide (a.berth < b.berth) || (a.berth == b.berth && decide (a.tid ≤ b.tid))))

def insertLane (a : LaneId) : List LaneId → List LaneId
  | [] => [a]
  | b :: t => if laneLe a b then a :: b :: t else b :: insertLane a t

def sortLanes : List LaneId → List LaneId
  | [] => []
  | a :: t => insertLane a (sortLanes t)

/-- Threads of one context that have executed `yield` at one PC make one closed entry (R228). -/
def State.joinYielded (s : State) (ids : List LaneId) : State :=
  let key (i : LaneId) : Nat × Nat × Word := (i.core, (s.thread i).ctx, (s.thread i).pc)
  ((ids.map key).eraseDups).foldl (fun s k =>
    s.modCore k.1 fun c => { c with ring := c.ring ++ [closedEntry k.2.1 k.2.2 (ids.filter fun i => decide (key i = k))] }) s

/-- Threads that become ready in the same cycle join in lane order (R228). -/
def State.joinAll (s : State) (ids : List LaneId) : State :=
  let ls := sortLanes ids
  let together (i : LaneId) : Bool := (s.thread i).yielded
  let s' := (ls.filter fun i => !together i).foldl State.join s
  let ys := ls.filter fun i => together i && s.joins i
  if ys.isEmpty then s' else s'.joinYielded ys

/-- Threads that an instruction has made ready join in lane order, those for which it issued among them (R228); `old` is the state
before it. -/
def State.rejoin (s old : State) : State :=
  let ids := (s.threads.filter fun t =>
    s.isReady t && decide (t.id.berth < quayBerth) && !inRing t.id (old.coreAt t.id.core).ring).map (·.id)
  (ids.foldl State.leave s).joinAll ids

def State.readyAll (s : State) (ids : List LaneId) : State :=
  (ids.foldl (fun s i => s.modThread i fun t => { t with wait := .ready }) s).joinAll ids

/-- Whether the thread's group is halted in place (R323). -/
def State.haltedIn (s : State) (t : Thread) : Bool := ((s.group? t.id.core t.id.berth).map (·.halted)).getD false

/-- A `signal` that a halted group issued before the halt, and whose stamps have still to be written (R323, R368). -/
def State.signalling (s : State) (t : Thread) : Bool := decide (t.wait = .stalled .stamps) && s.haltedIn t && s.ctxRuns t.ctx

def Wait.isStalled : Wait → Bool
  | .stalled _ => true
  | _ => false

/-- Change a thread of a context, resident or spilled (R323, R367). -/
def State.modLane (s : State) (id : LaneId) (ctx : Nat) (f : Thread → Thread) : State :=
  if (s.threads.any fun t => decide (t.id = id) && t.ctx == ctx) then s.modThread id f
  else
    let one (t : Thread) : Thread := if decide (t.id = id) && t.ctx == ctx then { f t with id := id } else t
    { s with spilled := s.spilled.map fun x : Spilled =>
      if x.core == id.core && x.ctx == ctx then
        { x with
          groups := x.groups.map fun p => (p.1, p.2.map one)
          quay := x.quay.map fun q : QpImage => { q with threads := q.threads.map one } }
      else x }

/-- The threads of a context, resident or spilled. -/
def State.threadsOf (s : State) (ctx : Nat) : List Thread :=
  (s.threads.filter fun t => t.ctx == ctx) ++
    (s.spilled.filter fun x => x.ctx == ctx).flatMap fun x => x.groups.flatMap (·.2)

/-- The threads of a group. -/
def State.groupThreads (s : State) (core berth : Nat) : List Thread :=
  s.threads.filter fun t => t.id.core == core && t.id.berth == berth

/-- A context stops with an error that is reported to the host: its threads issue nothing from now on. -/
def State.stopCtx (s : State) (ctx : Nat) (rep : StopReport) : State :=
  match s.ctx? ctx with
  | none => s
  | some c =>
    let s := s.putCtx { c with stopped := some ((c.stopped).getD rep) }
    let s := s.cores.foldl (fun s p => s.modCore p.1 fun k => { k with ring := k.ring.filter fun e => !(e.ctx == ctx) }) s
    s.output (.stop ctx rep)

/-- The port that presents a VF (R340); the model counts one that no port presents with port 1 (DESIGN CHOICE, log 23). -/
def State.vfPort (s : State) (v : Nat) : Nat := if v < s.numVfs.1 then 0 else 1

/-- The package serves no request but FW_WRITE, in recovery mode (R385), or but the mailbox's, where a start has failed (R382). -/
def State.deaf (s : State) : Bool := s.hm.recovery || s.hm.stopped

/-- Whether a port presents the VF at all (R340), to a host that is served (R382, R385). -/
def State.presented (s : State) (v : Nat) : Bool := !s.deaf && decide (v < s.numVfs.1 + s.numVfs.2)

/-- MSI-X of a VF, of the physical function of a port (R275, R389). -/
def State.msixVf (s : State) (v : Nat) : State := if s.presented v then s.output (.msixVf (s.vfPort v) v) else s
def State.msixPf (s : State) (port : Nat) : State := s.output (.msixPf port)

/-- An event of the harbourmaster (R389): byte 0 the kind, the tideline at 0x08, the data at 0x10. When the ring is
full, the oldest unread event is overwritten and byte 1 of the event counts the lost ones. -/
def State.event (s : State) (kind d0 d1 : Nat) : State :=
  let h := s.hm
  let n := 2 ^ h.evlg
  let fullRing := (h.evwr - h.evrd).toNat ≥ n
  let lost := if fullRing then h.evlost + 1 else h.evlost
  let bs := toBytes (kind + 256 * (lost % 256)) 8 ++ toBytes (s.tide.now / 65536) 8 ++ toBytes d0 8 ++ toBytes d1 8
  let s := { s with hm := { h with evwr := h.evwr + 1, evlost := lost } }
  (s.post (h.evbase.toNat + 32 * (h.evwr.toNat % n)) bs).msixPf 0

/-- Whole nanoseconds of the tideline (R358). -/
def State.tlNow (s : State) : Nat := s.tide.now / 65536

end Sys2Proof.Machine
end

