-- ==== Sys2Proof/Machine/Codec.lean ====
section
/-! DEFINITION. The lossless codecs of a 512-byte block (R287 to R289): encoded sizes, streams and their decoding. -/

namespace Sys2Proof.Machine

/-! ### Exponent-shared BF16 (R288) -/

/-- The 16-bit values of bytes. -/
def halves : List Byte → List Nat
  | a :: b :: t => (a.toNat + 256 * b.toNat) :: halves t
  | _ => []

def expOf (v : Nat) : Nat := bits v 14 7

/-- Groups of 16 values, `n` of them. -/
def groupsOf : Nat → List Nat → List (List Nat)
  | 0, _ => []
  | n + 1, l => l.take 16 :: groupsOf n (l.drop 16)

def minOf (l : List Nat) : Nat := l.foldl (fun m v => min m (expOf v)) 255

def groupHolds (g : List Nat) : Bool := g.all fun v => decide (expOf v ≤ minOf g + 7)

/-- Whether the exponent-shared codec can hold the block. -/
def esHolds (bs : List Byte) : Bool := (groupsOf 16 (halves bs)).all groupHolds

/-- One value's 11 bits: fraction, exponent minus m, sign. -/
def esCode (m v : Nat) : Nat := v % 128 + 128 * (expOf v - m) + 1024 * (v / 32768 % 2)
def esValue (m c : Nat) : Nat := c % 128 + 128 * (m + c / 128 % 8) + 32768 * (c / 1024 % 2)

/-- A group's 184 bits as a number: m, then the sixteen codes. -/
def esGroup (g : List Nat) : Nat :=
  let m := minOf g
  m + 256 * (g.foldr (fun v acc => esCode m v + 2048 * acc) 0)

def esUngroup : Nat → Nat → Nat → List Nat
  | 0, _, _ => []
  | n + 1, m, x => esValue m (x % 2048) :: esUngroup n m (x / 2048)

/-- The stream of R288 as one number, bit 0 first. -/
def esStream (bs : List Byte) : Nat :=
  (groupsOf 16 (halves bs)).foldr (fun g acc => esGroup g + 2 ^ 184 * acc) 0

def esDecodeGo : Nat → Nat → List Nat
  | 0, _ => []
  | n + 1, x =>
    let g := x % 2 ^ 184
    esUngroup 16 (g % 256) (g / 256) ++ esDecodeGo n (x / 2 ^ 184)

def esDecode (x : Nat) : List Byte := (esDecodeGo 16 x).flatMap fun v => toBytes v 2

/-! ### Saffron (R289) -/

/-- The nibbles of bytes, the low one first. -/
def nibbles (bs : List Byte) : List Nat := bs.flatMap fun b => [b.toNat % 16, b.toNat / 16]

def unnibble : List Nat → List Byte
  | a :: b :: t => BitVec.ofNat 8 (a + 16 * b) :: unnibble t
  | _ => []

def countOf (l : List Nat) (v : Nat) : Nat := l.foldl (fun n x => if x = v then n + 1 else n) 0

/-- Insert by descending count, equal counts by ascending value. -/
def rank (p : Nat × Nat) : List (Nat × Nat) → List (Nat × Nat)
  | [] => [p]
  | q :: t => if q.2 < p.2 ∨ (q.2 = p.2 ∧ p.1 < q.1) then p :: q :: t else q :: rank p t

/-- The sixteen nibble values with their counts, most frequent first. -/
def ranking (ns : List Nat) : List (Nat × Nat) :=
  (List.range 16).foldl (fun l v => rank (v, countOf ns v) l) []

/-- The index width ⌈log₂ k⌉. -/
def indexWidth (k : Nat) : Nat := if k ≤ 1 then 0 else if k ≤ 2 then 1 else if k ≤ 4 then 2 else 3

/-- bits(k). -/
def saffronBits (r : List (Nat × Nat)) (total k : Nat) : Nat :=
  let inD := (r.take k).foldl (fun n p => n + p.2) 0
  4 + 4 * k + inD * (1 + indexWidth k) + (total - inD) * 5

/-- The smallest k from 1 to 8 that minimises bits(k), with bits(k). -/
def saffronBest (ns : List Nat) : Nat × Nat :=
  let r := ranking ns
  let n := ns.length
  [2, 3, 4, 5, 6, 7, 8].foldl (fun b k => if saffronBits r n k < b.2 then (k, saffronBits r n k) else b)
    (1, saffronBits r n 1)

def bitsLsb : Nat → Nat → List Bool
  | 0, _ => []
  | n + 1, v => (v % 2 == 1) :: bitsLsb n (v / 2)

def ofBitsLsb : List Bool → Nat
  | [] => 0
  | b :: t => (if b then 1 else 0) + 2 * ofBitsLsb t

def indexIn (v : Nat) : List Nat → Option Nat
  | [] => none
  | a :: t => if a = v then some 0 else (indexIn v t).map (· + 1)

def saffronCode (k : Nat) (dict : List Nat) (n : Nat) : List Bool :=
  match indexIn n dict with
  | some i => false :: bitsLsb (indexWidth k) i
  | none => true :: bitsLsb 4 n

/-- The stream of R289. -/
def saffronStream (ns : List Nat) : List Bool :=
  let k := (saffronBest ns).1
  let dict := ((ranking ns).take k).map (·.1)
  bitsLsb 4 (k - 1) ++ dict.flatMap (bitsLsb 4) ++ ns.flatMap (saffronCode k dict)

/-- Take `n` bits; bits beyond the end are zero. -/
def takeBits (n : Nat) (l : List Bool) : Nat × List Bool := (ofBitsLsb (l.take n), l.drop n)

def takeNibbles : Nat → List Bool → List Nat × List Bool
  | 0, l => ([], l)
  | n + 1, l =>
    let p := takeBits 4 l
    let q := takeNibbles n p.2
    (p.1 :: q.1, q.2)

/-- `n` codes. The spec does not say what an index beyond the dictionary names, which only sectors that no coder wrote can hold: it is nibble 0
here, and a header with k above 8 has indices of three bits (DESIGN CHOICE, log 177). -/
def saffronCodes (k : Nat) (dict : List Nat) : Nat → List Bool → List Nat
  | 0, _ => []
  | n + 1, l =>
    match l with
    | true :: t =>
      let p := takeBits 4 t
      p.1 :: saffronCodes k dict n p.2
    | _ =>
      let p := takeBits (indexWidth k) (l.drop 1)
      (nth? dict p.1).getD 0 :: saffronCodes k dict n p.2

/-- The decoder reads exactly `n` codes and never reports an error. -/
def saffronDecode (n : Nat) (l : List Bool) : List Nat :=
  let p := takeBits 4 l
  let k := p.1 + 1
  let d := takeNibbles k p.2
  saffronCodes k d.1 n d.2

/-! ### The choice of codec (R287) -/

structure Encoding where
  codec : Nat
  size : Nat
  fb : Bool
  deriving DecidableEq, Repr

/-- The codec with the smallest encoded size; ties go to the first of zero, exponent-shared, saffron, raw. -/
def encodeBlock (bs : List Byte) : Encoding :=
  if bs.all (fun b => decide (b = 0)) then ⟨0, 0, false⟩
  else
    let es := esHolds bs
    let sf := (saffronBest (nibbles bs)).2
    let sfe := (sf + 511) / 512
    if es then (if sfe < 6 then ⟨2, sfe, false⟩ else ⟨1, 6, false⟩)
    else if sfe ≤ 7 then ⟨2, sfe, true⟩
    else ⟨3, 8, true⟩

end Sys2Proof.Machine
end

