-- ==== Sys2Proof/Machine/Home.lean ====
section
/-! DEFINITION. The homes: the address map, what a read of a block returns, and the one indivisible step that performs
a write: merge, encode, settle, log, evaluate the waiting `waitge` conditions. Also the stack caches' lines. -/

namespace Sys2Proof.Machine

/-! ### The address map (R313, R314) -/

def blockOf (a : Nat) : Nat := a / 512
def stackOf (a : Nat) : Nat := a / 2 ^ 38
def blockStack (b : Nat) : Nat := stackOf (b * 512)

/-- A 44-bit device-physical address under a partition, as stack · 2^38 + offset; none where the map has no place. -/
def State.mapDevice (s : State) (p D : Nat) : Option Nat :=
  let sts := s.partDies p
  let place (st o : Nat) : Option Nat := if has sts st && decide (o < 192 * 2 ^ 30) then some (st * 2 ^ 38 + o) else none
  if D / 2 ^ 43 % 2 = 0 then
    if bits D 42 41 = 0 then place (bits D 40 38) (D % 2 ^ 38) else none
  else
    let n := sts.length
    if n = 0 then none
    else
      let g := D % 2 ^ 43 / 2048
      place ((nth? sts 0).getD 0 + g % n) (g / n * 2048 + D % 2048)

/-! ### Stage-2 entries (R268) -/

def flag (e n : Nat) : Bool := e / 2 ^ n % 2 == 1
def e2Key (e : Nat) : Nat := bits e 63 52
def e2Class (e : Nat) : Nat := bits e 8 7
def e2Addr (e : Nat) : Nat := bits e 51 21 * 2 ^ 21

/-- Where the stage-2 entry of a GPA lies. -/
def State.entryAddr (s : State) (v gpa : Nat) : Option Nat :=
  s.mapDevice (s.vfPart v) ((s.vf v).s2base.toNat + 8 * (gpa / 2 ^ 21))

/-! ### Reading (R290, R291) -/

/-- A key: its loading and its value. -/
abbrev KeyMark := Nat × BitVec 512

/-- The key of a slot; an empty slot has none. -/
def State.keyMark (s : State) (slot : Nat) : KeyMark :=
  match s.key? slot with
  | some k => (k.gen, k.key)
  | none => (0, 0)

/-- The keys, where a block is read under another key than it was written under. -/
def State.otherKey (s : State) (k : KeyMark) (b : Nat) : Option (BitVec 512 × BitVec 512) :=
  let w := SMap.get (0, 0) s.blockKeys b
  if w.1 = 0 || k.1 == 0 || k.1 == w.1 || decide (k.2 = w.2) then none else some (w.2, k.2)

/-- The byte that the home decodes under a key. -/
def State.byteUnder (s : State) (k : KeyMark) (a : Nat) : Byte :=
  let d := s.desc (blockOf a)
  if !d.owned || d.scrub || d.zf || d.codec == 0 then 0
  else
    match s.otherKey k (blockOf a) with
    | none => SMap.get memDefault s.mem a
    | some k => Config.freeByte a k.1 k.2 (ofBytes (readMap memDefault s.mem (blockOf a * 512) 512))

/-- The byte that the home returns for a read under a key slot, when no stack-cache line is hit. -/
def State.homeByte (s : State) (slot a : Nat) : Byte := s.byteUnder (s.keyMark slot) a

def State.homeBytes (s : State) (slot a : Nat) : Nat → List Byte
  | 0 => []
  | n + 1 => s.homeByte slot a :: s.homeBytes slot (a + 1) n

/-- The stack-cache line of a VF that holds an address: its tag holds no key (R329). -/
def State.scHit (s : State) (v a : Nat) : Option ScLine :=
  s.sc.find? fun l => l.vf == v && l.stack == stackOf a && l.off == a % 2 ^ 38 / 128 * 128

/-- The key under which the access of a VF meets a line. -/
def State.viewMark (s : State) (v slot a : Nat) : KeyMark := ((s.scHit v a).map (·.mark)).getD (s.keyMark slot)

/-- The byte that a read of a VF under a key slot returns: a hit is served from the line's plaintext (R291). -/
def State.viewByte (s : State) (v slot a : Nat) : Byte :=
  match (s.scHit v a).bind (·.held) with
  | some d => BitVec.ofNat 8 (d.toNat / 2 ^ (8 * (a % 128)))
  | none => s.byteUnder (s.viewMark v slot a) a

def State.viewBytes (s : State) (v slot a : Nat) : Nat → List Byte
  | 0 => []
  | n + 1 => s.viewByte v slot a :: s.viewBytes v slot (a + 1) n

/-- Whether the block's sectors cannot be decoded (R380, R381). -/
def State.bad (s : State) (a : Nat) : Bool := has s.undecodable (blockOf a)

/-! ### The stack cache (R329 to R331) -/

def sliceOf (o : Nat) : Nat := Nat.xor (o / 2 ^ 17) (o / 2 ^ 26) % 512
def setOf (o : Nat) : Nat := bits o 12 7

/-- What an access does: 0 reads, 1 writes, 2 is an atomic. -/
def scPolicy (mask : BitVec 22) (kind : Nat) : Nat :=
  if kind = 0 then bits mask.toNat 17 16 else if kind = 1 then bits mask.toNat 19 18 else bits mask.toNat 21 20

def sameSc (a b : ScLine) : Bool := a.stack == b.stack && a.slice == b.slice && a.set == b.set && a.way == b.way

def leastUsed (l : List ScLine) : Option ScLine :=
  l.foldl (fun m x => match m with | none => some x | some y => if x.used < y.used then some x else some y) none

/-- A moored line of another VF is retagged or dropped as any other is; its place returns to that VF (R329, DEDUCED, log 67). -/
def State.unmoor (s : State) (l : ScLine) : State :=
  if l.moored then s.modVf l.vf fun x => { x with mused := x.mused - 1 } else s

/-- The access of a VF in a traffic class, under a key, to the line that holds `a`: hit, retag, fill or no fill. -/
def State.scAccess (s : State) (v tc kind a : Nat) (key : KeyMark) : State :=
  let st := stackOf a
  let off := a % 2 ^ 38 / 128 * 128
  let slice := sliceOf off
  let set := setOf off
  let mask := SMap.get (0xffff : BitVec 22) (s.vf v).masks tc
  let pol := scPolicy mask kind
  let allocs := pol == 0 || pol == 2
  let inMask (w : Nat) : Bool := decide (w < 16) && mask.getLsbD w
  let now := s.scClock
  let here := s.sc.filter fun l => l.stack == st && l.slice == slice && l.set == set
  let low := ((leastUsed here).map fun l => l.used - 1).getD (now - 1)
  let mark := if pol = 2 then low else now
  let s := { s with scClock := now + 1 }
  let put (l : ScLine) (s : State) : State := { s with sc := upsert (sameSc l) l s.sc }
  let fill (s : State) : State :=
    if !allocs then s
    else
      let taken := s.sc.filter fun l => l.stack == st && l.slice == slice && l.set == set
      let emptyWay := (List.range 16).find? fun w => inMask w && !(taken.any fun l => l.way == w)
      let line (w : Nat) : ScLine :=
        { stack := st, slice := slice, set := set, way := w, off := off, vf := v, tc := tc, dirty := kind != 0, used := mark, mark := key }
      match emptyWay with
      | some w => put (line w) s
      | none =>
        match leastUsed (taken.filter fun l => inMask l.way && !l.moored) with
        | some l => put (line l.way) s
        | none => s
  match here.find? fun l => l.off == off with
  | some l =>
    if l.vf = v then
      put { l with used := now, dirty := l.dirty || kind != 0, mark := if kind = 0 then l.mark else key } s
    else if inMask l.way && allocs then
      put { l with vf := v, tc := tc, dirty := kind != 0, used := mark, moored := false, mark := key, held := none } (s.unmoor l)
    else fill ({ s with sc := s.sc.filter fun x => !sameSc l x }.unmoor l)
  | none => fill s

/-! ### Counters (R293, R294, R298) -/

def Counters.held (c : Counters) : Nat := c.used + c.grant + c.rsv + c.pool

/-- The refill of R294. -/
def Counters.refill (c : Counters) : Counters :=
  let m := if c.rsv < c.rtarget then min c.pool (c.rtarget - c.rsv) else 0
  { c with pool := c.pool - m, rsv := c.rsv + m }

/-- The three things a reserve-low event does (R298). -/
def State.reserveLow (s : State) (v st : Nat) : State :=
  let s := s.setCnt v st { s.cnt v st with evt := true, posted := decide ((s.cnt v st).rsv < (s.cnt v st).rlow) }
  (s.msixVf v).event 1 v st

/-- One indivisible change of the counters of a VF and a stack, with the refill and the event. -/
def State.adjust (s : State) (v st : Nat) (f : Counters → Counters) : State :=
  let c := s.cnt v st
  let c' := (f c).refill
  let c' := if c'.rlow ≤ c'.rsv then { c' with posted := false } else c'
  let s := s.setCnt v st c'
  if c'.rsv < c'.rlow ∧ c.rlow ≤ c.rsv ∧ ¬ c'.posted then s.reserveLow v st else s

/-! ### Reservations (R126, R295, R296) -/

abbrev Holder := Nat ⊕ (Nat × Nat)

def State.resv? (s : State) (b : Nat) (h : Holder) : Option Resv :=
  s.resvs.find? fun r => r.block == b && decide (r.holder = h)

/-- A request of 8 − count(B) sectors: granted whole or refused (R126). -/
def State.grantGrowth (s : State) (v b : Nat) (h : Holder) : Option State :=
  let q := 8 - (s.desc b).count
  let st := blockStack b
  if q ≤ (s.cnt v st).rsv then
    let s := s.adjust v st fun c => { c with rsv := c.rsv - q, grant := c.grant + q }
    some { s with resvs := s.resvs ++ [{ block := b, vf := v, holder := h, r := q }] }
  else none

/-- Whether a write of this holder to the block needs growth first (R126). -/
def State.needsGrowth (s : State) (ce : Bool) (b : Nat) (h : Holder) : Bool := ce && (s.resv? b h).isNone

/-- The reservation ends: what is left of it goes back to rsv. -/
def State.endResv (s : State) (b : Nat) (h : Holder) : State :=
  match s.resv? b h with
  | none => s
  | some r =>
    let s := { s with resvs := s.resvs.filter fun x => !(x.block == b && decide (x.holder = h)) }
    s.adjust r.vf (blockStack b) fun c => { c with rsv := c.rsv + r.r, grant := c.grant - r.r }

/-- A block with no reservation keeps no more sectors than its encoding needs (R296). -/
def State.trim (s : State) (b e : Nat) : State :=
  let d := s.desc b
  if (s.resvs.any fun r => r.block == b) || d.count ≤ e then s
  else
    let n := d.count - e
    let s := s.setDesc b { d with count := e, run := if e = 0 then 0 else d.run }
    s.adjust d.vf (blockStack b) fun c => { c with pool := c.pool + n, used := c.used - n }

/-- The encoded size of a block as it stands. -/
def State.encodedSize (s : State) (b : Nat) : Nat :=
  let d := s.desc b
  if d.codec = 0 then 0 else if d.codec = 1 then 6 else if d.codec = 3 then 8
  else (encodeBlock (readMap memDefault s.mem (b * 512) 512)).size

/-- A writeback that writes no bytes ends a reservation (R296, R396). -/
def State.releaseResv (s : State) (b : Nat) (h : Holder) : State := (s.endResv b h).trim b (s.encodedSize b)

/-! ### The dirty-page log (R283, R284) -/

def State.logDirty (s : State) (v gpa : Nat) : State :=
  let x := s.vf v
  if !x.logEn || x.logOvf then s
  else if (x.lwr - x.lrd).toNat + 1 > 2 ^ x.logLg then s.setVf v { x with logOvf := true }
  else
    (s.setVf v { x with lwr := x.lwr + 1 }).post (x.lbase.toNat + 8 * (x.lwr.toNat % 2 ^ x.logLg)) (toBytes (gpa / 4096) 8)

/-! ### The evaluation of `waitge` at the home (R198, R237) -/

/-- A released continuation waits in the dispatcher. It carries the edge of the write that satisfied it. It is a new task, as old as its
release (R198, R223, DEDUCED, log 175). -/
def State.releaseWait (s : State) (t : Task) (k : WriteKind) : State :=
  let t := { t with phase := .queuedCont, waitAt := none, place := .any }
  let t := match k with
    | .plain => t
    | .signal c n => if c = t.ctx then { t with notice := t.notice.merge n } else t
    | .stamp c n => if c = t.ctx then { t with notice := t.notice.merge n } else t
    | .inbound f => { t with owesExt := true, owesFabric := t.owesFabric || f }
  let s := s.putTask t
  { s with waiting := s.waiting ++ [(t.ctx, t.frame)] }

/-- A doubleword of an allocated frame's device parts, where they lie; none on another package. -/
def State.frameWord (s : State) (ctx frame va : Nat) : Option Nat :=
  (s.frameMap.find? fun f => f.ctx == ctx && f.frame == frame && f.block == va / 512).bind fun f =>
    match f.target with
    | .device a => some (ofBytes (s.viewBytes f.vf f.key (a + va % 512) 8))
    | .host a => some (ofBytes (readMap 0 s.hostMem (a + va % 512) 8))
    | .fabric _ _ => none

/-- Register `r` of the thread that fixed a continuation, as its save area holds it (R219). -/
def State.savedReg (s : State) (t : Task) (g : Agreed) (r : Nat) : Option Nat :=
  if r = 0 then some 0
  else s.frameWord t.ctx t.frame (t.frame + 256 + 8 * (g.wt * t.nreg + if r < 16 then r else g.wb + (r - 16)))

/-- The value that a `waitge` waits for: the home reads it from the save area (R219). -/
def State.waitValue (s : State) (t : Task) (g : Agreed) : Nat := (s.savedReg t g g.wv).getD g.value.toNat

/-- Whether a waiting task's condition holds now. -/
def State.waitHolds (s : State) (t : Task) : Bool :=
  match t.waitAt, t.agreed with
  | some p, some g =>
    decide (t.phase = .waiting) && t.pending == 0 &&
      decide (s.waitValue t g ≤ ofBytes (s.viewBytes (s.vfOf t.ctx) p.2 p.1 8))
  | _, _ => false

def waitsOn (t : Task) (units : List Nat) : Bool := (t.waitAt.map fun p => has units (p.1 / 8)).getD false

/-- The home remembers which write of a unit it performed last (R237). -/
def State.noteWrites (s : State) (units : List Nat) (k : WriteKind) : State :=
  { s with lastWrites := units.foldl (fun m u => SMap.set .plain m u k) s.lastWrites }

/-- The last write to the unit that a task's condition reads. -/
def State.lastWrite (s : State) (t : Task) : WriteKind :=
  match t.waitAt with
  | none => .plain
  | some p => SMap.get .plain s.lastWrites (p.1 / 8)

/-- Every write that reaches a home evaluates the conditions that wait on its units. -/
def State.evalWaits (s : State) (units : List Nat) (k : WriteKind) : State :=
  (s.tasks.filter fun t => waitsOn t units).foldl
    (fun s t => if s.waitHolds t then s.releaseWait t k else s) s

/-- A store to the stage-2 entry of a GPA of a VF, whose block is at `a`: its new home (R280 step 4). -/
def State.newHome (s : State) (units : List Nat) (v gpa a : Nat) : Option Nat :=
  (s.entryAddr v gpa).bind fun x =>
    if !has units (x / 8) then none
    else
      let e := ofBytes (s.homeBytes 0 x 8)
      if !flag e 0 || e2Class e == 3 then none
      else (s.mapDevice (s.vfPart v) (e2Addr e + gpa % 2 ^ 21)).bind fun b => if b = a then none else some b

/-- The old home hands a waiting condition to the new home, which evaluates it once there (R281). -/
def State.handWait (s : State) (units : List Nat) (t : Task) : State :=
  match t.waitAt with
  | none => s
  | some p =>
    match s.newHome units (s.vfOf t.ctx) t.waitGpa p.1 with
    | none => s
    | some b =>
      let t := { t with waitAt := some (b, p.2) }
      let s := s.putTask t
      if s.waitHolds t then s.releaseWait t (s.lastWrite t) else s

/-- Blocks of allocated frames are found where a new stage-2 entry puts them (R247, R396). -/
def State.handFrame (s : State) (units : List Nat) (f : FrameBlock) : FrameBlock :=
  match f.target with
  | .device a => match s.newHome units f.vf f.gpa a with
    | some b => { f with target := .device b }
    | none => f
  | _ => f

def State.handOver (s : State) (units : List Nat) : State :=
  let s := { s with frameMap := s.frameMap.map (s.handFrame units) }
  (s.tasks.filter fun t => t.waitAt.isSome).foldl (fun s t => s.handWait units t) s

/-! ### Writing (R292, R296, R297, R381) -/

/-- How a write is backed by sectors. -/
inductive Fund
  /-- the reservation of an L1 or a frame; the write ends it when `last` -/
  | resv (h : Holder) (last : Bool)
  /-- requested, used and ended in this one step (R295) -/
  | request
  /-- a writeback without a reservation (R297) -/
  | unreserved
  /-- a discard, which needs no growth (R300) -/
  | none
  deriving DecidableEq, Repr

/-- A write that reaches a home. All its bytes lie in one block. -/
structure HomeReq where
  vf : Nat
  gpa : Nat
  key : Nat
  ce : Bool
  tc : Nat := 0
  kind : WriteKind := .plain
  fund : Fund := .request
  /-- atomics have their own stack-cache policy -/
  atomic : Bool := false
  deriving DecidableEq, Repr

/-- The fate of a write. -/
inductive Fate | done | refused | lost
  deriving DecidableEq, Repr

/-- Put bytes into a block's plaintext. -/
def merge (base : Nat) (old : List Byte) (ws : List (Nat × Byte)) : List Byte :=
  (ws.foldl (fun m w => SMap.insert m (w.1 - base) w.2) (old.zipIdx.map fun p => (p.2, p.1))).map (·.2)

/-- The descriptor, once scrub and zf have been taken care of (R292). -/
def Desc.fresh (d : Desc) : Desc :=
  if d.scrub then { d with scrub := false, codec := 0, count := 0, run := 0, fb := false, zf := false }
  else { d with zf := false }

/-- The reservation of a write is used: `g` sectors leave its grant for the block. -/
def State.useGrant (s : State) (b : Nat) (h : Holder) (owner g : Nat) : State :=
  match s.resv? b h with
  | none => s
  | some r =>
    let st := blockStack b
    let s := { s with resvs := s.resvs.map fun x : Resv =>
      if x.block == b && decide (x.holder = h) then { x with r := x.r - g } else x }
    let s := s.adjust r.vf st fun c => { c with grant := c.grant - g }
    s.adjust owner st fun c => { c with used := c.used + g }

def State.endOf (s : State) (b : Nat) : Fund → State
  | .resv h true => s.endResv b h
  | _ => s

/-- A write takes `g` sectors for the block, out of its reservation or out of the reserve of its VF (R296, R297). Without an L1 the request,
its use and its end are one step, and the refill acts on what the step changes (R294, DESIGN CHOICE, log 176). -/
def State.takeSectors (s : State) (f : Fund) (v owner b g : Nat) : State :=
  match f with
  | .resv h _ => s.useGrant b h owner g
  | _ =>
    (s.adjust v (blockStack b) fun c => { c with rsv := c.rsv - g }).adjust owner (blockStack b) fun c => { c with used := c.used + g }

/-- The sectors of a stack that other blocks hold, as (first, count), ascending. -/
def State.liveRuns (s : State) (st b : Nat) : List (Nat × Nat) :=
  s.descs.foldl (fun l p =>
    if blockStack p.1 = st ∧ p.1 ≠ b ∧ 0 < p.2.count then insertIv (p.2.run.toNat, p.2.count) l else l) []

/-- A run of `n` free sectors for a block; which one the base die takes is open (R292, DESIGN CHOICE, log 13). -/
def State.freshRun (s : State) (b n : Nat) : BitVec 31 × State :=
  let r := s.places 0 stackSectors n (s.liveRuns (blockStack b) b) 1
  (BitVec.ofNat 31 ((nth? r.1 0).getD 0), r.2)

/-- The block's descriptor after the write; one that grows lies in another run. -/
def State.growDesc (s : State) (b g : Nat) (d : Desc) (e : Encoding) : State :=
  let c := max d.count e.size
  if g = 0 then s.setDesc b { d with codec := e.codec, fb := e.fb, count := c }
  else
    let r := s.freshRun b c
    r.2.setDesc b { d with codec := e.codec, fb := e.fb, count := c, run := r.1 }

def scIn (b : Nat) (l : ScLine) : Bool := l.stack == blockStack b && l.off / 512 == b * 512 % 2 ^ 38 / 512

/-- A stack-cache line of a VF that holds bytes of a block. -/
def scOf (v b : Nat) (l : ScLine) : Bool := l.vf == v && scIn b l

/-- Other VFs' stack-cache lines of a block keep the plaintext that they hold when the block is rewritten (R329, R334). -/
def State.holdLines (s : State) (v b : Nat) : State :=
  { s with sc := s.sc.map fun l : ScLine =>
      if scIn b l && l.vf != v && l.held.isNone then
        { l with held := some (BitVec.ofNat 1024 (ofBytes ((List.range 128).map fun j => s.byteUnder l.mark (l.stack * 2 ^ 38 + l.off + j)))) }
      else l }

/-- The bytes of the write stand in memory, under the key of its slot: all of the block's, where what stood there before no
longer counts. What the stack cache holds of the block for the VF is that plaintext too. -/
def State.putBytes (s : State) (vf key b : Nat) (whole : Bool) (new : List Byte) (ws : List (Nat × Byte)) : State :=
  let mark := s.keyMark key
  { s with
    sc := s.sc.map fun l : ScLine => if scOf vf b l then { l with mark := mark, held := none } else l
    mem := if whole then writeMap memDefault s.mem (b * 512) new else ws.foldl (fun m w => SMap.set memDefault m w.1 w.2) s.mem
    blockKeys := SMap.set (0, 0) s.blockKeys b mark
    undecodable := s.undecodable.filter (· != b) }

/-- What follows a write that has been performed: the end of its reservation, the stack cache, the log, the conditions that
wait for it. -/
def State.afterWrite (s : State) (q : HomeReq) (fund : Fund) (a size : Nat) (ws : List (Nat × Byte)) : State :=
  let b := blockOf a
  let s := (s.endOf b fund).trim b size
  let s := (s.scAccess q.vf q.tc (if q.atomic then 2 else 1) a (s.keyMark q.key)).logDirty q.vf q.gpa
  let units := (ws.map fun w => w.1 / 8).eraseDups
  ((s.noteWrites units q.kind).evalWaits units q.kind).handOver units

/-- Perform a write to the block that holds `a`. `refused`: no sectors back it, and nothing has changed. `lost`: it was
discarded. A write without an L1 through an entry with ce = 0 is settled as R297 settles such a writeback (DEDUCED, log 178). -/
def State.homeWrite (s : State) (q : HomeReq) (a : Nat) (ws : List (Nat × Byte)) : Fate × State :=
  let b := blockOf a
  let d := s.desc b
  let st := blockStack b
  let fund : Fund := match q.fund with
    | .resv h l => if (s.resv? b h).isSome then .resv h l else .unreserved
    | f => f
  if !d.owned then (.lost, s.endOf b fund)
  else if s.bad a && !decide (512 ≤ ws.length) then (.lost, (s.event 5 (b * 512) 0).endOf b fund)
  else
    let old := s.viewBytes q.vf q.key (b * 512) 512
    let new := merge (b * 512) old ws
    let enc : Encoding := if q.ce then encodeBlock new else ⟨3, 8, !esHolds new⟩
    let d0 := d.fresh
    let g := enc.size - d0.count
    let q8 := 8 - d0.count
    let short := decide ((s.cnt q.vf st).rsv < q8)
    if decide (fund = .request) && q.ce && short then (.refused, s)
    else if (decide (fund = .unreserved) || (decide (fund = .request) && !q.ce)) && decide (0 < g) && short then
      let s := s.adjust q.vf st fun c => { c with lostwb := min (c.lostwb + 1) (2 ^ 32 - 1) }
      (.lost, s.reserveLow q.vf st)
    else
      let whole := d.scrub || d.zf || d.codec == 0 || (s.otherKey (s.keyMark q.key) b).isSome || s.bad a ||
        s.sc.any fun l => scOf q.vf b l && (l.held.isSome || (s.otherKey l.mark b).isSome)
      let s := ((s.holdLines q.vf b).takeSectors fund q.vf d.vf b g).growDesc b g d0 enc
      (.done, (s.putBytes q.vf q.key b whole new ws).afterWrite q fund a enc.size ws)

end Sys2Proof.Machine
end

