-- ==== Sys2Proof/Machine/Translate.lean ====
section
/-! DEFINITION. Address translation: the flat stage 2 of a VF, the four-level stage 1 of a context, the TLBs. -/

namespace Sys2Proof.Machine

/-- What an access needs (R270). -/
inductive Acc | load | store | atomic | fetch
  deriving DecidableEq, Repr

/-- A translation fault: the subcause of R277 and the GPA of its record. -/
structure TFail where
  sub : Nat
  gpa : Word
  deriving DecidableEq, Repr

/-- No fault: the access waits for a page of host memory that has been requested (R268, R339); no subcause of R277 is
above 255. -/
abbrev pageWait : Nat := 256

/-- "all ones if stage 1 failed" (R276). -/
abbrev noGpa : Word := BitVec.allOnes 64

/-- Where an access ends, with what its write needs. -/
structure Trans where
  target : Target
  gpa : Nat
  key : Nat
  ce : Bool
  vf : Nat
  deriving DecidableEq, Repr

/-- A stage-2 entry as it applies to a range of `size` bytes that contains the GPA. -/
structure S2 where
  /-- device-physical or host I/O address of the GPA itself -/
  addr : Nat
  cls : Nat
  key : Nat
  ce : Bool
  r : Bool
  w : Bool
  x : Bool
  size : Nat
  /-- the range that the entries behind it cover -/
  span : Nat
  deriving DecidableEq, Repr

/-- Eight bytes of device memory, as a walk of a VF reads them. -/
def State.readTable (s : State) (v slot a : Nat) : Nat := ofBytes (s.viewBytes v slot a 8)


/-- Whether a valid entry keeps to the table of R268 and to R313 and R342. -/
def State.e2Legal (s : State) (v e : Nat) : Bool :=
  let p := s.vfPart v
  let c := e2Class e
  let D := e2Addr e
  let hi := D / 2 ^ 43 % 2
  let keyOk := match s.key? (e2Key e) with
    | none => false
    | some k => k.owner.isNone || decide (k.owner = some v)
  bits e 20 12 == 0 && bits e 10 9 == 0 && bits e 5 4 == 0 && keyOk &&
  if c = 3 then !flag e 6
  else
    decide (D < 2 ^ 44) && (c != 1 || hi == 0) && (c != 2 || hi == 1) &&
    (c != 0 || (hi == 1) == (s.part p).mode) &&
    (s.mapDevice p D).isSome && (s.mapDevice p (D + 2 ^ 21 - 1)).isSome

/-- The fields in which the entries of a run group agree (R269). -/
def e2Same (a b : Nat) : Bool :=
  e2Key a == e2Key b && e2Class a == e2Class b && flag a 6 == flag b 6 && flag a 3 == flag b 3 &&
  flag a 2 == flag b 2 && flag a 1 == flag b 1

def e2Range (e addr size span : Nat) : S2 :=
  { addr := addr, cls := e2Class e, key := e2Key e, ce := flag e 6, r := flag e 1, w := flag e 2, x := flag e 3, size := size,
    span := span }

/-- Of the 64 entries of a stage-2 array that lie in one block, from index `i` on, those with run = 1, as (index, entry). -/
def State.e2Block (s : State) (v i : Nat) : List (Nat × Nat) :=
  match s.mapDevice (s.vfPart v) ((s.vf v).s2base.toNat + 8 * i) with
  | none => []
  | some a =>
    let d := s.desc (blockOf a)
    if !d.owned || d.scrub || d.zf || d.codec == 0 then []
    else (List.range 64).filterMap fun j =>
      if (s.viewByte v 0 (a + 8 * j + 1)).getLsbD 3 then some (i + j, s.readTable v 0 (a + 8 * j)) else none

/-- The entries of the aligned group of 512 that holds index `i` and that have v = 1 and run = 1; the array has 2^(gpab - 21) entries
(R268). -/
def State.runGroup (s : State) (v i : Nat) : List (Nat × Nat) :=
  (List.range 8).flatMap fun b => (s.e2Block v (i / 512 * 512 + 64 * b)).filter fun p => flag p.2 0 && decide (p.1 < 2 ^ ((s.vf v).gpab - 21))

/-- Whether the run entries `es` of a group form one 1 GiB range (R269). -/
def runConsistent (es : List (Nat × Nat)) : Bool :=
  match es with
  | [] => false
  | p :: _ => es.length == 512 && e2Addr p.2 % 2 ^ 30 == 0 &&
      es.all fun q => e2Same q.2 p.2 && e2Addr q.2 == e2Addr p.2 + 2 ^ 21 * (q.1 - p.1)

/-- Stage 2 of a VF (R268, R269). The error is the subcause. -/
def State.stage2 (s : State) (v gpa : Nat) : Except Nat S2 × State :=
  let x := s.vf v
  if 2 ^ x.gpab ≤ gpa then (.error 3, s)
  else
    let i := gpa / 2 ^ 21
    let place := s.entryAddr v gpa
    let e := (place.map (s.readTable v 0)).getD 0
    let s := match place with
      | some a => s.scAccess v 3 0 a (s.viewMark v 0 a)
      | none => s
    let own : Except Nat S2 :=
      if !flag e 0 || !s.e2Legal v e then .error 4 else .ok (e2Range e (e2Addr e + gpa % 2 ^ 21) (2 ^ 21) (2 ^ 21))
    match s.runGroup v i with
    | [] => (own, s)
    | es =>
      if runConsistent es then
        (match own with
         | .ok o => .ok { o with size := 2 ^ 30, span := 2 ^ 30 }
         | .error f => .error f, s)
      else
        let others := (es.filter fun p => s.e2Legal v p.2 && decide (2 ^ 21 * (p.1 % 512) ≤ e2Addr p.2)).map fun p =>
          (Except.ok (e2Range p.2 (e2Addr p.2 - 2 ^ 21 * (p.1 % 512) + gpa % 2 ^ 30) (2 ^ 21) (2 ^ 30)) : Except Nat S2)
        let c := s.choose (own :: others)
        (c.1.getD own, c.2)

/-- The result of stage 1: GPA of the access, permissions, size of the page or block. -/
structure S1 where
  gpa : Nat
  w : Bool
  x : Bool
  size : Nat
  deriving DecidableEq, Repr

def e1Addr (e : Nat) : Nat := bits e 41 12 * 4096

/-- Reserved bits, ch and tb of an entry of a level (R265). -/
def e1Legal (level e : Nat) : Bool :=
  let table := flag e 1
  bits e 63 42 == 0 && bits e 11 5 == 0 && (level == 3 || !flag e 2) && ((level != 0 && level != 3) || table) &&
  (level != 1 || table || e1Addr e % 2 ^ 30 == 0) && (level != 2 || table || e1Addr e % 2 ^ 21 == 0)

/-- One table entry: its GPA goes through stage 2 and must have its home on the package (R264). The home address and the
key slot under which it is read. -/
def State.walkRead (s : State) (v gpa : Nat) : Except TFail (Nat × Nat) × State :=
  match s.stage2 v gpa with
  | (.error _, s) => (.error ⟨8, BitVec.ofNat 64 gpa⟩, s)
  | (.ok e, s) =>
    if e.cls = 3 || !e.r then (.error ⟨8, BitVec.ofNat 64 gpa⟩, s)
    else
      match s.mapDevice (s.vfPart v) e.addr with
      | none => (.error ⟨8, BitVec.ofNat 64 gpa⟩, s)
      | some a => (.ok (a, e.key), s)

/-- The entries with ch = 1 among the 16 of the 64 KiB group whose table bytes lie in the line of `a`. -/
def State.walkGroup (s : State) (v key a : Nat) : List (Nat × Nat) :=
  (List.range 16).filterMap fun j =>
    let x := a / 128 * 128 + 8 * j
    if (s.viewByte v key x).getLsbD 2 then some (j, s.readTable v key x) else none

/-- What the entries of a 64 KiB group that have ch = 1 offer to an access (R266); `own` is what its own entry gives. -/
def State.chooseCh (s : State) (va : Nat) (es : List (Nat × Nat)) (own : Except TFail S1) : Except TFail S1 × State :=
  let chs := es.filter fun p => flag p.2 0 && e1Legal 3 p.2 && flag p.2 2
  match chs with
  | [] => (own, s)
  | p :: _ =>
    let a0 := e1Addr p.2 - 4096 * p.1
    let consistent := chs.length == 16 && a0 % 65536 == 0 && chs.all fun q =>
      flag q.2 3 == flag p.2 3 && flag q.2 4 == flag p.2 4 && e1Addr q.2 == a0 + 4096 * q.1
    if consistent then (own.map fun o => { o with size := 65536 }, s)
    else
      let others := (chs.filter fun q => decide (4096 * q.1 ≤ e1Addr q.2)).map fun q =>
        (.ok ⟨e1Addr q.2 - 4096 * q.1 + va % 65536, flag q.2 3, flag q.2 4, 4096⟩ : Except TFail S1)
      let c := s.choose (own :: others)
      (c.1.getD own, c.2)

/-- The walk from a table of level 4 − `fuel` (R264, R266). -/
def State.walk (s : State) (v va table : Nat) : Nat → Except TFail S1 × State
  | 0 => (.error ⟨1, noGpa⟩, s)
  | fuel + 1 =>
    let level := 3 - fuel
    let span := 2 ^ (12 + 9 * fuel)
    let idx := va / span % 512
    match s.walkRead v (table + 8 * idx) with
    | (.error f, s) => (.error f, s)
    | (.ok x, s) =>
      let e := s.readTable v x.2 x.1
      let s := s.scAccess v 3 0 x.1 (s.viewMark v x.2 x.1)
      if flag e 0 && e1Legal level e && decide (level < 3) && flag e 1 then s.walk v va (e1Addr e) fuel
      else
        let own : Except TFail S1 :=
          if !flag e 0 then .error ⟨0, noGpa⟩
          else if !e1Legal level e then .error ⟨1, noGpa⟩
          else .ok ⟨e1Addr e + va % span, flag e 3, flag e 4, span⟩
        if level = 3 then s.chooseCh va (s.walkGroup v x.2 x.1) own else (own, s)

/-! ### Permissions and the last hop -/

def permits1 (w x : Bool) : Acc → Bool
  | .load => true
  | .store => w
  | .atomic => w
  | .fetch => x

def permits2 (r w x : Bool) : Acc → Bool
  | .load => r
  | .store => w
  | .atomic => r && w
  | .fetch => x

def TlbEntry.permits (e : TlbEntry) (a : Acc) : Bool := permits1 e.w1 e.x1 a && permits2 e.r e.w e.x a

def TlbEntry.covers (e : TlbEntry) (va : Nat) : Bool := decide (e.base ≤ va) && decide (va < e.base + e.size)

/-- A class-3 address with bit 51 set names a GPA of another package (R350). -/
def classThree (addr : Nat) : Target :=
  if addr / 2 ^ 51 % 2 = 1 then .fabric (bits addr 50 42) (addr % 2 ^ 42) else .host addr

/-- The address `off` bytes on. -/
def Target.plus (t : Target) (off : Nat) : Target :=
  match t with
  | .device D => .device (D + off)
  | .host a => .host (a + off)
  | .fabric p g => .fabric p (g + off)

/-- A page of host memory is requested once; a port has 512 requests outstanding at most (R339). -/
def State.askPage (s : State) (v page : Nat) : State :=
  if has s.priAsked (v, page) || decide (512 ≤ (s.priAsked.filter fun p => s.vfPort p.1 == s.vfPort v).length) then s
  else { s with priAsked := s.priAsked ++ [(v, page)] }.output (.pageRequest v page)

/-- The last hop of an access of a VF: the home of a device address, the checks of a fabric or host address (R268,
R313, R339, R350). A missing page is requested with PRI; a refused one is requested anew at the next access. -/
def State.reach (s : State) (v gpa : Nat) (t : Target) : Except TFail Target × State :=
  match t with
  | .device D =>
    match s.mapDevice (s.vfPart v) D with
    | some a => (.ok (.device a), s)
    | none => (.error ⟨4, BitVec.ofNat 64 gpa⟩, s)
  | .fabric p g =>
    if !(s.vf v).fen || p == s.hm.pkgid then (.error ⟨5, BitVec.ofNat 64 gpa⟩, s) else (.ok (.fabric p g), s)
  | .host a =>
    let page := (v, a / 4096)
    if has s.priRefused page then
      (.error ⟨9, BitVec.ofNat 64 gpa⟩, { s with priRefused := s.priRefused.filter fun x => !decide (x = page) })
    else if has s.hostMissing page then (.error ⟨pageWait, BitVec.ofNat 64 (a / 4096)⟩, s.askPage v (a / 4096))
    else (.ok (.host a), { s with ats := addOnce s.ats page })

/-- A new entry takes the place of the oldest when its TLB is full (R271). -/
def capTlb (cap : Nat) (p : TlbEntry → Bool) (l : List TlbEntry) : List TlbEntry :=
  if (l.filter p).length < cap then l
  else
    match l.find? p with
    | none => l
    | some e => l.erase e

/-- A new entry takes the place of one of the same range, and of one that covers the access and does not permit it (R271). -/
def State.addTlb (s : State) (e : TlbEntry) (va : Nat) (acc : Acc) : State :=
  let near (x : TlbEntry) : Bool := x.core == e.core || dieOf x.core == dieOf e.core && x.llt
  let old (x : TlbEntry) : Bool := (x.base == e.base && x.size == e.size) || (x.covers va && !x.permits acc)
  let l := s.tlb.filter fun x => !(x.ctx == e.ctx && near x && old x)
  let l := capTlb 128 (fun x => !x.llt && x.core == e.core) l
  let l := capTlb 8192 (fun x => x.llt && dieOf x.core == dieOf e.core) l
  { s with tlb := l ++ [{ e with llt := false }, { e with llt := true }] }

/-- The walk with the tables as they stand at their homes; a success fills the TLBs. -/
def State.walkAll (s : State) (core ctx va : Nat) (acc : Acc) : Except TFail Trans × State :=
  match s.ctx? ctx with
  | none => (.error ⟨0, noGpa⟩, s)
  | some c =>
    match s.walk c.vf va c.s1root.toNat 4 with
    | (.error f, s) => (.error f, s)
    | (.ok p, s) =>
      if !permits1 p.w p.x acc then (.error ⟨2, noGpa⟩, s)
      else
        match s.stage2 c.vf p.gpa with
        | (.error sub, s) => (.error ⟨sub, BitVec.ofNat 64 p.gpa⟩, s)
        | (.ok e, s) =>
          if !permits2 e.r e.w e.x acc then (.error ⟨5, BitVec.ofNat 64 p.gpa⟩, s)
          else
            let size := min p.size e.size
            let off := va % size
            let base := if e.cls = 3 then classThree (e.addr - off) else .device (e.addr - off)
            match s.reach c.vf p.gpa (base.plus off) with
            | (.error f, s) => (.error f, s)
            | (.ok t, s) =>
              let s := s.addTlb
                { llt := false, core := core, ctx := ctx, vf := c.vf, base := va - off, size := size, target := base,
                  gpa := p.gpa - off, key := e.key, ce := e.ce, r := e.r, w := e.w, x := e.x, w1 := p.w, x1 := p.x,
                  s1 := p.size, s2 := e.span } va acc
              (.ok { target := t, gpa := p.gpa, key := e.key, ce := e.ce, vf := c.vf }, s)

/-- Translate an access of a context on a core (R117, R264 to R271). -/
def State.translate (s : State) (core ctx va : Nat) (acc : Acc) : Except TFail Trans × State :=
  if 2 ^ 48 ≤ va then (.error ⟨6, noGpa⟩, s)
  else
    match s.tlb.find? fun e =>
      e.ctx == ctx && (if e.llt then dieOf e.core == dieOf core else e.core == core) && e.covers va && e.permits acc with
    | some e =>
      let off := va - e.base
      match s.reach e.vf (e.gpa + off) (e.target.plus off) with
      | (.error f, s) => (.error f, s)
      | (.ok t, s) => (.ok { target := t, gpa := e.gpa + off, key := e.key, ce := e.ce, vf := e.vf }, s)
    | none => s.walkAll core ctx va acc

/-- Stage 2 alone, as inbound accesses and discards translate (R278, R300, R352). -/
def State.translateGpa (s : State) (v gpa : Nat) (acc : Acc) : Except TFail Trans × State :=
  match s.stage2 v gpa with
  | (.error sub, s) => (.error ⟨sub, BitVec.ofNat 64 gpa⟩, s)
  | (.ok e, s) =>
    if !permits2 e.r e.w e.x acc then (.error ⟨5, BitVec.ofNat 64 gpa⟩, s)
    else
      match s.reach v gpa (if e.cls = 3 then classThree e.addr else .device e.addr) with
      | (.error f, s) => (.error f, s)
      | (.ok t, s) => (.ok { target := t, gpa := gpa, key := e.key, ce := e.ce, vf := v }, s)

end Sys2Proof.Machine
end

