-- ==== Sys2Proof/Machine/L1.lean ====
section
/-! DEFINITION. The L1 caches: fills, writebacks, ownership, seals, publication, self-invalidation (R252 to R259), and
the accesses that agents without an L1 make at the homes. -/

namespace Sys2Proof.Machine

/-! ### Lines -/

def State.line? (s : State) (core ctx ln : Nat) : Option L1Line :=
  s.l1.find? fun l => l.core == core && l.ctx == ctx && l.line == ln

def sameLine (a b : L1Line) : Bool := a.core == b.core && a.ctx == b.ctx && a.line == b.line

def State.putLine (s : State) (l : L1Line) : State := { s with l1 := upsert (sameLine l) l s.l1 }
def State.eraseLine (s : State) (l : L1Line) : State := { s with l1 := s.l1.filter fun x => !sameLine l x }

/-- Bits `off` to `off + n - 1`. -/
def byteMask (off n : Nat) : BitVec 128 := BitVec.ofNat 128 ((2 ^ n - 1) * 2 ^ off)

def lineByte (d : BitVec 1024) (i : Nat) : Byte := BitVec.ofNat 8 (d.toNat / 2 ^ (8 * i))

/-- One bit of a byte mask as eight bits of a line, bits 0 to n − 1. -/
def spread (m : BitVec 128) : Nat → Nat
  | 0 => 0
  | n + 1 => spread m n + if m.getLsbD n then 255 * 2 ^ (8 * n) else 0

/-- Where the mask is set the bytes of `new`, elsewhere those of `old`. -/
def blend (old new : BitVec 1024) (m : BitVec 128) : BitVec 1024 :=
  if m == 0 then old
  else if m == BitVec.allOnes 128 then new
  else
    let w : BitVec 1024 := BitVec.ofNat 1024 (spread m 128)
    (old &&& ~~~w) ||| (new &&& w)

def maskBytes (m : BitVec 128) : List Nat := (List.range 128).filter m.getLsbD

/-! ### Packets and pendings -/

/-- Packets of an incoming gang wait for the report of the member they go to; gang-control packets pass (R370). -/
def State.mustHold (s : State) (p : Packet) : Bool :=
  p.kind != 10 && p.gid != 0 && s.switches.any fun w =>
    w.acted.isSome && w.gin == p.gid && !has w.reports p.dst &&
    s.gangs.any fun g => g.2.valid && (g.2.gid == w.gin || g.2.gid == w.gout) && g.2.members.getLsbD p.dst

/-- The fabric port on which packets for a destination leave (R391); none without a valid route. -/
def State.portOf (s : State) (dst : Nat) : Option Nat :=
  let e := (SMap.get 0 s.hm.routes dst).toNat
  if e / 128 = 1 then some (e % 16) else none

/-- Traffic of a link that retrains waits (R348). -/
def State.linkDown (s : State) (dst : Nat) : Bool := ((s.portOf dst).map fun l => (SMap.get ({} : Link) s.links l).retraining).getD false

/-- Flits of a packet's kind, less one, and its virtual channel (R348, R369). -/
def framed (p : Packet) : Packet :=
  let data : Nat :=
    if p.kind = 2 ∨ p.kind = 3 ∨ p.kind = 7 then 2
    else if p.kind = 5 then (if p.op = 13 then 1 else 0)
    else if p.kind = 10 then (if p.op = 5 ∨ p.op = 6 then 3 else if p.op = 7 then 1 else 0)
    else 0
  let vc : Nat := if p.kind % 2 = 0 ∧ p.kind ≤ 6 then 1 else if p.kind = 8 ∨ p.kind = 10 then 2 else if p.kind = 9 then 3 else 0
  { p with nflit := data, vc := vc }

/-- Flit 0 (R349). -/
def packetHeader (p : Packet) : List Byte :=
  toBytes (p.kind % 2 ^ 8 + 2 ^ 8 * (p.vc % 4) + 2 ^ 10 * (p.nflit % 4) + 2 ^ 12 * (p.status % 16) + 2 ^ 16 * (p.src % 512) +
    2 ^ 25 * (p.dst % 512) + 2 ^ 48 * (p.ftag % 2 ^ 16)) 8 ++
  toBytes (p.gpa % 2 ^ 42 + 2 ^ 48 * (p.gid % 2 ^ 16)) 8 ++
  toBytes (p.op % 2 ^ 8 + 2 ^ 8 * (p.size % 2 ^ 8) + 2 ^ 16 * (p.ttag % 2 ^ 32)) 8 ++
  toBytes 0 8 ++ toBytes p.mask.toNat 16 ++ toBytes p.opd0.toNat 8 ++ toBytes p.opd1.toNat 8

/-- The bytes of a packet: its header and its data flits. -/
def packetWire (p : Packet) : List Byte := packetHeader p ++ toBytes p.data.toNat (64 * p.nflit)

/-- A packet leaves, or is held in its place. A packet that leaves ends a row of replays on its link (R348). -/
def State.emit (s : State) (pk : Packet) : State :=
  let p := framed pk
  if s.mustHold p || s.linkDown p.dst then { s with heldPackets := s.heldPackets ++ [p] }
  else
    let s := match s.portOf p.dst with
      | some l => { s with links := SMap.set ({} : Link) s.links l { SMap.get ({} : Link) s.links l with replays := 0 } }
      | none => s
    s.output (.packet p)

/-- Cause and subcause of a request that another package answered with a status (R352); 5 stands for a destination that
stays unreachable (R348). -/
def statusFault (status : Nat) : Nat × Nat :=
  if status = 2 then (17, 8) else if status = 3 then (18, 5) else if status = 5 then (18, 2) else (16, 11)

/-- A request to another package: it is sent, and its answer is awaited under a fresh tag (R349). -/
def State.sendRequest (s : State) (p : Pending) : State :=
  let tag := s.ttags + 1
  let pk := framed { p.packet with ttag := tag % 2 ^ 32, src := s.hm.pkgid }
  let s := { s with ttags := tag, pendings := s.pendings ++ [{ p with ttag := tag % 2 ^ 32, packet := pk }] }
  s.emit pk

def State.packetFor (s : State) (ctx kind pkg gpa : Nat) : Packet :=
  { kind := kind, dst := pkg, gpa := gpa, ftag := (s.vf (s.vfOf ctx)).ftag, gid := s.gidOf ctx }

/-- Writes and stamps of this context on this core that another package has not acknowledged, and accesses of its threads there
that are still to be performed: what an outgoing edge waits for (R236, R255). -/
def State.unacked (s : State) (core ctx : Nat) : Bool :=
  s.pendings.any fun p => p.core == core && p.ctx == ctx && p.copy.isNone && (p.packet.kind == 3 || p.packet.kind == 8 || p.lane.isSome)

/-- Bytes written to another package for a context on a core: one packet for each line. -/
def State.sendLines (s : State) (core ctx va pkg g : Nat) : Nat → List Byte → State
  | 0, _ => s
  | n + 1, bs =>
    if bs.isEmpty then s
    else
      let o := g % 128
      let k := min (128 - o) bs.length
      let s := s.sendRequest
        { ttag := 0, core := core, ctx := ctx, fva := BitVec.ofNat 64 va,
          packet := { s.packetFor ctx 3 pkg (g / 128 * 128) with
            mask := byteMask o k, data := BitVec.ofNat 1536 (ofBytes (bs.take k) * 2 ^ (8 * o)) } }
      s.sendLines core ctx (va + k) pkg (g + k) n (bs.drop k)

/-! ### Writebacks -/

/-- Maximal runs of consecutive addresses. -/
def runsOf : List (Nat × Byte) → List (Nat × List Byte)
  | [] => []
  | (a, b) :: t =>
    match runsOf t with
    | (a', bs) :: r => if a + 1 = a' then (a, b :: bs) :: r else (a, [b]) :: (a', bs) :: r
    | [] => [(a, [b])]

/-- Whether a target lies in a block of device memory. -/
def Target.inBlock (t : Target) (b : Nat) : Bool :=
  match t with
  | .device a => blockOf a == b
  | _ => false

/-- Whether the L1 of a core still needs its reservation of a block: it holds dirty bytes there, the instruction in progress
writes there, or a late atomic will (R126, R296). -/
def State.keepsResv (s : State) (core b : Nat) : Bool :=
  (s.l1.any fun x => x.core == core && !(x.dirty == 0) && x.home.inBlock b) || has s.holding (core, b) ||
  s.pendings.any fun p => p.core == core && p.packet.kind == 13 && blockOf p.packet.gpa == b

/-- A reservation that the L1 does not need any more ends (R296). -/
def State.settleResv (s : State) (p : Nat × Nat) : State :=
  if (s.resv? p.2 (.inl p.1)).isSome && !s.keepsResv p.1 p.2 then s.releaseResv p.2 (.inl p.1) else s

/-- An uncorrectable error has struck the line's dirty bytes (R380). -/
def State.struckLine (s : State) (l : L1Line) : Bool :=
  !s.struck.isEmpty && !(l.dirty == 0) && has s.struck (.line l.core l.ctx l.line)

/-- What a writeback finds when an error has struck the line: bytes whose value nothing fixes any more (DESIGN CHOICE, log 83). -/
def State.spoil (s : State) (l : L1Line) : L1Line × State :=
  if s.struckLine l then
    ({ l with data := blend l.data (BitVec.ofNat 1024 ((Config.freeWord s.freeCount).toNat * ((2 ^ 1024 - 1) / (2 ^ 64 - 1)))) l.dirty },
     { s with freeCount := s.freeCount + 1, struck := s.struck.filter fun x => !decide (x = .line l.core l.ctx l.line) })
  else (l, s)

/-- A block that has taken bytes with an error cannot be decoded (DESIGN CHOICE, log 83). -/
def State.markBad (s : State) (b : Nat) (bad : Bool) : State :=
  if bad then { s with undecodable := addOnce s.undecodable b } else s

/-- The dirty bytes of a line go to their home; the line keeps its copy, now clean. Nothing is asked of other L1s. -/
def State.flush (s : State) (l : L1Line) : State :=
  if l.dirty == 0 then s
  else
    let bad := s.struckLine l
    let p := s.spoil l
    let l := p.1
    let s := p.2
    let clean := { l with dirty := 0 }
    match l.home with
    | .device a =>
      let ws := (maskBytes l.dirty).map fun i => (a + i, lineByte l.data i)
      let s := s.putLine clean
      let last := !s.keepsResv l.core (blockOf a)
      (s.homeWrite { vf := l.vf, gpa := l.gpa, key := l.key, ce := l.ce, fund := .resv (.inl l.core) last } a ws).2.markBad
        (blockOf a) bad
    | .host a =>
      (runsOf ((maskBytes l.dirty).map fun i => (a + i, lineByte l.data i))).foldl (fun s r => s.post r.1 r.2)
        (s.putLine clean)
    | .fabric p g =>
      (s.putLine clean).sendRequest
        { ttag := 0, core := l.core, ctx := l.ctx, fva := BitVec.ofNat 64 (l.line * 128),
          packet := { s.packetFor l.ctx 3 p g with mask := l.dirty, data := BitVec.ofNat 1536 l.data.toNat } }

/-! ### Seals (R127 to R130, R259) -/

def SealEntry.covers (e : SealEntry) (ctx a n : Nat) : Bool :=
  e.ctx == ctx && decide (a < e.base + 2 ^ e.lg) && decide (e.base < a + n)

/-- A seal entry of a die that covers bytes of the context. -/
def State.sealedOn (s : State) (die ctx a n : Nat) : Bool := s.seals.any fun e => e.die == die && e.covers ctx a n

/-- Header and save area of an allocated frame count as a sealed region (R221). -/
def State.inFrame (s : State) (ctx a n : Nat) : Bool :=
  s.tasks.any fun t => t.ctx == ctx && decide (a < t.frame + 256 + t.width * t.nreg * 8) && decide (t.frame < a + n)

/-- Check 3 of R120 for bytes that would be written. -/
def State.sealed (s : State) (core ctx a n : Nat) : Bool := s.sealedOn (dieOf core) ctx a n || s.inFrame ctx a n

def bumpSeal (p : SealEntry → Bool) (f : Nat → Nat) : List SealEntry → List SealEntry
  | [] => []
  | e :: t => if p e then { e with copies := f e.copies } :: t else e :: bumpSeal p f t

/-- A sealed copy comes or goes: the count of the entry on the line's home die. -/
def State.countSeal (s : State) (l : L1Line) (f : Nat → Nat) : State :=
  match l.home with
  | .device a => { s with seals := bumpSeal (fun e => e.die == stackOf a && e.covers l.ctx (l.line * 128) 128) f s.seals }
  | _ => s

/-- A copy goes; a sealed one counts down (R259). -/
def State.dropLine (s : State) (l : L1Line) : State :=
  let s := s.eraseLine l
  if l.sealed then s.countSeal l (· - 1) else s

/-! ### What the home asks of other L1s (R253) -/

/-- Core, context and virtual line of a copy (R252). -/
def L1Line.tag (l : L1Line) : Nat × Nat × Nat := (l.core, l.ctx, l.line)

/-- The requester of an agent that has no L1. -/
def noTag : Nat × Nat × Nat := (256, 0, 0)

/-- The copies of the line with this home, but for the requester's own. Two copies of one L1 under different tags are
copies of two holders (R252, R253). -/
def State.others (s : State) (who : Nat × Nat × Nat) (a : Nat) : List L1Line :=
  s.l1.filter fun l => !decide (l.tag = who) && decide (l.home = .device a)

def State.pend (s : State) (l : L1Line) : State :=
  s.modCore l.core fun k => { k with pendingLines := addOnce k.pendingLines (l.ctx, l.line) }

/-- A writeback other than publication adds the line to the pending list of its context (R252). -/
def State.flushPend (s : State) (l : L1Line) : State := if l.dirty == 0 then s else (s.flush l).pend l

/-- A load miss: an owner writes the line back and becomes shared (R253). -/
def State.demote (s : State) (who : Nat × Nat × Nat) (a : Nat) : State :=
  (s.others who a).foldl (fun s l => if l.st = .owned then
      (s.flushPend l).putLine { l with dirty := 0, st := .shared } else s) s

/-- A writeback or a write at the home: an owner writes the line back and becomes invalid (R253). -/
def State.revokeOwner (s : State) (who : Nat × Nat × Nat) (a : Nat) : State :=
  (s.others who a).foldl (fun s l => if l.st = .owned then (s.flushPend l).dropLine l else s) s


/-- The writeback of a line, with what the home asks of an owner elsewhere (R253). -/
def State.writeback (s : State) (l : L1Line) : State :=
  if l.dirty == 0 then s
  else
    match l.home with
    | .device a => (s.revokeOwner l.tag a).flush l
    | _ => s.flush l

/-- The writeback of a line as it stands now: another line's may have taken it along. -/
def State.writebackNow (s : State) (l : L1Line) : State :=
  match s.line? l.core l.ctx l.line with
  | some x => s.writeback x
  | none => s

/-- An L1 drops a copy; dirty bytes are written back first (R253). -/
def State.evict (s : State) (l : L1Line) : State :=
  (if l.dirty == 0 then s else (s.writeback l).pend l).dropLine l

/-- Ownership: each other copy writes back its dirty bytes and becomes invalid (R253). -/
def State.invalidateOthers (s : State) (who : Nat × Nat × Nat) (a : Nat) : State :=
  (s.others who a).foldl (fun s l => (s.flushPend l).dropLine l) s

/-! ### Fills -/

/-- Lines that an L1 has room for: 512 KiB less the A-buffer (R248). -/
def l1Lines (split : Nat) : Nat := (8 - split) * 512

/-- Room for one more line: one of the lines is evicted when there is none. -/
def State.makeRoom (s : State) (core : Nat) : State :=
  let mine := s.l1.filter fun l => l.core == core
  if mine.length < l1Lines (s.coreAt core).split then s
  else
    let c := s.choose mine
    match c.1 with
    | some l => c.2.evict l
    | none => c.2

/-- The address of the line that holds a target. -/
def Target.lineBase (t : Target) : Target :=
  match t with
  | .device a => .device (a / 128 * 128)
  | .host a => .host (a / 128 * 128)
  | .fabric p g => .fabric p (g / 128 * 128)

/-- The L1's line for an access, present or new, with the translation of this access. -/
def State.lineFor (s : State) (core ctx va : Nat) (t : Trans) : L1Line × State :=
  match s.line? core ctx (lineOf va) with
  | some l => ({ l with home := t.target.lineBase, gpa := t.gpa / 128 * 128, key := t.key, ce := t.ce, vf := t.vf }, s)
  | none =>
    ({ core := core, ctx := ctx, line := lineOf va, home := t.target.lineBase, gpa := t.gpa / 128 * 128,
       key := t.key, ce := t.ce, vf := t.vf }, s.makeRoom core)

def State.homeLine (s : State) (v slot a : Nat) : BitVec 1024 := BitVec.ofNat 1024 (ofBytes (s.viewBytes v slot a 128))

/-- What the home asks of other L1s before it serves a load miss; a sealed region asks nothing (R253, R259). -/
def State.askOthers (s : State) (l : L1Line) (a : Nat) : State :=
  if s.sealedOn (stackOf a) l.ctx (l.line * 128) 128 then s else s.demote l.tag a

/-- The home serves a load miss or a sealed fill: bytes that are not dirty take the home's value (R252, R253, R259). -/
def State.fill (s : State) (l : L1Line) (a : Nat) : L1Line × State :=
  let sl := s.sealedOn (stackOf a) l.ctx (l.line * 128) 128
  let s := s.askOthers l a
  let l' := { l with data := blend (s.homeLine l.vf l.key a) l.data l.dirty, valid := BitVec.allOnes 128 }
  let s := s.scAccess l.vf 0 0 a (s.viewMark l.vf l.key a)
  if sl && !l.sealed && l.valid == 0 then
    let l' := { l' with sealed := true }
    (l', (s.putLine l').countSeal l' (· + 1))
  else (l', s.putLine l')

/-- What a read answers with. -/
inductive Got
  | val (n : Nat)
  /-- uncorrectable data, by subcause -/
  | bad (sub : Nat)
  /-- the answer comes later -/
  | later
  deriving DecidableEq, Repr

/-- Whether the home of a device address answers late now (R37). -/
def State.slowAt (s : State) (a : Nat) : Bool := !s.slow.isEmpty && has s.slow (a / 128)

def lineVal (l : L1Line) (off n : Nat) : Nat := l.data.toNat / 2 ^ (8 * off) % 2 ^ (8 * n)

/-- A load of `n` bytes that lie in one line: a hit, or a miss at the home. Lines of the host and of other packages
answer later. -/
def State.loadL1 (s : State) (core ctx va n : Nat) (t : Trans) : Got × State :=
  let off := va % 128
  let m := byteMask off n
  let p := s.lineFor core ctx va t
  let l := p.1
  if !(l.dirty &&& m == 0) && s.struckLine l then (.bad 3, s)
  else if l.valid &&& m == m then (.val (lineVal l off n), s)
  else
    match l.home with
    | .device a =>
      let s := p.2.askOthers l a
      if s.bad (a + off) then (.bad 0, s)
      else
        let q := s.fill l a
        (.val (lineVal q.1 off n), q.2)
    | _ => (.later, p.2)

/-- Whether the L1 of a core holds every byte of an access. -/
def State.hits (s : State) (core ctx va n : Nat) : Bool :=
  ((s.line? core ctx (lineOf va)).map fun l => l.valid &&& byteMask (va % 128) n == byteMask (va % 128) n).getD false

/-- Whether a load misses at a home that answers late now (R37). -/
def State.missesLate (s : State) (core ctx va n : Nat) (t : Trans) : Bool :=
  match t.target with
  | .device a =>
    s.slowAt a && !s.hits core ctx va n
  | _ => false

/-- A store: its bytes become valid and dirty; nothing is fetched (R252). -/
def State.storeL1 (s : State) (core ctx va n v : Nat) (t : Trans) : State :=
  let off := va % 128
  let m := byteMask off n
  let p := s.lineFor core ctx va t
  let l := p.1
  let d : BitVec 1024 := BitVec.ofNat 1024 (v % 2 ^ (8 * n) * 2 ^ (8 * off))
  p.2.putLine { l with data := blend l.data d m, valid := l.valid ||| m, dirty := l.dirty ||| m }

/-- Whether a core owns the line of an access already, with every byte (R253). -/
def State.owns (s : State) (core ctx va : Nat) : Bool :=
  ((s.line? core ctx (lineOf va)).map fun l => decide (l.st = .owned) && l.valid == BitVec.allOnes 128).getD false

/-- Bring a line into the owned state with the home's value; the core's own dirty bytes stand before it (R123, R136, R253). -/
def State.own (s : State) (core ctx va : Nat) (t : Trans) (a : Nat) : L1Line × State :=
  let p := s.lineFor core ctx va t
  let l := p.1
  if l.st = .owned ∧ l.valid = BitVec.allOnes 128 then (l, p.2)
  else
    let line := a / 128 * 128
    let s := p.2.invalidateOthers l.tag line
    let l := { l with st := .owned, valid := BitVec.allOnes 128, data := blend (s.homeLine l.vf l.key line) l.data l.dirty }
    let s := s.scAccess l.vf 0 2 line (s.viewMark l.vf l.key line)
    (l, s.putLine l)

/-! ### Edges (R255, R258) -/

/-- Whether a line's home is host memory. -/
def L1Line.ofHost (l : L1Line) : Bool :=
  match l.home with
  | .host _ => true
  | _ => false

/-- The lines go to their homes. Bytes of host memory leave as the publication completes, behind everything that another
package has still to acknowledge (R347); a publication that waits for that comes here again. -/
def State.writeBackAll (s : State) (core ctx : Nat) (ls : List L1Line) : List L1Line × State :=
  let s := (ls.filter fun l => !l.ofHost).foldl State.writebackNow s
  if s.unacked core ctx then (ls.filter fun l => !l.ofHost, s)
  else (ls, (ls.filter L1Line.ofHost).foldl State.writebackNow s)

/-- Publication on a core: every dirty byte of the context goes home; the lines to be noticed (R255). -/
def State.publishLines (s : State) (core ctx : Nat) : List Nat × State :=
  let pend := (s.coreAt core).pendingLines.filter fun p => p.1 == ctx
  let r := s.writeBackAll core ctx (s.l1.filter fun l => l.core == core && l.ctx == ctx && !(l.dirty == 0))
  let s := r.2.modCore core fun k => { k with pendingLines := k.pendingLines.filter fun p => !(p.1 == ctx) }
  (r.1.map (·.line) ++ pend.map (·.2), s)

/-- What the quay threads of a core are filed under among the writers; no frame lies there. -/
def quayFrame (core : Nat) : Nat := 2 ^ 64 + core

/-- The frame of a lane's task; its quay processor's number for a quay thread. -/
def State.writer (s : State) (id : LaneId) : Nat :=
  if id.berth = quayBerth then quayFrame id.core else ((s.group? id.core id.berth).map (·.frame)).getD 0

/-- A lane writes bytes of a line: its frame's notice will name it, whoever writes the line back (R240, R255). -/
def State.noteStore (s : State) (id : LaneId) (va : Nat) : State :=
  { s with wrote := addOnce s.wrote ((s.thread id).ctx, s.writer id, lineOf va) }

/-- The lines that a frame's threads have written since its last publication. -/
def State.wroteBy (s : State) (ctx frame : Nat) : List Nat :=
  (s.wrote.filter fun w => w.1 == ctx && w.2.1 == frame).map (·.2.2)

def State.forgetWrites (s : State) (ctx frame : Nat) : State :=
  { s with wrote := s.wrote.filter fun w => !(w.1 == ctx && w.2.1 == frame) }

/-- The line that a request to another package reads. -/
def Pending.asLine (p : Pending) : L1Line :=
  { core := p.core, ctx := p.ctx, line := lineOf p.fva.toNat, gpa := p.agpa / 128 * 128, vf := p.vf
    home := .fabric p.packet.dst p.packet.gpa }

/-- Self-invalidation of the lines of a core that `names` picks: clean bytes become invalid, dirty bytes stay, fetched code goes,
and a line that is on its way leaves no copy when it comes. Sealed copies are exempt. -/
def State.invalidate (s : State) (core : Nat) (names : L1Line → Bool) : State :=
  let drop (l : L1Line) : L1Line :=
    if l.core == core && !l.sealed && names l then { l with valid := l.valid &&& l.dirty } else l
  { s with
    l1 := (s.l1.map drop).filter fun l => !(l.valid == 0)
    code := s.code.filter fun l => !(l.core == core && names l)
    pendings := s.pendings.map fun p : Pending =>
      if p.core == core && p.packet.kind == 1 && names p.asLine then { p with stale := true } else p }

/-- Self-invalidation of lines of one context. -/
def State.selfInvalidate (s : State) (core ctx : Nat) (names : L1Line → Bool) : State :=
  s.invalidate core fun l => l.ctx == ctx && names l

/-- Lines that hold bytes the device writes: a header, a save area, a trap record (R396). -/
def Task.deviceLine (t : Task) (line : Nat) : Bool :=
  let a := line * 128
  (decide (a < t.frame + 256 + t.width * t.nreg * 8) && decide (t.frame < a + 128)) ||
  match t.trap with
  | some i => decide (a < i.trec + 64) && decide (i.trec < a + 128)
  | none => false

/-- A new frame: no core keeps an older copy of what the device writes there (R221). -/
def State.dropOld (s : State) (t : Task) : State :=
  let drop (l : L1Line) : L1Line :=
    if l.ctx == t.ctx && !l.sealed && t.deviceLine l.line then { l with valid := l.valid &&& l.dirty } else l
  { s with l1 := (s.l1.map drop).filter fun l => !(l.valid == 0) }

/-- The external edge: epoch and notices of the VF's ordering point (R346). The core keeps one epoch for the VF, so that the
lines of all of the VF's contexts go: another context's edge that comes later misses none (R238). -/
def State.applyExternal (s : State) (core ctx : Nat) : State :=
  let v := s.vfOf ctx
  let x := s.vf v
  let e := SMap.get 0 (s.coreAt core).epochs v
  let old := e + 1 < x.epoch
  let s := s.invalidate core fun l =>
    s.vfOf l.ctx == v && (old || x.current.names (lineOf l.gpa) || x.previous.names (lineOf l.gpa))
  s.modCore core fun k => { k with epochs := SMap.set 0 k.epochs v x.epoch }

/-- Every clean line of the context whose address reaches the fabric is dropped (R193, R353). -/
def State.dropFabric (s : State) (core ctx : Nat) : State :=
  s.selfInvalidate core ctx fun l => match l.home with
    | .fabric _ _ => true
    | _ => false

/-- The contexts' external edges go on along every later edge (R236, R353, DEDUCED, log 142). -/
def State.noteExternal (s : State) (ctx : Nat) (fabric : Bool) : State :=
  match s.ctx? ctx with
  | none => s
  | some c => s.putCtx { c with ext := true, fabric := c.fabric || fabric }

/-- A thread takes an external edge (R123, R353). -/
def State.takeExternal (s : State) (core ctx : Nat) (fabric : Bool) : State :=
  let s := (s.noteExternal ctx fabric).applyExternal core ctx
  if fabric then s.dropFabric core ctx else s

/-- An incoming edge that carries a notice (R258). What the device has written to the context's frames is named too, so
that a header is read as it was before the edge or later (R221); external edges that its ancestors took come along. -/
def State.applyNotice (s : State) (core ctx : Nat) (n : Notice) : State :=
  let all := n.all
  let s := s.selfInvalidate core ctx fun l => all || n.names l.line || s.tasks.any fun t => t.ctx == ctx && t.deviceLine l.line
  match s.ctx? ctx with
  | none => s
  | some c =>
    let s := if c.ext then s.applyExternal core ctx else s
    if c.fabric then s.dropFabric core ctx else s

/-! ### Accesses at the home without an L1: copies, stamps, frames, inbound traffic -/

/-- An owner elsewhere gives the line that holds `a` up, before an agent without an L1 writes it (R253). -/
def State.giveUp (s : State) (a : Nat) : State := s.revokeOwner noTag (a / 128 * 128)

/-- A write at the home; an owner elsewhere gives the line up first. -/
def State.writeAt (s : State) (q : HomeReq) (a : Nat) (ws : List (Nat × Byte)) : Fate × State := (s.giveUp a).homeWrite q a ws

/-- An owner elsewhere writes the line that holds `a` back, before an agent without an L1 reads it (R253). -/
def State.comeHome (s : State) (a : Nat) : State := s.demote noTag (a / 128 * 128)

/-- A read at the home; an owner elsewhere writes the line back first. -/
def State.readAt (s : State) (v tc key a n : Nat) : List Byte × State :=
  let s := s.comeHome a
  (s.viewBytes v key a n, s.scAccess v tc 0 a (s.viewMark v key a))

def withAddrs (a : Nat) : List Byte → List (Nat × Byte)
  | [] => []
  | b :: t => (a, b) :: withAddrs (a + 1) t

/-- Bytes of one piece that lies in one block of device memory, in host memory or in another package, written for a
context on a core. -/
def State.writePiece (s : State) (core ctx va : Nat) (q : HomeReq) (t : Trans) (bs : List Byte) : Fate × State :=
  match t.target with
  | .device a => s.writeAt { q with vf := t.vf, gpa := t.gpa, key := t.key, ce := t.ce } a (withAddrs a bs)
  | .host a => (.done, s.post a bs)
  | .fabric p g => (.done, s.sendLines core ctx va p g 6 bs)

end Sys2Proof.Machine
end

