-- ==== Sys2Proof/Machine/Ops.lean ====
section
/-! DEFINITION. The operations that instructions share: lookahead windows, fault records, frames, taking a trap and
returning from one, the end of threads and tasks, and the issue of one instruction for its lanes. -/

namespace Sys2Proof.Machine

/-- An open value that an instruction leaves behind. -/
def State.freeVal (s : State) : Word × State := (Config.freeWord s.freeCount, { s with freeCount := s.freeCount + 1 })

/-! ### Memory that device agents read and write by virtual address -/

/-- What a read by virtual address answers with. -/
inductive Peek
  | bytes (bs : List Byte)
  | fault (cause sub : Nat) (gpa : Word)
  /-- a line of another package, or a page of host memory, has been asked for -/
  | later (why : Stall)
  deriving DecidableEq, Repr

/-- Whether a failed translation only waits for a page of host memory (R268, R339). -/
def TFail.waits (f : TFail) : Bool := f.sub == pageWait

/-- What a thread of a context then waits for. -/
def State.pageStall (s : State) (ctx : Nat) (f : TFail) : Stall := .page (s.vfOf ctx) f.gpa.toNat

/-- A read without a lane asks another package for a line once; a refusal stays until the read takes it. -/
def State.peekFabric (s : State) (core ctx va p g gpa : Nat) : Peek × State :=
  let ln := g / 128 * 128
  match s.pendings.find? fun q =>
    q.core == core && q.ctx == ctx && q.lane.isNone && q.copy.isNone && q.packet.dst == p && q.packet.gpa == ln &&
    (q.packet.kind == 1 || q.packet.kind == 2) with
  | some q =>
    if q.packet.kind = 1 then (.later .code, s)
    else
      let f := statusFault q.packet.status
      (.fault f.1 f.2 (BitVec.ofNat 64 (if q.packet.status = 5 then gpa else g)), { s with pendings := s.pendings.erase q })
  | none =>
    (.later .code, s.sendRequest { ttag := 0, core := core, ctx := ctx, fva := BitVec.ofNat 64 va, agpa := gpa, packet := s.packetFor ctx 1 p ln })

/-- Read `n` aligned bytes for a context on a core, as a fetch or a descriptor read does: the home's value, host
memory, or an L1 copy of a fabric line (R33, R191). -/
def State.peek (s : State) (core ctx va n : Nat) (acc : Acc) : Peek × State :=
  match s.translate core ctx va acc with
  | (.error f, s) => if f.waits then (.later (s.pageStall ctx f), s) else (.fault 16 f.sub f.gpa, s)
  | (.ok t, s) =>
    match t.target with
    | .device a => if s.bad a then (.fault 18 0 (BitVec.ofNat 64 t.gpa), s) else (.bytes (s.viewBytes t.vf t.key a n), s)
    | .host a => if s.hostBad a n then (.fault 18 1 (BitVec.ofNat 64 t.gpa), s) else (.bytes (readMap 0 s.hostMem a n), s)
    | .fabric p g =>
      let m := byteMask (va % 128) n
      let held := (s.line? core ctx (lineOf va)).bind fun l => if l.valid &&& m == m then some (toBytes (lineVal l (va % 128) n) n) else none
      match held with
      | some bs => (.bytes bs, s)
      | none => s.peekFabric core ctx va p g t.gpa

/-- The task descriptor of R51. -/
structure TaskDesc where
  width : Nat
  nreg : Nat
  pair : Bool
  raw : Nat
  deriving DecidableEq, Repr

def taskDesc (w : Nat) : Option TaskDesc :=
  let n := bits w 15 8
  if bits w 63 17 = 0 ∧ bits w 7 2 = 0 ∧ 8 ≤ n ∧ n ≤ 32 then
    some { width := 8 * 2 ^ (w % 4), nreg := 16 * n, pair := flag w 16, raw := w % 2 ^ 32 }
  else none

/-! ### Fault records (R273 to R276) -/

/-- A record waits inside the device until it is written (R275). -/
def State.addRecord (s : State) (v : Nat) (r : FaultRec) : State :=
  s.modVf v fun x => { x with fqWaiting := x.fqWaiting ++ [r] }

def laneMask (ids : List LaneId) : BitVec 64 := ids.foldl (fun m i => m ||| bitAt i.tid) 0

/-- One record for the lanes of a group that took one system fault (R273). The lanes park. -/
def State.faultLanes (s : State) (src core berth : Nat) (ids : List LaneId) (cause sub : Nat)
    (fva ifa gpa : Word) : State :=
  match s.group? core berth with
  | none => s
  | some g =>
    let s := ids.foldl (fun s i => (s.modThread i fun t => { t with wait := .faulted }).leave i) s
    s.addRecord (s.vfOf g.ctx)
      { src := src, width := g.width, sub := sub, cause := cause, fva := fva, ifa := ifa, gpa := gpa,
        lanes := laneMask ids, info := BitVec.ofNat 64 g.frame, ctx := g.ctx, berth := berth, core := core }

/-- A lane joins a record that waits: the fault address is that of the first in lane order (R273). -/
def FaultRec.join (r x : FaultRec) : FaultRec :=
  let first := if r.lanes.toNat % (2 * x.lanes.toNat) = 0 then x else r
  { first with lanes := r.lanes ||| x.lanes }

/-- The record of an error that a lane meets at the close of a window (R38, R273): it names every lane of the group that took a fault
of this cause on this instruction, as long as it waits inside the device. -/
def State.dataFault (s : State) (id : LaneId) (cause sub : Nat) (fva ifa gpa : Word) : State :=
  match s.group? id.core id.berth with
  | none => s
  | some g =>
    let s := (s.modThread id fun t => { t with wait := .faulted }).leave id
    let x : FaultRec :=
      { src := 0, width := g.width, sub := sub, cause := cause, fva := fva, ifa := ifa, gpa := gpa,
        lanes := bitAt id.tid, info := BitVec.ofNat 64 g.frame, ctx := g.ctx, berth := id.berth, core := id.core }
    let same (r : FaultRec) : Bool :=
      r.src == 0 && r.cause == cause && decide (r.ifa = ifa) && r.ctx == g.ctx && r.core == id.core && r.berth == id.berth &&
        decide (r.info = x.info) && !r.lanes.getLsbD id.tid
    s.modVf (s.vfOf g.ctx) fun v =>
      { v with fqWaiting := if v.fqWaiting.any same then v.fqWaiting.map fun r => if same r then r.join x else r
                            else v.fqWaiting ++ [x] }

/-- A trap or a system fault of a quay thread stops it and writes one record (R168). -/
def State.faultQuay (s : State) (core qt ctx cause sub : Nat) (fva ifa gpa info : Word) : State :=
  let s := s.modThread ⟨core, quayBerth, qt⟩ fun t => { t with wait := .faulted }
  s.addRecord (s.vfOf ctx)
    { src := 3, sub := sub, cause := cause, fva := fva, ifa := ifa, gpa := gpa, info := info, ctx := ctx, qt := qt, core := core }

/-! ### Lookahead windows (R37, R38, R93, R99, R123) -/

/-- Deliver the windows that have closed, in the order in which they opened: the result unless cancelled, the flags, the
external edge. A data error parks the lane; its reissue will deliver the result (R38). Windows whose result has not
arrived stay. -/
def State.deliver (s : State) (id : LaneId) : List Window → State
  | [] => s
  | w :: rest =>
    let t := s.thread id
    if w.count ≠ 0 then s.deliver id rest
    else
      match w.arrival with
      | .waiting => s.deliver id rest
      | .value v =>
        let t := { t with windows := t.windows.erase w, flags := t.flags ||| w.closing.flags }
        let t := if w.cancelled then t else t.setPhys w.phys v
        let s := s.putThread t
        let s := if w.closing.ext then s.takeExternal id.core t.ctx w.closing.fabric else s
        s.deliver id rest
      | .error cause sub gpa =>
        let mine := w :: (match rest with
          | x :: _ => if x.second then [x] else []
          | [] => [])
        let gone := (mine.filter (·.cancelled)).map (·.phys)
        let t' := { t with windows := mine.foldl (fun l x => l.erase x) t.windows, pc := w.ifa, wb := w.wb, regs := w.regs
                           reissue := some { back := t.pc, gone := gone, wb := t.wb, regs := t.regs } }
        let s := s.putThread t'
        if id.berth = quayBerth then s.faultQuay id.core id.tid t.ctx cause sub w.fva w.ifa gpa 0
        else s.dataFault id cause sub w.fva w.ifa gpa

/-- After a step that may have closed windows: a thread with a closed window whose result has not arrived is held;
otherwise it is ready. -/
def State.proceed (s : State) (id : LaneId) : State :=
  let s := s.deliver id (s.thread id).windows
  let t := s.thread id
  if decide (t.wait = .faulted) then s
  else if t.windows.any fun w => w.count == 0 then s.putThread { t with wait := .held }
  else s.ready id

/-- The arrivals fill a lane's windows with this tag, in order. -/
def fillWindows (tag : Nat) : List Window → List Arrival → List Window
  | [], _ => []
  | ws, [] => ws
  | w :: t, a :: r =>
    if w.tag = tag && decide (w.arrival = .waiting) then { w with arrival := a } :: fillWindows tag t r
    else w :: fillWindows tag t (a :: r)

/-- A long-latency result arrives; a lane that is held for it goes on (R37). -/
def State.answer (s : State) (id : LaneId) (ctx tag : Nat) (as : List Arrival) : State :=
  let s := s.modLane id ctx fun t => { t with windows := fillWindows tag t.windows as }
  let t := s.thread id
  if t.ctx == ctx && decide (t.wait = .held) then s.proceed id else s

/-- One more instruction has issued: counts fall, and the windows that this instruction opened are added; what it had to reissue
alone is over. -/
def Thread.advance (t : Thread) (pc : Word) (ws : List Window) : Thread :=
  { t with pc := pc, alone := false, windows := t.windows.map (fun w => { w with count := w.count - 1 }) ++ ws }

/-- An instruction of R37's closing list closes every window before it issues. -/
def Thread.closeAll (t : Thread) : Thread := { t with windows := t.windows.map fun w => { w with count := 0 } }

/-- Before a closing instruction: lanes whose windows have closed go on, the others are held or parked. -/
def State.closeLanes (s : State) : List LaneId → List LaneId × State
  | [] => ([], s)
  | id :: rest =>
    let t := s.thread id
    let p : Bool × State :=
      if t.windows.isEmpty then (true, s)
      else
        let s := s.putThread t.closeAll
        let s := s.deliver id (s.thread id).windows
        let t := s.thread id
        if decide (t.wait = .faulted) then (false, s)
        else if t.windows.isEmpty then (true, s)
        else (false, s.putThread { t with wait := .held })
    let q := p.2.closeLanes rest
    (if p.1 then id :: q.1 else q.1, q.2)

/-! ### Frames (R219, R222, R396) -/

def frameSize (width nreg : Nat) (ss : Word) : Nat := 256 + width * nreg * 8 + width * ss.toNat

/-- The fields `wm`, `wv` and `wt` of word 0x1c, and `saved` and `wb` above them, as the task's end writes them (R219).
A field that the kind of end does not write keeps its value. -/
def Task.restNow (t : Task) : Nat :=
  match t.agreed with
  | none => t.rest
  | some g =>
    let ops := if g.kind = 2 then g.wm * 2 ^ 23 + g.wv * 2 ^ 16 else bits t.rest 29 16 * 2 ^ 16
    let win := if g.kind = 3 then t.rest / 2 ^ 32 else (g.wb + 111) * 2 ^ 16 + g.wb
    ops + g.wt * 2 ^ 10 + win * 2 ^ 32

/-- Word 0x1c and doubleword 0x30 of a header. -/
def Task.kindWord (t : Task) : Nat := t.kind * 2 ^ 30 + bits t.restNow 29 10 * 2 ^ 10

def Task.wbWord (t : Task) : Nat := t.nkid * 2 ^ 32 + bits t.restNow 63 32

/-- A notice as the bytes 0x40 to 0xff of a frame. -/
def Notice.bytes (n : Notice) : List Byte :=
  toBytes n.sig.toNat 128 ++
    (List.range 8).flatMap fun i => toBytes (match nth? n.list i with
      | some l => l * 128 % 2 ^ 48 + 1
      | none => 0) 8

/-- The 256 bytes of a header. -/
def Task.header (t : Task) : List Byte :=
  toBytes (t.parent + t.parentPkg * 2 ^ 48) 8 ++ toBytes t.cont.toNat 8 ++ toBytes t.pending 4 ++ toBytes t.tix 4 ++
  toBytes t.desc.toNat 4 ++ toBytes t.kindWord 4 ++ toBytes t.entry.toNat 8 ++ toBytes t.arg.toNat 8 ++
  toBytes t.wbWord 8 ++ toBytes t.ctx 8 ++ t.notice.bytes

/-- Cut bytes at an address into pieces that lie in one 512-byte block each. -/
def pieces : Nat → Nat → List Byte → List (Nat × List Byte)
  | 0, _, _ => []
  | n + 1, a, bs =>
    if bs.isEmpty then []
    else
      let k := 512 - a % 512
      (a, bs.take k) :: pieces n (a + k) (bs.drop k)

def cut (a : Nat) (bs : List Byte) : List (Nat × List Byte) := pieces (bs.length / 512 + 2) a bs

/-- A block of an allocated frame, as it was found last. -/
def State.frameBlock? (s : State) (ctx frame va : Nat) : Option FrameBlock :=
  s.frameMap.find? fun f => f.ctx == ctx && f.frame == frame && f.block == va / 512

def State.putFrameBlock (s : State) (f : FrameBlock) : State :=
  { s with frameMap := upsert (fun x => x.ctx == f.ctx && x.frame == f.frame && x.block == f.block) f s.frameMap }

/-- The block of a frame that an access has translated. -/
def Trans.frameBlock (t : Trans) (ctx frame va : Nat) : FrameBlock :=
  let o := va % 512
  let target : Target := match t.target with
    | .device a => .device (a - o)
    | .host a => .host (a - o)
    | .fabric p g => .fabric p (g - o)
  { ctx := ctx, frame := frame, block := va / 512, target := target, gpa := t.gpa - o, key := t.key, ce := t.ce, vf := t.vf }

/-- The translation that a frame's block keeps while its page cannot be reached. -/
def FrameBlock.trans (f : FrameBlock) (va : Nat) : Trans :=
  { target := f.target.plus (va % 512), gpa := f.gpa + va % 512, key := f.key, ce := f.ce, vf := f.vf }

/-- Where a frame move has put the block of a target, while the move is under way (R279). -/
def State.movedTo (s : State) (t : Trans) : Option Trans :=
  match t.target with
  | .device a =>
    let b := SMap.get 0 s.moved (blockOf a)
    if b = 0 then none else some { t with target := .device ((b - 1) * 512 + a % 512) }
  | _ => none

/-- A device write to a frame, against the frame's reservations (R396): none is refused. Where the page cannot be translated
now, the write goes where the block lay, and where a move has put it (DEDUCED, log 143). -/
def State.frameWrite (s : State) (core ctx frame off : Nat) (bs : List Byte) : State :=
  (cut (frame + off) bs).foldl (fun s p =>
    let put (t : Trans) (s : State) : State :=
      (s.writePiece core ctx p.1 { vf := t.vf, gpa := t.gpa, key := t.key, ce := t.ce, fund := .resv (.inr (ctx, frame)) false } t p.2).2
    match s.translate core ctx p.1 .store with
    | (.ok t, s) => put t (if (s.frameBlock? ctx frame p.1).isSome then s.putFrameBlock (t.frameBlock ctx frame p.1) else s)
    | (.error _, s) =>
      match s.frameBlock? ctx frame p.1 with
      | none => s
      | some f =>
        let t := f.trans p.1
        match s.movedTo t with
        | some u => put u (put t s)
        | none => put t s) s

/-! #### The save area (R219, R324) -/

/-- `tmode` as `rds` reads it (R24): carve [11:8], flags [6:2], rm [1:0]. -/
def tmodeWord (split : Nat) (t : Thread) : Word :=
  BitVec.ofNat 64 (split % 16 * 256 + t.flags.toNat * 4 + t.rm.toNat)

/-- The RW fields that live in the thread. -/
def Thread.setTmode (t : Thread) (w : Word) : Thread :=
  { t with flags := BitVec.ofNat 5 (bits w.toNat 6 2), rm := BitVec.ofNat 2 (bits w.toNat 1 0) }

/-- Registers that hold these doublewords from physical number `p` on. -/
def regsFrom (p : Nat) : List Word → SMap Word
  | [] => []
  | w :: t => if w = 0 then regsFrom (p + 1) t else (p, w) :: regsFrom (p + 1) t

/-- The doublewords of `n` · 8 bytes. -/
def wordsOf : Nat → List Byte → List Word
  | 0, _ => []
  | n + 1, bs => BitVec.ofNat 64 (ofBytes (bs.take 8)) :: wordsOf n (bs.drop 8)

/-- The thread's own registers, also while it is to reissue L with those of L (DEDUCED, log 22). -/
def Thread.ownRegs (t : Thread) : SMap Word :=
  match t.reissue with
  | none => t.regs
  | some r => r.regs

def Thread.withOwnRegs (t : Thread) (m : SMap Word) : Thread :=
  match t.reissue with
  | none => { t with regs := m }
  | some r => { t with reissue := some { r with regs := m } }

/-- A thread's registers p1 to p(nreg − 1), with `tmode` in the slot of p0. -/
def threadBytes (split : Nat) (t : Thread) (n : Nat) : List Byte :=
  toBytes (tmodeWord split t).toNat 8 ++ (List.range (n - 1)).flatMap fun i => toBytes (SMap.get 0 t.ownRegs (i + 1)).toNat 8

/-- The thread as its slot of the save area says. -/
def Thread.withSlot (t : Thread) (ws : List Word) : Thread := (t.setTmode ((ws.head?).getD 0)).withOwnRegs (regsFrom 1 ws.tail)

/-- The four lines of a block, or as many as `n` bytes touch: an owner of one writes it back before an agent without an L1 reads
it (R253). -/
def State.linesHome (s : State) (a n : Nat) : State :=
  (List.range ((a % 128 + n + 127) / 128)).foldl (fun s i => s.comeHome (a + 128 * i)) s

/-- Bytes of a context's memory as an agent without an L1 reads them for it on a core. Those of another package are not to be
had at once. -/
def State.readBack (s : State) (core ctx va n : Nat) : Peek × State :=
  (cut va (List.replicate n 0)).foldl (fun r p =>
    match r.1 with
    | .bytes bs =>
      match r.2.translate core ctx p.1 .load with
      | (.error f, s) => if f.waits then (.later (s.pageStall ctx f), s) else (.fault 16 f.sub f.gpa, s)
      | (.ok t, s) =>
        let m := p.2.length
        match t.target with
        | .device a =>
          let s := s.linesHome a m
          if s.bad a then (.fault 18 0 (BitVec.ofNat 64 t.gpa), s) else (.bytes (bs ++ s.viewBytes t.vf t.key a m), s)
        | .host a => if s.hostBad a m then (.fault 18 1 (BitVec.ofNat 64 t.gpa), s) else (.bytes (bs ++ readMap 0 s.hostMem a m), s)
        | .fabric _ _ => (.later .code, s)
    | _ => r) (.bytes [], s)

/-- What a restore finds at a place that a spill has written (R324, R325): the bytes that stand there. Where a block cannot be read, the
context stops; what is not to be had at once comes back as it was written (DESIGN CHOICE, log 163). -/
def State.reread (s : State) (core ctx va n : Nat) (keep : List Byte) : List Byte × State :=
  match s.readBack core ctx va n with
  | (.bytes bs, s) => (bs, s)
  | (.fault c u _, s) => (keep, s.stopCtx ctx { cause := c, sub := u })
  | (.later _, s) => (keep, s)

/-- A thread of a spilled group with what its slot of the save area holds (R324). -/
def State.rereadThread (s : State) (g : Group) (split : Nat) (t : Thread) : Thread × State :=
  let n := g.nreg
  let r := s.reread g.core g.ctx (g.frame + 256 + 8 * (t.id.tid * n)) (8 * n) (threadBytes split t n)
  (t.withSlot (wordsOf n r.1), r.2)

/-- The thread's slot of the save area is written (R324). -/
def State.saveSlot (s : State) (g : Group) (split : Nat) (t : Thread) : State :=
  s.frameWrite g.core g.ctx g.frame (256 + 8 * (t.id.tid * g.nreg)) (threadBytes split t g.nreg)

/-- A thread of a context with its group, where the group is spilled. -/
def State.spilledThread? (s : State) (id : LaneId) (ctx : Nat) : Option (Group × Thread) :=
  s.spilled.findSome? fun x =>
    if x.core == id.core && x.ctx == ctx then
      x.groups.findSome? fun p => (p.2.find? fun t => decide (t.id = id)).map fun t => (p.1, t)
    else none

/-- Change registers or flags of a thread, resident or spilled: those of a spilled one stand in the save area (R324). -/
def State.modSaved (s : State) (id : LaneId) (ctx : Nat) (f : Thread → Thread) : State :=
  match s.spilledThread? id ctx with
  | none => s.modLane id ctx f
  | some p =>
    let split := (s.coreAt id.core).split
    let r := s.rereadThread p.1 split p.2
    let u := { f r.1 with id := id }
    (r.2.modLane id ctx fun _ => u).saveSlot p.1 split u

def State.writeHeader (s : State) (core : Nat) (t : Task) : State := s.frameWrite core t.ctx t.frame 0 t.header

/-- Change a task and its header in memory. -/
def State.saveTask (s : State) (core : Nat) (t : Task) : State := (s.putTask t).writeHeader core t

/-- A new task and its header; the header's fields that no end has written yet hold a free value (DESIGN CHOICE, log 21). -/
def State.newTask (s : State) (core : Nat) (t : Task) : State :=
  let w := s.freeVal
  (w.2.dropOld t).saveTask core { t with rest := w.1.toNat }

/-- A frame's notice grows (R257). -/
def State.notice (s : State) (core ctx frame : Nat) (f : Notice → Notice) : State :=
  match s.task? ctx frame with
  | none => s
  | some t =>
    let t' := { t with notice := f t.notice }
    if t' = t then s else (s.putTask t').frameWrite core ctx frame 0x40 t'.notice.bytes

/-- Allocated stretches of a context's heap, in granules, ascending. -/
def State.heapUsed (s : State) (ctx : Nat) : List (Nat × Nat) :=
  (s.tasks.filter fun t => t.ctx == ctx).foldl (fun l t => insertIv (t.frame / 256, t.granules) l) []

def granulesOf (size : Nat) : Nat := (size + 255) / 256

/-- Whether the heap's free granules hold `n` frames of `size` bytes. -/
def State.heapHolds (s : State) (c : Ctx) (n size : Nat) : Bool :=
  decide (n ≤ fits (granulesOf size) (gaps (c.hbase.toNat / 256) ((c.hbase.toNat + c.hsize.toNat) / 256) (s.heapUsed c.id)))

/-- Frame addresses for `n` frames. -/
def State.allocFrames (s : State) (c : Ctx) (n size : Nat) : List Nat × State :=
  let r := s.places (c.hbase.toNat / 256) ((c.hbase.toNat + c.hsize.toNat) / 256) (granulesOf size) (s.heapUsed c.id) n
  (r.1.map (· * 256), r.2)

/-- The distinct berths of lanes, in lane order. -/
def berthsOf (ids : List LaneId) : List Nat := (ids.map (·.berth)).eraseDups

/-- Lanes wait at their instruction. -/
def State.stallLanes (s : State) (ids : List LaneId) (why : Stall) : State :=
  ids.foldl (fun s i => s.modThread i fun t => { t with wait := .stalled why }) s

/-- Why a frame's blocks failed: cause, subcause, GPA, block address. -/
structure FrameFail where
  cause : Nat
  sub : Nat
  gpa : Word
  addr : Nat
  deriving DecidableEq, Repr

/-- The frame only waits for a page of host memory. -/
def FrameFail.waits (f : FrameFail) : Bool := f.cause == 16 && f.sub == pageWait

def FrameFail.stall (f : FrameFail) (s : State) (ctx : Nat) : Stall := .page (s.vfOf ctx) f.gpa.toNat

/-- Translate the blocks from `b`, `n` of them, as stores, and take the frame's reservations (R396). -/
def State.reserveBlocks (s : State) (core ctx frame b : Nat) : Nat → Except FrameFail State
  | 0 => .ok s
  | n + 1 =>
    match s.translate core ctx (b * 512) .store with
    | (.error f, _) => .error ⟨16, f.sub, f.gpa, b * 512⟩
    | (.ok t, s) =>
      let s := s.putFrameBlock (t.frameBlock ctx frame (b * 512))
      match t.target with
      | .device a =>
        if s.needsGrowth t.ce (blockOf a) (.inr (ctx, frame)) then
          match s.grantGrowth t.vf (blockOf a) (.inr (ctx, frame)) with
          | none => .error ⟨17, blockStack (blockOf a), BitVec.ofNat 64 t.gpa, b * 512⟩
          | some s => s.reserveBlocks core ctx frame (b + 1) n
        else s.reserveBlocks core ctx frame (b + 1) n
      | _ => s.reserveBlocks core ctx frame (b + 1) n

/-- The blocks that a header and a save area touch, and for a trap task its record behind the stacks. -/
def State.reserveFrame (s : State) (core ctx frame width nreg : Nat) (record : Option Nat) : Except FrameFail State :=
  let n := (frame + 256 + width * nreg * 8 + 511) / 512 - frame / 512
  match s.reserveBlocks core ctx frame (frame / 512) n with
  | .error f => .error f
  | .ok s =>
    match record with
    | none => .ok s
    | some r => s.reserveBlocks core ctx frame (r / 512) ((r + 64 + 511) / 512 - r / 512)

/-- The frame's reservations end and its granules return (R199, R396). -/
def State.freeFrame (s : State) (ctx frame : Nat) : State :=
  let mine := s.resvs.filter fun r => decide (r.holder = .inr (ctx, frame))
  let s := (mine.foldl (fun s r => s.releaseResv r.block r.holder) s).dropTask ctx frame
  { s with frameMap := s.frameMap.filter fun f => !(f.ctx == ctx && f.frame == frame) }

/-- Children, continuations and trap tasks wait in the dispatcher, oldest first (R223). -/
def State.enqueue (s : State) (t : Task) : State := { s with waiting := s.waiting ++ [(t.ctx, t.frame)] }

/-! ### Publication by a task (R255) -/

/-- A frame's notice takes published lines, and those that its threads have written (R240, R255). -/
def State.noteLines (s : State) (core ctx frame : Nat) (ls : List Nat) : State :=
  let l := ls ++ s.wroteBy ctx frame
  if l.isEmpty then s else (s.forgetWrites ctx frame).notice core ctx frame fun n => n.addAll l

/-- The task's core publishes, and the frame's notice takes the lines. -/
def State.publish (s : State) (core ctx frame : Nat) : State :=
  let p := s.publishLines core ctx
  p.2.noteLines core ctx frame p.1

/-- Every group among the lanes publishes; all of their notices take the lines. -/
def State.publishGroups (s : State) (core ctx : Nat) (ids : List LaneId) : State :=
  let p := s.publishLines core ctx
  (berthsOf ids).foldl (fun s b => match s.group? core b with
    | some g => s.noteLines core ctx g.frame p.1
    | none => s) p.2

/-! ### Taking a trap, and returning from one (R210 to R212, R214) -/

/-- A trap on lanes of one group: they park, and a trap task is queued at `sy.tvec`; where there can be none, the
context stops. The trapped threads' publication comes first (R209). -/
def State.takeTrap (s : State) (core berth : Nat) (ids : List LaneId) (cause : Nat) (fva ifa epc : Word) : State :=
  match s.group? core berth with
  | none => s
  | some g =>
    match s.ctx? g.ctx, s.task? g.ctx g.frame with
    | some c, some t =>
      let s := s.publish core g.ctx g.frame
      if s.unacked core g.ctx then s.stallLanes ids .unacked
      else
        let rep : StopReport := { cause := cause, value := if cause = 9 then fva else 0 }
        let park (f : Nat) (s : State) : State :=
          ids.foldl (fun s i => (s.modThread i fun t => { t with wait := .trapped f }).leave i) s
        let stop (s : State) : State := (park 0 s).stopCtx g.ctx rep
        if c.tvec = 0 ∨ t.trap.isSome then stop s
        else
          match s.peek core g.ctx ((c.tvec - 8).toNat) 8 .load with
          | (.bytes bs, s) =>
            match taskDesc (ofBytes bs) with
            | none => stop s
            | some d =>
              let size := frameSize d.width d.nreg c.ss
              if d.pair || !s.heapHolds c 1 (size + 64) then stop s
              else
                let r := s.allocFrames c 1 (size + 64)
                let f := (nth? r.1 0).getD 0
                match r.2.reserveFrame core g.ctx f d.width d.nreg (some (f + size)) with
                | .error e => if e.waits then s.stallLanes ids (e.stall s g.ctx) else stop s
                | .ok s =>
                  let info : TrapInfo :=
                    { cause := cause, fva := fva, ifa := ifa, epc := epc, trec := f + size, parked := laneMask ids,
                      core := core, berth := berth, frame := g.frame }
                  let n := ((s.task? g.ctx g.frame).map (·.notice)).getD {}
                  let t' : Task :=
                    { ctx := g.ctx, frame := f, width := d.width, nreg := d.nreg, prio := t.prio, phase := .queued,
                      origin := core, nkid := 1, desc := BitVec.ofNat 32 d.raw, entry := c.tvec,
                      arg := BitVec.ofNat 64 (f + size), notice := n, trap := some info, granules := granulesOf (size + 64) }
                  let s := s.newTask core t'
                  let rec64 := toBytes (cause + 256 * g.width) 8 ++ toBytes ifa.toNat 8 ++ toBytes fva.toNat 8 ++
                    toBytes epc.toNat 8 ++ toBytes (laneMask ids).toNat 8 ++ toBytes g.frame 8 ++
                    toBytes (core + 256 * berth) 8 ++ toBytes g.ctx 8
                  let s := s.frameWrite core g.ctx f size rec64
                  (park f s).enqueue t'
          | (.later why, s) => s.stallLanes ids why
          | (_, s) => stop s
    | _, _ => s

/-- The threads of a trapped group, resident or spilled (R324), that this trap still parks. -/
def State.parkedBy (s : State) (ctx : Nat) (i : TrapInfo) (frame : Nat) : List LaneId :=
  ((s.threadsOf ctx).filter fun t => t.id.core == i.core && t.id.berth == i.berth && decide (t.wait = .trapped frame) &&
    i.parked.getLsbD t.id.tid).map (·.id)

/-- The record's mask loses the bits of `ids`, in the trap task and in memory. -/
def State.clearMask (s : State) (core : Nat) (t : Task) (i : TrapInfo) (ids : List LaneId) : State :=
  let m := i.parked &&& ~~~(laneMask ids)
  let s := s.putTask { t with trap := some { i with parked := m } }
  s.frameWrite core t.ctx t.frame (i.trec - t.frame + 0x20) (toBytes m.toNat 8)

/-- A resumed thread restarts at `sy.epc`. One that was to reissue L alone and is sent elsewhere gives L up. -/
def Thread.restartAt (u : Thread) (epc : Word) : Thread :=
  match u.reissue with
  | none => { u with pc := epc }
  | some r => if epc = u.pc then u else { u with pc := epc, wb := r.wb, regs := r.regs, reissue := none }

/-- The return from a trap: the threads restart at `sy.epc` with their registers and windows (R214); each that restarts at the trapped
instruction reissues it for itself (R120). The trap task's
publication and notice come first; each resumed thread's core self-invalidates by it (R209, R257). -/
def State.resumeFrom (s : State) (core : Nat) (t : Task) (mask : Word) : State :=
  match t.trap with
  | none => s
  | some i =>
    let ids := (s.parkedBy t.ctx i t.frame).filter fun x => mask.getLsbD x.tid
    let n := ((s.task? t.ctx t.frame).map (·.notice)).getD {}
    let s := s.notice i.core t.ctx i.frame fun m => m.merge n
    let s := s.applyNotice i.core t.ctx n
    let t := (s.task? t.ctx t.frame).getD t
    let s := s.clearMask core t i ids
    let s := ids.foldl (fun s x => s.modSaved x t.ctx fun u => { u.restartAt i.epc with wait := .ready, alone := decide (i.epc = i.ifa) }) s
    s.joinAll (ids.filter fun x => (s.thread x).ctx == t.ctx)

/-! ### The end of threads and tasks (R195 to R200, R214, R218) -/

/-- The home of a `waitge` condition, where the save area holds another address than the one that `waitge` had: the address is
read there (R219). -/
def State.findWait (s : State) (t : Task) (g : Agreed) : Task × State :=
  match s.savedReg t g g.wm with
  | none => (t, s)
  | some ea =>
    if ea = g.addr.toNat then (t, s)
    else
      match s.translate t.origin t.ctx ea .load with
      | (.ok u, s) =>
        match u.target with
        | .device a =>
          let t := { t with waitAt := some (a, u.key), waitGpa := u.gpa, agreed := some { g with addr := BitVec.ofNat 64 ea } }
          (t, s.putTask t)
        | _ => (t, s)
      | (.error _, s) => (t, s)

/-- The continuation of an ended task is released when nothing is pending; for `waitge` the home's value decides
(R198). -/
def State.tryRelease (s : State) (t : Task) : State :=
  match t.agreed with
  | none => s
  | some g =>
    if t.phase ≠ .waiting ∨ t.pending ≠ 0 then s
    else if g.kind = 1 then s.releaseWait t .plain
    else
      let p := s.findWait t g
      if p.2.waitHolds p.1 then p.2.releaseWait p.1 (p.2.lastWrite p.1) else p.2

/-! ### Barriers among groups (R203, R204) -/

/-- The barrier of an instance; at the pod level a gang's member contexts share it (R203). -/
def isBarrier (level inst ctx slot : Nat) (b : Barrier) : Bool :=
  b.level == level && b.inst == inst && (level == 5 || b.ctx == ctx) && b.slot == slot

def State.putBarrier (s : State) (b : Barrier) : State :=
  { s with barriers := upsert (isBarrier b.level b.inst b.ctx b.slot) b s.barriers }

/-- A group of a context, resident in its berth or spilled from it, with its threads. -/
def State.groupOf? (s : State) (core berth ctx : Nat) : Option (Group × List Thread) :=
  match s.groups.find? fun g => g.core == core && g.berth == berth && g.ctx == ctx with
  | some g => some (g, s.groupThreads core berth)
  | none => s.spilled.findSome? fun x =>
    if x.core == core && x.ctx == ctx then x.groups.find? fun p => p.1.berth == berth else none

/-- The merged notice of the groups that have arrived. -/
def State.barNotice (s : State) (ctx : Nat) (gs : List (Nat × Nat)) : Notice :=
  gs.foldl (fun n g => n.merge ((((s.groupOf? g.1 g.2 ctx).bind fun p => s.task? ctx p.1.frame).map (·.notice)).getD {})) {}

/-- A notice in the three data flits of a gang-control packet (R369). -/
def Notice.flits (n : Notice) : BitVec 1536 :=
  let list := (List.range 8).foldl (fun m i => m + (match nth? n.list i with
    | some l => (l * 128 % 2 ^ 48 + 1) * 2 ^ (64 * i)
    | none => 0)) 0
  BitVec.ofNat 1536 (list + 2 ^ 512 * n.sig.toNat)

/-- What this package tells the coordinator of a pod-level generation (R369). -/
def State.podArrival (s : State) (b : Barrier) : Packet :=
  { s.packetFor b.ctx 10 (((s.gangEntry b.inst).map fun g => g.2.coord).getD 0) 0 with
    src := s.hm.pkgid, op := 5, opd0 := BitVec.ofNat 64 (8 * b.slot + 256 * (b.generation % 2 ^ 24))
    opd1 := BitVec.ofNat 64 (b.arrived.length + 2 ^ 32 * b.registered.length)
    data := (s.barNotice b.ctx b.arrived).flits }

/-- Arrivals and registrations at the coordinator, when that is this package. -/
def Barrier.fromPkg (b : Barrier) (pkg arrived registered : Nat) (n : Notice) : Barrier :=
  { b with pods := (b.pods.filter fun p => p.1 != pkg) ++ [(pkg, arrived, registered)], podNotice := b.podNotice.merge n }

/-- A change of a barrier's groups; at the pod level the coordinator is told. -/
def State.barChanged (s : State) (b : Barrier) : State :=
  if b.level ≠ 5 then s.putBarrier b
  else
    let coord := ((s.gangEntry b.inst).map fun g => g.2.coord).getD 0
    if coord = s.hm.pkgid then
      s.putBarrier (b.fromPkg coord b.arrived.length b.registered.length (s.barNotice b.ctx b.arrived))
    else (s.putBarrier b).emit (s.podArrival b)

/-- Barrier registrations of an ended task lapse (R195, R204); at the pod level the coordinator is told. -/
def State.lapse (s : State) (core berth ctx : Nat) : State :=
  let mine (p : Nat × Nat) : Bool := p.1 == core && p.2 == berth
  (s.barriers.filter fun b => b.ctx == ctx && (b.registered.any mine || b.arrived.any mine)).foldl (fun s b =>
    s.barChanged { b with registered := b.registered.filter (fun p => !mine p), arrived := b.arrived.filter fun p => !mine p }) s

def wordLevel (w : Word) : Nat := bits w.toNat 2 0
def wordSlot (w : Word) : Nat := bits w.toNat 6 3

/-- The instance of a level that holds a core; the gang for the pod. -/
def State.barInst (s : State) (core ctx level : Nat) : Nat :=
  if level = 1 then core else if level = 2 then quadOf core else if level = 3 then dieOf core
  else if level = 4 then 0 else s.gidOf ctx

/-- Whether the control word keeps to the table of R203. Every use of level 5 by a context that a valid gang entry names is legal
(DEDUCED from R369, DEDUCED, log 155). -/
def State.barLegal (s : State) (ctx : Nat) (w : Word) : Bool :=
  decide (w.toNat < 128) && decide (1 ≤ wordLevel w) && decide (wordLevel w ≤ 5) &&
  (wordLevel w != 5 || (s.gangEntry (s.gidOf ctx)).isSome)

def State.barrier (s : State) (core ctx : Nat) (w : Word) : Barrier :=
  let level := wordLevel w
  let inst := s.barInst core ctx level
  { (s.barriers.find? (isBarrier level inst ctx (wordSlot w))).getD { level := level, inst := inst, ctx := ctx, slot := wordSlot w } with
    ctx := ctx }

/-- Once every counted thread of a group waits at `barl`, the word is voted and the group arrives (R204). Where the vote fails, the
trap's `ifa` and `epc` are the first thread's address, also for threads that wait at another (DESIGN CHOICE, log 156). -/
def State.groupArrive (s : State) (core berth : Nat) : State :=
  match s.group? core berth with
  | none => s
  | some g =>
    let ts := (s.groupThreads core berth).filter fun t => !decide (t.wait = .exited)
    let ws := ts.filterMap fun t => match t.wait with
      | .atBarl w => some w
      | _ => none
    match ws with
    | [] => s
    | w :: _ =>
      if ws.length ≠ ts.length then s
      else if ws.all fun x => decide (x = w) then
        let b := s.barrier core g.ctx w
        if has b.arrived (core, berth) then s else s.barChanged { b with arrived := b.arrived ++ [(core, berth)] }
      else
        let pc := ((ts.head?).map (·.pc)).getD 0
        s.takeTrap core berth (sortLanes (ts.map (·.id))) 3 1 pc pc

/-- Fresh threads of a group at its start (R19, R194). -/
def startThread (t : Task) (core berth : Nat) (ss : Word) (tid : Nat) : Thread :=
  let sp := t.frame + 256 + t.width * t.nreg * 8 + ss.toNat * (tid + 1)
  let r : SMap Word := []
  let r := SMap.set 0 r 1 (BitVec.ofNat 64 sp)
  let r := SMap.set 0 r 3 (BitVec.ofNat 64 t.frame)
  let r := SMap.set 0 r 4 t.arg
  let r := SMap.set 0 r 5 (BitVec.ofNat 64 t.tix)
  let r := SMap.set 0 r 6 (BitVec.ofNat 64 t.nkid)
  let r := SMap.set 0 r 7 (BitVec.ofNat 64 tid)
  { id := ⟨core, berth, tid⟩, ctx := t.ctx, pc := t.entry, regs := r, rm := t.rm }

def State.addThreads (s : State) (ts : List Thread) : State := ts.foldl State.putThread s

/-- A thread's share of queued operations' flags is gone (R67). -/
def State.dropWork (s : State) (ctx : Nat) (id : LaneId) : State :=
  s.modCore (leaderOf id.core) fun k =>
    { k with matQ := k.matQ.map fun o : MatOp =>
      if o.ctx = ctx then { o with lanes := o.lanes.filter fun x => !decide (x = id) } else o }

/-- The successor starts in the berth of its task (R200, R227); the threads that have ended take no part in queued work any more
(R67). -/
def State.startSuccessor (s : State) (core berth : Nat) (g : Group) (t : Task) (pc : Word) (d : TaskDesc) : State :=
  let ss := ((s.ctx? t.ctx).map (·.ss)).getD 0
  let t := { t with entry := pc, desc := BitVec.ofNat 32 d.raw, nreg := d.nreg, kind := 0, rest := t.restNow, agreed := none, saved := [],
                    trap := none, privEpc := 0 }
  let s := s.saveTask core t
  let s := s.applyNotice core t.ctx t.notice
  let s := s.putGroup { g with nreg := d.nreg }
  let rmOf (i : Nat) : BitVec 2 := ((t.endRm.find? fun p => p.1 == i).map (·.2)).getD 0
  let ts := (List.range t.width).map fun i => { startThread t core berth ss i with rm := rmOf i }
  let s := ts.foldl (fun s u => s.dropWork t.ctx u.id) (s.putTask { t with endRm := [], lastEnd := none })
  let s := s.addThreads ts
  s.readyAll (ts.map (·.id))

/-- A follower is released when the last pair group of the context on the leader has ended and the context's pair
operations have retired (R225). -/
def State.releasePair (s : State) (core : Nat) : State :=
  match (s.coreAt (core + 1)).pairCtx with
  | none => s
  | some ctx =>
    if isLeader core && !(s.groups.any fun g => g.core == core && g.ctx == ctx && g.pair) &&
        !(s.spilled.any fun x => x.core == core && x.ctx == ctx && x.groups.any fun p => p.1.pair) &&
        !((s.coreAt core).matQ.any fun o => o.pair && o.ctx == ctx) then
      s.modCore (core + 1) fun k => { k with pairCtx := none }
    else s

/-- The berth, its registers and its threads are given back (R218). -/
def State.leaveBerth (s : State) (core berth : Nat) : State :=
  let s := s.modCore core fun k => { k with ring := (s.groupThreads core berth).foldl (fun r t => leaveRing t.id r) k.ring }
  (s.dropGroup core berth).releasePair core

/-- What the successor's descriptor says. -/
inductive SuccDesc
  | suits (d : TaskDesc)
  | bad
  /-- it lies in another package, or on a page of host memory, that has still to answer -/
  | later
  deriving DecidableEq, Repr

/-- The successor's descriptor, where it suits the task (R200). -/
def State.successorDesc (s : State) (core : Nat) (t : Task) (pc : Word) : SuccDesc × State :=
  match s.peek core t.ctx ((pc - 8).toNat) 8 .load with
  | (.bytes bs, s) =>
    (match taskDesc (ofBytes bs) with
     | some d => if d.width = t.width ∧ d.pair = t.pair ∧ d.nreg ≤ t.nreg then .suits d else .bad
     | none => .bad, s)
  | (.later _, s) => (.later, s)
  | (.fault _ _ _, s) => (.bad, s)

/-- The outgoing edge of a task's end, and the lapse of its registrations (R195). -/
def State.endEdge (s : State) (core berth : Nat) (t : Task) : State := (s.publish core t.ctx t.frame).lapse core berth t.ctx

/-- A task whose threads have ended with a successor: it starts, or it is pending while its descriptor is on its way or
writes of the context are to be acknowledged (R200, R219, R255). -/
def State.succeed (s : State) (core berth : Nat) (g : Group) (t : Task) (pc : Word) (last : Option (LaneId × Word)) : State :=
  let now (s : State) : Task := { (s.task? g.ctx g.frame).getD t with origin := core }
  let pend (s : State) : State := s.saveTask core { now s with kind := 3, lastEnd := last }
  match s.successorDesc core t pc with
  | (.later, s) => pend s
  | (.suits d, s) =>
    let s := s.endEdge core berth t
    if s.unacked core g.ctx then pend s else s.startSuccessor core berth g (now s) pc d
  | (.bad, s) =>
    match last with
    | some p =>
      let s := s.saveTask core { now s with kind := 0, lastEnd := none }
      let s := s.modThread p.1 fun u => { u with wait := .ready, pc := p.2 }
      s.takeTrap core berth [p.1] 1 pc p.2 p.2
    | none => (s.saveTask core { now s with kind := 0 }).stopCtx g.ctx { cause := 1, value := pc }

/-- End of a task whose last thread has ended (R195, R199, R200, R218). `last` is the thread that ended last by an
instruction, if one did, with that instruction's address; it takes the trap of a bad successor. -/
def State.endTask (s : State) (core berth : Nat) (last : Option (LaneId × Word)) : State :=
  match s.group? core berth with
  | none => s
  | some g =>
    match s.task? g.ctx g.frame with
    | none => s.leaveBerth core berth
    | some t =>
      let now (s : State) : Task := { (s.task? g.ctx g.frame).getD t with origin := core }
      match t.agreed with
      | none =>
        let s := s.endEdge core berth t
        (s.saveTask core { now s with phase := .ending }).leaveBerth core berth
      | some a =>
        if a.kind = 3 then s.succeed core berth g t a.cont last
        else
          let s := s.endEdge core berth t
          let t := { now s with phase := .waiting, kind := a.kind, cont := a.cont }
          ((s.saveTask core t).leaveBerth core berth).tryRelease t

/-- A thread of a task, resident or spilled, has exited: its windows are gone (R94, R214); the rounding mode that it held goes to a
successor (R200). -/
def State.exitOnly (s : State) (ctx frame : Nat) (id : LaneId) : State :=
  let rm := ((s.threadsOf ctx).find? fun t => decide (t.id = id)).map (·.rm)
  let s := match s.task? ctx frame with
    | none => s
    | some t => s.putTask { t with endRm := (t.endRm.filter fun p : Nat × BitVec 2 => p.1 != id.tid) ++ [(id.tid, rm.getD 0)] }
  let s := s.modLane id ctx fun t => { t with wait := .exited, windows := [] }
  if (s.thread id).ctx == ctx then s.leave id else s

/-- The same, and its share of queued operations' flags is gone (R67). -/
def State.exitLane (s : State) (ctx frame : Nat) (id : LaneId) : State := (s.exitOnly ctx frame id).dropWork ctx id

/-- The task of a berth ends when every thread has ended (R195). -/
def State.endIfAll (s : State) (core berth : Nat) (last : Option (LaneId × Word)) : State :=
  if (s.group? core berth).isSome && (s.groupThreads core berth).all fun t => decide (t.wait = .exited) then
    s.endTask core berth last
  else s

/-- What follows when threads of a trapped group have been killed: its task ends, or others that wait at `barl` arrive
(R214). A group that is spilled finds it so when it comes back. -/
def State.afterKill (s : State) (ctx : Nat) (i : TrapInfo) (ended : State → State) : State :=
  match s.group? i.core i.berth with
  | some g => if g.ctx = ctx ∧ g.frame = i.frame then (ended s).groupArrive i.core i.berth else s
  | none => s

/-- After threads of a group have ended: the task ends when every thread has (R195). Threads still parked by a trap task
that has ended are killed (R214). -/
def State.checkEnd (s : State) (core berth : Nat) (last : Option (LaneId × Word)) : State :=
  if (s.group? core berth).isSome && (s.groupThreads core berth).all fun t => decide (t.wait = .exited) then
    match s.taskOf? core berth with
    | none => s.endTask core berth last
    | some t =>
      let s := s.endTask core berth last
      match t.trap with
      | none => s
      | some i =>
        let ids := s.parkedBy t.ctx i t.frame
        if ids.isEmpty then s
        else (ids.foldl (fun s x => s.exitLane t.ctx i.frame x) s).afterKill t.ctx i fun s => s.endIfAll i.core i.berth none
  else s

/-- `kill`: the thread becomes exited and its pending results are dropped (R214). -/
def State.killLanes (s : State) (ctx : Nat) (i : TrapInfo) (ids : List LaneId) : State :=
  (ids.foldl (fun s x => s.exitLane ctx i.frame x) s).afterKill ctx i fun s => s.checkEnd i.core i.berth none

/-! ### The issue of one instruction -/

/-- What the instruction did for one lane. -/
inductive LaneRes
  /-- completes and falls through, opening these windows -/
  | done (ws : List Window)
  /-- completes and goes on at this address -/
  | jump (pc : Word)
  /-- waits at the instruction -/
  | wait (w : Wait)
  /-- has been dealt with -/
  | gone
  | stall (why : Stall)
  | trap (cause : Nat) (fva : Word)
  | fault (cause sub : Nat) (fva gpa : Word)
  deriving DecidableEq, Repr

/-- Run `f` for each lane in lane order. -/
def eachLane (s : State) (f : State → LaneId → State × LaneRes) : List LaneId → State × List (LaneId × LaneRes)
  | [] => (s, [])
  | l :: t =>
    let p := f s l
    let q := eachLane p.1 f t
    (q.1, (l, p.2) :: q.2)

/-- A lane that completes. A lane that reissues L alone after a data error opens no window: the result is written at
once, unless it had been cancelled (R38). -/
def State.complete (s : State) (id : LaneId) (pc : Word) (ws : List Window) : State :=
  let t := s.thread id
  match t.reissue with
  | none =>
    if ws.isEmpty && t.windows.isEmpty then (s.putThread { t with pc := pc, alone := false }).ready id
    else (s.putThread (t.advance pc ws)).proceed id
  | some r =>
    let ws := ws.map fun w => { w with count := 0, cancelled := has r.gone w.phys }
    (s.putThread { t with pc := r.back, wb := r.wb, regs := r.regs, reissue := none, alone := false, windows := t.windows ++ ws }).proceed id

/-- Traps, one per group: the first lane's cause and address, every trapping lane parked (R211). -/
def State.trapGroups (s : State) (core : Nat) (ifa : Word) (len : Nat) (l : List (LaneId × Nat × Word)) : State :=
  (berthsOf (l.map (·.1))).foldl (fun s b =>
    let mine := l.filter fun x => x.1.berth == b
    match mine with
    | [] => s
    | x :: _ =>
      let epc := if x.2.1 = 9 then ifa + BitVec.ofNat 64 len else ifa
      s.takeTrap core b (mine.map (·.1)) x.2.1 x.2.2 ifa epc) s

/-- System faults: for each group one record for each cause, translation first (R273). -/
def State.faultGroups (s : State) (core : Nat) (ifa : Word) (l : List (LaneId × Nat × Nat × Word × Word)) : State :=
  (berthsOf (l.map (·.1))).foldl (fun s b =>
    [16, 17, 18].foldl (fun s c =>
      match l.filter fun x => x.1.berth == b && x.2.1 == c with
      | [] => s
      | x :: r => s.faultLanes 0 core b ((x :: r).map (·.1)) c x.2.2.1 x.2.2.2.1 ifa x.2.2.2.2) s) s

/-- One lane's fate, for a thread core. -/
def State.settleLane (s : State) (ifa : Word) (len : Nat) (p : LaneId × LaneRes) : State :=
  match p.2 with
  | .done ws => s.complete p.1 (ifa + BitVec.ofNat 64 len) ws
  | .jump pc => s.complete p.1 pc []
  | .wait w => s.modThread p.1 fun t => { t with wait := w }
  | .stall why => s.modThread p.1 fun t => { t with wait := .stalled why }
  | _ => s

/-- One lane's fate, for a quay thread: a trap or a system fault writes a record (R168). `brk` continues behind the
instruction when its record is passed (R97). The GPA of a trap's record, which looked up no stage 2, is a free value
(DESIGN CHOICE, log 20). -/
def State.settleQuay (s : State) (ctx : Nat) (ifa : Word) (len : Nat) (p : LaneId × LaneRes) : State :=
  match p.2 with
  | .trap cause fva =>
    let s := if cause = 9 then s.modThread p.1 fun t => { t with pc := ifa + BitVec.ofNat 64 len } else s
    let g := s.freeVal
    g.2.faultQuay p.1.core p.1.tid ctx cause 0 fva ifa g.1 (if cause = 9 then fva else 0)
  | .fault cause sub fva gpa => s.faultQuay p.1.core p.1.tid ctx cause sub fva ifa gpa 0
  | _ => s.settleLane ifa len p

/-- The end of an issue: traps, then system faults, then the lanes that complete, stall or wait, in lane order. -/
def State.conclude (s : State) (i : Issue) (len : Nat) (rs : List (LaneId × LaneRes)) : State :=
  if i.quay then rs.foldl (fun s p => s.settleQuay i.ctx i.pc len p) s
  else
    let traps := rs.filterMap fun p => match p.2 with
      | .trap c f => some (p.1, c, f)
      | _ => none
    let faults := rs.filterMap fun p => match p.2 with
      | .fault c u f g => some (p.1, c, u, f, g)
      | _ => none
    let s := if traps.isEmpty then s else s.trapGroups i.core i.pc len traps
    let s := if faults.isEmpty then s else s.faultGroups i.core i.pc faults
    rs.foldl (fun s p => s.settleLane i.pc len p) s

/-- On which engines an opcode is allowed (R45). -/
inductive Engine | both | thread | quay
  deriving DecidableEq, Repr

def Engine.allows (e : Engine) (quay : Bool) : Bool :=
  match e with
  | .both => true
  | .thread => !quay
  | .quay => quay

/-- The decode checks that depend on the engine: the opcode, and registers above 63 (R21, R44, R45). -/
def engineOk (e : Engine) (rs : List Reg) (quay : Bool) : Bool := e.allows quay && (!quay || rs.all fun r => decide (r.toNat < 64))

abbrev Out := Host.Outcome State Fault Refusal

/-- Issue an instruction of `len` bytes for its lanes; without an issue nothing happens. `rs` are its register fields;
`closes` says that it is one of R37's closing instructions. A decode failure traps every lane and changes nothing else
(R44); the spec states no fault address for it. -/
def issue (s : State) (e : Engine) (rs : List Reg) (len : Nat) (closes : Bool)
    (f : State → Issue → State × List (LaneId × LaneRes)) : Out :=
  match s.issue with
  | none => .next s
  | some i =>
    let s := { s with issue := none }
    if !engineOk e rs i.quay then
      let w := s.freeVal
      .next (w.2.conclude i len (i.lanes.map fun l => (l, .trap 1 w.1)))
    else if closes && !i.quay then
      let p := s.closeLanes i.lanes
      let r := f p.2 { i with lanes := p.1 }
      .next (r.1.conclude i len r.2)
    else
      let r := f s i
      .next (r.1.conclude i len r.2)

/-- An instruction that each lane executes for itself. -/
def perLane (s : State) (e : Engine) (rs : List Reg) (len : Nat) (f : State → LaneId → State × LaneRes) : Out :=
  issue s e rs len false fun s i => eachLane s f i.lanes

/-- An instruction that only changes the thread's registers and flags. -/
def regOp (s : State) (e : Engine) (rs : List Reg) (len : Nat) (f : Thread → Thread) : Out :=
  perLane s e rs len fun s l => (s.putThread (f (s.thread l)), .done [])

/-- The illegal-instruction trap of a decode check on every lane of the issue (R44). -/
def illegal (s : State) (len : Nat) : Out :=
  match s.issue with
  | none => .next s
  | some i =>
    let w := { s with issue := none }.freeVal
    .next (w.2.conclude i len (i.lanes.map fun l => (l, .trap 1 w.1)))

end Sys2Proof.Machine
end

