-- ==== Sys2Proof/Machine/Operands.lean ====
section
/-! DEFINITION. The operand forms: immediates, displacements, branch targets, control words, alignment. -/

namespace Sys2Proof.Machine

/-- v = sext(imm11, 11) (R87). -/
def simm11 (i : BitVec 11) : Word := i.signExtend 64

/-- A + 4 × sext(off) (R30). -/
def targetJ (pc : Word) (o : BitVec 18) : Word := pc + o.signExtend 64 * 4
def targetW (pc : Word) (o : BitVec 25) : Word := pc + o.signExtend 64 * 4

/-- x[a] + disp7 × width (R31, R117). -/
def effAddr (base : Word) (i : BitVec 7) (width : Nat) : Word := base + i.signExtend 64 * BitVec.ofNat 64 width

/-- A multiple of the access width (R118). -/
def aligned (a : Word) (n : Nat) : Bool := a.toNat % n == 0

/-- The shift amount (R80). -/
def shamt (b : Word) : Nat := b.toNat % 64

/-- Position and width of `bfx` and `bfi` (R86). -/
def bfPos (b : Word) : Nat := b.toNat % 64
def bfWidth (b : Word) : Nat := bits b.toNat 12 6

/-- 16 × sext(n, 7) (R92). -/
def winDelta (n : BitVec 7) : Int := 16 * n.toInt

/-- The lookahead count of a destination: with x0 no window stays open, and a quay thread has none (R37, R166). -/
def lookahead (quay : Bool) (d : Reg) (k : BitVec 4) : Nat := if quay || d == 0 then 0 else k.toNat

/-- The physical register of a destination; p0 discards. -/
def destPhys (t : Thread) (d : Reg) : Nat := if d = 0 then 0 else t.phys d

/-- A long-latency instruction issues: it is a writer of xd for the windows that are open (R37). One that reissues was
that writer when it first issued. -/
def Thread.claim (t : Thread) (d : Reg) : Thread := if decide (d = 0) || t.reissue.isSome then t else t.cancel (t.phys d)

/-- The window of a long-latency instruction. -/
def openWindow (t : Thread) (quay : Bool) (d : Reg) (k : BitVec 4) (v : Arrival) (ifa fva : Word) : Window :=
  { phys := destPhys t d, count := lookahead quay d k, arrival := v, ifa := ifa, fva := fva, wb := t.wb, regs := t.regs }

/-- The bitwise vote of a value across lanes (R127, R147, R189). -/
def State.votes {α : Type} [DecidableEq α] (s : State) (ids : List LaneId) (f : Thread → α) : Bool :=
  match ids with
  | [] => true
  | a :: t => t.all fun i => decide (f (s.thread i) = f (s.thread a))

/-- Every lane answers alike. -/
def allRes (ids : List LaneId) (r : LaneRes) : List (LaneId × LaneRes) := ids.map fun i => (i, r)

end Sys2Proof.Machine
end

