-- ==== Sys2Proof/Machine/Flags.lean ====
section
/-! DEFINITION. `tmode`: its sticky flags, rounding mode and carve field (R24, R66, R67, R99). -/

namespace Sys2Proof.Machine

/-- Sticky flags are only ever set by the hardware (R24). -/
def Thread.raise (t : Thread) (f : Flags) : Thread := { t with flags := t.flags ||| f }

def carveField (w : Word) : Nat := bits w.toNat 11 8

/-- A scalar result: the encoding in the low bits, zero above (R54). -/
def fResult (n : Nat) : Word := BitVec.ofNat 64 n

/-- Matrix operations and `acvt`, gathered on by this thread, that have not retired (R67). -/
def State.matrixBusy (s : State) (id : LaneId) : Bool :=
  (s.coreAt (leaderOf id.core)).matQ.any fun o => has o.lanes id && (match o.kind with
    | .aload _ _ _ => false
    | .amax _ => false
    | .mmz _ => false
    | _ => true)

end Sys2Proof.Machine
end

