-- ==== Sys2Proof/Machine/Control.lean ====
section
/-! DEFINITION. Branches, jumps, window moves, `rec`, `brk`, `yield` (R89 to R97, R208). -/

namespace Sys2Proof.Machine

/-- A branch on x[a] (R89). -/
def branch (s : State) (a : Reg) (o : BitVec 18) (c : Int → Bool) : Out :=
  perLane s .both [a] 4 fun s l =>
    let t := s.thread l
    (s, if c (t.rd a).toInt then .jump (targetJ t.pc o) else .done [])

/-- A jump to an address in a register: the target is checked before the PC changes (R34). -/
def jumpTo (s : State) (rs : List Reg) (r : Reg) (link : Bool) : Out :=
  perLane s .both rs 4 fun s l =>
    let t := s.thread l
    let x := t.rd r
    if aligned x 4 then (if link then s.putThread (t.wr 2 (t.pc + 4)) else s, .jump x)
    else (s, .trap 2 x)

/-- `beqz` (R89). -/
def execBeqz (a : Reg) (o : BitVec 18) (s : State) : Out := branch s a o fun v => v == 0

/-- `bnez` (R89). -/
def execBnez (a : Reg) (o : BitVec 18) (s : State) : Out := branch s a o fun v => v != 0

/-- `bltz` (R89). -/
def execBltz (a : Reg) (o : BitVec 18) (s : State) : Out := branch s a o fun v => decide (v < 0)

/-- `bgez` (R89). -/
def execBgez (a : Reg) (o : BitVec 18) (s : State) : Out := branch s a o fun v => decide (0 ≤ v)

/-- `blez` (R89). -/
def execBlez (a : Reg) (o : BitVec 18) (s : State) : Out := branch s a o fun v => decide (v ≤ 0)

/-- `bgtz` (R89). -/
def execBgtz (a : Reg) (o : BitVec 18) (s : State) : Out := branch s a o fun v => decide (0 < v)

/-- `jmp` (R90). -/
def execJmp (o : BitVec 25) (s : State) : Out :=
  perLane s .both [] 4 fun s l => (s, .jump (targetW (s.thread l).pc o))

/-- `call` (R90). -/
def execCall (o : BitVec 25) (s : State) : Out :=
  perLane s .both [] 4 fun s l =>
    let t := s.thread l
    (s.putThread (t.wr 2 (t.pc + 4)), .jump (targetW t.pc o))

/-- `callr` (R91): x[a] is read before x[2] is written. -/
def execCallr (a : Reg) (s : State) : Out := jumpTo s [a] a true

/-- `ret` (R91). -/
def execRet (s : State) : Out := jumpTo s [] 2 false

/-- `jr` (R91). -/
def execJr (a : Reg) (s : State) : Out := jumpTo s [a] a false

/-- `rec` (R94, R95): the thread stops and waits; REC_RELEASE lets it go on. -/
def execRecWait (s : State) : Out :=
  issue s .thread [] 4 true fun s i => (s, allRes i.lanes (.wait .atRec))

/-- `win` (R92): out of bounds it traps with the wb that it would have produced. -/
def execWin (n : BitVec 7) (s : State) : Out :=
  perLane s .thread [] 4 fun s l =>
    let t := s.thread l
    let nreg := ((s.group? l.core l.berth).map (·.nreg)).getD 128
    let new : Int := t.wb + winDelta n
    if new < 16 ∨ new > (nreg : Int) - 112 then (s, .trap 7 (wrap64 new))
    else (s.putThread { t with wb := new.toNat }, .done [])

/-- `brk` (R96, R97). -/
def execBrk (n : BitVec 7) (s : State) : Out :=
  issue s .both [] 4 true fun s i => (s, allRes i.lanes (.trap 9 (n.setWidth 64)))

/-- `yield` (R208, R228): the lanes go to the end of the picker's order, in one closed entry. -/
def execYield (s : State) : Out :=
  issue s .thread [] 4 true fun s i =>
    let s := i.lanes.foldl (fun s l => s.modThread l fun t => { t with pc := i.pc + 4, wait := .ready, yielded := true, alone := false }) s
    (s.joinAll i.lanes, allRes i.lanes .gone)

end Sys2Proof.Machine
end

