-- ==== Sys2Proof/Machine/Array.lean ====
section
/-! DEFINITION. The matrix array: format words, control words, operand layouts, and what each queued operation does to
tiles and buffers (R142 to R163). -/

namespace Sys2Proof.Machine

/-! ### The format word (R144, R145) -/

structure FmtWord where
  rsv : Nat
  scale : Nat
  slot : Nat
  conjB : Bool
  conjA : Bool
  sparsity : Nat
  pB : Nat
  pA : Nat
  acc : Nat
  fB : Nat
  fA : Nat
  deriving DecidableEq, Repr

def fmtWord (f : BitVec 32) : FmtWord :=
  let n := f.toNat
  { rsv := bits n 31 29, scale := bits n 28 27, slot := bits n 26 22, conjB := flag n 21, conjA := flag n 20,
    sparsity := bits n 19 18, pB := bits n 17 15, pA := bits n 14 12, acc := bits n 11 8, fB := bits n 7 4, fA := bits n 3 0 }

/-- The accumulating operations. -/
inductive AccOp | mm | mms | mmconv | mmc
  deriving DecidableEq, Repr

def oneSlice (f : Nat) : Bool := decide (3 ≤ f) && decide (f ≤ 8)

/-- A row of R70 that is not complex: its depth and accumulator. -/
def rowOf (fA fB : Nat) : Option (Nat × Nat) :=
  if oneSlice fA && oneSlice fB then some (32, 0)
  else if fA = 2 ∧ fB = 2 then some (16, 0)
  else if fA = 1 ∧ fB = 1 then some (8, 0)
  else if fA = 0 ∧ fB = 0 then some (4, 1)
  else none

/-- DS4 scales on an operand of this format (R70). -/
def ds4Ok (f : Nat) : Bool := oneSlice f && f != 3

def scaleOnA (w : FmtWord) : Bool := w.scale == 1 || w.scale == 3
def scaleOnB (w : FmtWord) : Bool := w.scale == 2 || w.scale == 3

def planesOk (w : FmtWord) : Bool :=
  decide (1 ≤ w.pA) && decide (w.pA ≤ slices w.fA) && decide (1 ≤ w.pB) && decide (w.pB ≤ slices w.fB)

/-- R145 but for the tile. -/
def fmtLegal (op : AccOp) (w : FmtWord) : Bool :=
  w.rsv == 0 && decide (w.fA ≤ 8) && decide (w.fB ≤ 8) && decide (w.acc ≤ 1) && planesOk w &&
  match op with
  | .mmc => w.fA == 0 && w.fB == 0 && w.acc == 1 && w.sparsity == 0 && w.scale == 0 && w.slot == 0
  | _ =>
    (match rowOf w.fA w.fB with
      | none => false
      | some r => r.2 == w.acc) &&
    !w.conjA && !w.conjB &&
    (match op with
      | .mms => w.sparsity == 1 && oneSlice w.fA && oneSlice w.fB
      | _ => w.sparsity == 0) &&
    (!scaleOnA w || (ds4Ok w.fA && op != .mmconv)) && (!scaleOnB w || ds4Ok w.fB) &&
    (match op with
      | .mmconv => w.slot == 0 && w.fA != 8
      | _ => w.fA == 8 || w.slot == 0)

/-- The tile condition of R145. -/
def tileOk (op : AccOp) (w : FmtWord) (t : Nat) : Bool :=
  match op with
  | .mm => w.acc == 0 || t % 2 == 0
  | .mmconv => w.acc == 0 || t % 2 == 0
  | _ => true

/-- K of R70. -/
def depth (w : FmtWord) : Nat := ((rowOf w.fA w.fB).map (·.1)).getD 4

/-- Bytes of one row of an A panel (R142). -/
def rowBytes (op : AccOp) (w : FmtWord) : Nat :=
  match op with
  | .mmc => 64
  | _ => if w.fA = 8 then depth w / 2 else depth w * elBytes w.fA

/-- Bytes of an A panel with its index and scale blocks (R142). -/
def panelA (op : AccOp) (w : FmtWord) : Nat :=
  128 * rowBytes op w + (if op = .mms then 1024 else 0) + (if scaleOnA w then 256 else 0)

/-- Rows of a B panel. -/
def rowsB (op : AccOp) (w : FmtWord) : Nat := if op = .mms then 64 else depth w

/-- Bytes of a placed B operand (R143). -/
def panelB (op : AccOp) (w : FmtWord) : Nat :=
  let one := 128 * rowsB op w * (2 + slices w.fB) + (if scaleOnB w then 256 else 0)
  match op with
  | .mmc => 9216
  | _ => one

/-! ### Convolution records (R156, R177) -/

/-- Bits `[lo + w − 1 : lo]` of the doubleword at byte offset `o` of a record. -/
def recField (r : BitVec 1024) (o lo w : Nat) : Nat := r.toNat / 2 ^ (8 * o + lo) % 2 ^ w

structure Conv where
  (base ch h w sc sx sy kh kw vy vx dy dx pt pl oh ow pad etype : Nat)
  deriving DecidableEq, Repr

def convOf (r : BitVec 1024) : Conv :=
  { base := recField r 8 0 19, ch := recField r 0x18 0 32, h := recField r 0x18 32 16, w := recField r 0x18 48 16,
    sc := recField r 0x20 0 32, sx := recField r 0x20 32 32, sy := recField r 0x28 0 32, kh := recField r 0x28 32 8,
    kw := recField r 0x28 40 8, vy := recField r 0x28 48 8, vx := recField r 0x28 56 8, dy := recField r 0x30 0 8,
    dx := recField r 0x30 8 8, pt := recField r 0x30 16 8, pl := recField r 0x30 24 8, oh := recField r 0x30 32 16,
    ow := recField r 0x30 48 16, pad := recField r 0 32 32, etype := recField r 0 8 4 }

/-- The layout record that a context's handle names (R177). -/
def State.layout? (s : State) (ctx h : Nat) : Option (BitVec 1024) :=
  match s.ctx? ctx with
  | none => none
  | some c => (c.layouts.find? fun p => p.1 == h).map (·.2)

/-- A valid convolution record (R178). An operation reads it again when it executes, and does nothing where a record that has
been set meanwhile is no longer valid: the spec does not say which of the two it uses (DESIGN CHOICE, log 145). -/
def State.convRec? (s : State) (ctx h : Nat) : Option Conv :=
  match s.layout? ctx h with
  | none => none
  | some r => if recField r 0 0 8 = 1 ∧ recField r 0x10 0 64 = ctx then some (convOf r) else none

/-- What `conv_a` names: an address, padding, or +0 outside. -/
inductive ConvEl | zero | pad | addr (a : Nat)
  deriving DecidableEq, Repr

def convEl (c : Conv) (k : Nat) (pos : Word) (i kk : Nat) : ConvEl :=
  let n := pos.toNat
  let p := 128 * bits n 63 40 + i
  let ch := k * bits n 39 24 + kk
  let q := bits n 23 16
  if p ≥ c.oh * c.ow ∨ ch ≥ c.ch then .zero
  else
    let iy : Int := (p / c.ow * c.vy + q / c.kw * c.dy : Nat) - (c.pt : Int)
    let ix : Int := (p % c.ow * c.vx + q % c.kw * c.dx : Nat) - (c.pl : Int)
    if iy < 0 ∨ iy ≥ c.h ∨ ix < 0 ∨ ix ≥ c.w then .pad
    else .addr (c.base + iy.toNat * c.sy + ix.toNat * c.sx + ch * c.sc)

/-- Every address that `conv_a` reads. -/
def convAddrs (c : Conv) (k : Nat) (pos : Word) : List Nat :=
  (List.range 128).flatMap fun i => (List.range k).filterMap fun kk =>
    match convEl c k pos i kk with
    | .addr a => some a
    | _ => none

/-! ### Reading operands -/

def bufNat (m : SMap Byte) (a n : Nat) : Nat := ofBytes (readMap 0 m a n)

/-- The 32 bytes of a codebook slot, where the context has loaded it (R57); each context that has loaded a slot reads what was
loaded there last (DEDUCED, log 146). -/
def State.codebookOf (s : State) (core ctx slot : Nat) : Option (BitVec 256) :=
  (SMap.get none (s.coreAt (leaderOf core)).codebook slot).bind fun p => if has p.1 ctx then some p.2 else none

/-- The value of a CB4 code under a slot; +0 unless the running context has loaded it (R57). -/
def State.cb4 (s : State) (core ctx slot q : Nat) : Ext :=
  match s.codebookOf core ctx slot with
  | some b => decodeF bf16 (b.toNat / 2 ^ (16 * q) % 65536)
  | none => .fin false 0 0

/-- One-block DS4 stream in a buffer (R142, R143). -/
def scaleAt (m : SMap Byte) (a : Nat) : Nat := ds4Decode (fun i => (SMap.get 0 m (a + i)).toNat) 0

/-- Element (i, k) of an A panel, before truncation. -/
def State.aEl (s : State) (core ctx : Nat) (op : AccOp) (w : FmtWord) (a i k : Nat) : Ext :=
  let m := (s.coreAt core).abuf
  let row := a + i * rowBytes op w
  if w.fA = 8 then
    let b := (SMap.get 0 m (row + k / 2)).toNat
    s.cb4 core ctx w.slot (if k % 2 = 0 then b % 16 else b / 16)
  else decodeEl w.fA (bufNat m (row + k * elBytes w.fA) (elBytes w.fA))

/-- A padding value, from the 32-bit pad field (R181). -/
def padValue (f p : Nat) : Nat := if f = 0 then p * 2 ^ 32 else p % 2 ^ (8 * elBytes f)

/-- Element (i, k) that a convolution record generates (R156). -/
def State.convA (s : State) (core : Nat) (c : Conv) (w : FmtWord) (pos : Word) (i k : Nat) : Ext :=
  match convEl c (depth w) pos i k with
  | .zero => .fin false 0 0
  | .pad => decodeEl w.fA (padValue w.fA c.pad)
  | .addr a => decodeEl w.fA (bufNat (s.coreAt core).abuf a (elBytes w.fA))

/-- Slices 0 to p − 1 of a placed element, as a significand. -/
def placedSig (m : SMap Byte) (b kRows sl k j : Nat) : Nat → Nat
  | 0 => 0
  | p + 1 => placedSig m b kRows sl k j p +
      (SMap.get 0 m (b + 256 * kRows + 128 * kRows * p + 128 * k + j)).toNat * 2 ^ (8 * (sl - 1 - p))

/-- Element (k, j) of a placed panel, its planes 0 to p − 1 (R69, R143). -/
def placedEl (m : SMap Byte) (b kRows sl p k j : Nat) : Ext :=
  let h := bufNat m (b + 2 * (128 * k + j)) 2
  let neg := flag h 15
  match bits h 14 13 with
  | 0 => .fin neg 0 0
  | 1 => .fin neg (placedSig m b kRows sl k j p) ((bits h 12 0 : Nat) - 4096)
  | 2 => .inf neg
  | _ => .nan false

/-! ### Tiles (R61, R62) -/

def cellAt (m : SMap (BitVec 56)) (t i j : Nat) : BitVec 56 := SMap.get 0 m (16384 * t + 128 * i + j)

/-- The bits of an accumulator value: one cell, or the cells of two tiles with the low one in the even tile. -/
def accBits (m : SMap (BitVec 56)) (wide : Bool) (t i j : Nat) : Nat :=
  if wide then (cellAt m t i j).toNat + 2 ^ 56 * (cellAt m (t + 1) i j).toNat else (cellAt m t i j).toNat

/-- A whole tile replaced. -/
def putTile (m : SMap (BitVec 56)) (t : Nat) (f : Nat → BitVec 56) : SMap (BitVec 56) :=
  (m.filter fun p => decide (p.1 < 16384 * t)) ++
  ((List.range 16384).filterMap fun n => if f n = 0 then none else some (16384 * t + n, f n)) ++
  (m.filter fun p => decide (16384 * (t + 1) ≤ p.1))

/-- One tile or a pair of tiles from accumulator bits, listed by cell number. -/
def putAcc (m : SMap (BitVec 56)) (wide : Bool) (t : Nat) (vs : List Nat) : SMap (BitVec 56) :=
  let low := vs.toArray
  let at_ (n : Nat) : Nat := low.getD n 0
  if wide then
    putTile (putTile m t fun n => BitVec.ofNat 56 (at_ n)) (t + 1) fun n => BitVec.ofNat 56 (at_ n / 2 ^ 56)
  else putTile m t fun n => BitVec.ofNat 56 (at_ n)

/-- Bytes put into a buffer at an address, in one piece. -/
def putRange (m : SMap Byte) (a : Nat) (bs : List Byte) : SMap Byte :=
  (m.filter fun p => decide (p.1 < a)) ++
  ((withAddrs a bs).filter fun p => !(p.2 == 0)) ++
  (m.filter fun p => decide (a + bs.length ≤ p.1))

/-! ### The accumulating operations (R154 to R157) -/

/-- The cores of an operation: the leader, and the follower of a pair operation. -/
def halves2 (core : Nat) (pair : Bool) : List Nat := if pair then [core, core + 1] else [core]

/-- The A rows after DS4 and truncation, with the B row of each kept element. -/
def State.aRow (s : State) (core ctx : Nat) (op : AccOp) (w : FmtWord) (a : Nat) (pos : Word) (cv : Option Conv) (i : Nat) :
    List (Ext × Nat) :=
  let k := depth w
  let m := (s.coreAt core).abuf
  let base := a + 128 * rowBytes op w
  let idx := bufNat m (base + 8 * i) 8
  let sBlock := base + (if op = .mms then 1024 else 0)
  let nan := scaleOnA w && scaleAt m (sBlock + 2 * i) == 255
  (List.range k).map fun kk =>
    let x := match cv with
      | some c => s.convA core c w pos i kk
      | none => s.aEl core ctx op w a i kk
    let x := if nan then .nan false else truncPlanes w.fA w.pA x
    let r := if op = .mms then 4 * (kk / 2) + (if kk % 2 = 0 then bits idx (4 * (kk / 2) + 1) (4 * (kk / 2))
      else bits idx (4 * (kk / 2) + 3) (4 * (kk / 2) + 2)) else kk
    (x, r)

/-- The columns of a B panel on one core, planes applied. -/
def State.bCol (s : State) (core : Nat) (op : AccOp) (w : FmtWord) (b j : Nat) : List Ext :=
  let k := rowsB op w
  let sl := slices w.fB
  let m := (s.coreAt core).wbuf
  let nan := scaleOnB w && scaleAt m (b + 128 * k * (2 + sl) + 2 * j) == 255
  (List.range k).map fun kk => if nan then .nan false else placedEl m b k sl w.pB kk j

/-- The exponent that the scales add to every product of a cell. -/
def State.scaleExp (s : State) (core half : Nat) (op : AccOp) (w : FmtWord) (a b i j : Nat) : Int :=
  let sBlock := a + 128 * rowBytes op w + (if op = .mms then 1024 else 0)
  let sa := if scaleOnA w then scaleAt (s.coreAt core).abuf (sBlock + 2 * i) else 127
  let sb := if scaleOnB w then scaleAt (s.coreAt half).wbuf (b + 128 * rowsB op w * (2 + slices w.fB) + 2 * j) else 127
  ((sa : Int) - 127) + ((sb : Int) - 127)

/-- `mm`, `mms` and `mmconv` on the tiles of one core (R154). -/
def State.mmHalf (s : State) (core half ctx : Nat) (op : AccOp) (w : FmtWord) (t a : Nat) (pos : Word) (cv : Option Conv)
    (b : Nat) : State × Flags :=
  let acc := if w.acc = 1 then a112 else a56
  let wide := w.acc == 1
  let rows := (List.range 128).map fun i => s.aRow core ctx op w a pos cv i
  let cols := (List.range 128).map fun j => (s.bCol half op w b j).toArray
  let tiles := (s.coreAt half).tiles
  let cells := (rows.zipIdx).flatMap fun r => (cols.zipIdx).map fun c =>
    mmCell acc (accBits tiles wide t r.2 c.2) (r.1.map fun x => (x.1, c.1.getD x.2 (.fin false 0 0)))
      (s.scaleExp core half op w a b r.2 c.2)
  (s.modCore half fun k => { k with tiles := putAcc k.tiles wide t (cells.map (·.1)) }, cells.foldl (fun f c => f ||| c.2) 0)

/-- Both parts of one `mmc` cell (R72). -/
def mmcCell (w : FmtWord) (re im : Nat) (xs : List ((Ext × Ext) × (Ext × Ext))) : (Nat × Flags) × (Nat × Flags) :=
  let cA (x : Ext) : Ext := if w.conjA then x.neg else x
  let cB (x : Ext) : Ext := if w.conjB then x.neg else x
  let rp := xs.flatMap fun p => [(p.1.1, p.2.1), ((cA p.1.2).neg, cB p.2.2)]
  let ip := xs.flatMap fun p => [(p.1.1, cB p.2.2), (cA p.1.2, p.2.1)]
  (mmCell a112 re rp 0, mmCell a112 im ip 0)

/-- `mmc` on the tiles of one core (R157). -/
def State.mmcHalf (s : State) (core half : Nat) (w : FmtWord) (a b : Nat) : State × Flags :=
  let m := (s.coreAt core).abuf
  let wb := (s.coreAt half).wbuf
  let part (i k o : Nat) : Ext := truncPlanes 0 w.pA (decodeF fp64 (bufNat m (a + 64 * i + 16 * k + o) 8))
  let rows := (List.range 128).map fun i => (List.range 4).map fun k => (part i k 0, part i k 8)
  let cols := (List.range 128).map fun j => (List.range 4).map fun k =>
    (placedEl wb b 4 7 w.pB k j, placedEl wb (b + 4608) 4 7 w.pB k j)
  let tiles := (s.coreAt half).tiles
  let cells := (rows.zipIdx).flatMap fun r => (cols.zipIdx).map fun c =>
    mmcCell w (accBits tiles true 0 r.2 c.2) (accBits tiles true 2 r.2 c.2) (r.1.zip c.1)
  let put (m : SMap (BitVec 56)) := putAcc (putAcc m true 0 (cells.map (·.1.1))) true 2 (cells.map (·.2.1))
  (s.modCore half fun k => { k with tiles := put k.tiles }, cells.foldl (fun f c => f ||| c.1.2 ||| c.2.2) 0)

/-! ### The control word and the image (R160) -/

structure Ctl where
  rsv : Nat
  scl : Int
  cx : Bool
  tr : Bool
  wide : Bool
  sat : Bool
  fmt : Nat
  both : Bool
  tile : Nat
  deriving DecidableEq, Repr

def ctlOf (w : Word) : Ctl :=
  let n := w.toNat
  { rsv := bits n 63 24 + bits n 15 11, scl := (BitVec.ofNat 8 (bits n 23 16)).toInt, cx := flag n 10, tr := flag n 9,
    wide := flag n 8, sat := flag n 7, fmt := bits n 6 3, both := flag n 2, tile := bits n 1 0 }

/-- The conditions of R160 that hold for all three; `t` is the tile that is named. -/
def ctlCommon (c : Ctl) (pair : Bool) (t : Nat) : Bool :=
  c.rsv == 0 && (!c.both || pair) && (!c.wide || t % 2 == 0) && (!c.cx || (c.wide && c.fmt == 0 && t == 0)) &&
  (c.fmt != 15 || (c.scl == 0 && !c.sat))

def ctlAload (c : Ctl) (pair : Bool) (t : Nat) : Bool :=
  ctlCommon c pair t && c.tile == 0 && !c.sat && (decide (c.fmt ≤ 7) || c.fmt == 15)

def ctlAcvt (c : Ctl) (pair : Bool) : Bool :=
  ctlCommon c pair c.tile && (decide (c.fmt ≤ 6) || c.fmt == 15) && (!c.sat || (decide (4 ≤ c.fmt) && decide (c.fmt ≤ 6)))

def ctlAmax (c : Ctl) (pair : Bool) : Bool :=
  ctlCommon c pair c.tile && c.fmt == 0 && !c.sat && !c.tr && !c.cx && c.scl == 0

def imgEl (c : Ctl) : Nat := if c.cx then 16 else if c.fmt = 15 then (if c.wide then 16 else 8) else elBytes c.fmt
def imgCols (c : Ctl) : Nat := if c.both then 256 else 128
def imgBytes (c : Ctl) : Nat := 128 * imgCols c * imgEl c

/-- Offset of element (i, j). -/
def imgOff (c : Ctl) (i j : Nat) : Nat := (if c.tr then j * 128 + i else i * imgCols c + j) * imgEl c

/-- Row and column of the n-th element of the image. -/
def imgPos (c : Ctl) (n : Nat) : Nat × Nat := if c.tr then (n % 128, n / 128) else (n / imgCols c, n % imgCols c)

def accFmt (wide : Bool) : Fmt := if wide then a112 else a56

/-- The cell that `aload` writes for an image element (R161). -/
def aloadCell (c : Ctl) (raw : Nat) : Nat :=
  if c.fmt = 15 then (if c.wide then raw % 2 ^ 56 + 2 ^ 56 * (raw / 2 ^ 64 % 2 ^ 56) else raw % 2 ^ 56)
  else (roundFmt ((decodeEl c.fmt raw).scale c.scl) (accFmt c.wide) rne false).1

/-- `aload` (R161). -/
def State.aloadRun (s : State) (core t a : Nat) (c : Ctl) : State :=
  let m := (s.coreAt core).abuf
  let halves := if c.both then [0, 1] else [0]
  halves.foldl (fun s h =>
    let el (o n : Nat) : Nat := bufNat m (a + imgOff c (n / 128) (128 * h + n % 128) + o) (if c.cx then 8 else imgEl c)
    let col (o : Nat) : List Nat := (List.range 16384).map fun n => aloadCell c (el o n)
    s.modCore (core + h) fun k =>
      if c.cx then { k with tiles := putAcc (putAcc k.tiles true 0 (col 0)) true 2 (col 8) }
      else { k with tiles := putAcc k.tiles c.wide t (col 0) }) s

/-- One part of an image element: its bits and whether the rounding raised flags (R162). -/
def acvtEl (c : Ctl) (cell : Nat) : Nat × Flags :=
  if c.fmt = 15 then (if c.wide then cell % 2 ^ 56 + 2 ^ 64 * (cell / 2 ^ 56) else cell, 0)
  else
    let x := (decodeF (accFmt c.wide) cell).scale c.scl
    let tgt : Tgt := match fmtOf c.fmt with
      | some f => .flt f
      | none => .int8
    let r := roundTgt x tgt rne c.sat
    (r.1, r.2 &&& (flagNv ||| flagOf))

/-- `acvt`: the image, the count and the flags (R162). -/
def State.acvtRun (s : State) (core a : Nat) (c : Ctl) : State × Nat × Flags :=
  let n := 128 * imgCols c
  let parts := (List.range n).map fun e =>
    let p := imgPos c e
    let tiles := (s.coreAt (core + p.2 / 128)).tiles
    let one (t : Nat) : Nat × Flags := acvtEl c (accBits tiles c.wide t p.1 (p.2 % 128))
    if c.cx then [one 0, one 2] else [one c.tile]
  let w := if c.cx then 8 else imgEl c
  let bs := parts.flatMap fun l => l.flatMap fun x => toBytes x.1 w
  let fl := parts.foldl (fun f l => l.foldl (fun f x => f ||| x.2) f) 0
  let cnt := parts.foldl (fun n l => l.foldl (fun n x => if x.2 &&& flagOf == 0 then n else n + 1) n) 0
  (s.modCore core fun k => { k with abuf := putRange k.abuf a bs }, cnt, fl)

/-- `amax` (R163). -/
def State.amaxRun (s : State) (core : Nat) (c : Ctl) : Nat :=
  let vals := (if c.both then [core, core + 1] else [core]).flatMap fun h =>
    (List.range 16384).map fun n => decodeF (accFmt c.wide) (accBits (s.coreAt h).tiles c.wide c.tile (n / 128) (n % 128))
  if vals.any Ext.isNan then 0x7ff8000000000000
  else
    let m := vals.foldl (fun m x => if m.lt x.abs then x.abs else m) (Ext.fin false 0 0)
    (roundFmt m fp64 rup false).1

/-! ### Queued operations -/

/-- The tiles that a queued operation reads or writes (R150). -/
def MatKind.tiles : MatKind → List Nat
  | .mm t f _ _ => if (fmtWord f).acc = 1 then [t, t + 1] else [t]
  | .mms t _ _ _ => [t]
  | .mmc _ _ _ => [0, 1, 2, 3]
  | .mmconv t f _ _ => if (fmtWord f).acc = 1 then [t, t + 1] else [t]
  | .mmz m => (List.range 4).filter m.getLsbD
  | .aload t _ ctl => if (ctlOf ctl).cx then [0, 1, 2, 3] else if (ctlOf ctl).wide then [t, t + 1] else [t]
  | .acvt _ ctl => let c := ctlOf ctl; if c.cx then [0, 1, 2, 3] else if c.wide then [c.tile, c.tile + 1] else [c.tile]
  | .amax ctl => let c := ctlOf ctl; if c.wide then [c.tile, c.tile + 1] else [c.tile]

/-- Whether the operation touches the follower's tiles. -/
def MatOp.onFollower (o : MatOp) : Bool :=
  o.pair && match o.kind with
    | .aload _ _ ctl => (ctlOf ctl).both
    | .acvt _ ctl => (ctlOf ctl).both
    | .amax ctl => (ctlOf ctl).both
    | _ => true

/-- Whether a tile of a core is busy (R150). The queue of a pair is the leader's. -/
def State.tileBusy (s : State) (core t : Nat) : Bool :=
  (s.coreAt (leaderOf core)).matQ.any fun o =>
    has o.kind.tiles t && (isLeader core || o.onFollower)

/-- The earliest-issued queued operations on a tile: those that a cell access waits for (R150). -/
def overlaps (r : Range) (space lo n : Nat) : Bool := r.space == space && decide (r.lo < lo + n) && decide (lo < r.hi)

/-- Bytes of the A-buffer that a queued operation has not read yet (R151). -/
def State.heldByQueue (s : State) (core lo n : Nat) : Bool :=
  (s.coreAt core).matQ.any fun o => !o.executed && o.reads.any fun r => overlaps r 1 lo n

/-- Run an accumulating operation on each of its cores. -/
def State.onHalves (s : State) (core : Nat) (pair : Bool) (f : State → Nat → State × Flags) : State × Flags :=
  (halves2 core pair).foldl (fun p h =>
    let q := f p.1 h
    (q.1, p.2 ||| q.2)) (s, 0)

/-- What an operation does when it executes: the state, its flags, its register result. -/
def State.runMat (s : State) (core : Nat) (o : MatOp) : State × Flags × Word :=
  match o.kind with
  | .mm t f a b =>
    let r := s.onHalves core o.pair fun s h => s.mmHalf core h o.ctx .mm (fmtWord f) t a 0 none b
    (r.1, r.2, 0)
  | .mms t f a b =>
    let r := s.onHalves core o.pair fun s h => s.mmHalf core h o.ctx .mms (fmtWord f) t a 0 none b
    (r.1, r.2, 0)
  | .mmconv t f pos b =>
    match s.convRec? o.ctx (bits pos.toNat 15 0) with
    | none => (s, 0, 0)
    | some c =>
      let r := s.onHalves core o.pair fun s h => s.mmHalf core h o.ctx .mmconv (fmtWord f) t 0 pos (some c) b
      (r.1, r.2, 0)
  | .mmc f a b =>
    let r := s.onHalves core o.pair fun s h => s.mmcHalf core h (fmtWord f) a b
    (r.1, r.2, 0)
  | .mmz m =>
    ((halves2 core o.pair).foldl (fun s h => s.modCore h fun k =>
      { k with tiles := k.tiles.filter fun p => !m.getLsbD (p.1 / 16384) }) s, 0, 0)
  | .aload t a ctl => (s.aloadRun core t a (ctlOf ctl), 0, 0)
  | .acvt a ctl =>
    let r := s.acvtRun core a (ctlOf ctl)
    (r.1, r.2.2, BitVec.ofNat 64 r.2.1)
  | .amax ctl => (s, 0, BitVec.ofNat 64 (s.amaxRun core (ctlOf ctl)))


/-! ### The queue (R67, R149 to R152) -/

/-- Whether the operation reads the cells of its tiles; `mmz` and `aload` only write them (R158, R161). -/
def MatKind.readsCells : MatKind → Bool
  | .mmz _ => false
  | .aload _ _ _ => false
  | _ => true

/-- Whether an uncorrectable error stands in a buffer or tile that an operation reads (R380). -/
def State.buffersBad (s : State) (core : Nat) (o : MatOp) : Bool :=
  !s.struck.isEmpty && (halves2 core o.pair).any fun h =>
    (o.reads.any fun r => has s.struck (.buffer h (r.space - 1))) ||
    (o.kind.readsCells && o.kind.tiles.any fun t => has s.struck (.buffer h (t + 2)))

/-- The error is met once. -/
def State.clearBuffers (s : State) (core : Nat) (pair : Bool) : State :=
  { s with struck := s.struck.filter fun x => match x with
    | .buffer c _ => !has (halves2 core pair) c
    | _ => true }

/-- The oldest operation of the queue executes. One that meets an uncorrectable error has no effect, and its context stops
(R380). -/
def State.matExecute (s : State) (core : Nat) : State :=
  match (s.coreAt core).matQ with
  | [] => s
  | o :: _ =>
    if o.executed then s
    else
      let r := if s.buffersBad core o then ((s.clearBuffers core o.pair).stopCtx o.ctx { cause := 18, sub := 4 }, (0 : Flags), (0 : Word))
        else s.runMat core o
      r.1.modCore core fun k => { k with matQ := k.matQ.map fun x : MatOp =>
        if x.seq == o.seq then { x with executed := true, flags := r.2.1, result := r.2.2 } else x }

/-- The oldest operation retires: flags go to every lane gathered on it (R67), results to their windows. -/
def State.matRetire (s : State) (core : Nat) : State :=
  match (s.coreAt core).matQ with
  | [] => s
  | o :: rest =>
    if !o.executed then s
    else
      let s := s.modCore core fun k => { k with matQ := rest }
      let s := o.lanes.foldl (fun s l =>
        let s := if o.flags == 0 then s else s.modSaved l o.ctx fun t => { t with flags := t.flags ||| o.flags }
        s.answer l o.ctx (2 * o.seq + 2) [.value o.result]) s
      s.releasePair core

/-- The operations queued on a pair complete (R159). -/
def State.drainMat (s : State) (core : Nat) : Nat → State
  | 0 => s
  | n + 1 => ((s.matExecute core).matRetire core).drainMat core n

/-- Before a row of a context is spilled, the operations that it has queued complete (R159). -/
def State.finishMat (s : State) (core ctx : Nat) : State :=
  let lead := leaderOf core
  let q := (s.coreAt lead).matQ
  if q.any fun o => o.ctx == ctx then s.drainMat lead q.length else s

end Sys2Proof.Machine
end

