-- ==== Sys2Proof/Machine/Sharing.lean ====
section
/-! DEFINITION. Sharing a core: tear-down of a context, halt in place, the spill, claim and restore of rows (R321 to
R327), and what a core does when it begins work for another context. -/

namespace Sys2Proof.Machine

/-! ### Tear-down (R321) -/

/-- The L1 reservations of blocks of which the context held dirty bytes end, and those that its late atomics waited with, unless
the L1 still needs one (R296, R302). -/
def State.dropLines (s : State) (ctx : Nat) : State :=
  let dead := s.l1.filter fun l => l.ctx == ctx
  let late := s.pendings.filterMap fun p => if p.ctx == ctx && p.packet.kind == 13 then some (p.core, blockOf p.packet.gpa) else none
  let s := { s with
    l1 := s.l1.filter fun l => !(l.ctx == ctx)
    pendings := s.pendings.filter fun p => !(p.ctx == ctx) }
  let s := dead.foldl (fun s l =>
    let s := if l.sealed then s.countSeal l (· - 1) else s
    match l.home with
    | .device a => if l.dirty == 0 then s else s.settleResv (l.core, blockOf a)
    | _ => s) s
  late.foldl State.settleResv s

def State.dropFrames (s : State) (ctx : Nat) : State :=
  (s.tasks.filter fun t => t.ctx == ctx).foldl (fun s t => s.freeFrame ctx t.frame) s

/-- The place of a torn context's operation on the timeline: it has no stamp, and later stamps keep their order behind those of other
contexts (R172, R174). -/
def Copy.gone (c : Copy) : Copy :=
  { num := c.num, kind := .qstamp, ctx := noCtx, quay := c.quay, retired := true, abandoned := true }

/-- What a tear-down removes from one core. -/
def Core.tear (k : Core) (ctx : Nat) : Core :=
  { k with
    ring := k.ring.filter fun e => !(e.ctx == ctx)
    kicks := k.kicks.filter fun q => !(q.ctx == ctx)
    qctx := if k.qctx = some ctx then none else k.qctx
    oldNotices := k.oldNotices.filter fun p => !(p.1 == ctx)
    copies := k.copies.map fun c : Copy => if c.ctx = ctx then c.gone else c
    matQ := k.matQ.filter fun o => !(o.ctx == ctx)
    pairCtx := if k.pairCtx = some ctx then none else k.pairCtx
    lastCtx := if k.lastCtx = some ctx then none else k.lastCtx
    rowA := if k.rowA = some ctx then none else k.rowA
    abuf := if k.rowA = some ctx then [] else k.abuf
    rowW := if k.rowW = some ctx then none else k.rowW
    wbuf := if k.rowW = some ctx then [] else k.wbuf
    rowC := if k.rowC = some ctx then none else k.rowC
    tiles := if k.rowC = some ctx then [] else k.tiles
    pendingLines := k.pendingLines.filter fun p => !(p.1 == ctx)
    codebook := k.codebook.map fun p => (p.1, p.2.map fun q => (q.1.filter (· != ctx), q.2)) }

/-- A stamp of a context that is gone releases nothing on its behalf (R237). -/
def WriteKind.ofCtx (k : WriteKind) (ctx : Nat) : Bool :=
  match k with
  | .signal c _ => c == ctx
  | .stamp c _ => c == ctx
  | _ => false

/-- A context's groups leave its barriers. Pod-level barriers learn of it; the coordinator keeps what other packages have told it
(R204, R321, R369). -/
def State.tearBarriers (s : State) (ctx : Nat) : State :=
  let s := (s.barriers.filter fun b => b.ctx == ctx && b.level == 5).foldl (fun s b => s.barChanged { b with registered := [], arrived := [] }) s
  { s with barriers := s.barriers.filterMap fun b : Barrier =>
      if b.ctx ≠ ctx then some b
      else if b.pods.any fun p => p.1 != s.hm.pkgid then some { b with ctx := noCtx, pods := b.pods.filter fun p => p.1 != s.hm.pkgid }
      else none }

/-- The numbers of groups killed and of tasks dropped, and the machine without the context. -/
def State.tearDown (s : State) (ctx : Nat) : Nat × Nat × State :=
  let killed := (s.groups.filter fun g => g.ctx == ctx).length +
    (s.spilled.foldl (fun n x => n + (x.groups.filter fun p => p.1.ctx == ctx).length) 0)
  let gid := s.gidOf ctx
  let remote (p : Packet) : Bool := gid != 0 && p.gid == gid
  let dropped := (s.waiting.filter fun p => p.1 == ctx).length + (s.spawnHeld.filter remote).length +
    ((s.launches.filter fun l => l.ctx == ctx).foldl (fun n l => n + l.frames.length) 0)
  let v := s.vfOf ctx
  let moored := (s.sc.filter fun l => l.moored && l.vf == v && l.moorCtx == ctx).length
  let s := s.tearBarriers ctx
  let s := { s with
    groups := s.groups.filter fun g => !(g.ctx == ctx)
    threads := s.threads.filter fun t => !(t.ctx == ctx)
    waiting := s.waiting.filter fun p => !(p.1 == ctx)
    spilled := s.spilled.filter fun x => !(x.ctx == ctx)
    seals := s.seals.filter fun e => !(e.ctx == ctx)
    sealWaits := s.sealWaits.filter fun e => !(e.ctx == ctx)
    unsealWaits := s.unsealWaits.filter fun e => !(e.ctx == ctx)
    sc := s.sc.map fun l : ScLine => if l.moored && l.vf == v && l.moorCtx == ctx then { l with moored := false } else l
    launches := s.launches.filter fun l => !(l.ctx == ctx)
    lateSpills := s.lateSpills.filter fun x => !(x.2.1 == ctx)
    code := s.code.filter fun l => !(l.ctx == ctx)
    wrote := s.wrote.filter fun w => !(w.1 == ctx)
    lastWrites := s.lastWrites.filter fun p => !p.2.ofCtx ctx
    struck := s.struck.filter fun x => match x with
      | .line _ c _ => c != ctx
      | _ => true
    spawnHeld := s.spawnHeld.filter fun p => !remote p
    issue := match s.issue with
      | some i => if i.ctx = ctx then none else some i
      | none => none }
  let s := s.cores.foldl (fun s p => s.modCore p.1 fun k => k.tear ctx) s
  let s := s.modVf v fun x => { x with
    mused := x.mused - moored
    fqWaiting := x.fqWaiting.filter fun r => !(r.ctx == ctx && r.src != 4)
    fqLive := x.fqLive.filter fun r => !(r.ctx == ctx && r.src != 4) }
  let s := (s.dropLines ctx).dropFrames ctx
  (killed, dropped, { s with ctxs := s.ctxs.filter fun c => !(c.id == ctx) })

/-! ### Spills (R324) -/

/-- Bytes written to a virtual address of a context; none when a block does not translate. What lies on a page of host memory that has
been requested is written when the page comes (R268). -/
def State.spillBytes (s : State) (core ctx va : Nat) (bs : List Byte) : Option State :=
  (cut va bs).foldl (fun o p =>
    match o with
    | none => none
    | some s =>
      match s.translate core ctx p.1 .store with
      | (.error f, s) => if f.waits then some { s with lateSpills := s.lateSpills ++ [(core, ctx, p.1, p.2)] } else none
      | (.ok t, s) =>
        some (s.writePiece core ctx p.1 { vf := t.vf, gpa := t.gpa, key := t.key, ce := t.ce } t p.2).2) (some s)

/-- The cells of a tile as raw doublewords. -/
def tileBytes (m : SMap (BitVec 56)) (t : Nat) : List Byte :=
  (List.range 16384).flatMap fun i => toBytes (SMap.get 0 m (16384 * t + i)).toNat 8

def keepTiles (live : BitVec 4) (m : SMap (BitVec 56)) : SMap (BitVec 56) :=
  m.filter fun p => live.getLsbD (p.1 / 16384)

def State.spillOf (s : State) (core ctx : Nat) : Spilled :=
  (s.spilled.find? fun x => x.core == core && x.ctx == ctx).getD { core := core, ctx := ctx }

def State.putSpilled (s : State) (x : Spilled) : State :=
  { s with spilled := upsert (fun y => y.core == x.core && y.ctx == x.ctx) x s.spilled }

def State.spillBase (s : State) (core ctx : Nat) : Nat :=
  ((s.ctx? ctx).map fun c => c.spill.toNat + 2 ^ 21 * core).getD 0

/-- Where the rows that a context has spilled from a core stand. -/
def State.slotBase (s : State) (core ctx : Nat) : Nat := s.spillBase (((s.spillOf core ctx).slot).getD core) ctx

/-- A spill that meets a translation fault tears the outgoing context down and reports an error (R324). -/
def State.spillFailed (s : State) (ctx : Nat) : State :=
  let s := s.stopCtx ctx { cause := 16 }
  (s.tearDown ctx).2.2

/-- What waited for a page of host memory is written, or waits on (R268, R324). -/
def State.spillLate (s : State) : State :=
  s.lateSpills.foldl (fun s x =>
    if (s.ctx? x.2.1).isNone then s
    else match s.spillBytes x.1 x.2.1 x.2.2.1 x.2.2.2 with
    | some s => s
    | none => s.spillFailed x.2.1) { s with lateSpills := [] }

def State.spillA (s : State) (core ctx : Nat) : State :=
  let s := s.finishMat core ctx
  let k := s.coreAt core
  match s.spillBytes core ctx (s.spillBase core ctx) (readMap 0 k.abuf 0 (65536 * k.split)) with
  | none => s.spillFailed ctx
  | some s => s.putSpilled { s.spillOf core ctx with a := some k.abuf, split := k.split }

def State.spillW (s : State) (core ctx : Nat) : State :=
  let s := s.finishMat core ctx
  let k := s.coreAt core
  match s.spillBytes core ctx (s.spillBase core ctx + 0x60000) (readMap 0 k.wbuf 0 262144) with
  | none => s.spillFailed ctx
  | some s => s.putSpilled { s.spillOf core ctx with w := some k.wbuf }

/-- The live-tile mask of the context whose cells lie in the C-buffer (R159). -/
def Core.maskOf (k : Core) (ctx : Nat) : BitVec 4 := if k.lastCtx = some ctx then k.liveMask else k.rowLive

def State.spillC (s : State) (core ctx : Nat) : State :=
  let s := s.finishMat core ctx
  let k := s.coreAt core
  let live := k.maskOf ctx
  let done := (List.range 4).foldl (fun o t =>
    match o with
    | none => none
    | some s =>
      if live.getLsbD t then s.spillBytes core ctx (s.spillBase core ctx + 0xa0000 + 0x20000 * t) (tileBytes k.tiles t)
      else some s) (some s)
  match done with
  | none => s.spillFailed ctx
  | some s => s.putSpilled { s.spillOf core ctx with c := some (keepTiles live k.tiles), live := live }

/-- What only Pallan's restore reads is written to a block of a context's memory. The spec gives it no format: its bytes are
free values, which the block's mark stands for (DESIGN CHOICE, log 52). The block and its mark, where it lies in device
memory; none where it does not translate. -/
def State.writeOpaque (s : State) (core ctx va : Nat) : Option (Option (Nat × Nat) × State) :=
  match s.translate core ctx va .store with
  | (.error f, s) => if f.waits then some (none, s) else none
  | (.ok t, s) =>
    let bs : List Byte := (List.range 64).map fun _ => 0xff
    let s := (s.writePiece core ctx va { vf := t.vf, gpa := t.gpa, key := t.key, ce := t.ce } t bs).2
    match t.target with
    | .device a =>
      let b := blockOf a
      let gen := s.keyGens + 1
      let key : BitVec 512 := (Config.freeWord s.freeCount).setWidth 512
      some (some (b, gen), { s with keyGens := gen, freeCount := s.freeCount + 1, blockKeys := SMap.set (0, 0) s.blockKeys b (gen, key) })
    | _ => some (none, s)

/-- Whether what stands in a block is what was written there (R324). -/
def State.markSound (s : State) (p : Nat × Nat) : Bool := (SMap.get (0, 0) s.blockKeys p.1).1 == p.2

/-- The device image is written at slot offset 0x12_0000. None where it does not translate. -/
def State.writeImage (s : State) (core ctx : Nat) : Option State :=
  (s.writeOpaque core ctx (s.spillBase core ctx + 0x120000)).map fun r =>
    match r.1 with
    | some m =>
      let x := r.2.spillOf core ctx
      r.2.putSpilled { x with image := (x.image.filter fun p : Nat × Nat => p.1 != m.1) ++ [m] }
    | none => r.2

/-- Whether the device image that a restore reads is the one that was written (R324). -/
def State.imageSound (s : State) (x : Spilled) : Bool := x.image.all s.markSound

/-- Whether a spill of bytes to a context's memory would translate, or waits for a page. -/
def State.spillReaches (s : State) (core ctx va : Nat) (n : Nat) : Bool :=
  (cut va (List.replicate n 0)).all fun p => match (s.translate core ctx p.1 .store).1 with
    | .ok _ => true
    | .error f => f.waits

/-- A halted group leaves its berth: registers to the save area, the rest to the device image (R324). -/
def State.spillBerth (s : State) (g : Group) : State :=
  let ts := s.groupThreads g.core g.berth
  let split := (s.coreAt g.core).split
  if !s.spillReaches g.core g.ctx (g.frame + 256) (8 * g.width * g.nreg) then s.spillFailed g.ctx
  else
    let s := ts.foldl (fun s t => s.saveSlot g split t) s
    match s.writeImage g.core g.ctx with
    | none => s.spillFailed g.ctx
    | some s =>
      let x := s.spillOf g.core g.ctx
      (s.putSpilled { x with groups := x.groups ++ [(g, ts)] }).dropGroup g.core g.berth

/-! ### Claims and restores (R324, R325) -/

/-- A buffer's bytes from address `p` on. -/
def bytesMap (p : Nat) : List Byte → SMap Byte
  | [] => []
  | b :: t => if b = 0 then bytesMap (p + 1) t else (p, b) :: bytesMap (p + 1) t

/-- The cells of a tile, from the raw doublewords of its place in the slot. -/
def cellsMap (p : Nat) : List Word → SMap (BitVec 56)
  | [] => []
  | w :: t => if w.setWidth 56 = 0 then cellsMap (p + 1) t else (p, w.setWidth 56) :: cellsMap (p + 1) t

/-- A spilled row is what stands at its place in the spill slot now (R324, R325). -/
def State.rereadA (s : State) (core ctx : Nat) : State :=
  match (s.spillOf core ctx).a with
  | none => s
  | some m =>
    let n := 65536 * (s.spillOf core ctx).split
    let r := s.reread core ctx (s.slotBase core ctx) n (readMap 0 m 0 n)
    r.2.putSpilled { r.2.spillOf core ctx with a := some (bytesMap 0 r.1) }

def State.rereadW (s : State) (core ctx : Nat) : State :=
  match (s.spillOf core ctx).w with
  | none => s
  | some m =>
    let r := s.reread core ctx (s.slotBase core ctx + 0x60000) 262144 (readMap 0 m 0 262144)
    r.2.putSpilled { r.2.spillOf core ctx with w := some (bytesMap 0 r.1) }

/-- The tiles that were spilled come from their places; the others were dropped (R159). -/
def State.rereadC (s : State) (core ctx : Nat) : State :=
  match (s.spillOf core ctx).c with
  | none => s
  | some m =>
    let x := s.spillOf core ctx
    let r := ((List.range 4).filter x.live.getLsbD).foldl (fun r t =>
      let q := r.2.reread core ctx (s.slotBase core ctx + 0xa0000 + 0x20000 * t) 131072 (tileBytes m t)
      (r.1 ++ cellsMap (16384 * t) (wordsOf 16384 q.1), q.2)) (([] : SMap (BitVec 56)), s)
    r.2.putSpilled { r.2.spillOf core ctx with c := some r.1 }

/-- The A-buffer of a core belongs to this context from now on; another context's bytes are spilled and zeroed, its own
spilled bytes come back. -/
def State.claimA (s : State) (core ctx : Nat) : State :=
  if (s.coreAt core).rowA = some ctx then s
  else
    let s := match (s.coreAt core).rowA with
      | some c => s.spillA core c
      | none => s
    let s := s.rereadA core ctx
    let back := (s.spillOf core ctx).a
    let s := s.modCore core fun k =>
      { k with rowA := some ctx, abuf := (back.getD []).filter fun p => decide (p.1 < 65536 * k.split) }
    if back.isSome then s.putSpilled { s.spillOf core ctx with a := none } else s

def State.claimW (s : State) (core ctx : Nat) : State :=
  if (s.coreAt core).rowW = some ctx then s
  else
    let s := match (s.coreAt core).rowW with
      | some c => s.spillW core c
      | none => s
    let s := s.rereadW core ctx
    let back := (s.spillOf core ctx).w
    let s := s.modCore core fun k => { k with rowW := some ctx, wbuf := back.getD [] }
    if back.isSome then s.putSpilled { s.spillOf core ctx with w := none } else s

/-- The C-buffer; a tile that was not spilled reads as +0 (R325). -/
def State.claimC (s : State) (core ctx : Nat) : State :=
  if (s.coreAt core).rowC = some ctx then s
  else
    let s := match (s.coreAt core).rowC with
      | some c => s.spillC core c
      | none => s
    let s := s.rereadC core ctx
    let back := (s.spillOf core ctx).c
    let s := s.modCore core fun k => { k with rowC := some ctx, tiles := back.getD [], rowLive := 0xf }
    if back.isSome then s.putSpilled { s.spillOf core ctx with c := none } else s

/-- Exchange the rows of a core with those that a context has spilled from it. -/
def State.swapRows (s : State) (ctx core : Nat) : State :=
  let x := s.spillOf core ctx
  let k := s.coreAt core
  let k' : Core := { k with abuf := x.a.getD k.abuf, wbuf := x.w.getD k.wbuf, tiles := x.c.getD k.tiles }
  if x.a.isNone && x.w.isNone && x.c.isNone then s
  else (s.setCore core k').putSpilled
    { x with a := x.a.map fun _ => k.abuf, w := x.w.map fun _ => k.wbuf, c := x.c.map fun _ => k.tiles }

/-- Rows that changed in the spilled state are written to their places in the spill slot (R367). -/
def State.syncRows (s : State) (ctx : Nat) (old : Spilled) : State :=
  let x := s.spillOf old.core ctx
  let base := s.slotBase old.core ctx
  let put (s : State) (va : Nat) (bs : List Byte) : State := (s.spillBytes old.core ctx va bs).getD s
  let s := match x.a with
    | some m => if x.a = old.a then s else put s base (readMap 0 m 0 (65536 * x.split))
    | none => s
  let s := match x.w with
    | some m => if x.w = old.w then s else put s (base + 0x60000) (readMap 0 m 0 262144)
    | none => s
  match x.c with
  | some m =>
    if x.c = old.c then s
    else ((List.range 4).filter x.live.getLsbD).foldl (fun s t => put s (base + 0xa0000 + 0x20000 * t) (tileBytes m t)) s
  | none => s

/-- What an engine does for a context whose rows have been claimed meanwhile happens in the spilled rows (R323, R367). -/
def State.withRows {α : Type} (s : State) (cores : List Nat) (ctx : Nat) (f : State → α × State) : α × State :=
  if s.spilled.any fun x => x.ctx == ctx && has cores x.core then
    let s := cores.foldl (fun s c => ((s.rereadA c ctx).rereadW c ctx).rereadC c ctx) s
    let olds := cores.map fun c => s.spillOf c ctx
    let r := f (cores.foldl (fun s c => s.swapRows ctx c) s)
    (r.1, olds.foldl (fun s o => s.syncRows ctx o) (cores.foldl (fun s c => s.swapRows ctx c) r.2))
  else f s

/-- The threads of a spilled group as the save area has them. -/
def State.rereadThreads (s : State) (g : Group) (split : Nat) : List Thread → List Thread × State
  | [] => ([], s)
  | t :: r =>
    let p := s.rereadThread g split t
    let q := p.2.rereadThreads g split r
    (p.1 :: q.1, q.2)

/-- Two cores exchange what stands in their buffers. -/
def State.swapBuffers (s : State) (a b : Nat) : State :=
  let x := s.coreAt a
  let y := s.coreAt b
  (s.setCore a { x with abuf := y.abuf, wbuf := y.wbuf, tiles := y.tiles }).setCore b { y with abuf := x.abuf, wbuf := x.wbuf, tiles := x.tiles }

/-- What a copy does happens in its context's rows: on its own core, in the spilled rows, or where a revocation has put them
(R323, R327, R367, DEDUCED, log 164). -/
def State.onRows {α : Type} (s : State) (core : Nat) (c : Copy) (f : State → α × State) : α × State :=
  match c.rows with
  | none => s.withRows [core, core + 1] c.ctx f
  | some b => s.withRows [b, b + 1] c.ctx fun s =>
      let swap (s : State) : State := (s.swapBuffers core b).swapBuffers (core + 1) (b + 1)
      let r := f (swap s)
      (r.1, swap r.2)

/-- Put a spilled group back into its berth; whoever holds the berth is spilled first. Its registers and `tmode` come from the save
area (R324, R325). -/
def State.restoreGroup (s : State) (p : Group × List Thread) : State :=
  let r := s.rereadThreads p.1 (s.coreAt p.1.core).split p.2
  let p := (p.1, r.1)
  let s := r.2
  let s := match s.group? p.1.core p.1.berth with
    | some g => s.spillBerth g
    | none => s
  let s := (s.putGroup { p.1 with halted := true }).addThreads p.2
  let s := p.2.foldl (fun s t => if decide (t.wait = .held) then s.proceed t.id else s) s
  let s := match s.task? p.1.ctx p.1.frame with
    | some t => (s.putTask { t with phase := .running p.1.core p.1.berth }).applyNotice p.1.core p.1.ctx
        (t.notice.addAll (s.wroteBy p.1.ctx p.1.frame))
    | none => s
  (s.checkEnd p.1.core p.1.berth none).groupArrive p.1.core p.1.berth

/-- The quay threads of a core. -/
def State.quayThreads (s : State) (core : Nat) : List Thread := s.groupThreads core quayBerth

def State.dropQuay (s : State) (core : Nat) : State :=
  { s with threads := s.threads.filter fun t => !(t.id.core == core && t.id.berth == quayBerth) }

/-- The notice of the context served, beside those of the contexts served before (R237, R257). -/
def Core.keepNotice (k : Core) : List (Nat × Notice) :=
  match k.qctx with
  | some c => upsert (fun p => p.1 == c) (c, k.qnotice) k.oldNotices
  | none => k.oldNotices

/-- The QP's notice for a context: it names what every copy of the context on this timeline has written (R237). -/
def Core.noticeFor (k : Core) (ctx : Nat) : Notice :=
  if k.qctx = some ctx then k.qnotice else ((k.oldNotices.find? fun p => p.1 == ctx).map (·.2)).getD {}

/-- The quay processor's state goes to the device image of the context that it serves. -/
def State.spillQuay (s : State) (core : Nat) : State :=
  match (s.coreAt core).qctx with
  | none => s
  | some c =>
    let k := s.coreAt core
    let img : QpImage := { threads := s.quayThreads core, notice := k.qnotice, kicks := k.kicks.filter fun q => q.ctx == c }
    let s := match s.writeImage core c with
      | none => s.spillFailed c
      | some s => s.putSpilled { s.spillOf core c with quay := some img }
    (s.dropQuay core).modCore core fun k =>
      { k with qctx := none, kicks := k.kicks.filter fun q => !(q.ctx == c), oldNotices := k.keepNotice }

/-- A spilled quay processor comes back; the context that it serves now is spilled first. -/
def State.restoreQuay (s : State) (core ctx : Nat) : State :=
  match (s.spillOf core ctx).quay with
  | none => s
  | some img =>
    let s := ((s.spillQuay core).modCore core fun k => { k with oldNotices := k.keepNotice }).dropQuay core
    let s := s.addThreads img.threads
    let s := img.threads.foldl (fun s t => if decide (t.wait = .held) then s.proceed t.id else s) s
    let s := s.modCore core fun k => { k with qctx := some ctx, qnotice := img.notice.merge (k.noticeFor ctx), kicks := img.kicks ++ k.kicks }
    let s := s.applyNotice core ctx (img.notice.addAll (s.wroteBy ctx (quayFrame core)))
    s.putSpilled { s.spillOf core ctx with quay := none }

/-- Whether the context that the QP serves has been taken off the core. -/
def State.quayOut (s : State) (core : Nat) : Bool :=
  let k := s.coreAt core
  match k.qctx with
  | none => false
  | some c => !decide (k.tenant = some (s.vfOf c)) || !s.gangIn c

/-- Whether the context that the QP serves is done with it, or has been taken off the core (R167). -/
def State.quayFree (s : State) (core : Nat) : Bool :=
  let k := s.coreAt core
  match k.qctx with
  | none => true
  | some c =>
    s.quayOut core ||
    ((s.quayThreads core).all (fun t => match t.wait with
      | .qwaiting _ _ => true
      | _ => false) && !(k.kicks.any fun q => q.ctx == c) && !(k.copies.any fun y => y.ctx == c && !y.retired))

/-- A kick claims the quay row from a context that has been taken off the core (R324). -/
def State.claimQuay (s : State) (core ctx : Nat) : State :=
  if s.quayOut core && decide ((s.coreAt core).qctx ≠ some ctx) then s.spillQuay core else s

/-- Every spilled row of a context on a core comes back (R325). Where software has changed the device image, either it comes
back as written or the context stops with an error (R324). -/
def State.restoreOne (s : State) (x : Spilled) : State :=
  let c := if s.imageSound x then (some false, s) else s.choose [false, true]
  if c.1 = some true then c.2.stopCtx x.ctx { cause := 18 }
  else
    let s := x.groups.foldl State.restoreGroup c.2
    let s := s.putSpilled { s.spillOf x.core x.ctx with groups := [], image := [] }
    let s := if x.a.isSome then s.claimA x.core x.ctx else s
    let s := if x.w.isSome then s.claimW x.core x.ctx else s
    let s := if x.c.isSome then s.claimC x.core x.ctx else s
    let s := if s.quayFree x.core then s.restoreQuay x.core x.ctx else s
    s.putSpilled { s.spillOf x.core x.ctx with slot := none }


/-! ### A core image of another core (R327, R376) -/

def LaneId.moved (a b : Nat) (l : LaneId) : LaneId := if l.core = a then { l with core := b } else l

/-- What a thread stalls for, on another core. -/
def Wait.moved (a b : Nat) (w : Wait) : Wait :=
  match w with
  | .stalled (.tile c t) => .stalled (.tile (if c = a then b else if c = a + 1 then b + 1 else c) t)
  | w => w

def movedPair (a b : Nat) (p : Nat × Nat) : Nat × Nat := (if p.1 = a then b else p.1, p.2)

def Task.moved (a b : Nat) (t : Task) : Task :=
  { t with
    phase := match t.phase with
      | .running c k => .running (if c = a then b else c) k
      | p => p
    origin := if t.origin = a then b else t.origin
    trap := t.trap.map fun i : TrapInfo => if i.core = a then { i with core := b } else i }

/-- Level 1 is the core's own barrier. -/
def Barrier.moved (a b : Nat) (x : Barrier) : Barrier :=
  { x with inst := if x.level = 1 ∧ x.inst = a then b else x.inst, registered := x.registered.map (movedPair a b),
           arrived := x.arrived.map (movedPair a b) }

def Spilled.moved (a b : Nat) (x : Spilled) : Spilled :=
  let thr (t : Thread) : Thread := { t with id := t.id.moved a b, wait := t.wait.moved a b }
  { x with
    core := b
    slot := some (x.slot.getD a)
    groups := x.groups.map fun p => ({ p.1 with core := b }, p.2.map thr)
    quay := x.quay.map fun q : QpImage => { q with threads := q.threads.map thr } }

/-- A late atomic that moves takes its reservation along, unless the core that it leaves needs it too (R302). -/
def State.moveLate (s : State) (a b : Nat) (p : Pending) : State :=
  if p.packet.kind ≠ 13 then s
  else
    let blk := blockOf p.packet.gpa
    match s.resv? blk (.inl a) with
    | none => s
    | some r =>
      if s.keepsResv a blk || (s.resv? blk (.inl b)).isSome then s.settleResv (a, blk)
      else { s with resvs := s.resvs.map fun x : Resv => if x = r then { x with holder := .inl b } else x }

/-- The image that a context has spilled from core `a` becomes one of core `b`, with everything that names its lanes. -/
def State.rehome (s : State) (ctx a b : Nat) : State :=
  let rec_ (r : FaultRec) : FaultRec := if r.ctx == ctx && r.core == a then { r with core := b } else r
  let late := s.pendings.filter fun p => p.ctx == ctx && p.core == a
  let mine := (s.coreAt a).kicks.filter fun q => q.ctx == ctx
  let s := s.modCore a fun k => { k with kicks := k.kicks.filter fun q => !(q.ctx == ctx) }
  let s := s.modCore b fun k => { k with kicks := k.kicks ++ mine }
  let s := s.modCore a fun k => { k with copies := k.copies.map fun c : Copy => if c.ctx = ctx && !c.retired then { c with rows := some b } else c }
  let s := { s with
    spilled := s.spilled.map fun x : Spilled => if x.core == a && x.ctx == ctx then x.moved a b else x
    wrote := s.wrote.map fun w : Nat × Nat × Nat => if decide (w.1 = ctx) && decide (w.2.1 = quayFrame a) then (w.1, quayFrame b, w.2.2) else w
    tasks := s.tasks.map fun t : Task => if t.ctx == ctx then t.moved a b else t
    barriers := s.barriers.map fun x : Barrier => if x.ctx == ctx then x.moved a b else x
    pendings := s.pendings.map fun p : Pending =>
      if p.ctx == ctx && p.core == a then { p with core := b, lane := p.lane.map (LaneId.moved a b) } else p
    sealWaits := s.sealWaits.map fun w : SealWait => if w.ctx == ctx then { w with lanes := w.lanes.map (LaneId.moved a b) } else w
    unsealWaits := s.unsealWaits.map fun w : UnsealWait => if w.ctx == ctx then { w with lanes := w.lanes.map (LaneId.moved a b) } else w
    shootdowns := s.shootdowns.map fun w : Shootdown => if w.ctx == ctx then { w with lanes := w.lanes.map (LaneId.moved a b) } else w }
  (late.foldl (State.moveLate · a b ·) s).modVf (s.vfOf ctx) fun x => { x with fqWaiting := x.fqWaiting.map rec_, fqLive := x.fqLive.map rec_ }

/-- Whether a context holds state on a core. -/
def State.holdsState (s : State) (core ctx : Nat) : Bool :=
  let k := s.coreAt core
  (s.groups.any fun g => g.core == core && g.ctx == ctx) || (s.spilled.any fun x => x.core == core && x.ctx == ctx) ||
  has [k.rowA, k.rowW, k.rowC, k.qctx] (some ctx) || (k.kicks.any fun q => q.ctx == ctx) ||
  (k.copies.any fun c => c.ctx == ctx) || k.matQ.any fun o => o.ctx == ctx

/-- A core image whose core is not one of its partition's. -/
def State.homeless (s : State) (x : Spilled) : Bool := !has (s.partCores (s.partOf x.ctx)) x.core

/-- Berths, threads and registers. -/
def sizeOf3 (gs : List Group) : Nat × Nat × Nat :=
  gs.foldl (fun n g => (n.1 + 1, n.2.1 + g.width, n.2.2 + g.width * g.nreg)) (0, 0, 0)

/-- The groups on a core that run when a VF is its tenant: those that run now, and the VF's halted and spilled ones, which come
back first (R325). -/
def State.withVf (s : State) (core v : Nat) : List Group :=
  (s.groups.filter fun g => g.core == core && (!g.halted || (s.vfOf g.ctx == v && s.gangIn g.ctx))) ++
    (s.spilled.filter fun x => x.core == core && s.vfOf x.ctx == v && s.gangIn x.ctx).flatMap fun x => x.groups.map (·.1)

/-- What a core holds (R217). -/
def fits217 (h : Nat × Nat × Nat) : Bool := decide (h.1 ≤ 32) && decide (h.2.1 ≤ 1024) && decide (h.2.2 ≤ 32768)

/-- Whether the groups of an image find their own berths free, and room, on a core (R217, R327). -/
def State.imageFits (s : State) (core : Nat) (x : Spilled) : Bool :=
  let here := s.withVf core (s.vfOf x.ctx)
  let mine := x.groups.map (·.1)
  fits217 (sizeOf3 (here ++ mine)) && mine.all fun g => !(here.any fun h => h.berth == g.berth)

/-- Whether the groups of a spilled image have room beside those of the VF that hold berths of the core and can run (R217, R325). -/
def State.fitsBack (s : State) (x : Spilled) : Bool :=
  let here := s.groups.filter fun g => g.core == x.core && (!g.halted || (s.vfOf g.ctx == s.vfOf x.ctx && s.gangIn g.ctx))
  let mine := x.groups.map (·.1)
  mine.isEmpty || (fits217 (sizeOf3 (here ++ mine)) && mine.all fun g => !(here.any fun h => h.berth == g.berth))

/-- A context is kept off a core as long as groups of it are spilled there: every row comes back before the first of its groups
issues (R325). -/
def State.keptOff (s : State) (core ctx : Nat) : Bool := s.spilled.any fun x => x.core == core && x.ctx == ctx && !x.groups.isEmpty

/-- Every spilled row of the VF's contexts on the core comes back, where there is room for the groups; a context whose gang is out
stays out (R325, R363). -/
def State.restoreRows (s : State) (core v : Nat) : State :=
  (s.spilled.filter fun x => x.core == core && s.vfOf x.ctx == v && s.gangIn x.ctx).foldl (fun s x =>
    if s.fitsBack x then s.restoreOne x else s) s

/-- Whether the image's leader holds pair groups (R225). -/
def State.pairImage (s : State) (x : Spilled) : Bool :=
  s.spilled.any fun y => y.core == leaderOf x.core && y.ctx == x.ctx && y.groups.any fun p => p.1.pair

/-- Whether a homeless image can be restored onto the core. -/
def State.canAdopt (s : State) (core : Nat) (x : Spilled) : Bool :=
  s.homeless x && has (s.partCores (s.partOf x.ctx)) core && s.gangIn x.ctx && !s.holdsState core x.ctx && s.imageFits core x &&
  (!s.pairImage x ||
    (isLeader x.core && isLeader core && has (s.partCores (s.partOf x.ctx)) (core + 1) && !s.holdsState (core + 1) x.ctx &&
      s.imageFits (core + 1) (s.spillOf (x.core + 1) x.ctx) && (s.coreAt (core + 1)).pairCtx.isNone))

/-- The images of a VF that the core can take become its own. -/
def State.adopt (s : State) (core v : Nat) : State :=
  (s.spilled.filter fun x => s.vfOf x.ctx == v).foldl (fun s x =>
    if !s.canAdopt core x then s
    else if s.pairImage x then
      (((s.rehome x.ctx x.core core).rehome x.ctx (x.core + 1) (core + 1)).modCore (core + 1) fun k =>
        { k with pairCtx := some x.ctx })
    else s.rehome x.ctx x.core core) s

/-- Every running group on the core halts in place (R322, R323). -/
def State.haltCore (s : State) (core : Nat) : State :=
  let gs := s.groups.filter fun g => g.core == core && !g.halted
  let s := gs.foldl (fun s g => s.putGroup { g with halted := true }) s
  s.modCore core fun k => { k with ring := [] }

/-- The split never exceeds its partition's lim (R250). -/
def State.limOf (s : State) (core : Nat) : Nat :=
  let owner := (List.range 4).find? fun p => has (s.partCores p) core
  (s.part (owner.getD 0)).lim

/-- The split of a core changes; the contents handed over are written back and dropped, or discarded (R251). -/
def State.setSplit (s : State) (core c : Nat) : State :=
  let k := s.coreAt core
  if c = k.split then s
  else if k.split < c then
    let extra := (s.l1.filter fun l => l.core == core).drop (l1Lines c)
    let s := extra.foldl State.evict s
    s.modCore core fun k => { k with split := c, abuf := k.abuf.filter fun p => decide (p.1 < 65536 * k.split) }
  else s.modCore core fun k => { k with split := c, abuf := k.abuf.filter fun p => decide (p.1 < 65536 * c) }

/-- Matrix operations queued, or copies in flight, on a core. -/
def State.coreWorks (s : State) (core : Nat) : Bool :=
  !(s.coreAt core).matQ.isEmpty || (s.coreAt core).copies.any fun c => !c.retired && decide (c.kind ≠ .qstamp)

/-- The split of a core falls to lim once its engines are idle (R250, R251). -/
def State.fallToLim (s : State) (core : Nat) : State :=
  if s.coreWorks core then s.modCore core fun k => { k with splitDue := true }
  else
    let k := s.coreAt core
    (s.setSplit core (min (k.splitTake.getD k.split) (s.limOf core))).modCore core fun k => { k with splitDue := false, splitTake := none }

/-- The context that the core works for: one that is not the last begins with every tile live (R159). -/
def Core.serves (k : Core) (ctx : Nat) : Core :=
  if k.lastCtx = some ctx then k
  else
    { k with lastCtx := some ctx, rowLive := if k.lastCtx.isSome && k.rowC == k.lastCtx then k.liveMask else k.rowLive, liveMask := 0xf }

/-- The core begins work for a context: live-tile mask and lim (R159, R250). -/
def State.serve (s : State) (core ctx : Nat) : State :=
  if (s.coreAt core).lastCtx = some ctx then s else (s.fallToLim core).modCore core fun k => k.serves ctx

/-- Halted groups of the VF on the core run on; their threads that are ready join together. -/
def State.resumeCore (s : State) (core v : Nat) : State :=
  let gs := s.groups.filter fun g => g.core == core && g.halted && s.vfOf g.ctx == v && s.gangIn g.ctx && !s.keptOff core g.ctx
  let s := gs.foldl (fun s g => s.putGroup { g with halted := false }) s
  let s := ((gs.map (·.ctx)).eraseDups).foldl (fun s c => s.serve core c) s
  s.joinAll (gs.flatMap fun g => (s.groupThreads core g.berth).map (·.id))

end Sys2Proof.Machine
end

