-- ==== Sys2Proof/Machine/Memory.lean ====
section
/-! DEFINITION. Loads, stores, atomics, prefetch, seals, and the accesses to the A-buffer and to C-buffer cells
(R117 to R140). -/

namespace Sys2Proof.Machine

/-! ### The checks of R120 -/

/-- Whether a copy in flight of the context keeps `n` bytes at `lo` of a space of a core: its destination, and its A-buffer source
(R131, R260). One whose rows a revocation has moved keeps them where they are (R327). -/
def State.behindCopy (s : State) (core ctx space lo n : Nat) : Bool :=
  s.cores.any fun k => k.2.copies.any fun c => !c.retired && c.ctx == ctx && c.rows.getD k.1 == core &&
    ((c.dst.any fun r => overlaps r space lo n) || (c.dst2.any fun r => overlaps r space lo n) || (c.src.any fun r => overlaps r space lo n))

/-- A load that changes nothing where it reads, and takes no place in a line order. -/
def Pending.plain (p : Pending) : Bool := !p.ordered && (p.packet.kind == 0 || p.packet.kind == 1 || p.packet.kind == 12)

/-- Whether an access to a line waits for an earlier one of its core and context that is still to be performed, a signal's stamp
among them: they act in their order, but for loads among themselves (R136, R239, R240). -/
def State.behindAccess (s : State) (core ctx ln : Nat) (acc : Acc) : Bool :=
  s.pendings.any fun p => p.core == core && p.ctx == ctx && (p.lane.isSome || p.packet.kind == 8) && lineOf p.fva.toNat == ln &&
    !(acc == .load && p.plain)

/-- A request that waits for the host: a read (kind 0) or an atomic (kind 11). -/
def Pending.toHost (p : Pending) : Bool := p.packet.kind == 0 || p.packet.kind == 11

/-- An access that waits for a home of the package: a load (kind 12) or an atomic (kind 13). -/
def Pending.isLate (p : Pending) : Bool := p.packet.kind == 12 || p.packet.kind == 13

/-- Whether an atomic or an `ld.d.ext` has to act before another: it is of the same thread, or of a lower lane of the same
instruction. The order among requests to other packages is that of their packets (R137, R242, R348). -/
def Pending.goesBefore (q : Pending) (lane : Option LaneId) (ctx batch : Nat) : Bool :=
  q.ordered && (q.toHost || q.isLate) && q.ctx == ctx && (decide (q.lane = lane) || q.batch == batch)

/-- An atomic or an `ld.d.ext` of a lane cannot act yet: its thread's earlier ones, or those of lower lanes, have still to
(R137, R242). -/
def State.mustWait (s : State) (id : LaneId) (ctx : Nat) : Bool := s.pendings.any fun q => q.goesBefore (some id) ctx s.batch

/-- Checks 1 to 4 of R120 for one lane; `hostOk` says that the access can be made in host memory (R140). -/
def State.check (s : State) (id : LaneId) (ea : Word) (n : Nat) (acc : Acc) (hostOk : Bool) : Except LaneRes Trans × State :=
  if !aligned ea n then (.error (.trap 2 ea), s)
  else
    let ctx := (s.thread id).ctx
    match s.translate id.core ctx ea.toNat acc with
    | (.error f, s) => (.error (if f.waits then .stall (s.pageStall ctx f) else .fault 16 f.sub ea f.gpa), s)
    | (.ok t, s) =>
      let host := match t.target with
        | .host _ => true
        | _ => false
      if host && !hostOk then (.error (.fault 16 7 ea (BitVec.ofNat 64 t.gpa)), s)
      else if acc != .load && s.sealed id.core ctx ea.toNat n then (.error (.trap 6 ea), s)
      else if s.behindCopy id.core ctx 0 ea.toNat n then (.error (.stall (.copy 0 ea.toNat n)), s)
      else if s.behindAccess id.core ctx (lineOf ea.toNat) acc then (.error (.stall (.line (lineOf ea.toNat))), s)
      else (.ok t, s)

/-- Check 5 for one lane that would write: `refused` says that an earlier lane was refused (R126). -/
def State.growLane (s : State) (refused : Bool) (id : LaneId) (ea : Word) (t : Trans) : Bool × Except LaneRes Trans × State :=
  match t.target with
  | .device a =>
    let b := blockOf a
    let no : LaneRes := .fault 17 (blockStack b) ea (BitVec.ofNat 64 t.gpa)
    if !s.needsGrowth t.ce b (.inl id.core) then (refused, .ok t, s)
    else if refused then (true, .error no, s)
    else
      match s.grantGrowth t.vf b (.inl id.core) with
      | none => (true, .error no, s)
      | some s => (false, .ok t, s)
  | _ => (refused, .ok t, s)

/-- A lane, its effective address, and what the checks found. -/
abbrev Want := LaneId × Word × Except LaneRes Trans

def State.checkAll (s : State) (n : Nat) (acc : Acc) (hostOk : Bool) (addr : Thread → Word) : List LaneId → List Want × State
  | [] => ([], s)
  | l :: r =>
    let ea := addr (s.thread l)
    let c := s.check l ea n acc hostOk
    let q := c.2.checkAll n acc hostOk addr r
    ((l, ea, c.1) :: q.1, q.2)

def State.growAll (s : State) (refused : Bool) : List Want → List Want × State
  | [] => ([], s)
  | (l, ea, .error e) :: r =>
    let q := s.growAll refused r
    ((l, ea, .error e) :: q.1, q.2)
  | (l, ea, .ok t) :: r =>
    let g := s.growLane refused l ea t
    let q := g.2.2.growAll g.1 r
    ((l, ea, g.2.1) :: q.1, q.2)

/-- The lanes that passed every check act in lane order. -/
def performAll (s : State) (f : State → LaneId → Word → Trans → State × LaneRes) : List Want → State × List (LaneId × LaneRes)
  | [] => (s, [])
  | (l, _, .error e) :: r =>
    let q := performAll s f r
    (q.1, (l, e) :: q.2)
  | (l, ea, .ok t) :: r =>
    let p := f s l ea t
    let q := performAll p.1 f r
    (q.1, (l, p.2) :: q.2)

/-- The blocks that the lanes which passed every check will write under a reservation of their core (R126). -/
def writeBlocks (core : Nat) (ws : List Want) : List (Nat × Nat) :=
  (ws.filterMap fun w => match w.2.2 with
    | .ok t => (match t.target with
      | .device a => if t.ce then some (core, blockOf a) else none
      | _ => none)
    | .error _ => none).eraseDups

/-- The lanes of an instruction that writes act: until it is done, none of its reservations ends. -/
def State.writeAll (s : State) (core : Nat) (f : State → LaneId → Word → Trans → State × LaneRes) (ws : List Want) :
    State × List (LaneId × LaneRes) :=
  let bs := writeBlocks core ws
  let r := performAll { s with holding := bs } f ws
  (bs.foldl State.settleResv { r.1 with holding := s.holding }, r.2)

/-- A port has 768 non-posted requests outstanding at most (R339): whether another has to wait. -/
def State.tagsFull (s : State) (t : Trans) : Bool :=
  match t.target with
  | .host _ => decide (768 ≤ (s.pendings.filter fun p => p.toHost && s.vfPort p.vf == s.vfPort t.vf).length)
  | _ => false

/-- An access of `n` bytes to global memory; `viaL1` says that the core's L1 serves it where it can. -/
def globalOp (s : State) (e : Engine) (rs : List Reg) (len n : Nat) (acc : Acc) (hostOk viaL1 : Bool) (addr : Thread → Word)
    (f : State → LaneId → Word → Trans → State × LaneRes) : Out :=
  issue s e rs len false fun s i =>
    let c := { s with batch := s.ttags }.checkAll n acc hostOk addr i.lanes
    let f' (s : State) (l : LaneId) (ea : Word) (t : Trans) : State × LaneRes :=
      if s.tagsFull t && !(viaL1 && (decide (acc = .store) || s.hits l.core (s.thread l).ctx ea.toNat n)) then
        (s, .stall (.tags (s.vfPort t.vf)))
      else f s l ea t
    if acc = .load then performAll c.2 f' c.1
    else
      let g := c.2.growAll false c.1
      g.2.writeAll i.core f' g.1

/-! ### Loads (R121 to R123) -/

/-- `n` bytes extended to a doubleword. -/
def extendTo (signed : Bool) (n v : Nat) : Word :=
  if signed && decide (2 ^ (8 * n - 1) ≤ v) then wrap64 ((v : Int) - 2 ^ (8 * n)) else BitVec.ofNat 64 v

/-- A pending access that the package or its host answers itself: its tag is the window's. -/
def State.awaitLocal (s : State) (p : Pending) : Nat × State :=
  let tag := (s.ttags + 1) % 2 ^ 32
  (2 * tag + 1, { s with ttags := s.ttags + 1, pendings := s.pendings ++ [{ p with ttag := tag }] })

/-- A read whose answer comes later: of host memory, of another package, or of a home that answers late. The answer's tag.
`ext` marks an `ld.d.ext` (R123). -/
def State.askRead (s : State) (id : LaneId) (ea : Word) (n : Nat) (signed ext : Bool) (own : BitVec 128) (ownData : BitVec 1024)
    (t : Trans) : Nat × State :=
  let th := s.thread id
  let p (packet : Packet) : Pending :=
    { ttag := 0, packet := packet, lane := some id, core := id.core, ctx := th.ctx, ifa := th.pc, fva := ea, bytes := n, ordered := ext
      batch := s.batch, signed := signed, off := ea.toNat % 128, own := own, ownData := ownData, agpa := t.gpa, key := t.key, ce := t.ce
      vf := t.vf }
  match t.target with
  | .fabric pkg g =>
    let s := s.sendRequest (p (s.packetFor th.ctx 1 pkg (g / 128 * 128)))
    (2 * (s.ttags % 2 ^ 32) + 1, s)
  | .host a =>
    let r := s.awaitLocal (p { kind := 0, gpa := a })
    (r.1, r.2.output (if ext then .readHost a n (r.1 / 2) else .readHost (a / 128 * 128) 128 (r.1 / 2)))
  | .device a => s.awaitLocal (p { kind := 12, gpa := a })

/-- A lane's load: the window holds the value, an error, or nothing yet. -/
def State.loadLane (s : State) (quay : Bool) (n : Nat) (signed : Bool) (d : Reg) (k : BitVec 4) (id : LaneId) (ea : Word)
    (t : Trans) : State × LaneRes :=
  let th := (s.thread id).claim d
  let s := s.putThread th
  let w := openWindow th quay d k .waiting th.pc ea
  if s.missesLate id.core th.ctx ea.toNat n t then
    let r := s.askRead id ea n signed false 0 0 t
    (r.2, .done [{ w with tag := r.1 }])
  else match s.loadL1 id.core th.ctx ea.toNat n t with
  | (.val v, s) => (s, .done [{ w with arrival := .value (extendTo signed n v) }])
  | (.bad u, s) => (s, .done [{ w with arrival := .error 18 u (BitVec.ofNat 64 t.gpa) }])
  | (.later, s) =>
    let l := (s.lineFor id.core th.ctx ea.toNat t).1
    let r := s.askRead id ea n signed false l.dirty l.data t
    (r.2, .done [{ w with tag := r.1 }])

def isQuay (id : LaneId) : Bool := id.berth == quayBerth

def load (s : State) (n : Nat) (signed : Bool) (d a : Reg) (i : BitVec 7) (k : BitVec 4) : Out :=
  globalOp s .both [d, a] 4 n .load true true (fun t => effAddr (t.rd a) i n) fun s id ea t =>
    s.loadLane (isQuay id) n signed d k id ea t

/-- `ld.b` (R121). -/
def execLdB (d a : Reg) (i : BitVec 7) (k : BitVec 4) (s : State) : Out := load s 1 false d a i k
/-- `ld.h` (R121). -/
def execLdH (d a : Reg) (i : BitVec 7) (k : BitVec 4) (s : State) : Out := load s 2 false d a i k
/-- `ld.w` (R121). -/
def execLdW (d a : Reg) (i : BitVec 7) (k : BitVec 4) (s : State) : Out := load s 4 false d a i k
/-- `ld.d` (R121). -/
def execLdD (d a : Reg) (i : BitVec 7) (k : BitVec 4) (s : State) : Out := load s 8 false d a i k
/-- `ld.b.s` (R121). -/
def execLdBS (d a : Reg) (i : BitVec 7) (k : BitVec 4) (s : State) : Out := load s 1 true d a i k
/-- `ld.h.s` (R121). -/
def execLdHS (d a : Reg) (i : BitVec 7) (k : BitVec 4) (s : State) : Out := load s 2 true d a i k
/-- `ld.w.s` (R121). -/
def execLdWS (d a : Reg) (i : BitVec 7) (k : BitVec 4) (s : State) : Out := load s 4 true d a i k

/-- The core's own dirty bytes of a line go ahead of an access that is made where the line has its home, and its copy goes:
what the access leaves there is read anew (R240). -/
def State.sendAhead (s : State) (core ctx va : Nat) : State :=
  match s.line? core ctx (lineOf va) with
  | some l => (s.flushPend l).dropLine l
  | none => s

/-- An access takes exclusive ownership of its line: every other copy has written its dirty bytes back (R136, R253). -/
def State.takeLine (s : State) (core ctx va a : Nat) : State := s.invalidateOthers (core, ctx, lineOf va) (a / 128 * 128)

/-- Whether an error stands in the bytes that an access to an owned line consumes: the line's dirty bytes, or the block (R380). -/
def State.errorAt (s : State) (core ctx va a : Nat) : Option Nat :=
  if ((s.line? core ctx (lineOf va)).map s.struckLine).getD false then some 3
  else if s.bad a then some 0 else none

/-- A lane's `ld.d.ext` (R123): the line is owned, the external edge is applied at the close; a sealed region carries no
edge; of another package it reads at the home (R351, R353). -/
def State.loadExt (s : State) (quay : Bool) (d : Reg) (k : BitVec 4) (id : LaneId) (ea : Word) (t : Trans) : State × LaneRes :=
  let ctx := (s.thread id).ctx
  if s.sealedOn (dieOf id.core) ctx ea.toNat 8 then s.loadLane quay 8 false d k id ea t
  else
    let th := (s.thread id).claim d
    let s := s.putThread th
    let w := openWindow th quay d k .waiting th.pc ea
    match t.target with
    | .device a =>
      if s.mustWait id ctx || (s.slowAt a && !s.owns id.core ctx ea.toNat) then
        let r := s.askRead id ea 8 false true 0 0 t
        (r.2, .done [{ w with tag := r.1, closing := { ext := true } }])
      else
        let s := s.takeLine id.core ctx ea.toNat a
        match s.errorAt id.core ctx ea.toNat a with
        | some u => (s, .done [{ w with arrival := .error 18 u (BitVec.ofNat 64 t.gpa) }])
        | none =>
          let r := s.own id.core ctx ea.toNat t a
          let v : Word := BitVec.ofNat 64 (lineVal r.1 (ea.toNat % 128) 8)
          (r.2, .done [{ w with arrival := .value v, closing := { ext := true } }])
    | g =>
      let r := (s.sendAhead id.core ctx ea.toNat).askRead id ea 8 false true 0 0 t
      let fabric := match g with
        | .fabric _ _ => true
        | _ => false
      (r.2, .done [{ w with tag := r.1, closing := { ext := true, fabric := fabric } }])

/-- `ld.d.ext` (R123). -/
def execLdDExt (d a : Reg) (i : BitVec 7) (k : BitVec 4) (s : State) : Out :=
  globalOp s .both [d, a] 4 8 .load true false (fun t => effAddr (t.rd a) i 8) fun s id ea t => s.loadExt (isQuay id) d k id ea t

/-! ### Stores (R124 to R126) -/

def store (s : State) (n : Nat) (x a : Reg) (i : BitVec 7) : Out :=
  globalOp s .both [x, a] 4 n .store true true (fun t => effAddr (t.rd a) i n) fun s id ea t =>
    let th := s.thread id
    ((s.storeL1 id.core th.ctx ea.toNat n (th.rd x).toNat t).noteStore id ea.toNat, .done [])

/-- `st.b` (R124). -/
def execStB (x a : Reg) (i : BitVec 7) (s : State) : Out := store s 1 x a i
/-- `st.h` (R124). -/
def execStH (x a : Reg) (i : BitVec 7) (s : State) : Out := store s 2 x a i
/-- `st.w` (R124). -/
def execStW (x a : Reg) (i : BitVec 7) (s : State) : Out := store s 4 x a i
/-- `st.d` (R124). -/
def execStD (x a : Reg) (i : BitVec 7) (s : State) : Out := store s 8 x a i

/-! ### The A-buffer and C-buffer cells (R132, R133) -/

/-- Whether 8 bytes lie in the A-buffer of a core. -/
def State.inA (s : State) (core : Nat) (ea : Word) : Bool :=
  aligned ea 8 && decide (ea.toNat + 8 ≤ 65536 * (s.coreAt core).split)

/-- `lda` (R132). -/
def execLda (d a : Reg) (i : BitVec 7) (k : BitVec 4) (s : State) : Out :=
  perLane s .both [d, a] 4 fun s id =>
    let th := s.thread id
    let ea := effAddr (th.rd a) i 8
    if !s.inA id.core ea then (s, .trap 2 ea)
    else if s.behindCopy id.core th.ctx 1 ea.toNat 8 then (s, .stall (.copy 1 ea.toNat 8))
    else
      let s := s.claimA id.core th.ctx
      let th := (s.thread id).claim d
      let v : Word := BitVec.ofNat 64 (bufNat (s.coreAt id.core).abuf ea.toNat 8)
      (s.putThread th, .done [openWindow th (isQuay id) d k (.value v) th.pc ea])

/-- `sta` (R132): behind a copy, or before a queued operation has read the bytes (R151), it stalls. -/
def execSta (x a : Reg) (i : BitVec 7) (s : State) : Out :=
  perLane s .both [x, a] 4 fun s id =>
    let th := s.thread id
    let ea := effAddr (th.rd a) i 8
    if !s.inA id.core ea then (s, .trap 2 ea)
    else if s.behindCopy id.core th.ctx 1 ea.toNat 8 then (s, .stall (.copy 1 ea.toNat 8))
    else if s.heldByQueue id.core ea.toNat 8 then (s, .stall (.bytes ea.toNat 8))
    else
      let s := s.claimA id.core th.ctx
      (s.modCore id.core fun k => { k with abuf := writeMap 0 k.abuf ea.toNat (toBytes (th.rd x).toNat 8) }, .done [])

/-- A C-buffer cell: the core, the tile, and the cell's number in `Core.tiles`. -/
structure Cell where
  core : Nat
  tile : Nat
  key : Nat
  deriving DecidableEq, Repr

/-- The cell address (R133); none where it traps. -/
def State.cellOf (s : State) (id : LaneId) (ea : Word) : Option Cell :=
  let n := ea.toNat
  let pair := ((s.group? id.core id.berth).map (·.pair)).getD false
  if n % 8 ≠ 0 ∨ 2 ^ 20 ≤ n ∨ (flag n 19 ∧ !pair) then none
  else some { core := id.core + (if flag n 19 then 1 else 0), tile := bits n 18 17, key := bits n 18 3 }

/-- `ldc` (R133). -/
def execLdc (d a : Reg) (i : BitVec 7) (k : BitVec 4) (s : State) : Out :=
  perLane s .thread [d, a] 4 fun s id =>
    let th := s.thread id
    let ea := effAddr (th.rd a) i 8
    match s.cellOf id ea with
    | none => (s, .trap 2 ea)
    | some c =>
      if s.tileBusy c.core c.tile then (s, .stall (.tile c.core c.tile))
      else
        let s := s.claimC c.core th.ctx
        let th := (s.thread id).claim d
        let v : Word := (SMap.get 0 (s.coreAt c.core).tiles c.key).setWidth 64
        (s.putThread th, .done [openWindow th false d k (.value v) th.pc ea])

/-- `stc` (R133). -/
def execStc (x a : Reg) (i : BitVec 7) (s : State) : Out :=
  perLane s .thread [x, a] 4 fun s id =>
    let th := s.thread id
    let ea := effAddr (th.rd a) i 8
    match s.cellOf id ea with
    | none => (s, .trap 2 ea)
    | some c =>
      if s.tileBusy c.core c.tile then (s, .stall (.tile c.core c.tile))
      else
        let s := s.claimC c.core th.ctx
        (s.modCore c.core fun k => { k with tiles := SMap.set 0 k.tiles c.key ((th.rd x).setWidth 56) }, .done [])

/-! ### Prefetch (R134) -/

/-- `pref` (R134): never a trap, fault or stall; what cannot be served is dropped. -/
def execPref (sc : Bool) (a : Reg) (s : State) : Out :=
  perLane s .both [a] 8 fun s id =>
    let th := s.thread id
    let va := (th.rd a).toNat
    match s.translate id.core th.ctx va .load with
    | (.error _, _) => (s, .done [])
    | (.ok t, s') =>
      match t.target with
      | .device x =>
        if sc then (s'.scAccess t.vf 0 0 x (s'.viewMark t.vf t.key x), .done [])
        else
          let full := decide (l1Lines (s'.coreAt id.core).split ≤ (s'.l1.filter fun l => l.core == id.core).length)
          let l := (s'.lineFor id.core th.ctx va t).1
          if l.valid == BitVec.allOnes 128 || (full && (s'.line? id.core th.ctx (lineOf va)).isNone) then (s', .done [])
          else
            let q := s'.askOthers l (x / 128 * 128)
            if q.bad x then (q, .done []) else ((q.fill l (x / 128 * 128)).2, .done [])
      | _ => (s, .done [])

/-! ### Seals (R127 to R130, R259) -/

def sealSize (n : Nat) : Option Nat := (List.range 19).findSome? fun i => if n = 2 ^ (12 + i) then some (12 + i) else none

/-- What `seal` and `unseal` do first: the vote, the checks of R127, and the range of R117. -/
def State.sealArgs (s : State) (ids : List LaneId) (a b : Reg) : Except LaneRes (Nat × Nat) :=
  match ids with
  | [] => .error .gone
  | l :: _ =>
    if !s.votes ids fun t => t.rd a then .error (.trap 3 1)
    else if !s.votes ids fun t => t.rd b then .error (.trap 3 2)
    else
      let base := (s.thread l).rd a
      let size := (s.thread l).rd b
      match sealSize size.toNat with
      | none => .error (.trap 1 size)
      | some lg =>
        if base.toNat % size.toNat ≠ 0 then .error (.trap 2 base)
        else if 2 ^ 48 ≤ base.toNat then .error (.fault 16 6 base noGpa)
        else .ok (base.toNat, lg)

def inRegion (base lg ln : Nat) : Bool := decide (base ≤ ln * 128) && decide (ln * 128 < base + 2 ^ lg)

/-- Publication of the dirty lines of a region (R128). -/
def State.publishRegion (s : State) (core ctx frame base lg : Nat) : State :=
  let ls := s.l1.filter fun l => l.core == core && l.ctx == ctx && inRegion base lg l.line && !(l.dirty == 0)
  let mine (p : Nat × Nat) : Bool := p.1 == ctx && inRegion base lg p.2
  let pend := (s.coreAt core).pendingLines.filter mine
  let r := s.writeBackAll core ctx ls
  let s := r.2.modCore core fun k => { k with pendingLines := k.pendingLines.filter fun p => !mine p }
  s.notice core ctx frame fun n =>
    n.addAll (r.1.map (·.line) ++ pend.map (·.2) ++ (s.wroteBy ctx frame).filter (inRegion base lg))

def State.sealRoom (s : State) (die : Nat) : Bool := decide ((s.seals.filter fun e => e.die == die).length < 256)

/-- The die recalls ownership of the region's lines that it is home of, and installs the entry (R259). It recalls every line
that is owned, under whatever context and address; that one outside the region is shared again shows nowhere. -/
def State.installSeal (s : State) (die ctx base lg : Nat) : State :=
  let owned := s.l1.filter fun l => decide (l.st = .owned) && (match l.home with
    | .device a => stackOf a == die
    | _ => false)
  let s := owned.foldl (fun s l => (s.flushPend l).putLine { l with dirty := 0, st := .shared }) s
  { s with seals := s.seals ++ [{ die := die, ctx := ctx, base := base, lg := lg }] }

/-- Installs on every die with room; the dies that have none. -/
def State.installAll (s : State) (ctx base lg : Nat) : List Nat → List Nat × State
  | [] => ([], s)
  | d :: r =>
    let p := if s.sealRoom d then (([] : List Nat), s.installSeal d ctx base lg) else ([d], s)
    let q := p.2.installAll ctx base lg r
    (p.1 ++ q.1, q.2)

/-- `seal` (R127, R128). -/
def execSeal (a b : Reg) (s : State) : Out :=
  issue s .thread [a, b] 8 false fun s i =>
    match s.sealArgs i.lanes a b with
    | .error e => (s, allRes i.lanes e)
    | .ok (base, lg) =>
      let berth := ((i.lanes.head?).map (·.berth)).getD 0
      let frame := ((s.group? i.core berth).map (·.frame)).getD 0
      let s := s.publishRegion i.core i.ctx frame base lg
      if s.unacked i.core i.ctx then (s, allRes i.lanes (.stall .unacked))
      else
        let p := s.installAll i.ctx base lg (s.partDies (s.partOf i.ctx))
        if p.1.isEmpty then (p.2, allRes i.lanes (.done []))
        else
          ({ p.2 with sealWaits := p.2.sealWaits ++ [{ ctx := i.ctx, base := base, lg := lg, dies := p.1, lanes := i.lanes }] },
           allRes i.lanes (.wait .engine))

/-- Every L1 drops its sealed copies of the region's lines (R129). -/
def State.dropSealed (s : State) (ctx base lg : Nat) : State :=
  (s.l1.filter fun l => l.ctx == ctx && l.sealed && inRegion base lg l.line).foldl State.evict s

/-- `unseal` (R127, R129): with no such entry it completes at once; else it waits for UNSEAL_COMPLETE. -/
def execUnseal (a b : Reg) (s : State) : Out :=
  issue s .thread [a, b] 8 false fun s i =>
    match s.sealArgs i.lanes a b with
    | .error e => (s, allRes i.lanes e)
    | .ok (base, lg) =>
      if s.seals.any fun e => e.ctx == i.ctx && e.base == base && e.lg == lg then
        let s := s.dropSealed i.ctx base lg
        ({ s with unsealWaits := s.unsealWaits ++ [{ ctx := i.ctx, base := base, lg := lg, lanes := i.lanes }] },
         allRes i.lanes (.wait .engine))
      else (s, allRes i.lanes (.done []))

/-! ### Atomics (R135 to R140) -/

/-- A w-bit value as a signed number. -/
def sgn (w v : Nat) : Int := if v < 2 ^ (w - 1) then v else (v : Int) - 2 ^ w

/-- `atom_apply` (R135), on w-bit values. -/
def atomApply (op : AtomOp) (w old v : Nat) : Nat :=
  let f := if w = 32 then fp32 else fp64
  match op with
  | .add => (old + v) % 2 ^ w
  | .smin => if sgn w old ≤ sgn w v then old else v
  | .smax => if sgn w v ≤ sgn w old then old else v
  | .umin => min old v
  | .umax => max old v
  | .and => Nat.land old v
  | .or => Nat.lor old v
  | .xor => Nat.xor old v
  | .exch => v
  | .fadd => (roundFmt (sumExt rne [decodeF f old, decodeF f v]).1 f rne false).1
  | .fmax => (maxNum f old v).1
  | .famax =>
    let x := decodeF f old
    let y := decodeF f v
    if x.isNan || y.isNan then f.canonNan
    else if x.abs.lt y.abs then v % 2 ^ (w - 1) else old % 2 ^ (w - 1)

/-- The atom code of R42. -/
def atomCode : AtomOp → Nat
  | .add => 0 | .smin => 1 | .smax => 2 | .umin => 3 | .umax => 4 | .and => 5 | .or => 6 | .xor => 7 | .exch => 8
  | .fadd => 9 | .fmax => 10 | .famax => 11

/-- The operation of an atom code. -/
def atomOf (code : Nat) : AtomOp :=
  ((nth? [AtomOp.add, .smin, .smax, .umin, .umax, .and, .or, .xor, .exch, .fadd, .fmax, .famax] code).getD .add)

/-- What an atomic of `n` bytes writes for the old value, if it writes: an operation of R42, or 12 `cas` and 13 `cas2`. -/
def atomNew (code n v w : Nat) (data : BitVec 1536) (old : Nat) : Option Nat :=
  if code = 12 then (if old = v then some w else none)
  else if code = 13 then (if old = data.toNat % 2 ^ 128 then some (data.toNat / 2 ^ 128 % 2 ^ 128) else none)
  else some (atomApply (atomOf code) (8 * n) old v)

/-- An atomic on device memory, in the L1 that owns the line: the old value; `f` answers the new value, if it writes
one. -/
def State.atomOwned (s : State) (core ctx : Nat) (ea : Word) (n : Nat) (t : Trans) (a : Nat) (f : Nat → Option Nat) :
    Nat × State :=
  let r := s.own core ctx ea.toNat t a
  let old := lineVal r.1 (ea.toNat % 128) n
  match f old with
  | none => (old, r.2)
  | some v => (old, r.2.storeL1 core ctx ea.toNat n v t)

/-- An atomic sent to the host or to another package, or to a home that answers late; the tag of its answer. -/
def State.askAtomic (s : State) (id : LaneId) (ea : Word) (n code v w : Nat) (data : BitVec 1536) (t : Trans) : Nat × State :=
  let th := s.thread id
  let size := if n = 4 then 0 else if n = 8 then 1 else 2
  let p (packet : Packet) : Pending :=
    { ttag := 0, lane := some id, core := id.core, ctx := th.ctx, ifa := th.pc, fva := ea, bytes := n, agpa := t.gpa,
      ordered := true, batch := s.batch, key := t.key, ce := t.ce, vf := t.vf
      packet := { packet with size := size, op := code, opd0 := BitVec.ofNat 64 v, opd1 := BitVec.ofNat 64 w, data := data } }
  match t.target with
  | .fabric pkg g =>
    let s := s.sendAhead id.core th.ctx ea.toNat
    let s := s.sendRequest (p (s.packetFor th.ctx 5 pkg g))
    (2 * (s.ttags % 2 ^ 32) + 1, s)
  | .host a =>
    let r := (s.sendAhead id.core th.ctx ea.toNat).awaitLocal (p { kind := 11, gpa := a })
    let op : AtomOp := if code = 0 then .add else .exch
    (r.1, r.2.output (.atomicToHost a op (code == 12) (n == 8) (BitVec.ofNat 64 v) (BitVec.ofNat 64 w) (r.1 / 2)))
  | .device a => s.awaitLocal (p { kind := 13, gpa := a })

/-- What an atomic gives its lane: the old value, an uncorrectable error, or the tag of a later answer. -/
inductive AtomRes
  | old (v : Nat)
  | bad (sub : Nat)
  | later (tag : Nat)
  deriving DecidableEq, Repr

/-- One lane's atomic: in the L1 where that owns the line or the home answers at once (R136), else later. Other agents'
atomics can fall between those of the lanes (R137). -/
def State.atomAt (s : State) (id : LaneId) (ea : Word) (n code v w : Nat) (data : BitVec 1536) (t : Trans) : AtomRes × State :=
  let ctx := (s.thread id).ctx
  let s := s.noteStore id ea.toNat
  match t.target with
  | .device a =>
    if s.mustWait id ctx || (s.slowAt a && !s.owns id.core ctx ea.toNat) then
      let r := s.askAtomic id ea n code v w data t
      (.later r.1, r.2)
    else
      let s := s.takeLine id.core ctx ea.toNat a
      match s.errorAt id.core ctx ea.toNat a with
      | some u => (.bad u, s)
      | none =>
        let r := s.atomOwned id.core ctx ea n t a (atomNew code n v w data)
        (.old r.1, r.2)
  | _ =>
    let r := s.askAtomic id ea n code v w data t
    (.later r.1, r.2)

/-- One lane of `atom` or `cas`. -/
def State.atomLane (s : State) (isSeq : Bool) (n : Nat) (d : Reg) (k : BitVec 4) (code v w : Nat)
    (id : LaneId) (ea : Word) (t : Trans) : State × LaneRes :=
  let th := (s.thread id).claim d
  let s := s.putThread th
  let s := if isSeq then { s with seqOrder := s.seqOrder + 1 } else s
  let win := openWindow th (isQuay id) d k .waiting th.pc ea
  match s.atomAt id ea n code v w 0 t with
  | (.old x, s) => (s, .done [{ win with arrival := .value (BitVec.ofNat 64 x) }])
  | (.bad u, s) => (s, .done [{ win with arrival := .error 18 u (BitVec.ofNat 64 t.gpa) }])
  | (.later tag, s) => (s, .done [{ win with tag := tag }])

/-- `atom` (R135 to R137, R140). -/
def execAtom (op : AtomOp) (seq dbl : Bool) (d a b : Reg) (k : BitVec 4) (s : State) : Out :=
  let n := if dbl then 8 else 4
  globalOp s .both [d, a, b] 8 n .atomic (op == .add || op == .exch) false (fun t => t.rd a) fun s id ea t =>
    let v := ((s.thread id).rd b).toNat % 2 ^ (8 * n)
    s.atomLane seq n d k (atomCode op) v 0 id ea t

/-- `cas` (R138). -/
def execCas (seq dbl : Bool) (d a b : Reg) (k : BitVec 4) (s : State) : Out :=
  let n := if dbl then 8 else 4
  globalOp s .both [d, a, b] 8 n .atomic true false (fun t => t.rd a) fun s id ea t =>
    let e := ((s.thread id).rd d).toNat % 2 ^ (8 * n)
    let v := ((s.thread id).rd b).toNat % 2 ^ (8 * n)
    s.atomLane seq n d k 12 e v id ea t

/-- `cas2` (R139): two windows, one for each register of the pair; none stays open where the field holds 0. -/
def execCas2 (d a b : Reg) (k : BitVec 4) (s : State) : Out :=
  globalOp s .thread [d, a, b] 8 16 .atomic false false (fun t => t.rd a) fun s id ea t =>
    let th := s.thread id
    let e := (th.rdLo d).toNat + 2 ^ 64 * (th.rdHi d).toNat
    let v := (th.rdLo b).toNat + 2 ^ 64 * (th.rdHi b).toNat
    let th := if d = 0 then th else (th.claim d).claim (d + 1)
    let s := s.putThread th
    let win (r : Reg) (x : Arrival) (tag : Nat) : Window := { openWindow th false r k x th.pc ea with tag := tag }
    let both (x y : Arrival) (tag : Nat) : LaneRes :=
      .done (if d = 0 then [win 0 x tag] else [win d x tag, { win (d + 1) y tag with second := true }])
    match s.atomAt id ea 16 13 0 0 (BitVec.ofNat 1536 (e + 2 ^ 128 * v)) t with
    | (.old x, s) => (s, both (.value (BitVec.ofNat 64 x)) (.value (BitVec.ofNat 64 (x / 2 ^ 64))) 0)
    | (.bad u, s) =>
      let r : Arrival := .error 18 u (BitVec.ofNat 64 t.gpa)
      (s, both r r 0)
    | (.later tag, s) => (s, both .waiting .waiting tag)

/-! ### Late accesses to device memory (R37, R137) -/

/-- The translation with which it was made. -/
def Pending.trans (p : Pending) : Trans := { target := .device p.packet.gpa, gpa := p.agpa, key := p.key, ce := p.ce, vf := p.vf }

/-- The home performs it: what its windows receive. -/
def State.performLate (s : State) (p : Pending) : List Arrival × State :=
  let a := p.packet.gpa
  let bad (u : Nat) : List Arrival := [.error 18 u (BitVec.ofNat 64 p.agpa), .error 18 u (BitVec.ofNat 64 p.agpa)]
  if p.packet.kind = 12 ∧ !p.ordered then
    match s.loadL1 p.core p.ctx p.fva.toNat p.bytes p.trans with
    | (.val v, s) => ([.value (extendTo p.signed p.bytes v)], s)
    | (.bad u, s) => (bad u, s)
    | (.later, s) => ([], s)
  else
    let s := s.takeLine p.core p.ctx p.fva.toNat a
    match s.errorAt p.core p.ctx p.fva.toNat a with
    | some u => (bad u, s.settleResv (p.core, blockOf a))
    | none =>
      if p.packet.kind = 12 then
        let r := s.own p.core p.ctx p.fva.toNat p.trans a
        ([.value (BitVec.ofNat 64 (lineVal r.1 (p.fva.toNat % 128) 8))], r.2)
      else
        let r := { s with holding := [(p.core, blockOf a)] }.atomOwned p.core p.ctx p.fva p.bytes p.trans a
          (atomNew p.packet.op p.bytes p.packet.opd0.toNat p.packet.opd1.toNat p.packet.data)
        ([.value (BitVec.ofNat 64 r.1), .value (BitVec.ofNat 64 (r.1 / 2 ^ 64))],
         { r.2 with holding := s.holding }.settleResv (p.core, blockOf a))

end Sys2Proof.Machine
end

