-- ==== Sys2Proof/Machine/Matrix.lean ====
section
/-! DEFINITION. The matrix-class instructions at issue: vote, checks, the array queue (R141 to R164). -/

namespace Sys2Proof.Machine

/-- A buffer operand: space 1 A-buffer or 2 W-buffer, address, bytes, alignment. -/
structure BufUse where
  space : Nat
  addr : Nat
  bytes : Nat
  align : Nat
  deriving DecidableEq, Repr

/-- The offending address of one operand, if it has one (R148); an operand of no bytes can only be misaligned. -/
def BufUse.bad (u : BufUse) (limA : Nat) : Option Nat :=
  let lim := if u.space = 1 then limA else 262144
  if u.addr % u.align ≠ 0 then some u.addr
  else if u.bytes ≠ 0 ∧ lim < u.addr + u.bytes then some (max u.addr lim)
  else none

/-- The lowest offending buffer address (check 4 of R148). -/
def lowestBad (us : List BufUse) (limA : Nat) : Option Nat :=
  us.foldl (fun m u => match u.bad limA, m with
    | none, m => m
    | some a, none => some a
    | some a, some b => some (min a b)) none

/-- The first operand on which the lanes disagree (check 2 of R148). -/
def State.disagree (s : State) (ids : List LaneId) : List (Nat × (Thread → Word)) → Option Nat
  | [] => none
  | (n, f) :: r => if s.votes ids f then s.disagree ids r else some n

def low32 (w : Word) : BitVec 32 := w.setWidth 32

/-- The checks of R148; `form` answers the fault address of an illegal form, `use` the buffer operands. -/
def State.matChecks (s : State) (i : Issue) (vote : List (Nat × (Thread → Word))) (form : Option Word)
    (use : List BufUse) : Option LaneRes :=
  if !isLeader i.core then some (.trap 5 (coreid i.core))
  else
    match s.disagree i.lanes vote with
    | some n => some (.trap 3 (BitVec.ofNat 64 n))
    | none =>
      match form with
      | some w => some (.trap 4 w)
      | none => (lowestBad use (65536 * (s.coreAt i.core).split)).map fun a => .trap 2 (BitVec.ofNat 64 a)

def State.pairOf (s : State) (i : Issue) : Bool :=
  (i.lanes.head?.bind fun l => (s.group? l.core l.berth).map (·.pair)).getD false

/-- The rows that an operation first needs are claimed: the A-buffer and the C-buffer by each, the W-buffer by those that
use it (R324). -/
def State.claimFor (s : State) (core ctx : Nat) (pair : Bool) (k : MatKind) : State :=
  let usesW := match k with
    | .mm _ _ _ _ => true
    | .mms _ _ _ _ => true
    | .mmc _ _ _ => true
    | .mmconv _ _ _ _ => true
    | _ => false
  let s := s.claimA core ctx
  (halves2 core pair).foldl (fun s h => (if usesW then s.claimW h ctx else s).claimC h ctx) s

/-- Checks passed: the operation takes a queue entry, or stalls while the queue is full (R149). With a destination, each
lane opens a window that the retirement fills. -/
def State.queueMat (s : State) (i : Issue) (k : MatKind) (reads : List Range) (dest : Option (Reg × BitVec 4)) :
    State × List (LaneId × LaneRes) :=
  if 8 ≤ (s.coreAt i.core).matQ.length then (s, allRes i.lanes (.stall .matrixQueue))
  else
    let pair := s.pairOf i
    let s := s.claimFor i.core i.ctx pair k
    let o : MatOp := { seq := s.matSeq, kind := k, ctx := i.ctx, pair := pair, lanes := i.lanes, reads := reads }
    let s := { s with matSeq := s.matSeq + 1 }
    let s := s.modCore i.core fun c => { c with matQ := c.matQ ++ [o] }
    match dest with
    | none => (s, allRes i.lanes (.done []))
    | some (d, n) =>
      eachLane s (fun s l =>
        let t := (s.thread l).claim d
        (s.putThread t, .done [{ openWindow t false d n .waiting t.pc 0 with tag := 2 * o.seq + 2 }])) i.lanes

/-- A queued matrix-class instruction; `form` and the rest see the voted registers of the first lane. -/
def matrixOp (s : State) (rs : List Reg) (vote : List (Nat × (Thread → Word))) (dest : Option (Reg × BitVec 4))
    (form : State → Issue → Thread → Option Word) (use : State → Issue → Thread → List BufUse)
    (kind : Thread → MatKind) (reads : State → Issue → Thread → List Range) : Out :=
  issue s .thread rs 4 false fun s i =>
    match i.lanes with
    | [] => (s, [])
    | l :: _ =>
      let t := s.thread l
      match s.matChecks i vote (form s i t) (use s i t) with
      | some e => (s, allRes i.lanes e)
      | none => s.queueMat i (kind t) (reads s i t) dest

def voteF (f : Reg) : Nat × (Thread → Word) := (0, fun t => (low32 (t.rd f)).setWidth 64)
def voteA (a : Reg) : Nat × (Thread → Word) := (1, fun t => t.rd a)
def voteB (b : Reg) : Nat × (Thread → Word) := (2, fun t => t.rd b)

/-- A format word that is not legal for the operation, zero-extended. -/
def badForm (op : AccOp) (t : Nat) (f : Word) : Option Word :=
  let w := fmtWord (low32 f)
  if fmtLegal op w && tileOk op w t then none else some ((low32 f).setWidth 64)

/-- The A panel and the B panel of `mm`, `mms` and `mmc`. -/
def panelUse (op : AccOp) (f : Word) (a b : Word) : List BufUse :=
  let w := fmtWord (low32 f)
  [{ space := 1, addr := a.toNat, bytes := panelA op w, align := 128 },
   { space := 2, addr := b.toNat, bytes := panelB op w, align := 128 }]

def usesOf (us : List BufUse) : List Range := us.map fun u => { space := u.space, lo := u.addr, hi := u.addr + u.bytes }

/-- `mm` (R153, R154). -/
def execMm (t : BitVec 2) (f a b : Reg) (s : State) : Out :=
  matrixOp s [f, a, b] [voteF f, voteA a, voteB b] none
    (fun _ _ u => badForm .mm t.toNat (u.rd f))
    (fun _ _ u => panelUse .mm (u.rd f) (u.rd a) (u.rd b))
    (fun u => .mm t.toNat (low32 (u.rd f)) (u.rd a).toNat (u.rd b).toNat)
    (fun _ _ u => usesOf (panelUse .mm (u.rd f) (u.rd a) (u.rd b)))

/-- `mms` (R153, R155). -/
def execMms (t : BitVec 2) (f a b : Reg) (s : State) : Out :=
  matrixOp s [f, a, b] [voteF f, voteA a, voteB b] none
    (fun _ _ u => badForm .mms t.toNat (u.rd f))
    (fun _ _ u => panelUse .mms (u.rd f) (u.rd a) (u.rd b))
    (fun u => .mms t.toNat (low32 (u.rd f)) (u.rd a).toNat (u.rd b).toNat)
    (fun _ _ u => usesOf (panelUse .mms (u.rd f) (u.rd a) (u.rd b)))

/-- `mmc` (R153, R157). -/
def execMmc (f a b : Reg) (s : State) : Out :=
  matrixOp s [f, a, b] [voteF f, voteA a, voteB b] none
    (fun _ _ u => badForm .mmc 0 (u.rd f))
    (fun _ _ u => panelUse .mmc (u.rd f) (u.rd a) (u.rd b))
    (fun u => .mmc (low32 (u.rd f)) (u.rd a).toNat (u.rd b).toNat)
    (fun _ _ u => usesOf (panelUse .mmc (u.rd f) (u.rd a) (u.rd b)))

/-- The form check of `mmconv`: the word, then the record that the position word names (R156). A bad handle reports the
position word, another bad form the format word (R148). -/
def State.badConv (s : State) (ctx t : Nat) (f pos : Word) : Option Word :=
  match badForm .mmconv t f with
  | some w => some w
  | none =>
    match s.convRec? ctx (bits pos.toNat 15 0) with
    | none => some pos
    | some c =>
      if c.etype ≠ (fmtWord (low32 f)).fA ∨ c.kh * c.kw ≤ bits pos.toNat 23 16 then some ((low32 f).setWidth 64) else none

/-- Every element that `conv_a` reads, and the B panel. -/
def State.convUse (s : State) (ctx : Nat) (f pos b : Word) : List BufUse :=
  let w := fmtWord (low32 f)
  let els := match s.convRec? ctx (bits pos.toNat 15 0) with
    | none => []
    | some c => convAddrs c (depth w) pos
  els.map (fun a => { space := 1, addr := a, bytes := elBytes w.fA, align := 1 }) ++
    [{ space := 2, addr := b.toNat, bytes := panelB .mmconv w, align := 128 }]

/-- `mmconv` (R153, R156). -/
def execMmconv (t : BitVec 2) (f a b : Reg) (s : State) : Out :=
  matrixOp s [f, a, b] [voteF f, voteA a, voteB b] none
    (fun s i u => s.badConv i.ctx t.toNat (u.rd f) (u.rd a))
    (fun s i u => s.convUse i.ctx (u.rd f) (u.rd a) (u.rd b))
    (fun u => .mmconv t.toNat (low32 (u.rd f)) (u.rd a) (u.rd b).toNat)
    (fun s i u => usesOf (s.convUse i.ctx (u.rd f) (u.rd a) (u.rd b)))

/-- `mmz` (R158). -/
def execMmz (m : BitVec 4) (s : State) : Out :=
  matrixOp s [] [] none (fun _ _ _ => none) (fun _ _ _ => []) (fun _ => .mmz m) fun _ _ _ => []

/-- The image in the A-buffer. -/
def imageUse (a ctl : Word) : List BufUse := [{ space := 1, addr := a.toNat, bytes := imgBytes (ctlOf ctl), align := 128 }]

/-- `aload` (R160, R161). -/
def execAload (t : BitVec 2) (a b : Reg) (s : State) : Out :=
  matrixOp s [a, b] [voteA a, voteB b] none
    (fun s i u => if ctlAload (ctlOf (u.rd b)) (s.pairOf i) t.toNat then none else some (u.rd b))
    (fun _ _ u => imageUse (u.rd a) (u.rd b))
    (fun u => .aload t.toNat (u.rd a).toNat (u.rd b))
    (fun _ _ u => usesOf (imageUse (u.rd a) (u.rd b)))

/-- `acvt` (R160, R162). -/
def execAcvt (d a b : Reg) (k : BitVec 4) (s : State) : Out :=
  matrixOp s [d, a, b] [voteA a, voteB b] (some (d, k))
    (fun s i u => if ctlAcvt (ctlOf (u.rd b)) (s.pairOf i) then none else some (u.rd b))
    (fun _ _ u => imageUse (u.rd a) (u.rd b))
    (fun u => .acvt (u.rd a).toNat (u.rd b))
    fun _ _ _ => []

/-- `amax` (R160, R163). -/
def execAmax (d b : Reg) (k : BitVec 4) (s : State) : Out :=
  matrixOp s [d, b] [voteB b] (some (d, k))
    (fun s i u => if ctlAmax (ctlOf (u.rd b)) (s.pairOf i) then none else some (u.rd b))
    (fun _ _ _ => [])
    (fun u => .amax (u.rd b))
    fun _ _ _ => []

/-- `tmark` (R159): the live-tile mask, on both cores of a pair task. -/
def execTmark (m : BitVec 4) (s : State) : Out :=
  issue s .thread [] 4 false fun s i =>
    match s.matChecks i [] none [] with
    | some e => (s, allRes i.lanes e)
    | none =>
      ((halves2 i.core (s.pairOf i)).foldl (fun s h => s.modCore h fun k => { k.serves i.ctx with liveMask := m }) s,
       allRes i.lanes (.done []))

/-- `fvote` (R164). -/
def execFvote (f : Reg) (s : State) : Out :=
  issue s .thread [f] 4 false fun s i =>
    let form : Option Word := match i.lanes.head? with
      | none => none
      | some l =>
        let x := low32 ((s.thread l).rd f)
        let w := fmtWord x
        if fmtLegal .mm w || fmtLegal .mms w || fmtLegal .mmc w || fmtLegal .mmconv w then none else some (x.setWidth 64)
    match s.matChecks i [voteF f] form [] with
    | some e => (s, allRes i.lanes e)
    | none => (s, allRes i.lanes (.done []))

end Sys2Proof.Machine
end

