-- ==== Sys2Proof/Machine/Copies.lean ====
section
/-! DEFINITION. Copies: layout records, what a copy's descriptor asks for, and what each of its destination units reads
and writes (R171 to R186, R279). -/

namespace Sys2Proof.Machine

/-! ### Layout records of kind 0 (R177, R178) -/

structure Tensor where
  pad : Nat
  ds : Bool
  ndims : Nat
  etype : Nat
  base : Nat
  box : List Nat
  size : List Nat
  stride : List Int
  sbase : Nat
  sstride : Nat
  deriving DecidableEq, Repr

/-- Element size in half bytes. -/
def ebn (etype : Nat) : Nat := if etype = 8 then 1 else 2 * elBytes etype

def tensorOf (r : BitVec 1024) : Tensor :=
  let sd (o : Nat) : Int := (BitVec.ofNat 64 (recField r o 0 64)).toInt
  let et := recField r 0 8 4
  { pad := recField r 0 32 32, ds := recField r 0 15 1 == 1, ndims := recField r 0 12 3, etype := et,
    base := recField r 8 0 64,
    box := [recField r 0x18 0 16, recField r 0x18 16 16, recField r 0x18 32 16, recField r 0x18 48 16, recField r 0x20 0 16],
    size := [recField r 0x28 0 32, recField r 0x28 32 32, recField r 0x30 0 32, recField r 0x30 32 32, recField r 0x38 0 32],
    stride := [(elBytes et : Nat), sd 0x40, sd 0x48, sd 0x50, sd 0x58],
    sbase := recField r 0x60 0 64, sstride := recField r 0x68 0 64 }

def at_ (l : List Nat) (i : Nat) : Nat := (nth? l i).getD 0

/-- Every field within the table of R177. -/
def tensorLegal (r : BitVec 1024) : Bool :=
  let t := tensorOf r
  recField r 0 0 8 == 0 && recField r 0 16 16 == 0 && recField r 0x20 16 48 == 0 && recField r 0x38 32 32 == 0 &&
  recField r 0x70 0 64 == 0 && recField r 0x78 0 64 == 0 &&
  decide (t.etype ≤ 10) && decide (1 ≤ t.ndims) && decide (t.ndims ≤ 5) &&
  (!t.ds || (decide (4 ≤ t.etype) && decide (t.etype ≤ 8) && t.ndims == 2)) &&
  (t.etype == 8 || t.base % elBytes t.etype == 0) &&
  ((List.range 5).all fun d => decide (d < t.ndims) || (at_ t.size d == 1 && at_ t.box d == 1)) &&
  (t.etype != 8 || (at_ t.size 0 % 2 == 0 && at_ t.box 0 % 2 == 0))

/-- A handle that is valid for `qcopy` (R178). -/
def State.tensorRec? (s : State) (ctx h : Nat) : Option (BitVec 1024) :=
  match s.layout? ctx h with
  | none => none
  | some r => if recField r 0x10 0 64 = ctx ∧ tensorLegal r then some r else none

/-! ### Descriptors -/

abbrev dw (d : List Word) (i : Nat) : Nat := ((nth? d i).getD 0).toNat

def tailZero (d : List Word) (i : Nat) : Bool := (d.drop i).all fun w => decide (w = 0)

def s32 (v : Nat) : Int := (BitVec.ofNat 32 v).toInt

structure QDesc where
  slot : Nat
  dir1 : Bool
  dsd : Bool
  buf : Nat
  handle : Nat
  addr : Nat
  org : List Int
  saddr : Nat
  t : Bool
  conj : Bool
  planes : Bool
  pair : Bool
  deriving DecidableEq, Repr

def qdescOf (k : BitVec 4) (d : List Word) : QDesc :=
  { slot := bits (dw d 0) 24 20, dir1 := flag (dw d 0) 19, dsd := flag (dw d 0) 18, buf := bits (dw d 0) 17 16,
    handle := bits (dw d 0) 15 0, addr := dw d 1,
    org := [s32 (dw d 2 % 2 ^ 32), s32 (dw d 2 / 2 ^ 32), s32 (dw d 3 % 2 ^ 32), s32 (dw d 3 / 2 ^ 32), s32 (dw d 4 % 2 ^ 32)],
    saddr := dw d 5, t := k.getLsbD 0, conj := k.getLsbD 1, planes := k.getLsbD 2, pair := k.getLsbD 3 }

/-- Elements of the box. -/
def Tensor.count (t : Tensor) : Nat := t.box.foldl (· * ·) 1

/-- The conditions of R179 and R180 that read no field of the record. -/
def qcopyFirst (q : QDesc) (d : List Word) : Bool :=
  dw d 0 / 2 ^ 25 == 0 && dw d 4 / 2 ^ 32 == 0 && tailZero d 6 && decide (q.buf ≤ 1) &&
  (!q.planes || (!q.dir1 && q.buf == 1)) && (!q.pair || !q.dir1) && (!q.dir1 || (q.buf == 0 && !q.dsd)) &&
  (q.planes || q.slot == 0) && ((q.dsd && !q.planes) || q.saddr == 0)

/-- Extents of a placed panel: along k, along j. -/
def panelK (q : QDesc) (t : Tensor) : Nat := if q.t then at_ t.box 0 else at_ t.box 1
def panelJ (q : QDesc) (t : Tensor) : Nat := if q.t then at_ t.box 1 else at_ t.box 0

/-- The conditions of R180, R182 and R183 that read the record. -/
def qcopySecond (q : QDesc) (t : Tensor) : Bool :=
  (!q.t || decide (2 ≤ t.ndims)) && (!q.conj || t.etype == 9 || t.etype == 10) &&
  (!q.planes || decide (t.etype ≤ 9)) && (q.slot == 0 || t.etype == 8) &&
  (!q.dsd || (t.ds && at_ t.box 0 == 32 && decide ((nth? q.org 0).getD 0 % 32 = 0) && (!q.planes || q.t))) &&
  (t.etype != 8 || q.planes || (if q.t then at_ t.box 1 else at_ t.box 0) % 2 == 0) &&
  (!q.planes || t.count == 0 ||
    (decide (1 ≤ panelK q t) && decide (panelK q t ≤ 64) && panelJ q t == (if q.pair then 256 else 128) &&
     at_ t.box 2 == 1 && at_ t.box 3 == 1 && at_ t.box 4 == 1))

/-- The format of a placed element, and its slices. -/
def placedFmt (etype : Nat) : Nat := if etype = 9 then 0 else if etype = 8 then 3 else etype

/-- Bytes of one placed panel without its scale block. -/
def placedBytes (etype k : Nat) : Nat := 128 * k * (2 + slices (placedFmt etype))

/-- Bytes that a `qcopy` has in its buffer. -/
def qcopyBytes (q : QDesc) (t : Tensor) : Nat :=
  if t.count = 0 then 0
  else if q.planes then placedBytes t.etype (panelK q t) * (if t.etype = 9 then 2 else 1) + (if q.dsd then 256 else 0)
  else (t.count * ebn t.etype + 1) / 2

/-! ### Box elements (R181) -/

/-- The relative index of buffer position `p`. -/
def boxIndex (q : QDesc) (t : Tensor) (p : Nat) : List Nat :=
  let b := at_ t.box
  let r := p / (b 0 * b 1)
  let u := p % (b 0 * b 1)
  let i0 := if q.t then u / b 1 else u % b 0
  let i1 := if q.t then u % b 1 else u / b 0
  [i0, i1, r % b 2, r / b 2 % b 3, r / (b 2 * b 3)]

/-- The tensor element of a relative index, as an address in half bytes; none outside the tensor. -/
def Tensor.elem (t : Tensor) (org : List Int) (ix : List Nat) : Option Nat :=
  let x (d : Nat) : Int := (nth? org d).getD 0 + (at_ ix d : Nat)
  if (List.range 5).all fun d => decide (0 ≤ x d) && decide (x d < (at_ t.size d : Nat)) then
    let rest := (List.range 4).foldl (fun n d => n + 2 * (nth? t.stride (d + 1)).getD 0 * x (d + 1)) (0 : Int)
    some ((2 * (t.base : Int) + (ebn t.etype : Nat) * x 0 + rest) % 2 ^ 65).toNat
  else none

/-- The bytes of a pad element, as a number (R181). -/
def Tensor.padBits (t : Tensor) : Nat :=
  if t.etype = 0 ∨ t.etype = 9 then t.pad * 2 ^ 32 else t.pad % 2 ^ (4 * min (ebn t.etype) 8)

/-- Global memory as far as a unit has read it. -/
abbrev Known := List (Nat × List Byte)

/-- A byte of global memory that has been read. -/
def Known.get? (m : Known) (va : Nat) : Option Byte := (m.find? fun p => p.1 == va / 8).bind fun p => nth? p.2 (va % 8)

def Known.byte (m : Known) (va : Nat) : Nat := ((m.get? va).map (·.toNat)).getD 0

/-- An element's bits, and the 8-byte units that hold it. -/
def elemUnits (etype : Nat) (na : Option Nat) : List Nat :=
  match na with
  | none => []
  | some a => ((List.range ((ebn etype + 1) / 2)).map fun i => (a / 2 + i) % 2 ^ 64 / 8).eraseDups

def Known.elem (m : Known) (t : Tensor) (na : Option Nat) : Nat :=
  match na with
  | none => t.padBits
  | some a =>
    if t.etype = 8 then (if a % 2 = 0 then m.byte (a / 2) % 16 else m.byte (a / 2) / 16)
    else (List.range (elBytes t.etype)).foldl (fun n i => n + m.byte ((a / 2 + i) % 2 ^ 64) * 2 ^ (8 * i)) 0

/-- The imaginary sign bit of an element inverted (R58). -/
def conjBits (etype : Nat) (x : Nat) : Nat := if etype = 9 then Nat.xor x (2 ^ 127) else if etype = 10 then Nat.xor x (2 ^ 63) else x

/-! ### Units -/

/-- One destination unit: where its bytes go, which units of global memory it still has to read, and the bytes that it
writes, each with a mask. -/
structure Plan where
  space : Nat
  addr : Nat
  cores : List Nat
  need : Known → List Nat
  make : Known → List (Byte × Byte)
  /-- a `qred` operation -/
  red : Option Nat := none
  /-- how many units of global memory it can have to read at most -/
  fuel : Nat := 64

def wholeBytes (l : List Nat) : List (Byte × Byte) := l.map fun b => (0xff, BitVec.ofNat 8 b)

/-- The units of a list that have not been read yet. -/
def Known.missing (m : Known) (us : List Nat) : List Nat := us.eraseDups.filter fun u => !(m.any fun p => p.1 == u)

/-- A plain unit. -/
def plainUnit (space addr : Nat) (cores : List Nat) (us : List Nat) (make : Known → List (Byte × Byte)) : Plan :=
  { space := space, addr := addr, cores := cores, need := fun m => m.missing us, make := make }

/-- The cores whose buffers a copy writes. -/
def copyCores (core : Nat) (pair : Bool) : List Nat := if pair then [core, core + 1] else [core]

/-! #### `qcopy` to a buffer -/

/-- The half byte at position `n` of the buffer image: which element it belongs to, and which half byte of it. -/
def halfAt (t : Tensor) (n : Nat) : Nat × Nat := (n / ebn t.etype, n % ebn t.etype)

def qinUnit (core : Nat) (q : QDesc) (t : Tensor) (u : Nat) : Plan :=
  let total := qcopyBytes q t
  let n := min 8 (total - 8 * u)
  let el (h : Nat) : Option Nat := t.elem q.org (boxIndex q t (halfAt t h).1)
  let us := (List.range (2 * n)).flatMap fun i => elemUnits t.etype (el (16 * u + i))
  let half (m : Known) (h : Nat) : Nat :=
    if t.count * ebn t.etype ≤ h then 0
    else
      let x := m.elem t (el h)
      let x := if q.conj then conjBits t.etype x else x
      x / 2 ^ (4 * (halfAt t h).2) % 16
  plainUnit (q.buf + 1) (q.addr + 8 * u) (copyCores core q.pair) us fun m =>
    wholeBytes ((List.range n).map fun i => half m (16 * u + 2 * i) + 16 * half m (16 * u + 2 * i + 1))

/-! #### DS4 scale entries (R183) -/

/-- The exponent of the last of `n` blocks from half byte `pos` of a stream: what it is, or the byte that is still to be
read. -/
def ds4Scan (get : Nat → Option Byte) : Nat → Nat → Nat → Bool → Except Nat Nat
  | 0, _, prev, _ => .ok prev
  | n + 1, pos, prev, first =>
    let nib (p : Nat) : Except Nat Nat := match get (p / 2) with
      | none => .error (p / 2)
      | some b => .ok (if p % 2 = 0 then b.toNat % 16 else b.toNat / 16)
    match nib pos with
    | .error a => .error a
    | .ok qd =>
      if qd = 8 then
        match nib (pos + 1), nib (pos + 2) with
        | .ok lo, .ok hi => ds4Scan get n (pos + 3) (lo + 16 * hi) false
        | .error a, _ => .error a
        | _, .error a => .error a
      else
        let e : Int := (prev : Int) + (if qd < 8 then (qd : Int) else (qd : Int) - 16)
        let e := if first || prev == 255 || decide (e < 0) || decide (254 < e) then 255 else e.toNat
        ds4Scan get n (pos + 1) e false

/-- Whether the box starts before the first block of the streams: the rule gives no exponent there. -/
def beforeStream (q : QDesc) : Bool := decide ((nth? q.org 0).getD 0 < 0)

/-- The scale entry of tensor row `r`. Where the box starts before the first block, its exponent is open: `open_` (DESIGN
CHOICE, DESIGN CHOICE, log 149). -/
def scaleUnit (space addr : Nat) (cores : List Nat) (t : Tensor) (q : QDesc) (open_ i1 : Nat) : Plan :=
  let r : Int := (nth? q.org 1).getD 0 + (i1 : Nat)
  let inside := decide (0 ≤ r) && decide (r < (at_ t.size 1 : Nat))
  let start := (t.sbase + t.sstride * r.toNat) % 2 ^ 64
  let nblk := ((nth? q.org 0).getD 0 / 32).toNat + 1
  let scan (m : Known) : Except Nat Nat :=
    if inside && beforeStream q then .ok open_
    else if inside then ds4Scan (fun i => m.get? ((start + i) % 2 ^ 64)) nblk 0 255 true else .ok 127
  { space := space, addr := addr, cores := cores, fuel := nblk + 8
    need := fun m => match scan m with
      | .error i => [(start + i) % 2 ^ 64 / 8]
      | .ok _ => []
    make := fun m => match scan m with
      | .error _ => []
      | .ok e => wholeBytes [8 + 16 * (e % 16), e / 16] }

/-! #### `qcopy.planes` (R182) -/

/-- Head and placed significand of an element of a format (R143, R68). -/
def placeEl (f raw : Nat) : Nat × Nat :=
  let up := 8 * slices f - sigWidth f
  let neg := if f = 7 then false else if f = 6 then decide (128 ≤ raw) else flag raw (8 * elBytes f - 1)
  let sb := if neg then 2 ^ 15 else 0
  match decodeEl f raw with
  | .nan _ => (sb + 3 * 2 ^ 13, 0)
  | .inf _ => (sb + 2 * 2 ^ 13, 0)
  | .fin _ m e => if m = 0 then (sb, 0) else (sb + 2 ^ 13 + (e - up + 4096).toNat, m * 2 ^ up)

/-- The bits of the element (k, j) of a panel as they are placed: the part of a complex element, the entry of a CB4 code. -/
def State.placedBits (s : State) (core ctx : Nat) (q : QDesc) (t : Tensor) (im : Bool) (x : Nat) : Nat :=
  let x := if q.conj then conjBits t.etype x else x
  if t.etype = 9 then (if im then x / 2 ^ 64 else x % 2 ^ 64)
  else if t.etype = 8 then
    match s.codebookOf core ctx q.slot with
    | some b => b.toNat / 2 ^ (16 * x) % 65536
    | none => 0
  else x

/-- Unit `u` of the panels of one core; `col` is the first column of that core. -/
def State.planeUnit (s : State) (core ctx dst col : Nat) (q : QDesc) (t : Tensor) (u : Nat) : Plan :=
  let kk := panelK q t
  let one := placedBytes t.etype kk
  let f := placedFmt t.etype
  let o := 8 * u
  let im := decide (one ≤ o)
  let o := if im then o - one else o
  let idx (x : Nat) : List Nat :=
    let k := x / 128
    let j := x % 128 + col
    if q.t then [k, j, 0, 0, 0] else [j, k, 0, 0, 0]
  let na (x : Nat) : Option Nat := t.elem q.org (idx x)
  let raw (m : Known) (x : Nat) : Nat := s.placedBits core ctx q t im (m.elem t (na x))
  let byteOf (m : Known) (b : Nat) : Nat :=
    if b < 256 * kk then (placeEl f (raw m (b / 2))).1 / 2 ^ (8 * (b % 2)) % 256
    else
      let i := (b - 256 * kk) / (128 * kk)
      let x := (b - 256 * kk) % (128 * kk)
      (placeEl f (raw m x)).2 / 2 ^ (8 * (slices f - 1 - i)) % 256
  let elOf (b : Nat) : Nat := if b < 256 * kk then b / 2 else (b - 256 * kk) % (128 * kk)
  let bs := (List.range 8).map (o + ·)
  plainUnit 2 (q.addr + 8 * u) [dst] (bs.flatMap fun b => elemUnits t.etype (na (elOf b))) fun m => wholeBytes (bs.map (byteOf m))

/-! #### `qcopy` to a tensor -/

def insertKey {α : Type} (p : Nat × α) : List (Nat × α) → List (Nat × α)
  | [] => [p]
  | q :: t => if p.1 ≤ q.1 then p :: q :: t else q :: insertKey p t

def sortKeys {α : Type} : List (Nat × α) → List (Nat × α)
  | [] => []
  | p :: t => insertKey p (sortKeys t)

/-- Every half byte that the copy writes: address in half bytes, and its place in the buffer image, in ascending
address. -/
def qoutHalves (q : QDesc) (t : Tensor) : List (Nat × Nat) :=
  sortKeys ((List.range t.count).flatMap fun p =>
    match t.elem q.org (boxIndex q t p) with
    | none => []
    | some a => (List.range (ebn t.etype)).map fun i => ((a + i) % 2 ^ 65, p * ebn t.etype + i))

/-- The 8-byte units that the copy writes, ascending. -/
def qoutUnits (q : QDesc) (t : Tensor) : List Nat := ((qoutHalves q t).map fun h => h.1 / 16).eraseDups

def State.qoutUnit (s : State) (core : Nat) (q : QDesc) (t : Tensor) (u : Nat) : Plan :=
  let unit := (nth? (qoutUnits q t) u).getD 0
  let hs := (qoutHalves q t).filter fun h => h.1 / 16 == unit
  let a := (s.coreAt core).abuf
  let el (p : Nat) : Nat :=
    let n := p * ebn t.etype
    let x := if t.etype = 8 then (let b := bufNat a (q.addr + n / 2) 1; if n % 2 = 0 then b % 16 else b / 16)
      else bufNat a (q.addr + n / 2) (elBytes t.etype)
    if q.conj then conjBits t.etype x else x
  let half (i : Nat) : Option Nat := ((hs.filter fun h => h.1 % 16 == i).getLast?).map fun h =>
    el (halfAt t h.2).1 / 2 ^ (4 * (halfAt t h.2).2) % 16
  let pairs := (List.range 8).map fun i =>
    let lo := half (2 * i)
    let hi := half (2 * i + 1)
    ((BitVec.ofNat 8 ((if lo.isSome then 15 else 0) + if hi.isSome then 240 else 0), BitVec.ofNat 8 (lo.getD 0 + 16 * hi.getD 0)) : Byte × Byte)
  plainUnit 0 (8 * unit) [] [] fun _ => pairs

/-! #### The other copies (R184 to R186) -/

/-- Eight bytes at an address of a space. -/
def spaceUnit (s : State) (core space a : Nat) : List Nat × (Known → List Nat) :=
  if space = 0 then ([a / 8], fun m => (List.range 8).map fun i => m.byte (a + i))
  else
    let b := if space = 1 then (s.coreAt core).abuf else (s.coreAt core).wbuf
    ([], fun _ => (readMap 0 b a 8).map (·.toNat))

/-- `es` of a gather or scatter, and index `i` of its list. -/
def gsSize (d : List Word) : Nat := 8 * 2 ^ bits (dw d 0) 2 0

def State.gsIndex (s : State) (core : Nat) (d : List Word) (i : Nat) : Nat := bufNat (s.coreAt core).abuf (dw d 2 + 4 * i) 4

/-- The global address of list entry `i`. -/
def State.gsAddr (s : State) (core : Nat) (d : List Word) (i : Nat) : Nat :=
  (dw d 1 + gsSize d * s.gsIndex core d i) % 2 ^ 64

/-- The entries of a scatter in ascending destination address; equal addresses in list order (R176, R184). -/
def State.scatOrder (s : State) (core : Nat) (d : List Word) : List (Nat × Nat) :=
  sortKeys ((List.range (dw d 3)).map fun i => (s.gsAddr core d i, i))

/-- The bytes of a unit of `qred`. -/
def redUnit (op : Nat) : Nat := if op = 2 then 4 else 8

/-- Which unit of a `qcopy` with scale entries into the A-buffer is performed `p`-th: `n` units of the values from address
`a` on, `k` entries from `b` on, in ascending address (R176). The first component says that it is an entry. -/
def mergeUnits (a n b k p : Nat) : Bool × Nat :=
  let place (i : Nat) : Nat := i + if b + 2 * i < a then 0 else min n ((b + 2 * i - a) / 8 + 1)
  let before := ((List.range k).filter fun i => decide (place i < p)).length
  if before < k ∧ place before = p then (true, before) else (false, p - before)

def redOp (op : Nat) : AtomOp := if op = 0 then .add else if op = 3 then .fmax else if op = 4 then .famax else if op = 5 then .umax else .fadd

/-- Unit `u` of a copy. Those of a `.planes` copy into a pair go to the leader's buffer first, then to the follower's at the same addresses
(DESIGN CHOICE, log 173). -/
def State.unitOf (s : State) (core : Nat) (c : Copy) (u : Nat) : Plan :=
  let d := c.desc
  let open_ := (Config.freeWord s.freeCount).toNat % 256
  match c.kind with
  | .qcopy =>
    let q := qdescOf c.k d
    let t := tensorOf c.record
    if q.dir1 then s.qoutUnit core q t u
    else if q.planes then
      let per := placedBytes t.etype (panelK q t) * (if t.etype = 9 then 2 else 1) / 8
      let all := per + if q.dsd then 128 else 0
      let h := u / all
      let v := u % all
      if v < per then s.planeUnit core c.ctx (core + h) (128 * h) q t v
      else scaleUnit 2 (q.addr + 8 * per + 2 * (v - per)) [core + h] t q open_ (128 * h + (v - per))
    else
      let main := (qcopyBytes q t + 7) / 8
      let scales := if q.dsd then at_ t.box 1 else 0
      let w : Bool × Nat :=
        if q.buf = 0 then mergeUnits q.addr main q.saddr scales u
        else if u < main then (false, u) else (true, u - main)
      if w.1 then scaleUnit 1 (q.saddr + 2 * w.2) (copyCores core q.pair) t q open_ w.2 else qinUnit core q t w.2
  | .qlin =>
    let src := spaceUnit s core (bits (dw d 0) 1 0) (dw d 1 + 8 * u)
    plainUnit (bits (dw d 0) 3 2) (dw d 2 + 8 * u) (copyCores core (flag (dw d 0) 4)) src.1 fun m => wholeBytes (src.2 m)
  | .qgath =>
    let w := gsSize d / 8
    let src := spaceUnit s core 0 ((s.gsAddr core d (u / w) + 8 * (u % w)) % 2 ^ 64)
    plainUnit 1 (dw d 4 + 8 * u) [core] src.1 fun m => wholeBytes (src.2 m)
  | .qscat =>
    let w := gsSize d / 8
    let e := (nth? (s.scatOrder core d) (u / w)).getD (0, 0)
    let src := spaceUnit s core 1 (dw d 4 + gsSize d * e.2 + 8 * (u % w))
    plainUnit 0 ((e.1 + 8 * (u % w)) % 2 ^ 64) [] [] fun m => wholeBytes (src.2 m)
  | .qfill =>
    plainUnit (bits (dw d 0) 1 0) (dw d 1 + 8 * u) (copyCores core (flag (dw d 0) 2)) [] fun _ =>
      (toBytes (dw d 3) 8).map fun b => (0xff, b)
  | .qred =>
    let op := bits (dw d 0) 3 0
    let n := redUnit op
    let b := readMap 0 (s.coreAt core).abuf (dw d 1 + n * u) n
    { plainUnit 0 (dw d 2 + n * u) [] [] (fun _ => b.map fun x => (0xff, x)) with red := some op }
  | .qcbk => plainUnit 0 0 [] ((List.range 4).map fun i => dw d 1 / 8 + i) fun _ => []
  | .qstamp => plainUnit 0 0 [] [] fun _ => []

/-! ### Checks at issue (R175) -/

/-- What a legal descriptor asks for. -/
structure Job where
  bufs : List BufUse := []
  dst : Option Range := none
  dst2 : Option Range := none
  src : Option Range := none
  /-- lines of global memory that are written: all of them, or none when there are more than 512 -/
  lines : Option (List Nat) := some []
  total : Nat := 0
  pair : Bool := false
  record : BitVec 1024 := 0

/-- The lines of an interval, unless there are more than 512. -/
def linesOf (lo n : Nat) : Option (List Nat) :=
  if n = 0 then some []
  else
    let k := (lo + n - 1) / 128 - lo / 128 + 1
    if 512 < k then none else some ((List.range k).map (lo / 128 + ·))

def fewLines (l : List Nat) : Option (List Nat) :=
  let d := l.eraseDups
  if 512 < d.length then none else some d

def rangeOf (space lo n : Nat) : Option Range := if n = 0 then none else some { space := space, lo := lo, hi := lo + n }

/-- Checks 3 and 4 of `qcopy`: the cause and fault address, or what it asks for. -/
def State.qcopyJob (s : State) (ctx : Nat) (xa : Word) (k : BitVec 4) (d : List Word) : Except (Nat × Word) Job :=
  let q := qdescOf k d
  if !qcopyFirst q d then .error (1, xa)
  else
    match s.tensorRec? ctx q.handle with
    | none => .error (10, BitVec.ofNat 64 q.handle)
    | some r =>
      let t := tensorOf r
      if !qcopySecond q t then .error (1, xa)
      else
        let n := qcopyBytes q t
        let main : BufUse := { space := q.buf + 1, addr := q.addr, bytes := n, align := if q.planes then 128 else 16 }
        let scales := if q.dsd && !q.planes && decide (t.count ≠ 0) then at_ t.box 1 else 0
        let bufs := if q.dsd && !q.planes then [main, { space := 1, addr := q.saddr, bytes := 2 * scales, align := 2 }] else [main]
        let j : Job := { bufs := bufs, pair := q.pair, record := r }
        if t.count = 0 then .ok j
        else if q.dir1 then
          let us := qoutUnits q t
          let lo := ((qoutHalves q t).head?).map fun h => h.1 / 2
          let hi := ((qoutHalves q t).getLast?).map fun h => h.1 / 2 + 1
          .ok { j with
            dst := match lo, hi with
              | some l, some h => some { space := 0, lo := l, hi := h }
              | _, _ => none
            src := rangeOf 1 q.addr n
            lines := fewLines (us.map (· / 16))
            total := us.length }
        else if q.planes then
          let per := placedBytes t.etype (panelK q t) * (if t.etype = 9 then 2 else 1) / 8 + if q.dsd then 128 else 0
          .ok { j with dst := rangeOf 2 q.addr n, total := if q.pair then 2 * per else per }
        else
          let values := rangeOf (q.buf + 1) q.addr n
          let entries := rangeOf 1 q.saddr (2 * scales)
          let hull : Option Range := match values, entries with
            | some a, some b => some { space := 1, lo := min a.lo b.lo, hi := max a.hi b.hi }
            | a, none => a
            | none, b => b
          let j := if q.buf = 0 then { j with dst := hull } else { j with dst := values, dst2 := entries }
          .ok { j with total := (n + 7) / 8 + scales }

/-- Check 3 of the other copies. `qfill` into a pair needs a buffer, as `qlin` does (DESIGN CHOICE, log 150).
The count n of `qgath` and `qscat` is taken for a length: it is below 2^32 (DEDUCED, log 174). -/
def State.otherJob (s : State) (core ctx : Nat) (xa : Word) (kind : CopyKind) (d : List Word) : Except (Nat × Word) Job :=
  let no : Except (Nat × Word) Job := .error (1, xa)
  match kind with
  | .qlin =>
    let w := dw d 0
    let n := dw d 3
    if flag w 5 then
      let priv := ((s.ctx? ctx).map (·.priv)).getD false
      let f (a : Nat) : Bool := a % 2 ^ 21 == 0 && decide (a < 2 ^ 44)
      if priv && bits w 3 0 == 0 && !flag w 4 && bits w 15 6 == 0 && bits w 29 26 == 0 && bits w 63 42 == 0 && tailZero d 4 &&
          f (dw d 1) && f (dw d 2) && n == 2097152 then .ok { total := 4096 }
      else no
    else
      let ss := bits w 1 0
      let ds := bits w 3 2
      if w / 32 ≠ 0 ∨ ss = 3 ∨ ds = 3 ∨ !tailZero d 4 ∨ n % 8 ≠ 0 ∨ 2 ^ 32 ≤ n ∨ (ss = 0 ∧ dw d 1 % 8 ≠ 0) ∨
          (ds = 0 ∧ dw d 2 % 8 ≠ 0) ∨ (flag w 4 ∧ ds = 0) then no
      else
        let b (sp a : Nat) : List BufUse := if sp = 0 then [] else [{ space := sp, addr := a, bytes := n, align := 8 }]
        .ok { bufs := b ss (dw d 1) ++ b ds (dw d 2), dst := rangeOf ds (dw d 2) n
              src := if ss = 1 then rangeOf 1 (dw d 1) n else none
              lines := if ds = 0 then linesOf (dw d 2) n else some []
              total := n / 8, pair := flag w 4 }
  | .qgath =>
    let es := gsSize d
    if dw d 0 / 8 ≠ 0 ∨ 4 < bits (dw d 0) 2 0 ∨ !tailZero d 5 ∨ dw d 1 % es ≠ 0 ∨ 2 ^ 32 ≤ dw d 3 then no
    else
      .ok { bufs := [{ space := 1, addr := dw d 2, bytes := 4 * dw d 3, align := 4 },
                     { space := 1, addr := dw d 4, bytes := es * dw d 3, align := 8 }]
            dst := rangeOf 1 (dw d 4) (es * dw d 3), src := rangeOf 1 (dw d 2) (4 * dw d 3), total := es / 8 * dw d 3 }
  | .qscat =>
    let es := gsSize d
    if dw d 0 / 8 ≠ 0 ∨ 4 < bits (dw d 0) 2 0 ∨ !tailZero d 5 ∨ dw d 1 % es ≠ 0 ∨ 2 ^ 32 ≤ dw d 3 then no
    else
      let n := dw d 3
      let src : Option Range := if n = 0 then none
        else some { space := 1, lo := min (dw d 2) (dw d 4), hi := max (dw d 2 + 4 * n) (dw d 4 + es * n) }
      let j : Job :=
        { bufs := [{ space := 1, addr := dw d 2, bytes := 4 * n, align := 4 }, { space := 1, addr := dw d 4, bytes := es * n, align := 8 }]
          dst := rangeOf 0 (dw d 1) (if n = 0 then 0 else es * 2 ^ 32), src := src, total := es / 8 * n }
      if (lowestBad j.bufs (65536 * (s.coreAt core).split)).isSome then .ok j
      else .ok { j with lines := fewLines ((List.range n).flatMap fun i =>
        ((List.range ((es + 127) / 128)).map fun x => s.gsAddr core d i / 128 + x)) }
  | .qfill =>
    let sp := bits (dw d 0) 1 0
    let n := dw d 2
    if dw d 0 / 8 ≠ 0 ∨ sp = 3 ∨ !tailZero d 4 ∨ n % 8 ≠ 0 ∨ 2 ^ 32 ≤ n ∨ (sp = 0 ∧ dw d 1 % 8 ≠ 0) ∨ (flag (dw d 0) 2 ∧ sp = 0) then no
    else
      .ok { bufs := if sp = 0 then [] else [{ space := sp, addr := dw d 1, bytes := n, align := 8 }]
            dst := rangeOf sp (dw d 1) n
            lines := if sp = 0 then linesOf (dw d 1) n else some []
            total := n / 8, pair := flag (dw d 0) 2 }
  | .qred =>
    let op := dw d 0
    let n := dw d 3
    if 5 < op ∨ !tailZero d 4 ∨ n % 8 ≠ 0 ∨ 2 ^ 32 ≤ n ∨ dw d 2 % redUnit op ≠ 0 then no
    else
      .ok { bufs := [{ space := 1, addr := dw d 1, bytes := n, align := 8 }], dst := rangeOf 0 (dw d 2) n
            src := rangeOf 1 (dw d 1) n, lines := linesOf (dw d 2) n, total := n / redUnit op }
  | .qcbk => if dw d 0 / 32 ≠ 0 ∨ !tailZero d 2 ∨ dw d 1 % 32 ≠ 0 then no else .ok { total := 2 }
  | .qcopy => no
  | .qstamp => no

/-! ### Performing a unit (R176) -/

/-- A copy that cannot go on: cause, subcause, address, GPA. -/
structure Stuck where
  cause : Nat
  sub : Nat
  fva : Nat
  gpa : Word
  deriving DecidableEq, Repr

/-- How far a unit came. -/
inductive UnitRes (α : Type)
  | ok (a : α)
  | stuck (x : Stuck)
  | later

def State.copy? (s : State) (core num : Nat) : Option Copy := (s.coreAt core).copies.find? fun c => c.num == num

def State.putCopy (s : State) (core : Nat) (c : Copy) : State :=
  s.modCore core fun k => { k with copies := k.copies.map fun x => if x.num == c.num then c else x }

/-- Park a copy with one record (R176). -/
def State.parkCopy (s : State) (core : Nat) (c : Copy) (x : Stuck) : State :=
  (s.putCopy core { c with parked := true }).addRecord (s.vfOf c.ctx)
    { src := 2, sub := x.sub, cause := x.cause, fva := BitVec.ofNat 64 x.fva, gpa := x.gpa, info := BitVec.ofNat 64 c.num,
      ctx := c.ctx, qt := c.quay, core := core }

/-- Threads in `qdrain` go on when what they wait for is done; the engine-completion edge comes with it (R174, R257). -/
def State.undrain (s : State) (core : Nat) : State :=
  let k := s.coreAt core
  let ts := s.threads.filter fun t => t.id.core == core && t.id.berth == quayBerth && (match t.wait with
    | .draining n => decide (n ≤ k.stamped)
    | _ => false)
  ts.foldl (fun s t =>
    (s.applyNotice core t.ctx k.qnotice).modThread t.id fun u => { u with wait := .ready, pc := u.pc + 4 }) s

/-- Number `c.num` is done: its stamp is written, or it has none. -/
def State.passStamp (s : State) (core : Nat) (c : Copy) : State :=
  s.modCore core fun k => { k with stamped := max k.stamped c.num, copies := k.copies.filter fun x => x.num != c.num }

/-- Copies are filed in the order of their numbers: the first whose stamp is not passed. -/
def firstCopy : List Copy → Option Copy
  | [] => none
  | c :: _ => some c

/-- Retired operations at the head of the timeline that write no stamp are done (R172, R174, R275). -/
def State.passStamps (s : State) (core : Nat) : Nat → State
  | 0 => s.undrain core
  | n + 1 =>
    match firstCopy (s.coreAt core).copies with
    | none => s.undrain core
    | some c => if c.retired && (decide (c.stamp = 0) || c.abandoned) then (s.passStamp core c).passStamps core n else s.undrain core

/-- Whether an answer for the copy is still awaited. -/
def State.copyAwaits (s : State) (core num : Nat) : Bool := s.pendings.any fun p => p.core == core && p.copy == some num

/-- A translation that failed: a page of host memory that has been requested is waited for (R268). -/
def failed {α : Type} (f : TFail) (va : Nat) : UnitRes α := if f.waits then .later else .stuck ⟨16, f.sub, va, f.gpa⟩

/-- Read one 8-byte unit of global memory for a copy. -/
def State.copyRead (s : State) (core : Nat) (c : Copy) (u : Nat) : UnitRes (List Byte) × State :=
  match s.translate core c.ctx (8 * u) .load with
  | (.error f, s) => (failed f (8 * u), s)
  | (.ok t, s) =>
    match t.target with
    | .device a =>
      let s := s.comeHome a
      if s.bad a then (.stuck ⟨18, 0, 8 * u, BitVec.ofNat 64 t.gpa⟩, s)
      else
        let r := s.readAt t.vf 1 t.key a 8
        (.ok r.1, r.2)
    | .host a =>
      if s.hostBad a 8 then (.stuck ⟨18, 1, 8 * u, BitVec.ofNat 64 t.gpa⟩, s) else (.ok (readMap 0 s.hostMem a 8), s)
    | .fabric p g =>
      let ln := g / 128 * 128
      match c.fetched.find? fun x => x.1 == p && x.2.1 == ln with
      | some x => (.ok (toBytes (x.2.2.toNat / 2 ^ (8 * (g % 128))) 8), s)
      | none =>
        if s.copyAwaits core c.num then (.later, s)
        else
          (.later, s.sendRequest { ttag := 0, core := core, ctx := c.ctx, copy := some c.num, fva := BitVec.ofNat 64 (8 * u),
                                   agpa := t.gpa,
                                   packet := s.packetFor c.ctx 1 p ln })

/-- Read what a unit needs. -/
def State.copyReads (s : State) (core : Nat) (c : Copy) (p : Plan) (m : Known) : Nat → UnitRes Known × State
  | 0 => (.later, s)
  | fuel + 1 =>
    match p.need m with
    | [] => (.ok m, s)
    | u :: _ =>
      match s.copyRead core c u with
      | (.ok bs, s) => s.copyReads core c p ((u, bs) :: m) fuel
      | (.stuck x, s) => (.stuck x, s)
      | (.later, s) => (.later, s)

/-- The bytes that a unit leaves, where only some bits of a byte are written. -/
def blendBytes (old : List Byte) (new : List (Byte × Byte)) : List (Option Byte) :=
  new.zipIdx.map fun p =>
    if p.1.1 = 0 then none
    else some (((((nth? old p.2).getD 0) &&& ~~~p.1.1) ||| (p.1.2 &&& p.1.1)))

def someAddrs (a : Nat) (l : List (Option Byte)) : List (Nat × Byte) :=
  l.zipIdx.filterMap fun p => p.1.map fun b => (a + p.2, b)

/-- A read-modify-write of whole bytes at the home: `qred`. -/
def redBytes (op : Nat) (old new : List Byte) : List Byte :=
  let n := redUnit op
  toBytes (atomApply (redOp op) (8 * n) (ofBytes old) (ofBytes new)) n

/-- A unit of another package's memory of which only parts of some byte are written goes as a compare-and-swap of its eight
bytes, which the line's home performs in one step; it is made anew until it meets the bytes that it was made from (R181,
DEDUCED, log 147). -/
def State.sendSwap (s : State) (core : Nat) (c : Copy) (va gpa pkg ga : Nat) (old : List Byte) (new : List (Byte × Byte)) : State :=
  let all := (blendBytes old new).zipIdx.map fun p => p.1.getD ((nth? old p.2).getD 0)
  s.sendRequest
    { ttag := 0, core := core, ctx := c.ctx, copy := some c.num, fva := BitVec.ofNat 64 va, agpa := gpa,
      packet := { s.packetFor c.ctx 5 pkg ga with
        size := 1, op := 12, opd0 := BitVec.ofNat 64 (ofBytes old), opd1 := BitVec.ofNat 64 (ofBytes all) } }

/-- The answer to it: the unit is done, or it is made anew from the bytes that the home held. -/
def State.swapAnswer (s : State) (p : Pending) (old : Word) : State :=
  match p.copy.bind fun n => (s.coreAt p.core).copies.find? fun c => c.num == n with
  | none => s
  | some c =>
    if old = p.packet.opd0 then s.putCopy p.core { c with done := c.done + 1, fetched := [] }
    else
      let g := p.packet.gpa
      s.putCopy p.core { c with fetched := [(p.packet.dst, g / 128 * 128, BitVec.ofNat 1024 (old.toNat * 2 ^ (8 * (g % 128))))] }

/-- Write the unit to global memory: translation, seal, growth (R176). -/
def State.copyWriteG (s : State) (core : Nat) (c : Copy) (p : Plan) (new : List (Byte × Byte)) : UnitRes Unit × State :=
  let acc : Acc := if p.red.isSome then .atomic else .store
  match s.translate core c.ctx p.addr acc with
  | (.error f, s) => (failed f p.addr, s)
  | (.ok t, s) =>
    let g := BitVec.ofNat 64 t.gpa
    if s.sealedOn (dieOf core) c.ctx p.addr new.length then (.stuck ⟨6, 0, p.addr, g⟩, s)
    else
      let n := new.length
      match t.target with
      | .device a =>
        let s := s.giveUp a
        if p.red.isSome && s.bad a then (.stuck ⟨18, 0, p.addr, g⟩, s)
        else
          let old := s.viewBytes t.vf t.key a n
          let ws := match p.red with
            | some op => withAddrs a (redBytes op old (new.map (·.2)))
            | none => someAddrs a (blendBytes old new)
          match s.homeWrite { vf := t.vf, gpa := t.gpa, key := t.key, ce := t.ce, tc := 1, atomic := p.red.isSome } a ws with
          | (.refused, s) => (.stuck ⟨17, blockStack (blockOf a), p.addr, g⟩, s)
          | (_, s) => (.ok (), s)
      | .host a =>
        match p.red with
        | some op =>
          if op ≠ 0 then (.stuck ⟨16, 7, p.addr, g⟩, s)
          else if s.hostBad a n then (.stuck ⟨18, 1, p.addr, g⟩, s)
          else
            let old := readMap 0 s.hostMem a n
            let v := new.map (·.2)
            let s := { s with hostMem := writeMap 0 s.hostMem a (redBytes op old v) }
            (.ok (), s.output (.atomicToHost a .add false true (BitVec.ofNat 64 (ofBytes v)) 0 0))
        | none =>
          let ws := someAddrs a (blendBytes (readMap 0 s.hostMem a n) new)
          (.ok (), (runsOf ws).foldl (fun s r => s.post r.1 r.2) s)
      | .fabric pkg ga =>
        let ln := ga / 128 * 128
        let o := ga % 128
        let old := ((c.fetched.find? fun x => x.1 == pkg && x.2.1 == ln).map fun x => toBytes (x.2.2.toNat / 2 ^ (8 * o)) 8).getD []
        let partWrite := new.any fun b => !(b.1 == 0) && !(b.1 == 0xff)
        if partWrite then
          if s.copyAwaits core c.num then (.later, s)
          else if old.isEmpty then
            (.later, s.sendRequest { ttag := 0, core := core, ctx := c.ctx, copy := some c.num, fva := BitVec.ofNat 64 p.addr,
                                     agpa := t.gpa, packet := s.packetFor c.ctx 1 pkg ln })
          else (.later, s.sendSwap core c p.addr t.gpa pkg ga old new)
        else
          let ws := someAddrs o (blendBytes [] new)
          let mask := ws.foldl (fun m w => m ||| bitAt w.1) (0 : BitVec 128)
          let data := ws.foldl (fun n w => n + w.2.toNat * 2 ^ (8 * w.1)) 0
          let kind := if p.red.isSome then 7 else 3
          (.ok (), s.sendRequest { ttag := 0, core := core, ctx := c.ctx, copy := some c.num, fva := BitVec.ofNat 64 p.addr,
                                   agpa := t.gpa, packet := { s.packetFor c.ctx kind pkg ln with mask := mask, data := BitVec.ofNat 1536 data, op := p.red.getD 0 } })

/-- Whether a queued operation issued before the copy has still to read bytes of the unit (R151). -/
def State.heldUnit (s : State) (c : Copy) (p : Plan) (n : Nat) : Bool :=
  p.space != 0 && p.cores.any fun k => (s.coreAt (leaderOf k)).matQ.any fun o =>
    decide (o.seq < c.after) && !o.executed && (p.space == 2 || isLeader k) && (p.space == 1 || isLeader k || o.pair) &&
    o.reads.any fun r => overlaps r p.space p.addr n

/-- Write the unit to the buffers of its cores. -/
def State.copyWriteB (s : State) (p : Plan) (bs : List Byte) : State :=
  p.cores.foldl (fun s c => s.modCore c fun k =>
    if p.space = 1 then { k with abuf := writeMap 0 k.abuf p.addr bs } else { k with wbuf := writeMap 0 k.wbuf p.addr bs }) s

/-! #### Frame moves (R279, R282) -/

/-- The blocks of a 2 MiB frame, ascending, by home. -/
def State.blocksOfFrame (s : State) (v D : Nat) : List Nat :=
  (List.range 4096).filterMap fun i => (s.mapDevice (s.vfPart v) (D + 512 * i)).map blockOf

/-- The stack-cache lines of a frame are dropped; a moored one returns its place to its VF and counts as lost (R282). -/
def State.dropSc (s : State) (v D : Nat) : State :=
  let bs := s.blocksOfFrame v D
  let inside (l : ScLine) : Bool := has bs (l.stack * 2 ^ 29 + l.off / 512)
  let gone := s.sc.filter inside
  gone.foldl (fun s l =>
    if l.moored then s.modVf l.vf fun x => { x with mlost := min (x.mlost + 1) (2 ^ 32 - 1), mused := x.mused - 1 } else s)
    { s with sc := s.sc.filter fun l => !inside l }

/-- The GPAs of a frame in a VF's stage-2 array, whose entries are valid or not. -/
def State.gpasInArray (s : State) (v D : Nat) : List Nat :=
  let x := s.vf v
  (List.range (2 ^ (x.gpab - 21))).filterMap fun i =>
    match s.mapDevice (s.vfPart v) (x.s2base.toNat + 8 * i) with
    | none => none
    | some a => if e2Addr (s.readTable v 0 a) = D then some (i * 2 ^ 21) else none

/-- The GPAs under which a frame move is logged: those whose entry names the frame (DEDUCED, log 66); where none does, the one at which
the hypervisor will map it, a free value. -/
def State.gpasOfFrame (s : State) (v D : Nat) : List Nat :=
  match s.gpasInArray v D with
  | [] => [(Config.frameGpa v D).toNat * 2 ^ 21]
  | gs => gs

/-- The key under which a frame move writes. The spec gives none for an empty slot: nothing can read the bytes then (DESIGN
CHOICE, DESIGN CHOICE, log 153). -/
def State.moveKey (s : State) (slot : Nat) : KeyMark × State :=
  match s.key? slot with
  | some k => ((k.gen, k.key), s)
  | none => ((s.keyGens + 1, (Config.freeWord s.freeCount).setWidth 512),
             { s with keyGens := s.keyGens + 1, freeCount := s.freeCount + 1 })

/-- Frames that hold a reservation of the source block hold one of its new place as well; none where the reserve cannot supply it
(R396, DEDUCED, log 143). -/
def State.moveResvs (s : State) (v a b : Nat) : Option State :=
  (s.resvs.filter fun r => r.block == a && r.holder.isRight).foldl (fun o r =>
    o.bind fun s => if (s.resv? b r.holder).isSome then some s else s.grantGrowth v b r.holder) (some s)

/-- What a source block becomes in the destination frame. -/
def Desc.moved (d : Desc) (v : Nat) (wide : Bool) : Desc :=
  if d.scrub then { owned := true, vf := v, spread := wide } else { d with owned := true, vf := v, spread := wide }

/-- Block `a` of the source takes its place at block `b`: descriptor, bytes, and what the home knows of them. -/
def State.placeBlock (s : State) (slot v a b : Nat) (d : Desc) : State :=
  let r := if d.count = 0 then ((0 : BitVec 31), s) else s.freshRun b d.count
  let bytes := r.2.homeBytes slot (a * 512) 512
  let k := r.2.moveKey slot
  let s := (k.2.adjust v (blockStack b) fun x => { x with pool := x.pool - d.count, used := x.used + d.count }).setDesc b
    { d with run := r.1 }
  { s with
    mem := writeMap memDefault s.mem (b * 512) bytes
    blockKeys := SMap.set (0, 0) s.blockKeys b k.1
    moved := SMap.set 0 s.moved a (b + 1)
    lastWrites := (List.range 64).foldl (fun m j => SMap.set .plain m (b * 64 + j) (SMap.get .plain s.lastWrites (a * 64 + j)))
      s.lastWrites
    undecodable := if has s.undecodable a then addOnce s.undecodable b else s.undecodable.filter (· != b) }

/-- Move block `i` of a frame. Conditions that wait on it stay at the old home, until the new entry is written (R281). A frame address that
the VF's partition has no place for parks the move with cause 16 subcause 4; the record of a parked move names the frame address and no
GPA (DESIGN CHOICE, log 171). -/
def State.moveBlock (s : State) (c : Copy) (i : Nat) : UnitRes Unit × State :=
  let w := dw c.desc 0
  let v := bits w 25 16
  let slot := bits w 41 30
  let p := s.vfPart v
  match s.mapDevice p (dw c.desc 1 + 512 * i), s.mapDevice p (dw c.desc 2 + 512 * i) with
  | some a, some b =>
    let s := if i = 0 then s.dropSc v (dw c.desc 1) else s
    let d := (s.desc (blockOf a)).moved v (flag (dw c.desc 2) 43)
    let st := stackOf b
    let stuck : UnitRes Unit := .stuck ⟨17, st, dw c.desc 2 + 512 * i, noGpa⟩
    if (s.cnt v st).pool < d.count then (stuck, s)
    else
      match (s.placeBlock slot v (blockOf a) (blockOf b) d).moveResvs v (blockOf a) (blockOf b) with
      | none => (stuck, s)
      | some s => (.ok (), (s.gpasOfFrame v (dw c.desc 1)).foldl (fun s g => s.logDirty v (g + 512 * i)) s)
  | _, _ => (.stuck ⟨16, 4, dw c.desc 1 + 512 * i, noGpa⟩, s)

/-- Whether a scale entry of the copy has an open value. -/
def Copy.opens (c : Copy) : Bool :=
  decide (c.kind = .qcopy) && (qdescOf c.k c.desc).dsd && beforeStream (qdescOf c.k c.desc)

/-- A copy performs its next unit. -/
def State.copyUnit (s : State) (core : Nat) (c : Copy) : State :=
  let next (s : State) : State :=
    (if c.opens then { s with freeCount := s.freeCount + 1 } else s).putCopy core { c with done := c.done + 1, fetched := [] }
  if c.kind = .qlin ∧ flag (dw c.desc 0) 5 then
    match s.moveBlock c c.done with
    | (.ok _, s) => next s
    | (.stuck x, s) => s.parkCopy core c x
    | (.later, s) => s
  else
    let p := s.unitOf core c c.done
    match s.copyReads core c p [] p.fuel with
    | (.stuck x, s) => s.parkCopy core c x
    | (.later, s) => s
    | (.ok m, s) =>
      let new := p.make m
      if c.kind = .qcbk then
        let v := ofBytes ((List.range 32).map fun i => BitVec.ofNat 8 (m.byte (dw c.desc 1 + i)))
        s.putCopy core { c with record := BitVec.ofNat 1024 v, src := none, fetched := [], done := 1 }
      else if s.heldUnit c p new.length then s
      else if p.space = 0 then
        match s.copyWriteG core c p new with
        | (.ok _, s) => next s
        | (.stuck x, s) => s.parkCopy core c x
        | (.later, s) => s
      else next (s.copyWriteB p (new.map (·.2)))

end Sys2Proof.Machine
end

