-- ==== Sys2Proof/Machine/Quay.lean ====
section
/-! DEFINITION. The quay instructions at issue: kicks, copies, stamps, timelines, mooring (R166 to R187). -/

namespace Sys2Proof.Machine

/-! ### Kicks (R169, R170) -/

/-- The quay thread of a core that has waited longest in `qwaitk`. -/
def State.firstWaiter (s : State) (core : Nat) : Option (Thread × Nat) :=
  (s.threads.filterMap fun t => if t.id.core = core then
      (match t.wait with
        | .qwaiting p d => some (p, t, d)
        | _ => none)
    else none).foldl (fun m x => match m with
      | none => some x
      | some y => if x.1 < y.1 then some x else some y) none |>.map (·.2)

/-- The oldest kick of a context leaves the queue. -/
def takeKick (ctx : Nat) : List Kick → Option (Kick × List Kick)
  | [] => none
  | k :: t => if k.ctx = ctx then some (k, t) else (takeKick ctx t).map fun p => (p.1, k :: p.2)

/-- The edge of a kick comes to the quay processor: what its thread does from now on, its copies and their stamps, descends from
the kick (R236, R240, R257). -/
def State.takeEdge (s : State) (core : Nat) (k : Kick) : State :=
  (s.applyNotice core k.ctx k.notice).modCore core fun c => { c with qnotice := c.qnotice.merge k.notice }

/-- A quay thread takes a kick: its register, the edge that the kick carries (R257), and its next instruction. -/
def State.giveKick (s : State) (core : Nat) (t : Thread) (dest : Nat) (k : Kick) : State :=
  let s := s.takeEdge core k
  s.putThread { t.setPhys dest k.mailbox with pc := t.pc + 4, wait := .ready }

/-- Waiting quay threads take the kicks of the QP's context in the order in which they began to wait. -/
def State.giveKicks (s : State) (core : Nat) : Nat → State
  | 0 => s
  | n + 1 =>
    match (s.coreAt core).qctx, s.firstWaiter core with
    | some ctx, some (t, d) =>
      match takeKick ctx (s.coreAt core).kicks with
      | none => s
      | some (k, rest) => ((s.modCore core fun c => { c with kicks := rest }).giveKick core t d k).giveKicks core n
    | _, _ => s

/-- `qkick` (R169): collective; the sequence number goes to every lane. What the kick carries on, but for plain stores of the
task, has been performed (R236). The kick claims the quay row from a context that is off the core (R324). -/
def execQkick (d a : Reg) (k : BitVec 4) (s : State) : Out :=
  issue s .thread [d, a] 4 false fun s i =>
    match i.lanes with
    | [] => (s, [])
    | l :: _ =>
      let x := (s.thread l).rd a
      if !s.votes i.lanes fun t => t.rd a then (s, allRes i.lanes (.trap 3 1))
      else if x.toNat % 64 ≠ 0 ∨ 65536 * (s.coreAt i.core).split < x.toNat + 64 then (s, allRes i.lanes (.trap 2 x))
      else if 32 ≤ (s.coreAt i.core).kicks.length then (s, allRes i.lanes (.stall .kicks))
      else if s.unacked i.core i.ctx then (s, allRes i.lanes (.stall .unacked))
      else
        let s := (s.claimA i.core i.ctx).claimQuay i.core i.ctx
        let n := ((s.taskOf? l.core l.berth).map (·.notice)).getD {}
        let seq := (s.coreAt i.core).kickCount + 1
        let s := s.modCore i.core fun c =>
          { c with kickCount := seq, kicks := c.kicks ++ [{ ctx := i.ctx, mailbox := x, notice := n }] }
        let s := s.giveKicks i.core 4
        eachLane s (fun s id =>
          let t := (s.thread id).claim d
          (s.putThread t, .done [openWindow t false d k (.value (BitVec.ofNat 64 seq)) t.pc 0])) i.lanes

/-- `qwaitk` (R170). -/
def execQwaitk (d : Reg) (s : State) : Out :=
  perLane s .quay [d] 4 fun s id =>
    let t := s.thread id
    match takeKick t.ctx (s.coreAt id.core).kicks with
    | some (k, rest) =>
      let s := (s.modCore id.core fun c => { c with kicks := rest }).takeEdge id.core k
      (s.putThread ((s.thread id).wr d k.mailbox), .done [])
    | none =>
      let place := (s.coreAt id.core).qplace
      (s.modCore id.core fun c => { c with qplace := place + 1 }, .wait (.qwaiting place (destPhys t d)))

/-! ### Copies (R171 to R186) -/

def State.inFlight (s : State) (core : Nat) : Nat := ((s.coreAt core).copies.filter fun c => !c.retired).length

def Notice.addLines (n : Notice) : Option (List Nat) → Notice
  | none => { n with sig := BitVec.allOnes 1024 }
  | some l => n.addAll l

/-- What the quay threads have stored goes to its homes before the units of a copy, and its lines into the notice that the
stamp will carry (R236, R239, R257). -/
def State.aheadOfCopy (s : State) (core ctx : Nat) : State :=
  let ls := s.wroteBy ctx (quayFrame core)
  if ls.isEmpty then s
  else
    let s := (s.l1.filter fun l => l.core == core && l.ctx == ctx && has ls l.line).foldl (fun s l => if l.dirty == 0 then s else (s.writebackNow l).pend l) s
    (s.forgetWrites ctx (quayFrame core)).modCore core fun k => { k with qnotice := k.qnotice.addAll ls }

/-- The accesses of a context on a core that are still to be performed. -/
def State.unperformed (s : State) (core ctx : Nat) : List Nat :=
  (s.pendings.filter fun p => p.core == core && p.ctx == ctx && p.copy.isNone).map (·.ttag)

/-- The number is taken, the copy is in flight (R171, R173, R257). -/
def State.startCopy (s : State) (id : LaneId) (ctx : Nat) (kind : CopyKind) (k : BitVec 4) (desc : List Word) (stamp : Word)
    (j : Job) : Nat × State :=
  let s := s.aheadOfCopy id.core ctx
  let c := s.coreAt id.core
  let num := c.timeline + 1
  let y : Copy :=
    { num := num, kind := kind, ctx := ctx, quay := id.tid, k := k, desc := desc, record := j.record, stamp := stamp,
      dst := j.dst, dst2 := j.dst2, src := j.src, total := j.total, after := s.matSeq, behind := s.unperformed id.core ctx,
      retired := j.total == 0 }
  let s := s.setCore id.core { c with timeline := num, copies := c.copies ++ [y], qnotice := c.qnotice.addLines j.lines }
  (num, s.passStamps id.core (c.copies.length + 2))

/-- Check 5 of R175: the lowest offending address among the buffer operands and the stamp address. -/
def copyAddrBad (bufs : List BufUse) (lim : Nat) (xb : Word) : Option Nat :=
  let b := if xb.toNat % 8 ≠ 0 ∨ 2 ^ 48 ≤ xb.toNat then some xb.toNat else none
  match lowestBad bufs lim, b with
  | some a, some c => some (min a c)
  | some a, none => some a
  | none, c => c

/-- The rows that the copy's buffers need (R324). -/
def State.claimCopy (s : State) (core ctx : Nat) (j : Job) : State :=
  let space (n : Nat) : Bool := j.bufs.any fun b => b.space == n
  (copyCores core j.pair).foldl (fun s h =>
    let s := if space 1 then s.claimA h ctx else s
    if space 2 then s.claimW h ctx else s) s

/-- A copy instruction. -/
def copyOp (kind : CopyKind) (k : BitVec 4) (d a b : Reg) (s : State) : Out :=
  perLane s .quay [d, a, b] 4 fun s id =>
    let t := s.thread id
    let xa := t.rd a
    let xb := t.rd b
    let lim := 65536 * (s.coreAt id.core).split
    if 64 ≤ s.inFlight id.core then (s, .stall .copies)
    else if xa.toNat % 64 ≠ 0 ∨ lim < xa.toNat + 64 then (s, .trap 2 xa)
    else
      let s := s.claimA id.core t.ctx
      let desc : List Word := (List.range 8).map fun i => BitVec.ofNat 64 (bufNat (s.coreAt id.core).abuf (xa.toNat + 8 * i) 8)
      let job := match kind with
        | .qcopy => s.qcopyJob t.ctx xa k desc
        | _ => s.otherJob id.core t.ctx xa kind desc
      match job with
      | .error e => (s, .trap e.1 e.2)
      | .ok j =>
        match copyAddrBad j.bufs lim xb with
        | some x => (s, .trap 2 (BitVec.ofNat 64 x))
        | none =>
          if j.pair && !(isLeader id.core && decide ((s.coreAt (id.core + 1)).pairCtx = some t.ctx)) then
            (s, .trap 5 (coreid id.core))
          else
            let r := (s.claimCopy id.core t.ctx j).startCopy id t.ctx kind k desc xb j
            (r.2.putThread ((r.2.thread id).wr d (BitVec.ofNat 64 r.1)), .done [])

/-- `qcopy` (R179). -/
def execQcopy (f : BitVec 4) (d a b : Reg) (s : State) : Out := copyOp .qcopy f d a b s
/-- `qlin` (R184, R279). -/
def execQlin (d a b : Reg) (s : State) : Out := copyOp .qlin 0 d a b s
/-- `qgath` (R184). -/
def execQgath (d a b : Reg) (s : State) : Out := copyOp .qgath 0 d a b s
/-- `qscat` (R184). -/
def execQscat (d a b : Reg) (s : State) : Out := copyOp .qscat 0 d a b s
/-- `qfill` (R184). -/
def execQfill (d a b : Reg) (s : State) : Out := copyOp .qfill 0 d a b s
/-- `qred` (R185). -/
def execQred (d a b : Reg) (s : State) : Out := copyOp .qred 0 d a b s
/-- `qcbk` (R186). -/
def execQcbk (d a b : Reg) (s : State) : Out := copyOp .qcbk 0 d a b s

/-- `qstamp` (R174). -/
def execQstamp (d b : Reg) (s : State) : Out :=
  perLane s .quay [d, b] 4 fun s id =>
    let t := s.thread id
    match copyAddrBad [] 0 (t.rd b) with
    | some x => (s, .trap 2 (BitVec.ofNat 64 x))
    | none =>
      let r := s.startCopy id t.ctx .qstamp 0 [] (t.rd b) {}
      (r.2.putThread ((r.2.thread id).wr d (BitVec.ofNat 64 r.1)), .done [])

/-- `qtl.issued` (R174). -/
def execQtlIssued (d : Reg) (s : State) : Out :=
  perLane s .quay [d] 4 fun s id =>
    (s.putThread ((s.thread id).wr d (BitVec.ofNat 64 (s.coreAt id.core).timeline)), .done [])

/-- `qtl.done` (R174). -/
def execQtlDone (d : Reg) (s : State) : Out :=
  perLane s .quay [d] 4 fun s id =>
    (s.putThread ((s.thread id).wr d (BitVec.ofNat 64 (s.coreAt id.core).stamped)), .done [])

/-- `qdrain` (R174): the engine-completion edge follows (R236, R257). -/
def execQdrain (s : State) : Out :=
  perLane s .quay [] 4 fun s id =>
    let k := s.coreAt id.core
    if k.timeline ≤ k.stamped then (s.applyNotice id.core (s.thread id).ctx k.qnotice, .done [])
    else (s, .wait (.draining k.timeline))

/-! ### Mooring (R187) -/

def moorLegal (base len : Nat) : Bool := base % 128 == 0 && len % 128 == 0 && decide (128 ≤ len) && decide (len ≤ 2 ^ 26)

/-- The home address of each line of a range, with its key slot; none for a line that does not translate or has no home on
the package. -/
def State.moorLines (s : State) (core ctx base : Nat) : Nat → List (Option (Nat × Nat)) × State
  | 0 => ([], s)
  | n + 1 =>
    let h : Option (Nat × Nat) × State := match s.translate core ctx base .load with
      | (.ok t, s) => (match t.target with
        | .device a => some (a / 128 * 128, t.key)
        | _ => none, s)
      | (.error _, s) => (none, s)
    let q := h.2.moorLines core ctx (base + 128) n
    (h.1 :: q.1, q.2)

/-- The line at a home address, present or not. -/
def State.scLine? (s : State) (a : Nat) : Option ScLine :=
  s.sc.find? fun l => l.stack == stackOf a && l.off == a % 2 ^ 38

def State.mooredBy (s : State) (v a : Nat) : Bool := ((s.scLine? a).map fun l => l.moored && l.vf == v).getD false

/-- Lines of the set of `a` that are moored, but for those that are about to be moored anew (R187). -/
def State.mooredIn (s : State) (new : List Nat) (a : Nat) : Nat :=
  (s.sc.filter fun l => l.stack == stackOf a && l.slice == sliceOf (a % 2 ^ 38) && l.set == setOf (a % 2 ^ 38) && l.moored &&
    !has new (l.stack * 2 ^ 38 + l.off)).length

def sameSet (a b : Nat) : Bool :=
  stackOf a == stackOf b && sliceOf (a % 2 ^ 38) == sliceOf (b % 2 ^ 38) && setOf (a % 2 ^ 38) == setOf (b % 2 ^ 38)

/-- Moor one line, with its key slot; an absent one is filled into the way mask of traffic class 1, which is the copies' (DESIGN CHOICE,
DESIGN CHOICE, log 170), and a line under another VF's tag is retagged or dropped as any miss does it (R329). None when no way of the mask can take it. -/
def State.moorOne (s : State) (v ctx : Nat) (x : Nat × Nat) : Option State :=
  let a := x.1
  let key := s.viewMark v x.2 a
  let moor (l : ScLine) (s : State) : State := { s with sc := upsert (sameSc l) { l with moored := true, moorCtx := ctx } s.sc }
  let now := s.scClock
  let s := { s with scClock := now + 1 }
  let absent (s : State) : Option State :=
    let off := a % 2 ^ 38
    let slice := sliceOf off
    let set := setOf off
    let mask := SMap.get (0xffff : BitVec 22) (s.vf v).masks 1
    let inMask (w : Nat) : Bool := decide (w < 16) && mask.getLsbD w
    let taken := s.sc.filter fun l => l.stack == stackOf a && l.slice == slice && l.set == set
    let line (w : Nat) : ScLine :=
      { stack := stackOf a, slice := slice, set := set, way := w, off := off, vf := v, tc := 1, used := now, mark := key }
    match (List.range 16).find? fun w => inMask w && !(taken.any fun l => l.way == w) with
    | some w => some (moor (line w) s)
    | none => (leastUsed (taken.filter fun l => inMask l.way && !l.moored)).map fun l => moor (line l.way) s
  match s.scLine? a with
  | some l => if l.vf = v then some (moor { l with used := now } s)
    else
      let s := s.unmoor l
      if (SMap.get (0xffff : BitVec 22) (s.vf v).masks 1).getLsbD l.way then
        some (moor { l with vf := v, tc := 1, dirty := false, used := now, mark := key, held := none } s)
      else absent { s with sc := s.sc.filter fun x => !sameSc l x }
  | none => absent s

def State.moorAll (s : State) (v ctx : Nat) : List (Nat × Nat) → Option State
  | [] => some s
  | a :: r => match s.moorOne v ctx a with
    | none => none
    | some s => s.moorAll v ctx r

/-- Each address once, in the order of the range. -/
def eachOnce (l : List (Nat × Nat)) : List (Nat × Nat) :=
  l.foldl (fun m x => if m.any fun y => y.1 == x.1 then m else m ++ [x]) []

/-- The status of `qmoor`, and the state that it leaves. Where several refusals apply, the limits come first, then the
translation, the quota and the ways; where the mask has no way that a line can take, it is one of the two refusals for want of
room (DESIGN CHOICE, log 68, DESIGN CHOICE, log 152). -/
def State.moor (s : State) (core ctx base len : Nat) : Word × State :=
  let v := s.vfOf ctx
  if !moorLegal base len then (4, s)
  else
    let h := s.moorLines core ctx base (len / 128)
    let s := h.2
    if h.1.any (·.isNone) then (3, s)
    else
      let ls := eachOnce (h.1.filterMap id)
      let new := (ls.map (·.1)).filter fun a => !s.mooredBy v a
      let x := s.vf v
      if x.mquota < x.mused + new.length then (1, s)
      else if new.any fun a => decide (16 ≤ s.mooredIn new a + (new.filter (sameSet a)).length) then (2, s)
      else
        match s.moorAll v ctx ls with
        | none =>
          let c := s.choose [(1 : Word), 2]
          (c.1.getD 1, c.2)
        | some s => (0, s.modVf v fun x => { x with mused := x.mused + new.length })

/-- `qmoor` (R187). -/
def execQmoor (d a b : Reg) (s : State) : Out :=
  perLane s .quay [d, a, b] 4 fun s id =>
    let t := s.thread id
    let r := s.moor id.core t.ctx (t.rd a).toNat (t.rd b).toNat
    (r.2.putThread ((r.2.thread id).wr d r.1), .done [])

/-- `qunmoor` (R187). -/
def execQunmoor (d a b : Reg) (s : State) : Out :=
  perLane s .quay [d, a, b] 4 fun s id =>
    let t := s.thread id
    let base := (t.rd a).toNat
    let len := (t.rd b).toNat
    if !moorLegal base len then (s.putThread (t.wr d 0), .done [])
    else
      let v := s.vfOf t.ctx
      let h := s.moorLines id.core t.ctx base (len / 128)
      let s := h.2
      let ls := ((h.1.filterMap fun o => o.map (·.1)).eraseDups).filter (s.mooredBy v)
      let free (l : ScLine) : ScLine :=
        if l.vf == v && l.moored && ls.any (fun a => stackOf a == l.stack && a % 2 ^ 38 == l.off) then { l with moored := false } else l
      let s := { s with sc := s.sc.map free }
      let s := s.modVf v fun x => { x with mused := x.mused - ls.length }
      (s.putThread ((s.thread id).wr d (BitVec.ofNat 64 ls.length)), .done [])

end Sys2Proof.Machine
end

