-- ==== Sys2Proof/Machine/Task.lean ====
section
/-! DEFINITION. Tasks and synchronisation: `spawn`, `await`, `exit`, `waitge`, `signal`, the barriers, the group
operations (R189 to R206). -/

namespace Sys2Proof.Machine

/-! ### spawn (R190 to R193) -/

/-- The child placement code (R190). -/
def placeCode : Place → Nat
  | .any => 0 | .c => 1 | .q => 2 | .d => 3 | .p => 4 | .pod => 5

/-- What the children of a spawn have in common. -/
structure Brood where
  ctx : Nat
  core : Nat
  parent : Nat
  desc : TaskDesc
  entry : Word
  arg : Word
  place : Place
  n : Nat
  rm : BitVec 2
  prio : Nat
  notice : Notice

/-- One child: its frame is written and it waits in the dispatcher (R192, R194). -/
def State.addChild (s : State) (b : Brood) (size frame tix : Nat) : State :=
  let t : Task :=
    { ctx := b.ctx, frame := frame, width := b.desc.width, nreg := b.desc.nreg, pair := b.desc.pair, prio := b.prio,
      phase := .queued, place := b.place, origin := b.core, rm := b.rm, parent := b.parent, tix := tix, nkid := b.n,
      desc := BitVec.ofNat 32 b.desc.raw, entry := b.entry, arg := b.arg, notice := b.notice, granules := granulesOf size }
  (s.newTask b.core t).enqueue t

def State.addChildren (s : State) (b : Brood) (size : Nat) : List (Nat × Nat) → State
  | [] => s
  | (f, i) :: r => (s.addChild b size f i).addChildren b size r

/-- The spawn packet of a child that goes to another package (R193, R369). -/
def State.spawnPacket (s : State) (b : Brood) (pkg tix : Nat) : Packet :=
  let width := if b.desc.width = 8 then 0 else if b.desc.width = 16 then 1 else if b.desc.width = 32 then 2 else 3
  { s.packetFor b.ctx 10 pkg 0 with
    src := s.hm.pkgid, op := 7, opd0 := b.entry, opd1 := b.arg
    data := BitVec.ofNat 1536 (b.parent + 2 ^ 64 * (tix + 2 ^ 32 * b.n) +
      2 ^ 128 * (placeCode b.place + 8 * width + 32 * b.rm.toNat)) }

/-- Reservations for every frame (check 6 of R191). -/
def State.reserveFrames (s : State) (core ctx width nreg : Nat) : List Nat → Except FrameFail State
  | [] => .ok s
  | f :: r =>
    match s.reserveFrame core ctx f width nreg none with
    | .error e => .error e
    | .ok s => s.reserveFrames core ctx width nreg r

/-- The packages to which the dispatchers send the children: for `.pod` in a gang, members of the gang (R193). -/
def State.childPkgs (s : State) (ctx : Nat) (pl : Place) : Nat → List Nat × State
  | 0 => ([], s)
  | n + 1 =>
    let c := if pl = .pod then s.choose (s.gangMembers (s.gidOf ctx)) else (none, s)
    let r := c.2.childPkgs ctx pl n
    (c.1.getD s.hm.pkgid :: r.1, r.2)

/-- The children that stay and those that go, by index. -/
def splitChildren (here : Nat) (ps : List Nat) : List Nat × List (Nat × Nat) :=
  let ix := ps.zipIdx
  ((ix.filter fun p => p.1 == here).map (·.2), (ix.filter fun p => p.1 != here).map fun p => (p.1, p.2))

/-- A spawn for the lanes of one group: every lane has the same fate. -/
def State.spawn (s : State) (i : Issue) (l : LaneId) (pl : Place) (e n g : Word) : State × LaneRes :=
  match s.group? i.core l.berth, s.ctx? i.ctx with
  | some gr, some c =>
    match s.task? gr.ctx gr.frame with
    | none => (s, .gone)
    | some t =>
      if e.toNat % 8 ≠ 0 then (s, .trap 2 e)
      else
        match s.peek i.core i.ctx ((e - 8).toNat) 8 .load with
        | (.later why, s) => (s, .stall why)
        | (.fault cause sub gpa, s) => (s, .fault cause sub (e - 8) gpa)
        | (.bytes bs, s) =>
          match taskDesc (ofBytes bs) with
          | none => (s, .trap 1 e)
          | some d =>
            if 16777215 < n.toNat then (s, .trap 1 n)
            else
              let cnt := n.toNat
              let size := frameSize d.width d.nreg c.ss
              let pk := s.childPkgs i.ctx pl cnt
              let parts := splitChildren s.hm.pkgid pk.1
              if 2 ^ 32 - 1 < t.pending + cnt ∨ !s.heapHolds c parts.1.length size then
                (s, .trap 8 (BitVec.ofNat 64 (cnt * 256 * granulesOf size)))
              else
                let fr := pk.2.allocFrames c parts.1.length size
                match fr.2.reserveFrames i.core i.ctx d.width d.nreg fr.1 with
                | .error f => (s, if f.waits then .stall (f.stall s i.ctx) else .fault f.cause f.sub (BitVec.ofNat 64 f.addr) f.gpa)
                | .ok s' =>
                  let s' := s'.publish i.core i.ctx gr.frame
                  if s'.unacked i.core i.ctx then (s.publish i.core i.ctx gr.frame, .stall .unacked)
                  else if cnt = 0 then (s', .done [])
                  else
                    let t := (s'.task? gr.ctx gr.frame).getD t
                    let b : Brood :=
                      { ctx := i.ctx, core := i.core, parent := gr.frame, desc := d, entry := e, arg := g, place := pl, n := cnt,
                        rm := (s.thread l).rm, prio := t.prio, notice := t.notice }
                    let s' := s'.saveTask i.core { t with pending := t.pending + cnt }
                    let s' := s'.addChildren b size (fr.1.zip parts.1)
                    (parts.2.foldl (fun s p => s.emit (s.spawnPacket b p.1 p.2)) s', .done [])
  | _, _ => (s, .gone)

/-- `spawn` (R189 to R193): collective over one group. -/
def execSpawn (pl : Place) (e n g : Reg) (s : State) : Out :=
  issue s .thread [e, n, g] 4 true fun s i =>
    match i.lanes with
    | [] => (s, [])
    | l :: _ =>
      match s.disagree i.lanes [(0, fun t => t.rd e), (1, fun t => t.rd n), (2, fun t => t.rd g)] with
      | some p => (s, allRes i.lanes (.trap 3 (BitVec.ofNat 64 p)))
      | none =>
        let t := s.thread l
        let r := s.spawn i l pl (t.rd e) (t.rd n) (t.rd g)
        (r.1, allRes i.lanes r.2)

/-! ### The end of a thread (R195 to R200) -/

/-- The thread has exited (R67, R94). -/
def State.exitThread (s : State) (id : LaneId) : State :=
  s.exitLane (s.thread id).ctx (((s.group? id.core id.berth).map (·.frame)).getD 0) id

/-- The first thread to end with a continuation fixes it; where a later one differs, the fault address (R196, R220). -/
def disagreement (a b : Agreed) : Option Nat :=
  if a.kind ≠ b.kind then some 4
  else if a.kind = 2 ∧ a.addr ≠ b.addr then some 0
  else if a.kind = 2 ∧ a.value ≠ b.value then some 1
  else if a.cont ≠ b.cont then some (if a.kind = 2 then 2 else 1)
  else if a.kind ≠ 3 ∧ a.wb ≠ b.wb then some 3
  else none

/-- A thread ends with this continuation, unless it differs from the one that is fixed. -/
def State.agree (s : State) (id : LaneId) (g : Agreed) : Option LaneRes × State :=
  match s.taskOf? id.core id.berth with
  | none => (some .gone, s)
  | some t =>
    match t.agreed with
    | some a => ((disagreement a g).map fun p => .trap 3 (BitVec.ofNat 64 p), s)
    | none => (none, s.saveTask id.core { t with agreed := some g })

/-- The state that `await` and `waitge` save (R197). -/
def State.saveThread (s : State) (id : LaneId) : State :=
  match s.group? id.core id.berth with
  | none => s
  | some g =>
    let t := s.thread id
    let bs := threadBytes (s.coreAt id.core).split t (t.wb + 112)
    let s := s.frameWrite id.core g.ctx g.frame (256 + 8 * (id.tid * g.nreg)) bs
    match s.task? g.ctx g.frame with
    | none => s
    | some u => s.putTask { u with saved := u.saved ++ [id.tid] }

/-- After threads have ended: tasks end, and a group whose other threads wait can arrive. -/
def State.settleEnds (s : State) (core : Nat) (pc : Word) (ended : List LaneId) : State :=
  (berthsOf ended).foldl (fun s b =>
    let last := (ended.filter fun x => x.berth == b).getLast?
    let s := s.checkEnd core b (last.map fun x => (x, pc))
    s.groupArrive core b) s

/-- Lanes end one by one; then tasks end. -/
def endLanes (s : State) (i : Issue) (f : State → LaneId → State × LaneRes) : State × List (LaneId × LaneRes) :=
  let r := eachLane s f i.lanes
  let ended := r.2.filterMap fun p => if p.2 = .gone then some p.1 else none
  (r.1.settleEnds i.core i.pc ended, r.2)

/-- A thread ends with a continuation: it waits for its matrix work, agrees, and saves its state. -/
def State.endWith (s : State) (id : LaneId) (g : Agreed) (bad : Option LaneRes) (at_ : Option (Nat × Nat × Nat)) : State × LaneRes :=
  if s.matrixBusy id then (s, .stall .matrixWork)
  else
    let differs := ((s.taskOf? id.core id.berth).bind (·.agreed)).bind fun a => disagreement a g
    match differs, bad with
    | some p, _ => (s, .trap 3 (BitVec.ofNat 64 p))
    | none, some e => (s, e)
    | none, none =>
      match s.agree id g with
      | (some e, s) => (s, e)
      | (none, s) =>
        let s := match at_, s.taskOf? id.core id.berth with
          | some x, some t => s.putTask { t with waitAt := some (x.1, x.2.1), waitGpa := x.2.2 }
          | _, _ => s
        ((s.saveThread id).exitThread id, .gone)

/-- `await` (R195 to R198). -/
def execAwait (c : Reg) (s : State) : Out :=
  issue s .thread [c] 4 true fun s i =>
    endLanes s i fun s id =>
      let t := s.thread id
      let x := t.rd c
      s.endWith id { kind := 1, cont := x, wb := t.wb, wt := id.tid } (if aligned x 4 then none else some (.trap 2 x)) none

/-- `waitge` (R195 to R198): the condition's address must have its home on the package. Where both addresses are misaligned,
the fault address is that of the continuation (DESIGN CHOICE, log 157). -/
def execWaitge (m v c : Reg) (s : State) : Out :=
  issue s .thread [m, v, c] 4 true fun s i =>
    endLanes s i fun s id =>
      let t := s.thread id
      let ea := t.rd m
      let x := t.rd c
      let g : Agreed :=
        { kind := 2, addr := ea, value := t.rd v, cont := x, wb := t.wb, wt := id.tid, wm := m.toNat, wv := v.toNat }
      if !aligned x 4 then s.endWith id g (some (.trap 2 x)) none
      else if !aligned ea 8 then s.endWith id g (some (.trap 2 ea)) none
      else
        match s.translate id.core t.ctx ea.toNat .load with
        | (.error f, s) => s.endWith id g (some (if f.waits then .stall (s.pageStall t.ctx f) else .fault 16 f.sub ea f.gpa)) none
        | (.ok tr, s) =>
          match tr.target with
          | .device a => s.endWith id g none (some (a, tr.key, tr.gpa))
          | _ => s.endWith id g (some (.fault 16 10 ea (BitVec.ofNat 64 tr.gpa))) none

/-- `exit` (R195, R200): with a register other than x0 it names a successor; until that starts, flags that are in flight for the thread
stay so: the trap of a bad successor finds it as it was (R67). -/
def execExit (x : Reg) (s : State) : Out :=
  issue s .thread [x] 4 true fun s i =>
    endLanes s i fun s id =>
      if x = 0 then (s.exitThread id, .gone)
      else
        let t := s.thread id
        let pc := t.rd x
        let g : Agreed := { kind := 3, cont := pc, wb := t.wb, wt := id.tid }
        let differs := ((s.taskOf? id.core id.berth).bind (·.agreed)).bind fun a => disagreement a g
        match differs with
        | some p => (s, .trap 3 (BitVec.ofNat 64 p))
        | none =>
          if !aligned pc 4 then (s, .trap 2 pc)
          else
            match s.agree id g with
            | (some e, s) => (s, e)
            | (none, s) => (s.exitOnly t.ctx (((s.group? id.core id.berth).map (·.frame)).getD 0) id, .gone)

/-! ### signal (R201) -/

/-- A lane whose growth request has been refused parks (R126, R201). -/
def noGrowth (ea : Word) (t : Trans) (a : Nat) : LaneRes := .fault 17 (blockStack (blockOf a)) ea (BitVec.ofNat 64 t.gpa)

/-- One stamp, at its home, on the host, or in a packet. What the core's L1 holds of the line goes: the thread reads its own
stamp (R240). -/
def State.sendStamp (s : State) (id : LaneId) (ea v : Word) (t : Trans) : State × LaneRes :=
  let ctx := (s.thread id).ctx
  let n := ((s.taskOf? id.core id.berth).map (·.notice)).getD {}
  let bs := toBytes v.toNat 8
  let s := s.sendAhead id.core ctx ea.toNat
  match t.target with
  | .device a =>
    let q : HomeReq := { vf := t.vf, gpa := t.gpa, key := t.key, ce := t.ce, kind := .signal ctx n }
    match s.writeAt q a (withAddrs a bs) with
    | (.refused, s) => (s, noGrowth ea t a)
    | (_, s) => (s.noteStore id ea.toNat, .done [])
  | .host a => ((s.post a bs).noteStore id ea.toNat, .done [])
  | .fabric pkg g =>
    ((s.sendRequest { ttag := 0, core := id.core, ctx := ctx, fva := ea, agpa := t.gpa,
                      packet := { s.packetFor ctx 8 pkg g with opd0 := v } }).noteStore id ea.toNat, .done [])

/-- The stamps in lane order; behind a refused growth request, no other is made (R126). -/
def State.sendStamps (s : State) (v : Reg) (refused : Bool) : List Want → State × List (LaneId × LaneRes)
  | [] => (s, [])
  | (l, _, .error e) :: r =>
    let q := s.sendStamps v refused r
    (q.1, (l, e) :: q.2)
  | (l, ea, .ok t) :: r =>
    let p : State × LaneRes := match t.target with
      | .device a => if refused && t.ce then (s, noGrowth ea t a) else s.sendStamp l ea ((s.thread l).rd v) t
      | _ => s.sendStamp l ea ((s.thread l).rd v) t
    let no := match p.2 with
      | .fault _ _ _ _ => true
      | _ => false
    let q := p.1.sendStamps v (refused || no) r
    (q.1, (l, p.2) :: q.2)

/-- `signal` (R201): checked as `st.d`; publication; then the stamps in lane order, each of which makes its own growth request
(R295). -/
def execSignal (a v : Reg) (s : State) : Out :=
  issue s .thread [a, v] 4 true fun s i =>
    let c := s.checkAll 8 .store true (fun t => t.rd a) i.lanes
    let ok := c.1.filterMap fun w => match w.2.2 with
      | .ok _ => some w.1
      | .error _ => none
    if ok.isEmpty then performAll c.2 (fun s _ _ _ => (s, .gone)) c.1
    else
      let s := c.2.publishGroups i.core i.ctx ok
      if s.unacked i.core i.ctx then performAll s (fun s _ _ _ => (s, .stall .stamps)) c.1
      else s.sendStamps v false c.1

/-! ### `bar`, `barreg`, `barl` -/

/-- `bar` (R202): arrival publishes; BAR_RELEASE lets the group go on. -/
def execBar (s : State) : Out :=
  issue s .thread [] 4 true fun s i =>
    if i.lanes.isEmpty then (s, [])
    else
      let s := s.publishGroups i.core i.ctx i.lanes
      if s.unacked i.core i.ctx then (s, allRes i.lanes (.stall .unacked)) else (s, allRes i.lanes (.wait .atBar))

/-- `barreg` (R203, R204): collective over one group. -/
def execBarreg (a : Reg) (s : State) : Out :=
  issue s .thread [a] 4 false fun s i =>
    match i.lanes with
    | [] => (s, [])
    | l :: _ =>
      let w := (s.thread l).rd a
      if !s.votes i.lanes fun t => t.rd a then (s, allRes i.lanes (.trap 3 1))
      else if !s.barLegal i.ctx w then (s, allRes i.lanes (.trap 1 w))
      else
        let b := s.barrier i.core i.ctx w
        if has b.registered (i.core, l.berth) then (s, allRes i.lanes (.done []))
        else (s.barChanged { b with registered := b.registered ++ [(i.core, l.berth)] }, allRes i.lanes (.done []))

/-- `barl` (R203, R204). -/
def execBarl (a : Reg) (s : State) : Out :=
  issue s .thread [a] 4 true fun s i =>
    let okLane (l : LaneId) : Bool :=
      let w := (s.thread l).rd a
      s.barLegal i.ctx w && has (s.barrier i.core i.ctx w).registered (i.core, l.berth)
    let good := i.lanes.filter okLane
    let bad := (i.lanes.filter fun l => !okLane l).map fun l => (l, LaneRes.trap 1 ((s.thread l).rd a))
    if good.isEmpty then (s, bad)
    else
      let s := s.publishGroups i.core i.ctx good
      if s.unacked i.core i.ctx then (s, bad ++ allRes good (.stall .unacked))
      else
        let s := good.foldl (fun s l => s.modThread l fun t => { t with wait := .atBarl (t.rd a) }) s
        ((berthsOf good).foldl (fun s b => s.groupArrive i.core b) s, bad ++ allRes good .gone)

/-! ### Group operations (R205, R206) -/

/-- The participants of a lane's group, in lane order. -/
def mates (s : State) (i : Issue) (l : LaneId) : List Thread := (i.lanes.filter fun x => x.berth == l.berth).map s.thread

/-- Each lane's result from its group's participants, all read before any is written. -/
def groupOp (s : State) (rs : List Reg) (d : Reg) (f : State → LaneId → List Thread → Thread → Word) : Out :=
  issue s .thread rs 4 false fun s0 i =>
    eachLane s0 (fun s l => (s.putThread ((s.thread l).wr d (f s0 l (mates s0 i l) (s0.thread l))), .done [])) i.lanes

/-- `elect` (R205). -/
def execElect (d : Reg) (s : State) : Out :=
  groupOp s [d] d fun _ l ts _ => if ((ts.head?).map (·.id)) = some l then 1 else 0

/-- `vote.cnt` (R205). -/
def execVoteCnt (d a : Reg) (s : State) : Out :=
  groupOp s [d, a] d fun _ _ ts _ => BitVec.ofNat 64 (ts.filter fun t => t.rd a != 0).length

/-- `vote.rank` (R205). -/
def execVoteRank (d a : Reg) (s : State) : Out :=
  groupOp s [d, a] d fun _ l ts _ => BitVec.ofNat 64 (ts.filter fun t => decide (t.id.tid < l.tid) && t.rd a != 0).length

/-- `vote.eq` (R205). -/
def execVoteEq (d a : Reg) (s : State) : Out :=
  groupOp s [d, a] d fun _ _ ts t => if ts.all fun u => decide (u.rd a = t.rd a) then 1 else 0

/-- x[a] of the participant with this `tid`, or the lane's own (R205). -/
def shflFrom (ts : List Thread) (own : Thread) (a : Reg) (tid : Nat) : Word :=
  ((ts.find? fun t => t.id.tid == tid).map fun t => t.rd a).getD (own.rd a)

def State.gwd (s : State) (l : LaneId) : Nat := ((s.group? l.core l.berth).map (·.width)).getD 8

/-- Size and start of a lane's segment (R205). -/
def segment (gwd tid : Nat) (b : Word) : Nat × Nat :=
  let m := min (2 ^ (b.toNat % 8)) gwd
  (m, tid - tid % m)

/-- `shfl.from` (R205). -/
def execShflFrom (d a b : Reg) (s : State) : Out :=
  groupOp s [d, a, b] d fun s l ts t => shflFrom ts t a ((t.rd b).toNat % s.gwd l)

/-- `shfl.rot` (R205). -/
def execShflRot (d a b : Reg) (s : State) : Out :=
  groupOp s [d, a, b] d fun s l ts t => shflFrom ts t a ((l.tid + (t.rd b).toNat) % s.gwd l)

/-- `shfl.mirror` (R205). -/
def execShflMirror (d a b : Reg) (s : State) : Out :=
  groupOp s [d, a, b] d fun s l ts t =>
    let g := segment (s.gwd l) l.tid (t.rd b)
    shflFrom ts t a (2 * g.2 + g.1 - 1 - l.tid)

/-- The participant with the lowest `tid` of a segment. -/
def lowestIn (ts : List Thread) (lo n : Nat) : Option Thread :=
  (ts.filter fun t => decide (lo ≤ t.id.tid) && decide (t.id.tid < lo + n)).foldl (fun m t => match m with
    | none => some t
    | some u => if t.id.tid < u.id.tid then some t else some u) none

/-- `shfl.lead` (R205). -/
def execShflLead (d a b : Reg) (s : State) : Out :=
  groupOp s [d, a, b] d fun s l ts t =>
    let g := segment (s.gwd l) l.tid (t.rd b)
    ((lowestIn ts g.2 g.1).getD t).rd a

/-- A reduction over 64-bit values (R206). A lone operand of `.fmax` and `.famax` is the maximum of itself. -/
def reduce (op : AtomOp) (vs : List Nat) : Nat :=
  match op with
  | .fadd => (roundFmt (sumExt rne (vs.map (decodeF fp64))).1 fp64 rne false).1
  | _ =>
    match vs with
    | [] => 0
    | v :: r =>
      let first := if decide (op = .fmax) || decide (op = .famax) then atomApply op 64 v v else v
      r.foldl (atomApply op 64) first

/-- `gred` (R206). -/
def execGred (op : AtomOp) (d a : Reg) (s : State) : Out :=
  groupOp s [d, a] d fun _ _ ts _ => BitVec.ofNat 64 (reduce op (ts.map fun t => (t.rd a).toNat))

end Sys2Proof.Machine
end

