-- ==== Sys2Proof/Machine/System.lean ====
section
/-! DEFINITION. Special and system registers, `tlbi`, `halt`, and the instructions of a trap task (R23 to R26, R207,
R213 to R216). -/

namespace Sys2Proof.Machine

/-! ### Special registers (R23, R24, R207) -/

/-- The task that a lane's group runs. -/
def State.laneTask? (s : State) (id : LaneId) : Option Task := s.taskOf? id.core id.berth

/-- The special registers but for `tlnow` and `tmode` (R11, R23). -/
def State.special (s : State) (id : LaneId) (n : Nat) : Word :=
  let q := isQuay id
  let t := s.thread id
  let v : Nat :=
    if n = 0 then id.tid
    else if n = 1 then (if q then 4 else s.gwd id)
    else if n = 2 then (if q then 0 else ((s.laneTask? id).map (·.tix)).getD 0)
    else if n = 3 then (if q then 0 else ((s.laneTask? id).map (·.nkid)).getD 0)
    else if n = 4 then id.core % 32
    else if n = 5 then id.core % 32 / 4
    else if n = 6 then dieOf id.core
    else if n = 7 then s.hm.pkgid
    else if n = 8 then s.hm.podid
    else if n = 9 then s.vfOf t.ctx
    else t.ctx
  BitVec.ofNat 64 v

/-- `rds` (R207): `tlnow` is sampled at issue; `tmode` waits for the thread's matrix work (R67). -/
def execRds (d n : Reg) (k : BitVec 4) (s : State) : Out :=
  if 12 < n.toNat ∨ (n ≠ 11 ∧ k ≠ 0) then illegal s 4
  else perLane s .both [d] 4 fun s id =>
    let t := s.thread id
    if n = 11 then
      let t := t.claim d
      (s.putThread t, .done [openWindow t (isQuay id) d k (.value (BitVec.ofNat 64 s.tlNow)) t.pc 0])
    else if n = 12 then
      if isQuay id then (s.putThread (t.wr d 0), .done [])
      else if s.matrixBusy id then (s, .stall .matrixWork)
      else (s.putThread (t.wr d (tmodeWord (s.coreAt id.core).split t)), .done [])
    else (s.putThread (t.wr d (s.special id n.toNat)), .done [])

/-- What a write of carve asks for: nothing, or a new split (R24, R251). -/
def State.carveTo (s : State) (id : LaneId) (w : Word) : Option Nat :=
  let c := carveField w
  let ctx := (s.thread id).ctx
  if c = (s.coreAt id.core).split ∨ s.limOf id.core < c ∨
      s.groups.any (fun g => g.core == id.core && g.ctx != ctx) = true then none
  else some c

/-- `wrs` of `tmode` (R207, R24, R251). -/
def execWrs (n a : Reg) (s : State) : Out :=
  if n ≠ 12 then illegal s 4
  else perLane s .thread [a] 4 fun s id =>
    let w := (s.thread id).rd a
    if s.matrixBusy id then (s, .stall .matrixWork)
    else
      match s.carveTo id w with
      | none => (s.putThread ((s.thread id).setTmode w), .done [])
      | some c =>
        if s.coreWorks id.core then (s, .stall .engines)
        else
          let s := s.setSplit id.core c
          (s.putThread ((s.thread id).setTmode w), .done [])

/-! ### System registers (R26, R46, R213) -/

def State.isPriv (s : State) (ctx : Nat) : Bool := ((s.ctx? ctx).map (·.priv)).getD false

def State.trapOf (s : State) (id : LaneId) : Option TrapInfo := (s.laneTask? id).bind (·.trap)

/-- An instruction that the task may not use: the illegal-instruction trap, for which the spec states no fault address. -/
def notAllowed (s : State) : State × LaneRes :=
  let w := s.freeVal
  (w.2, .trap 1 w.1)

/-- `sy.halt`: the halt status of the context that this context's last `halt` named (R216). -/
def State.haltStatus (s : State) (ctx : Nat) : Nat :=
  match (s.ctx? ctx).bind (·.haltTarget) with
  | none => 0
  | some x => ((s.ctx? x).map (·.dbg)).getD 0

/-- A system register as a task reads it. -/
def State.system (s : State) (id : LaneId) (n : Nat) : Word :=
  let ctx := (s.thread id).ctx
  let i := s.trapOf id
  if n = 0 then ((s.ctx? ctx).map (·.tvec)).getD 0
  else if n = 1 then
    match i with
    | some i => i.epc
    | none => ((s.laneTask? id).map (·.privEpc)).getD 0
  else if n = 2 then BitVec.ofNat 64 ((i.map (·.cause)).getD 0)
  else if n = 3 then (i.map (·.fva)).getD 0
  else if n = 4 then (i.map (·.ifa)).getD 0
  else if n = 5 then BitVec.ofNat 64 ((i.map (·.trec)).getD 0)
  else if n = 6 then BitVec.ofNat 64 ((if s.isPriv ctx then 1 else 0) + if i.isSome then 2 else 0)
  else BitVec.ofNat 64 (s.haltStatus ctx)

def State.mayRead (s : State) (id : LaneId) (n : Nat) : Bool :=
  let priv := s.isPriv (s.thread id).ctx
  if n = 6 then true else if n = 7 then priv else decide (n < 6) && (priv || (s.trapOf id).isSome)

def State.mayWrite (s : State) (id : LaneId) (n : Nat) : Bool :=
  let priv := s.isPriv (s.thread id).ctx
  if n = 0 then priv else decide (n = 1) && (priv || (s.trapOf id).isSome)

/-- `rdsy` (R213, R26). -/
def execRdsy (d n : Reg) (s : State) : Out :=
  perLane s .thread [d] 4 fun s id =>
    if s.mayRead id n.toNat then (s.putThread ((s.thread id).wr d (s.system id n.toNat)), .done [])
    else notAllowed s

/-- `wrsy` (R213, R26, R46): `sy.epc` keeps bits [1:0] zero. -/
def execWrsy (n a : Reg) (s : State) : Out :=
  perLane s .thread [a] 4 fun s id =>
    let w := (s.thread id).rd a
    if !s.mayWrite id n.toNat then notAllowed s
    else if n = 0 then
      match s.ctx? (s.thread id).ctx with
      | some c => (s.putCtx { c with tvec := w }, .done [])
      | none => (s, .done [])
    else if !aligned w 4 then (s, .trap 2 w)
    else
      match s.laneTask? id with
      | none => (s, .done [])
      | some t =>
        let t := match t.trap with
          | some i => { t with trap := some { i with epc := w } }
          | none => { t with privEpc := w }
        (s.putTask t, .done [])

/-! ### Shoot-downs (R215, R272) -/

/-- The TLB entries that a shoot-down of this kind removes: all that were made through a stage-1 entry that covers the virtual
address, or a stage-2 entry that covers the guest-physical one. -/
def shoots (kind x y : Nat) (e : TlbEntry) : Bool :=
  if kind = 0 then e.ctx == y && x / e.s1 == e.base / e.s1
  else if kind = 1 then e.ctx == y
  else if kind = 2 then e.vf == y % 1024 && x / e.s2 == e.gpa / e.s2
  else e.vf == y % 1024

/-- The L1 lines that leave: those that removed entries cover, and those of the largest page, context or VF named, whose
entries may have left their TLBs before. -/
def shootsLine (kind x y : Nat) (gone : List TlbEntry) (l : L1Line) : Bool :=
  (gone.any fun e => e.ctx == l.ctx && e.covers (l.line * 128)) ||
  if kind = 0 then l.ctx == y && l.line * 128 / 2 ^ 30 == x / 2 ^ 30
  else if kind = 1 then l.ctx == y
  else if kind = 2 then l.vf == y % 1024 && l.gpa / 2 ^ 30 == x / 2 ^ 30
  else l.vf == y % 1024

/-- Steps 1 and 3 of R272; fetched code goes too. -/
def State.shootNow (s : State) (kind x y : Nat) : State :=
  let gone := s.tlb.filter (shoots kind x y)
  let s := { s with
    tlb := s.tlb.filter fun e => !shoots kind x y e
    code := s.code.filter fun l => !shootsLine kind x y gone l }
  (s.l1.filter (shootsLine kind x y gone)).foldl State.evict s

/-- Whether a shoot-down concerns the accesses of a context. -/
def State.shotCtx (s : State) (kind y ctx : Nat) : Bool := if kind ≤ 1 then ctx == y else s.vfOf ctx == y % 1024

/-- Accesses that have translated and are still to be performed, those of copies and their stamps too, and writebacks under way
(steps 2 and 3 of R272). -/
def State.shootPends (s : State) (kind y : Nat) : List Nat :=
  (s.pendings.filter fun p => s.shotCtx kind y p.ctx).map (·.ttag)

/-- Copies for which a shoot-down waits (step 4 of R272). -/
def State.shootCopies (s : State) (kind y : Nat) : List (Nat × Nat) :=
  s.cores.flatMap fun p => (p.2.copies.filter fun c => !c.retired && !c.parked && decide (c.kind ≠ .qstamp) &&
    s.shotCtx kind y c.ctx).map fun c => (p.1, c.num)

/-- `tlbi` (R215, R272). -/
def execTlbi (x a b : Reg) (s : State) : Out :=
  perLane s .thread [x, a, b] 4 fun s id =>
    let t := s.thread id
    let kind := (t.rd x).toNat
    if !s.isPriv t.ctx then notAllowed s
    else if 3 < kind then (s, .trap 1 (t.rd x))
    else
      let va := (t.rd a).toNat
      let y := (t.rd b).toNat
      let s := s.shootNow kind va y
      let cs := s.shootCopies kind y
      let ps := s.shootPends kind y
      if cs.isEmpty && ps.isEmpty then (s, .done [])
      else
        ({ s with shootdowns := s.shootdowns ++ [{ kind := kind, ctx := y, vf := y % 1024, addr := va, lanes := [id], copies := cs, pends := ps }] },
         .wait .engine)

/-! ### Debugger halts (R216, R386) -/

/-- Issue stops in every core of the context. -/
def State.dbgHalt (s : State) (c : Ctx) : State :=
  let s := s.putCtx { c with dbg := if c.dbg = 0 then 1 else c.dbg }
  s.cores.foldl (fun s p => s.modCore p.1 fun k => { k with ring := k.ring.filter fun e => !(e.ctx == c.id) }) s

/-- The context's ready threads are picked again. -/
def State.dbgRelease (s : State) (c : Ctx) : State :=
  let s := s.putCtx { c with dbg := 0 }
  s.joinAll ((s.threads.filter fun t => t.ctx == c.id).map (·.id))

def State.setHaltTarget (s : State) (ctx : Nat) (x : Option Nat) : State :=
  match s.ctx? ctx with
  | some c => s.putCtx { c with haltTarget := x }
  | none => s

/-- `halt` (R216). Of a request that is neither, the fault address is x[b] (DESIGN CHOICE, log 154). -/
def execHalt (a b : Reg) (s : State) : Out :=
  perLane s .thread [a, b] 4 fun s id =>
    let t := s.thread id
    let w := t.rd b
    if !s.isPriv t.ctx then notAllowed s
    else if 1 < w.toNat then (s, .trap 1 w)
    else
      match s.ctx? (t.rd a).toNat with
      | none => (s.setHaltTarget t.ctx none, .done [])
      | some c =>
        if s.partOf c.id ≠ s.partOf t.ctx then (s.setHaltTarget t.ctx none, .done [])
        else if w = 0 then ((s.dbgHalt c).setHaltTarget t.ctx (some c.id), .done [])
        else ((s.dbgRelease c).setHaltTarget t.ctx none, .done [])

/-! ### The instructions of a trap task (R214) -/

/-- Whether a lane's task may use `resume`, `eret` and `kill` (R46). -/
def State.mayReturn (s : State) (id : LaneId) : Bool := s.isPriv (s.thread id).ctx || (s.trapOf id).isSome

/-- The lanes that may, and the trap for the others. -/
def State.splitReturn (s : State) : List LaneId → List LaneId × List (LaneId × LaneRes) × State
  | [] => ([], [], s)
  | l :: r =>
    if s.mayReturn l then
      let q := s.splitReturn r
      (l :: q.1, q.2.1, q.2.2)
    else
      let p := notAllowed s
      let q := p.1.splitReturn r
      (q.1, (l, p.2) :: q.2.1, q.2.2)

/-- The threads that a return from a trap makes ready join in lane order with those that go on behind it (R228). -/
def rejoined (s : State) (o : Out) : Out :=
  match o with
  | .next t => .next (t.rejoin s)
  | o => o

/-- `resume` (R214): the trap task publishes first (R209). -/
def execResume (a : Reg) (s : State) : Out :=
  rejoined s <| issue s .thread [a] 4 false fun s i =>
    let p := s.splitReturn i.lanes
    if p.1.isEmpty then (p.2.2, p.2.1)
    else
      let s := p.2.2.publishGroups i.core i.ctx p.1
      if s.unacked i.core i.ctx then (s, p.2.1 ++ allRes p.1 (.stall .unacked))
      else
        let r := eachLane s (fun s id =>
          match s.laneTask? id with
          | some t => (s.resumeFrom i.core t ((s.thread id).rd a), .done [])
          | none => (s, .done [])) p.1
        (r.1, p.2.1 ++ r.2)

/-- `kill` (R214). -/
def execKill (a : Reg) (s : State) : Out :=
  rejoined s <| issue s .thread [a] 4 false fun s i =>
    let p := s.splitReturn i.lanes
    let r := eachLane p.2.2 (fun s id =>
      match s.laneTask? id with
      | none => (s, .done [])
      | some t =>
        match t.trap with
        | none => (s, .done [])
        | some x =>
          let ids := (s.parkedBy t.ctx x t.frame).filter fun y => ((s.thread id).rd a).getLsbD y.tid
          let s := s.clearMask i.core t x ids
          (s.killLanes t.ctx x ids, .done [])) p.1
    (r.1, p.2.1 ++ r.2)

/-- `eret` (R214): everything still in the mask resumes; the issuing threads end as `exit` ends a thread. -/
def execEret (s : State) : Out :=
  rejoined s <| issue s .thread [] 4 false fun s i =>
    let p := s.splitReturn i.lanes
    if p.1.isEmpty then (p.2.2, p.2.1)
    else
      let s := p.2.2.publishGroups i.core i.ctx p.1
      if s.unacked i.core i.ctx then (s, p.2.1 ++ allRes p.1 (.stall .unacked))
      else
        let r := endLanes s { i with lanes := p.1 } fun s id =>
          let s := match s.laneTask? id with
            | some t => s.resumeFrom i.core t (BitVec.allOnes 64)
            | none => s
          (s.exitThread id, .gone)
        (r.1, p.2.1 ++ r.2)

end Sys2Proof.Machine
end

