-- ==== Sys2Proof/Machine/Engines.lean ====
section
/-! DEFINITION. The steps of a core's engines: the pickers, arriving results, releases from barriers, the matrix queue,
the quay processor. -/

namespace Sys2Proof.Machine

/-! ### The pickers (R166, R229) -/

/-- The oldest entry leaves the ring; its instruction is the next to be fetched. What its threads yielded for is over (R228). -/
def State.pick (s : State) (core : Nat) : State :=
  match s.issue, (s.coreAt core).ring with
  | none, e :: rest =>
    { (e.lanes.foldl (fun s l => s.modThread l fun t => { t with yielded := false }) s).modCore core fun k => { k with ring := rest } with
      issue := some { core := core, quay := false, ctx := e.ctx, pc := e.pc, lanes := sortLanes e.lanes } }
  | _, _ => s

/-- The `signal` of a halted group goes on where its publication has been acknowledged: its lanes were issued before the halt (R323, R366,
R368). -/
def State.lateSignal (s : State) (core : Nat) : Option Thread :=
  s.threads.find? fun t => t.id.core == core && s.signalling t && !s.unacked core t.ctx

/-- Its lanes. -/
def State.signalLanes (s : State) (t : Thread) : List LaneId :=
  (s.threads.filter fun u => u.id.core == t.id.core && u.id.berth == t.id.berth && decide (u.pc = t.pc) && s.signalling u).map (·.id)

/-- The entry of a core that goes to the front of the pipeline next. -/
def State.pickNext (s : State) (core : Nat) : State :=
  match s.issue, s.lateSignal core with
  | none, some t =>
    let ls := s.signalLanes t
    { ls.foldl (fun s l => s.modThread l fun u => { u with wait := .ready }) s with
      issue := some { core := core, quay := false, ctx := t.ctx, pc := t.pc, lanes := sortLanes ls } }
  | _, _ => s.pick core

/-- PICK (R229). -/
def execPick (core : Nat) (s : State) : Out := .next (s.pickNext core)

/-- Whether a quay thread can issue: its context runs here now (R166, R167, R323, R363). -/
def State.quayReady (s : State) (core : Nat) (t : Thread) : Bool :=
  decide (t.wait = .ready) && s.ctxRuns t.ctx && decide ((s.coreAt core).qctx = some t.ctx) &&
  decide ((s.coreAt core).tenant = some (s.vfOf t.ctx)) && s.gangIn t.ctx

/-- The first ready quay thread from number `n` on, in a circle. -/
def State.quayNext (s : State) (core n : Nat) : Nat → Option Thread
  | 0 => none
  | fuel + 1 =>
    match s.threads.find? fun t => decide (t.id = ⟨core, quayBerth, n % 4⟩) with
    | some t => if s.quayReady core t then some t else s.quayNext core (n + 1) fuel
    | none => s.quayNext core (n + 1) fuel

def State.quayPick (s : State) (core : Nat) : State :=
  match s.issue, s.quayNext core (s.coreAt core).qrr 4 with
  | none, some t =>
    { s.modCore core fun k => { k with qrr := (t.id.tid + 1) % 4 } with
      issue := some { core := core, quay := true, ctx := t.ctx, pc := t.pc, lanes := [t.id] } }
  | _, _ => s

/-- QUAY_THREAD_PICK (R166): round-robin. -/
def execQuayThreadPick (core : Nat) (s : State) : Out := .next (s.quayPick core)

/-! ### Results that come late (R37, R137, R140) -/

/-- Bytes that the L1 held when the read was sent stand before the bytes that come. -/
def Pending.blended (p : Pending) (off : Nat) (bs : List Byte) : List Byte :=
  bs.zipIdx.map fun x => if p.own.getLsbD (off + x.2) then lineByte p.ownData (off + x.2) else x.1

/-- The host's memory performs an atomic: the old value, and the memory. -/
def State.hostAtomic (s : State) (p : Packet) (n : Nat) : Nat × State :=
  let old := ofBytes (readMap 0 s.hostMem p.gpa n)
  let v := p.opd0.toNat
  let new := if p.op = 0 then (old + v) % 2 ^ (8 * n) else if p.op = 12 then (if old = v then p.opd1.toNat else old) else v
  (old, { s with hostMem := writeMap 0 s.hostMem p.gpa (toBytes new n) })

/-- A plain load of host memory fetches the line: its bytes that are not dirty take the host's (R252). One in which an error stands
leaves no copy. -/
def State.fillHost (s : State) (p : Pending) : State :=
  let a := p.packet.gpa / 128 * 128
  if p.ordered || s.hostBad a 128 then s
  else
    let t : Trans := { target := .host p.packet.gpa, gpa := p.agpa, key := p.key, ce := p.ce, vf := p.vf }
    let r := s.lineFor p.core p.ctx p.fva.toNat t
    let data := BitVec.ofNat 1024 (ofBytes (readMap 0 s.hostMem a 128))
    r.2.putLine { r.1 with data := blend data r.1.data r.1.dirty, valid := BitVec.allOnes 128 }

/-- The host answers a request. -/
def State.hostAnswer (s : State) (p : Pending) (ok : Bool) : State :=
  match p.lane with
  | none => s
  | some l =>
    let tag := 2 * p.ttag + 1
    if !ok || s.hostBad p.packet.gpa p.bytes then s.answer l p.ctx tag [.error 18 1 (BitVec.ofNat 64 p.agpa)]
    else if p.packet.kind = 0 then
      let bs := p.blended p.off (readMap 0 s.hostMem p.packet.gpa p.bytes)
      (s.fillHost p).answer l p.ctx tag [.value (extendTo p.signed p.bytes (ofBytes bs))]
    else
      let r := s.hostAtomic p.packet p.bytes
      r.2.answer l p.ctx tag [.value (BitVec.ofNat 64 r.1)]

/-- An access that waits for the host or for a home of the package can be performed: a late one is the oldest of its core and
context on its line (R136, R240), and an atomic or `ld.d.ext` stands behind no other that has to act before it (R137, R242). -/
def State.answerable (s : State) (p : Pending) : Bool :=
  let first (f : Pending → Bool) : Bool := ((s.pendings.find? f).map fun q => q.ttag == p.ttag).getD false
  (p.toHost || p.isLate) &&
  (!p.isLate || first fun q => q.isLate && q.core == p.core && q.ctx == p.ctx && lineOf q.fva.toNat == lineOf p.fva.toNat) &&
  (!p.ordered || first fun q => q.goesBefore p.lane p.ctx p.batch)

/-- The home performs a late access, and its lane has the result. -/
def State.lateAnswer (s : State) (p : Pending) : State :=
  let r := s.performLate p
  match p.lane with
  | none => r.2
  | some l => r.2.answer l p.ctx (2 * p.ttag + 1) r.1

/-- LONG_LATENCY_RESULT (R37, R38): the answer of the host, or of a home that answers late; or an uncorrectable error in place of
the host's (R380). -/
def execLongLatencyResult (tag : Nat) (ok : Bool) (s : State) : Out :=
  match s.pendings.find? fun p => p.ttag == tag && s.answerable p with
  | none => .next s
  | some p =>
    let s := { s with pendings := s.pendings.erase p }
    .next (if p.isLate then s.lateAnswer p else s.hostAnswer p ok)

/-! ### Releases (R94, R202, R204) -/

/-- The counted threads of a group: those that have not exited. -/
def State.counted (s : State) (core berth : Nat) : List Thread :=
  (s.groupThreads core berth).filter fun t => !decide (t.wait = .exited)

/-- A running group can be released. -/
def State.releasable (s : State) (core berth : Nat) : Bool :=
  match s.group? core berth with
  | none => false
  | some g => !g.halted && s.ctxRuns g.ctx

/-- Waiting threads go on behind their instruction, together. -/
def State.goOn (s : State) (ts : List Thread) : State :=
  let s := ts.foldl (fun s t => s.modThread t.id fun u => { u with pc := u.pc + 4, wait := .ready, alone := false }) s
  s.joinAll (ts.map (·.id))

def lowestPc : List Thread → Word
  | [] => 0
  | t :: r => r.foldl (fun m u => if u.pc.toNat < m.toNat then u.pc else m) t.pc

def State.recRelease (s : State) (core berth : Nat) : State :=
  let ts := s.counted core berth
  if s.releasable core berth && !ts.isEmpty && ts.all fun t => decide (t.wait = .atRec) then
    s.goOn (ts.filter fun t => decide (t.pc = lowestPc ts))
  else s

/-- REC_RELEASE (R94): every counted thread waits at a `rec`; those at the lowest address go on. -/
def execRecRelease (core berth : Nat) (s : State) : Out := .next (s.recRelease core berth)

def State.barRelease (s : State) (core berth : Nat) : State :=
  let ts := s.counted core berth
  if s.releasable core berth && !ts.isEmpty && ts.all fun t => decide (t.wait = .atBar) then
    match s.taskOf? core berth with
    | some t => (s.applyNotice core t.ctx t.notice).goOn ts
    | none => s.goOn ts
  else s

/-- BAR_RELEASE (R202). -/
def execBarRelease (core berth : Nat) (s : State) : Out := .next (s.barRelease core berth)

/-- A group that took part in a generation goes on, with the merged notice (R204, R257). -/
def State.barGroupOn (s : State) (ctx : Nat) (n : Notice) (g : Nat × Nat) : State :=
  match s.groupOf? g.1 g.2 ctx with
  | none => s
  | some p =>
    let s := s.notice g.1 ctx p.1.frame fun m => m.merge n
    let s := s.applyNotice g.1 ctx n
    p.2.foldl (fun s t => match t.wait with
      | .atBarl _ => s.modLane t.id ctx fun u => { u with pc := u.pc + 4, wait := .ready, alone := false }
      | _ => s) s

/-- The resident threads of groups of a context. -/
def State.lanesOf (s : State) (ctx : Nat) (gs : List (Nat × Nat)) : List LaneId :=
  (s.threads.filter fun t => t.ctx == ctx && has gs (t.id.core, t.id.berth)).map (·.id)

/-- The barrier when a generation has ended: the registrations stay, also those of other packages (R14, R204, R369). -/
def Barrier.nextGeneration (b : Barrier) (freed : List (Nat × Nat)) : Barrier :=
  { b with arrived := b.arrived.filter fun g => !has freed g, generation := b.generation + 1, pods := b.pods.map fun p => (p.1, 0, p.2.2), podNotice := {} }

/-- The generation ends on this package for these groups; their threads join in lane order. -/
def State.endGeneration (s : State) (b : Barrier) (freed : List (Nat × Nat)) (n : Notice) : State :=
  let s := freed.foldl (fun s g => s.barGroupOn b.ctx n g) (s.putBarrier (b.nextGeneration freed))
  s.joinAll (s.lanesOf b.ctx freed)

/-- Every registered group has arrived. -/
def Barrier.complete (b : Barrier) : Bool :=
  if b.level = 5 then
    let a := b.pods.foldl (fun m p => m + p.2.1) 0
    decide (0 < a) && a == b.pods.foldl (fun m p => m + p.2.2) 0
  else !b.registered.isEmpty && b.registered.all fun g => has b.arrived g

/-- How many groups of a package a pod-level generation counts. -/
def Barrier.countedOf (b : Barrier) (pkg : Nat) : Nat := ((b.pods.find? fun p => p.1 == pkg).map (·.2.1)).getD 0

/-- The release of a pod-level generation, to the other members (R369). In the operand that R369 leaves unused stands how many groups
of the receiver it counts (DESIGN CHOICE, log 168). -/
def State.podRelease (s : State) (b : Barrier) : State :=
  ((s.gangMembers b.inst).filter (· != s.hm.pkgid)).foldl (fun s m =>
    s.emit { s.packetFor b.ctx 10 m 0 with
      src := s.hm.pkgid, gid := b.inst, op := 6, opd0 := BitVec.ofNat 64 (8 * b.slot + 256 * (b.generation % 2 ^ 24))
      opd1 := BitVec.ofNat 64 (b.countedOf m)
      data := b.podNotice.flits }) s

/-- BARRIER_GENERATION_RELEASE (R204): at the pod level it is the coordinator's step (R369). -/
def execBarrierGenerationRelease (level inst ctx slot : Nat) (s : State) : Out :=
  match s.barriers.find? (isBarrier level inst ctx slot) with
  | none => .next s
  | some b =>
    if !b.complete then .next s
    else if level = 5 then .next ((s.podRelease b).endGeneration b b.arrived b.podNotice)
    else .next (s.endGeneration b b.arrived (s.barNotice ctx b.arrived))

/-! ### The matrix queue (R67, R149 to R152) -/

/-- MATRIX_OP_EXECUTE (R149): the oldest operation of the queue reads its operands and writes its cells and bytes. -/
def execMatrixOpExecute (core : Nat) (s : State) : Out := .next (s.matExecute core)

/-- MATRIX_OP_RETIRE (R149): flags go to every lane gathered on the operation (R67), results to their windows. -/
def execMatrixOpRetire (core : Nat) (s : State) : Out := .next (s.matRetire core)

/-! ### The quay processor (R167, R172 to R174) -/


/-- All four quay threads start at the context's quay entry, every register zero. -/
def State.quayStart (s : State) (core : Nat) (c : Ctx) : State :=
  let s := if s.quayOut core then s.spillQuay core else s
  let s := (s.dropQuay core).modCore core fun k =>
    { k with oldNotices := k.keepNotice, qctx := some c.id, qnotice := k.noticeFor c.id }
  s.addThreads ((List.range 4).map fun i => { id := ⟨core, quayBerth, i⟩, ctx := c.id, pc := c.qentry })

/-- The context that the QP turns to next: one whose quay processor has been spilled from the core, or that of the oldest kick. A
context that is not on the core now keeps neither from the others (R167, R324, R363). -/
def State.quayTurn (s : State) (core : Nat) : Option Ctx :=
  let k := s.coreAt core
  let on (c : Nat) : Bool := decide (k.tenant = some (s.vfOf c)) && s.gangIn c
  match s.spilled.find? fun x => x.core == core && x.quay.isSome && on x.ctx with
  | some x => s.ctx? x.ctx
  | none => (k.kicks.find? fun q => on q.ctx).bind fun q => s.ctx? q.ctx

/-- QP_CONTEXT_START (R167): a spilled quay processor comes back as it was (R325). -/
def execQpContextStart (core : Nat) (s : State) : Out :=
  match s.quayTurn core with
  | none => .next s
  | some c =>
    if (s.coreAt core).qctx = some c.id ∨ !s.quayFree core then .next s
    else if (s.spillOf core c.id).quay.isSome then .next (s.restoreQuay core c.id)
    else .next (s.quayStart core c)

/-- Whether the copy can perform a unit now. -/
def Copy.moves (c : Copy) : Bool :=
  !c.parked && !c.retired && decide (c.done < c.total) && (decide (c.kind ≠ .qcbk) || c.done == 0)

/-- Whether a copy can perform its next unit: what its quay thread did before it has been performed (R236), and no answer for
the unit is awaited; a replay waits until its gang is in (R367). -/
def State.copyMoves (s : State) (core : Nat) (c : Copy) : Bool :=
  c.moves && (!c.held || s.gangIn c.ctx) && !(s.pendings.any fun p => has c.behind p.ttag ||
    (p.core == core && p.copy == some c.num && (p.packet.kind == 1 || p.packet.kind == 5)))

/-- COPY_UNIT (R176). -/
def execCopyUnit (core num : Nat) (s : State) : Out :=
  match s.copy? core num with
  | none => .next s
  | some c =>
    if s.copyMoves core c then .next (s.onRows core c fun s => ((), s.copyUnit core c)).2 else .next s

/-- The global bytes that the copy was let write. -/
def Copy.global (c : Copy) : Option Range := c.dst.bind fun r => if r.space = 0 then some r else none

/-- Whether a stall is behind this copy (R131). -/
def Copy.stalls (c : Copy) (w : Wait) : Bool :=
  match w with
  | .stalled (.copy sp lo n) => [c.dst, c.dst2, c.src].any fun o => o.any fun r => overlaps r sp lo n
  | .stalled (.bytes lo n) => [c.dst, c.dst2, c.src].any fun o => o.any fun r => overlaps r 1 lo n
  | _ => false

/-- The frames whose lanes on the core stall behind the copy. -/
def State.framesBehind (s : State) (core : Nat) (c : Copy) : List Nat :=
  (((s.threadsOf c.ctx).filter fun t => t.id.core == core && c.stalls t.wait).filterMap fun t =>
    (s.groupOf? core t.id.berth c.ctx).map (·.1.frame)).eraseDups

/-- A copy retires: its scoreboard entry is free. The lanes that stall behind it see what it wrote, and so does whatever
descends from them (R131, R236). -/
def State.retireCopy (s : State) (core : Nat) (c : Copy) : State :=
  let s := s.putCopy core { c with retired := true }
  let s := match c.global with
    | some r =>
      let s := s.selfInvalidate core c.ctx fun l => decide (r.lo < l.line * 128 + 128) && decide (l.line * 128 < r.hi)
      (s.framesBehind core c).foldl (fun (s : State) f => s.notice core c.ctx f fun n => n.addLines (linesOf r.lo (r.hi - r.lo))) s
    | none => s
  s.passStamps core ((s.coreAt core).copies.length + 1)

/-- COPY_RETIRE (R172, R173): every unit is performed, and acknowledged. -/
def execCopyRetire (core num : Nat) (s : State) : Out :=
  match s.copy? core num with
  | none => .next s
  | some c =>
    if c.retired || c.parked || decide (c.done < c.total) || s.copyAwaits core num then .next s
    else .next (s.retireCopy core c)

/-- The notice that a stamp of a context carries (R257). -/
def State.stampNotice (s : State) (core ctx : Nat) : Notice :=
  (s.coreAt core).noticeFor ctx

/-- The stamp is written: its number is done. -/
def State.stampDone (s : State) (core : Nat) (c : Copy) : State :=
  let s := s.passStamp core c
  s.passStamps core ((s.coreAt core).copies.length + 1)

/-- The stamp of a retired operation is written as a store of the context, or the operation parks (R172, R176). -/
def State.writeStamp (s : State) (core : Nat) (c : Copy) : State :=
  let va := c.stamp.toNat
  match s.translate core c.ctx va .store with
  | (.error f, s) => if f.waits then s else s.parkCopy core c ⟨16, f.sub, va, f.gpa⟩
  | (.ok t, s) =>
    let g : Word := BitVec.ofNat 64 t.gpa
    if s.sealedOn (dieOf core) c.ctx va 8 then s.parkCopy core c ⟨6, 0, va, g⟩
    else
      let bs := toBytes c.num 8
      match t.target with
      | .device a =>
        let q : HomeReq := { vf := t.vf, gpa := t.gpa, key := t.key, ce := t.ce, tc := 1, kind := .stamp c.ctx (s.stampNotice core c.ctx) }
        match s.writeAt q a (withAddrs a bs) with
        | (.refused, s) => s.parkCopy core c ⟨17, blockStack (blockOf a), va, g⟩
        | (_, s) => s.stampDone core c
      | .host a => (s.post a bs).stampDone core c
      | .fabric p ga =>
        let pk : Packet :=
          { s.packetFor c.ctx 3 p (ga / 128 * 128) with
            mask := byteMask (ga % 128) 8, data := BitVec.ofNat 1536 (c.num % 2 ^ 64 * 2 ^ (8 * (ga % 128))) }
        (s.sendRequest { ttag := 0, core := core, ctx := c.ctx, copy := some c.num, fva := c.stamp, agpa := t.gpa,
                         packet := pk }).putCopy core { c with stampSent := true }

/-- Another package has acknowledged a write of a copy: a stamp is written then, and not before (R172, R174). -/
def State.copyAck (s : State) (core num : Nat) : State :=
  match s.copy? core num with
  | none => s
  | some c => if c.stampSent && !s.copyAwaits core num then s.stampDone core c else s

/-- Whether the stamp of an operation can be written, but for the order of the timeline: a replay waits until its gang is in
(R172, R367). -/
def State.stampDue (s : State) (c : Copy) : Bool := c.retired && !c.parked && !c.stampSent && (!c.held || s.gangIn c.ctx)

/-- STAMP_WRITE (R172): in the order of the timeline. -/
def execStampWrite (core : Nat) (s : State) : Out :=
  match firstCopy (s.coreAt core).copies with
  | none => .next s
  | some c =>
    if !s.stampDue c then .next s
    else if c.stamp = 0 ∨ c.abandoned then .next (s.stampDone core c)
    else .next (s.writeStamp core c)

/-- A codebook slot of a core pair is written and marked (R186); marks of other contexts stay (DEDUCED, log 146). -/
def Core.loadSlot (k : Core) (slot ctx : Nat) (bs : BitVec 256) : Core :=
  let marks := ((SMap.get none k.codebook slot).map (·.1)).getD []
  { k with codebook := SMap.set none k.codebook slot (some (addOnce marks ctx, bs)) }

/-- CODEBOOK_SLOT_WRITE (R186): after every matrix operation of the pair that issued before the `qcbk`. The slot is written
whole: an operation that reads it meanwhile finds every entry old, or every entry new (DESIGN CHOICE, log 151). -/
def execCodebookSlotWrite (core num : Nat) (s : State) : Out :=
  match s.copy? core num with
  | none => .next s
  | some c =>
    let lead := leaderOf core
    if c.kind ≠ .qcbk ∨ c.done ≠ 1 ∨ c.parked ∨ c.retired ∨ ((s.coreAt lead).matQ.any fun o => decide (o.seq < c.after)) then .next s
    else
      let slot := bits (dw c.desc 0) 4 0
      let s := s.modCore lead fun k => k.loadSlot slot c.ctx (c.record.setWidth 256)
      .next (s.putCopy core { c with done := 2 })

end Sys2Proof.Machine
end

