-- ==== Sys2Proof/Machine/Dispatcher.lean ====
section
/-! DEFINITION. The dispatcher: completion of tasks and launches, placement on a core, the end of a slice (R198, R199,
R217, R223, R225, R320, R322 to R325, R363). -/

namespace Sys2Proof.Machine

/-! ### Launch queues (R315, R316) -/

def State.queue (s : State) : QueueId → Queue
  | .vf v q => SMap.get Queue.init (s.vf v).queues q
  | .pf port q => SMap.get Queue.init s.pfQueues (16 * port + q)

def State.setQueue (s : State) (id : QueueId) (x : Queue) : State :=
  match id with
  | .vf v q => s.modVf v fun y => { y with queues := SMap.set Queue.init y.queues q x }
  | .pf port q => { s with pfQueues := SMap.set Queue.init s.pfQueues (16 * port + q) x }

def queueNumber : QueueId → Nat
  | .vf _ q => q
  | .pf _ q => q

/-- MSI-X of the function that holds a queue (R316). -/
def State.queueMsix (s : State) : QueueId → State
  | .vf v _ => s.msixVf v
  | .pf port _ => s.msixPf port

/-- A completion write that fails is discarded; it writes a record of source 5 (R320). -/
def State.cplFault (s : State) (l : Launch) (cause sub : Nat) (gpa : Word) : State :=
  s.addRecord (s.vfOf l.ctx)
    { src := 5, cause := cause, sub := sub, fva := l.cpla, gpa := gpa, ctx := l.ctx,
      info := BitVec.ofNat 64 (queueNumber l.queue % 16 + 16 * l.slot) }

/-- The completion write (R320). -/
def State.cplWrite (s : State) (l : Launch) (cpl : BitVec 32) : State :=
  let bs := toBytes cpl.toNat 8
  if l.cpla = 0 then s
  else if l.cpla.toNat % 2 = 1 then s.post (l.cpla.toNat - 1) bs
  else
    let v := s.vfOf l.ctx
    match s.translateGpa v l.cpla.toNat .store with
    | (.error f, s) => s.cplFault l 16 f.sub f.gpa
    | (.ok t, s) =>
      match t.target with
      | .device a =>
        match s.writeAt { vf := v, gpa := t.gpa, key := t.key, ce := t.ce, tc := 2 } a (withAddrs a bs) with
        | (.refused, s) => s.cplFault l 17 (blockStack (blockOf a)) (BitVec.ofNat 64 t.gpa)
        | (_, s) => s
      | .host a => s.post a bs
      | .fabric p g =>
        s.sendRequest { ttag := 0, ctx := l.ctx, packet := { s.packetFor l.ctx 3 p (g / 128 * 128) with
          mask := byteMask (g % 128) 8, data := BitVec.ofNat 1536 (cpl.toNat * 2 ^ (8 * (g % 128))) } }

/-- A completion write on a page of host memory that is missing waits until it has come (R268). -/
def State.cplWaits (s : State) (l : Launch) : Bool × State :=
  if l.cpla = 0 ∨ l.cpla.toNat % 2 = 1 then (false, s)
  else
    match s.translateGpa (s.vfOf l.ctx) l.cpla.toNat .store with
    | (.error f, t) => if f.waits then (true, t) else (false, s)
    | _ => (false, s)

/-- A launch completes (R320), as soon as its completion can be written. -/
def State.launchDone (s : State) (l : Launch) : State :=
  let w := s.cplWaits l
  if w.1 then { w.2 with launches := upsert (fun x => x.id == l.id) { l with remaining := 0, timed := none } w.2.launches }
  else
  let s := w.2
  let s := { s with launches := s.launches.filter fun x => x.id != l.id }
  let q := s.queue l.queue
  let cpl := q.cpl + 1
  let s := s.setQueue l.queue { q with cpl := cpl }
  let s := s.cplWrite l cpl
  if l.irq then s.queueMsix l.queue else s

/-- One root task of a launch has completed. What it and its descendants have written, later launches of the context see (DEDUCED,
DEDUCED, log 162). -/
def State.rootDone (s : State) (id : Nat) (n : Notice) : State :=
  match s.launches.find? fun l => l.id == id with
  | none => s
  | some l =>
    let s := match s.ctx? l.ctx with
      | some c => s.putCtx { c with notice := c.notice.merge n }
      | none => s
    let l := { l with remaining := l.remaining - 1 }
    if l.remaining = 0 then s.launchDone l
    else { s with launches := upsert (fun x => x.id == id) l s.launches }

/-! ### Completion (R199) -/

/-- A child has completed: the parent's count falls, its notice grows; the count can release its continuation. The join of a remote
child carries what it and its descendants have written here too: an external edge with its fabric invalidation (R236, R353). -/
def State.joinParent (s : State) (core ctx frame : Nat) (n : Notice) (fabric : Bool) : State :=
  match s.task? ctx frame with
  | none => s
  | some p =>
    let p := { p with pending := p.pending - 1, notice := p.notice.merge n, owesExt := p.owesExt || fabric, owesFabric := p.owesFabric || fabric }
    (s.saveTask core p).tryRelease p

def State.complete? (s : State) (t : Task) : Bool :=
  decide (t.phase = .ending) && t.pending == 0 && !s.unacked t.origin t.ctx

/-- The publication of an ended task completes: what had to wait for acknowledgements leaves now (R255, R347). -/
def State.finishEdge (s : State) (t : Task) : Task × State :=
  let s := s.publish t.origin t.ctx t.frame
  ((s.task? t.ctx t.frame).getD t, s)

/-- The task completes: its frame is freed, and its parent or its launch learns of it. Where its last publication has still to be
acknowledged, it completes later (R255, R347). -/
def State.completeTask (s : State) (t : Task) : State :=
  let p := s.finishEdge t
  let t := p.1
  if p.2.unacked t.origin t.ctx then p.2 else
  let s := p.2.freeFrame t.ctx t.frame
  if t.parentPkg ≠ 0 then
    s.emit { s.packetFor t.ctx 10 (t.parentPkg - 1) 0 with
      src := s.hm.pkgid, op := 8, opd0 := BitVec.ofNat 64 t.parent, opd1 := BitVec.ofNat 64 t.tix }
  else if t.parent ≠ 0 then s.joinParent t.origin t.ctx t.parent t.notice false
  else
    match t.launch with
    | some id => s.rootDone id t.notice
    | none => s

/-- TASK_COMPLETE (R199). -/
def execTaskComplete (ctx frame : Nat) (s : State) : Out :=
  match s.task? ctx frame with
  | none => .next s
  | some t => if s.complete? t then .next (s.completeTask t) else .next s

/-! ### Where a task can go (R190, R217, R223, R225) -/

/-- The core is of the level that the task's spawn named. -/
def levelOk (t : Task) (core : Nat) : Bool :=
  match t.place with
  | .any | .p | .pod => true
  | .c => if t.pair then core == leaderOf t.origin else core == t.origin
  | .q => quadOf core == quadOf t.origin
  | .d => dieOf core == dieOf t.origin

/-- The conditions of a pair task (R225). -/
def State.pairOk (s : State) (t : Task) (core : Nat) : Bool :=
  !t.pair || (isLeader core && has (s.partCores (s.partOf t.ctx)) (core + 1) &&
    ((s.coreAt (core + 1)).pairCtx.isNone || decide ((s.coreAt (core + 1)).pairCtx = some t.ctx)))

/-- Eligible on a core but for room. -/
def State.eligible (s : State) (t : Task) (core : Nat) : Bool :=
  has (s.partCores (s.partOf t.ctx)) core && levelOk t core && s.pairOk t core

/-- R217: one more group of this size fits beside these. -/
def fitsBeside (gs : List Group) (width nreg : Nat) : Bool :=
  let h := sizeOf3 gs
  fits217 (h.1 + 1, h.2.1 + width, h.2.2 + width * nreg)

/-- Room beside every group that holds a berth of the core. -/
def State.room (s : State) (core width nreg : Nat) : Bool := fitsBeside (s.groups.filter fun g => g.core == core) width nreg

/-- Room beside the groups that run when the VF is the tenant; the others' berths can be claimed (R324). -/
def State.roomFor (s : State) (core v width nreg : Nat) : Bool := fitsBeside (s.withVf core v) width nreg

/-- The lowest free berth. -/
def State.freeBerth (s : State) (core : Nat) : Option Nat :=
  (List.range 32).find? fun b => (s.group? core b).isNone

/-- A `signal` of the group has still to write its stamps (R323, R368). -/
def State.groupSignals (s : State) (g : Group) : Bool := (s.groupThreads g.core g.berth).any s.signalling

/-- Halted berths are claimed lowest first until the group fits (R324). -/
def State.claimBerths (s : State) (core width nreg : Nat) : Nat → State
  | 0 => s
  | n + 1 =>
    if s.room core width nreg then s
    else
      match (List.range 32).findSome? fun b => (s.group? core b).bind fun g => if g.halted && !s.groupSignals g then some g else none with
      | none => s
      | some g => (s.spillBerth g).claimBerths core width nreg n

/-- Whether a task waits in the dispatcher of a context that can run (R363). -/
def State.waits (s : State) (t : Task) : Bool :=
  s.gangIn t.ctx && ((s.ctx? t.ctx).map fun c => c.stopped.isNone).getD false &&
  (decide (t.phase = .queued) || decide (t.phase = .queuedCont))

/-- Whether a waiting task can be placed as soon as there is room: a continuation, once the publication of the task that ended is
acknowledged (R255). -/
def State.startable (s : State) (t : Task) : Bool := s.waits t && (decide (t.phase = .queued) || !s.unacked t.origin t.ctx)

/-- The tasks that wait in the dispatcher, oldest first, and those that can be placed as soon as there is room. -/
def State.allWaiting (s : State) : List Task := (s.waiting.filterMap fun p => s.task? p.1 p.2).filter s.waits

def State.waitingTasks (s : State) : List Task := s.allWaiting.filter s.startable

/-! ### Tenants (R322) -/

def State.topPrio (s : State) (core : Nat) : Option Nat :=
  (s.groups.filter fun g => g.core == core && !g.halted).foldl (fun m g =>
    let p := ((s.task? g.ctx g.frame).map (·.prio)).getD 0
    match m with
    | none => some p
    | some q => some (max p q)) none

/-- The core is the VF's, or nobody's. -/
def State.tenantOk (s : State) (core v : Nat) : Bool :=
  match (s.coreAt core).tenant with
  | none => true
  | some w => w == v

/-- The slice of the core's tenant ends for a task of this priority. -/
def State.sliceOver (s : State) (core prio : Nat) : Bool :=
  let k := s.coreAt core
  let tq := (s.part (((k.tenant).map s.vfPart).getD 0)).tq
  decide (k.sliceStart + tq * 1000 ≤ s.tlNow) ||
  match s.topPrio core with
  | none => true
  | some p => decide (p < prio)

/-- The task could start on the core now, if need be after a slice end. -/
def State.canPlace (s : State) (t : Task) (core : Nat) : Bool :=
  let v := s.vfOf t.ctx
  s.eligible t core && s.roomFor core v t.width t.nreg && (s.tenantOk core v || s.sliceOver core t.prio)

/-- No older waiting task of the context is eligible on the core but for room (R223), whatever its priority. -/
def State.oldestFor (s : State) (t : Task) (core : Nat) : Bool :=
  ((s.allWaiting.filter fun u => u.ctx == t.ctx).takeWhile fun u => u.frame != t.frame).all fun u => !s.eligible u core

/-- The task could be the next of its context on the core. -/
def State.couldGo (s : State) (t : Task) (core : Nat) : Bool := s.canPlace t core && s.oldestFor t core

/-- VFs with a task of this priority that some core of the partition can take, ascending. -/
def State.contenders (s : State) (p prio : Nat) : List Nat :=
  let ts := s.waitingTasks.filter fun t => t.prio == prio && s.partOf t.ctx == p
  let cs := s.partCores p
  let vs := (ts.map fun t => s.vfOf t.ctx).eraseDups
  let ok := vs.filter fun v => ts.any fun t => s.vfOf t.ctx == v && cs.any fun c => s.couldGo t c
  (ok.foldl (fun l v => insertIv (v, 0) l) []).map (·.1)

/-- The VF whose turn it is, and the tasks that it may still place in this round (R322). -/
def State.turn (s : State) (p prio : Nat) : Option (Nat × Nat) :=
  let vs := s.contenders p prio
  let cur := SMap.get (0, 0) (s.part p).turns prio
  if has vs cur.1 && decide (0 < cur.2) then some cur
  else
    match (vs.find? fun v => decide (cur.1 < v)) with
    | some v => some (v, (s.vf v).weight)
    | none => vs.head?.map fun v => (v, (s.vf v).weight)

/-- No waiting task of higher priority can take the core. -/
def State.noHigher (s : State) (t : Task) (core : Nat) : Bool :=
  s.waitingTasks.all fun u => !(decide (t.prio < u.prio) && s.partOf u.ctx == s.partOf t.ctx && s.couldGo u core)

/-- Whether the dispatcher can choose this task for this core (R223, R322). -/
def State.chosen (s : State) (t : Task) (core : Nat) : Bool :=
  s.startable t && has s.waiting (t.ctx, t.frame) && s.couldGo t core && s.noHigher t core &&
  ((s.turn (s.partOf t.ctx) t.prio).map fun x => x.1 == s.vfOf t.ctx).getD false

/-! ### Starts (R19, R194, R198, R219, R226) -/

/-- Doublewords of a frame as the start of a continuation reads them; none when the frame cannot be read now. -/
def State.frameRead (s : State) (core ctx va : Nat) : Nat → Option (List Word) × State
  | 0 => (some [], s)
  | n + 1 =>
    match s.peek core ctx va 8 .load with
    | (.bytes bs, s) =>
      let r := s.frameRead core ctx (va + 8) n
      (r.1.map fun ws => BitVec.ofNat 64 (ofBytes bs) :: ws, r.2)
    | (_, s) => (none, s)

/-- A thread of a continuation: the saved registers, wb and `tmode`, x3 = the frame; or exited. The frame says what wb was. -/
def State.contThread (s : State) (t : Task) (g : Agreed) (core berth wb tid : Nat) : Option Thread × State :=
  let id : LaneId := ⟨core, berth, tid⟩
  if has t.saved tid then
    let r := s.frameRead core t.ctx (t.frame + 256 + 8 * (tid * t.nreg)) (min t.nreg (wb + 112))
    (r.1.map fun ws =>
      let m := (ws.head?).getD 0
      let th : Thread := { id := id, ctx := t.ctx, pc := g.cont, wb := wb, regs := regsFrom 1 ws.tail }
      { th.setTmode m with regs := SMap.set 0 th.regs 3 (BitVec.ofNat 64 t.frame) }, r.2)
  else (some { id := id, ctx := t.ctx, pc := g.cont, wb := wb, wait := .exited }, s)

/-- The threads of a continuation with these numbers; none while one of them cannot be read. -/
def State.contThreads (s : State) (t : Task) (g : Agreed) (core berth wb : Nat) : List Nat → Option (List Thread) × State
  | [] => (some [], s)
  | i :: r =>
    match s.contThread t g core berth wb i with
    | (none, s) => (none, s)
    | (some u, s) =>
      let q := s.contThreads t g core berth wb r
      (q.1.map fun us => u :: us, q.2)

/-- The threads with which a waiting task starts. A continuation's window base is the one that stands in its header: where software has
put another there, also one outside R18's bound, its low 16 bits are taken as they are (DESIGN CHOICE, log 165). -/
def State.startThreads (s : State) (t : Task) (core berth : Nat) : Option (List Thread) × State :=
  let ss := ((s.ctx? t.ctx).map (·.ss)).getD 0
  match t.phase, t.agreed with
  | .queuedCont, some g =>
    match s.frameRead core t.ctx (t.frame + 0x30) 1 with
    | (some ws, s) => s.contThreads t g core berth (((ws.head?).getD 0).toNat % 65536) (List.range t.width)
    | (none, s) => (none, s)
  | _, _ => (some ((List.range t.width).map fun i => startThread t core berth ss i), s)

/-- The incoming edges of a start (R193, R237, R257, R353). -/
def State.startEdges (s : State) (t : Task) (core : Nat) : State :=
  let s := s.applyNotice core t.ctx t.notice
  if t.owesExt then s.takeExternal core t.ctx t.owesFabric
  else if t.owesFabric then
    match s.ctx? t.ctx with
    | some c => (s.putCtx { c with fabric := true }).dropFabric core t.ctx
    | none => s
  else s

/-- The header when a task starts; a continuation is no trap task any more. -/
def Task.started (t : Task) (core berth : Nat) : Task :=
  if t.phase = .queuedCont then
    { t with phase := .running core berth, origin := core, kind := 0, rest := t.restNow, agreed := none, saved := [], waitAt := none,
             owesExt := false, owesFabric := false, trap := none, privEpc := 0 }
  else { t with phase := .running core berth, owesExt := false, owesFabric := false }

/-- Halted groups of other VFs give their berths up while the core holds more than it can (R217, R324). -/
def State.squeeze (s : State) (core v : Nat) : Nat → State
  | 0 => s
  | n + 1 =>
    if fits217 (sizeOf3 (s.groups.filter fun g => g.core == core)) then s
    else
      match (List.range 32).findSome? fun b => (s.group? core b).bind fun g =>
        if g.halted && !(s.vfOf g.ctx == v && s.gangIn g.ctx) && !s.groupSignals g then some g else none with
      | none => s
      | some g => (s.spillBerth g).squeeze core v n

/-- Spilled rows of the VF come back, and its groups run on (R325). -/
def State.returnRows (s : State) (core v : Nat) : State := ((s.restoreRows core v).squeeze core v 32).resumeCore core v

/-- Halted groups, or spilled ones, of a VF on a core that could run there. -/
def State.returnable (s : State) (core v : Nat) : Bool :=
  (s.groups.any fun g => g.core == core && g.halted && s.vfOf g.ctx == v && s.gangIn g.ctx && !s.keptOff core g.ctx) ||
  (s.spilled.any fun x => x.core == core && s.vfOf x.ctx == v && s.gangIn x.ctx && !x.groups.isEmpty && s.fitsBack x)

/-- The VF becomes the core's tenant; its spilled rows come back before its groups issue (R325). -/
def State.takeCore (s : State) (core v : Nat) : State :=
  let n := s.adopt core v
  if (s.coreAt core).tenant = some v then
    if n.returnable core v then n.returnRows core v else n
  else (n.modCore core fun k => { k with tenant := some v, sliceStart := n.tlNow }).returnRows core v

/-- One task fewer may be placed in this round. -/
def State.spendTurn (s : State) (p prio : Nat) (x : Option (Nat × Nat)) : State :=
  match x with
  | none => s
  | some y => s.setPart p { s.part p with turns := SMap.set (0, 0) (s.part p).turns prio (y.1, y.2 - 1) }

/-- The task starts on the core, where the VF's own groups have left room for it (R217). -/
def State.placeTask (s : State) (t : Task) (core : Nat) : State :=
  let p := s.partOf t.ctx
  let x := s.turn p t.prio
  let e := if t.phase = .queuedCont then s.finishEdge t else (t, s)
  let t := e.1
  if t.phase = .queuedCont && e.2.unacked t.origin t.ctx then e.2 else
  let s := (e.2.takeCore core (s.vfOf t.ctx)).claimBerths core t.width t.nreg 32
  if !s.room core t.width t.nreg || !s.pairOk t core then s
  else match s.freeBerth core with
  | none => s
  | some b =>
    match s.startThreads t core b with
    | (none, s) => s
    | (some ts, s) =>
      let s := s.serve core t.ctx
      let s := if t.pair then s.modCore (core + 1) fun k => { k with pairCtx := some t.ctx } else s
      let s := { s with waiting := s.waiting.filter fun q => !decide (q = (t.ctx, t.frame)) }
      let s := s.putGroup { core := core, berth := b, ctx := t.ctx, frame := t.frame, width := t.width, nreg := t.nreg, pair := t.pair }
      let s := s.startEdges t core
      let s := s.saveTask core (t.started core b)
      let s := s.addThreads ts
      let s := s.spendTurn p t.prio x
      s.joinAll ((ts.filter fun u => decide (u.wait = .ready)).map (·.id))

/-- TASK_PLACEMENT (R223). -/
def execTaskPlacement (ctx frame core : Nat) (s : State) : Out :=
  match s.task? ctx frame with
  | none => .next s
  | some t =>
    if s.chosen t core && s.tenantOk core (s.vfOf ctx) then .next (s.placeTask t core) else .next s

/-- The same, or a quay processor of the VF that could go on (R325, R366). -/
def State.haltedHere (s : State) (core v : Nat) : Bool :=
  s.returnable core v || ((s.coreAt core).qctx.any fun c => s.vfOf c == v && s.gangIn c) ||
  (s.spilled.any fun x => x.core == core && s.vfOf x.ctx == v && s.gangIn x.ctx && x.quay.isSome) ||
  ((s.coreAt core).kicks.any fun q => s.vfOf q.ctx == v && s.gangIn q.ctx)

/-- An image of the VF that the core can take. -/
def State.adoptable (s : State) (core v : Nat) : Bool := s.spilled.any fun x => s.vfOf x.ctx == v && s.canAdopt core x

/-- Whether the slice of a core of the VF's partition ends for this VF: a chosen task of it, or groups of it that are
halted there. -/
def State.sliceEndsAt (s : State) (core v : Nat) : Bool :=
  let k := s.coreAt core
  if k.tenant = some v then s.adoptable core v || s.returnable core v
  else (k.tenant.isNone && (s.haltedHere core v || s.adoptable core v)) ||
    (s.waitingTasks.any fun t => s.vfOf t.ctx == v && s.chosen t core && s.sliceOver core t.prio) ||
    ((s.haltedHere core v || s.adoptable core v) && s.sliceOver core 0)

def State.sliceEnds (s : State) (core v : Nat) : Bool := has (s.partCores (s.vfPart v)) core && s.sliceEndsAt core v

/-- SLICE_END (R322): every running group halts in place, and the VF is the tenant. -/
def execSliceEnd (core vf : Nat) (s : State) : Out :=
  if !s.sliceEnds core vf then .next s
  else if (s.coreAt core).tenant = some vf then .next (s.takeCore core vf)
  else .next ((s.haltCore core).takeCore core vf)

end Sys2Proof.Machine
end

