-- ==== Sys2Proof/Machine/Homes.lean ====
section
/-! DEFINITION. The steps of the homes and of the base dies: line requests, seal entries, home writes, fault records and
their replay, shoot-downs, the commands that move sectors and frames (R253, R259, R272, R275, R292, R299 to R301). -/

namespace Sys2Proof.Machine

/-! ### Requests for a line (R253, R259) -/

/-- Where a line of a context has its home on the package. -/
def State.lineHome (s : State) (core ctx ln : Nat) (acc : Acc) : Option (Trans × Nat) × State :=
  match s.translate core ctx (ln * 128) acc with
  | (.error _, s) => (none, s)
  | (.ok t, s) =>
    match t.target with
    | .device a => (some (t, a), s)
    | _ => (none, s)

/-- LOAD_MISS (R253): the requesting L1 fills a shared copy with the home's value. -/
def execLoadMiss (core ctx line : Nat) (s : State) : Out :=
  match s.lineHome core ctx line .load with
  | (none, s) => .next s
  | (some h, s) =>
    let p := s.lineFor core ctx (line * 128) h.1
    if p.1.valid == BitVec.allOnes 128 then .next s
    else
      let q := p.2.askOthers p.1 h.2
      if q.bad h.2 then .next q else .next (q.fill p.1 h.2).2

/-- WRITEBACK (R253, R252): the line keeps its copy, now clean, and joins the pending list; a clean copy is dropped. -/
def execWriteback (core ctx line : Nat) (s : State) : Out :=
  match s.line? core ctx line with
  | none => .next s
  | some l => if l.dirty == 0 then .next (s.evict l) else .next ((s.writeback l).pend l)

/-- OWNERSHIP_REQUEST (R253). -/
def execOwnershipRequest (core ctx line : Nat) (s : State) : Out :=
  match s.lineHome core ctx line .atomic with
  | (none, s) => .next s
  | (some h, s) =>
    let s := s.invalidateOthers (core, ctx, line) h.2
    if s.bad h.2 then .next s else .next (s.own core ctx (line * 128) h.1 h.2).2

/-- SEALED_FILL (R259): in a sealed region a line that is not held is filled as a sealed copy, and the count rises. -/
def execSealedFill (core ctx line : Nat) (s : State) : Out :=
  match s.lineHome core ctx line .load with
  | (none, s) => .next s
  | (some h, s) =>
    if (s.line? core ctx line).isNone && s.sealedOn (stackOf h.2) ctx (line * 128) 128 && !s.bad h.2 then
      let p := s.lineFor core ctx (line * 128) h.1
      .next (p.2.fill p.1 h.2).2
    else .next s

/-- Lanes that waited at a 64-bit or 32-bit instruction go on behind it. -/
def State.finish (s : State) (len : Nat) (ids : List LaneId) : State :=
  ids.foldl (fun s id => s.complete id ((s.thread id).pc + BitVec.ofNat 64 len) []) s

/-- SEAL_ENTRY_INSTALL (R128): the oldest seal that waits for an entry of the die. -/
def execSealEntryInstall (die : Nat) (s : State) : Out :=
  match s.sealWaits.find? fun w => has w.dies die with
  | none => .next s
  | some w =>
    if !s.sealRoom die then .next s
    else
      let s := s.installSeal die w.ctx w.base w.lg
      let w' := { w with dies := w.dies.filter (· != die) }
      if w'.dies.isEmpty then .next ({ s with sealWaits := s.sealWaits.erase w }.finish 8 w.lanes)
      else .next { s with sealWaits := s.sealWaits.map fun x => if x = w then w' else x }

/-- One entry of a context with this base and size leaves a die. -/
def dropEntry (die ctx base lg : Nat) : List SealEntry → List SealEntry
  | [] => []
  | e :: t => if e.die == die && e.ctx == ctx && e.base == base && e.lg == lg then t else e :: dropEntry die ctx base lg t

/-- UNSEAL_COMPLETE (R129): once no sealed copy is left, the entry leaves every die of the partition. -/
def execUnsealComplete (ctx base size : Nat) (s : State) : Out :=
  match s.unsealWaits.find? fun w => w.ctx == ctx && w.base == base && 2 ^ w.lg == size with
  | none => .next s
  | some w =>
    let s := s.dropSealed ctx base w.lg
    if s.seals.any fun e => e.ctx == ctx && e.base == base && e.lg == w.lg && decide (0 < e.copies) then .next s
    else
      let dies := s.partDies (s.partOf ctx)
      .next ({ s with
        seals := dies.foldl (fun l d => dropEntry d ctx base w.lg l) s.seals
        unsealWaits := s.unsealWaits.erase w }.finish 8 w.lanes)

/-! ### Home writes and scrubbing (R292, R301) -/

/-- Bytes of one line that are written: address and value. -/
def lineWrites (a : Nat) (mask : BitVec 128) (d : BitVec 1024) : List (Nat × Byte) :=
  (maskBytes mask).map fun i => (a + i, lineByte d i)

/-- HOME_WRITE (R292): a write of a VF, of bytes of one line named by its GPA, at their home. -/
def execHomeWrite (vf gpa len : Nat) (data : BitVec 1024) (s : State) : Out :=
  let off := gpa % 128
  if len = 0 ∨ 128 < off + len then .next s
  else
    match s.translateGpa vf gpa .store with
    | (.error _, s) => .next s
    | (.ok t, s) =>
      match t.target with
      | .device a =>
        let ws := withAddrs a (toBytes data.toNat len)
        .next (s.writeAt { vf := vf, gpa := gpa, key := t.key, ce := t.ce } a ws).2
      | .host a => .next (s.post a (toBytes data.toNat len))
      | .fabric _ _ => .next s

/-- SCRUB_CLEAR (R301): in the background, in any order. -/
def execScrubClear (block : Nat) (s : State) : Out :=
  let d := s.desc block
  if d.scrub then .next (s.setDesc block { d with scrub := false, codec := 0, count := 0, run := 0, fb := false, zf := false })
  else .next s

/-! ### Fault records (R275, R276) -/

/-- The 64 bytes of a record. -/
def FaultRec.bytes (r : FaultRec) : List Byte :=
  toBytes (r.cause % 256 + 2 ^ 8 * (r.sub % 256) + 2 ^ 16 * (r.width % 256) + 2 ^ 32 * r.src) 8 ++
  toBytes r.fva.toNat 8 ++ toBytes r.ifa.toNat 8 ++ toBytes r.gpa.toNat 8 ++ toBytes r.lanes.toNat 8 ++
  toBytes r.info.toNat 8 ++ toBytes r.ctx 8 ++
  toBytes (r.core % 256 + 2 ^ 8 * (r.berth % 32) + 2 ^ 16 * (r.qt % 4) + 2 ^ 32 * r.index) 8

def Vf.fqRoom (x : Vf) : Bool := x.fqEn && (x.fqWr - x.fqRp) != BitVec.ofNat 32 (2 ^ x.fqLg)

/-- FAULT_RECORD_WRITE (R275): records are written in the order in which the faults were taken. -/
def execFaultRecordWrite (vf : Nat) (s : State) : Out :=
  let x := s.vf vf
  match x.fqWaiting with
  | [] => .next s
  | r :: rest =>
    if !x.fqRoom then .next s
    else
      let r := { r with index := x.fqWr.toNat }
      let s := s.setVf vf { x with fqWaiting := rest, fqLive := x.fqLive ++ [r], fqWr := x.fqWr + 1 }
      .next ((s.post (x.fqbase.toNat + 64 * (x.fqWr.toNat % 2 ^ x.fqLg)) r.bytes).msixVf vf)

/-- The lanes that a record lists. -/
def FaultRec.laneIds (r : FaultRec) : List LaneId :=
  ((List.range 64).filter r.lanes.getLsbD).map fun t => ⟨r.core, r.berth, t⟩

/-- A lane reissues its instruction alone (R120, R306); one that a record no longer parks is left as it is. -/
def State.reissue (s : State) (ctx : Nat) (id : LaneId) : State :=
  s.modLane id ctx fun t => if t.wait = .faulted then { t with wait := .ready, alone := true } else t

/-- The lanes of a record, resident or spilled, end as `kill` ends them (R214). -/
def State.killRecord (s : State) (r : FaultRec) : State :=
  let ids := ((s.threadsOf r.ctx).filter fun t => has r.laneIds t.id && decide (t.wait = .faulted)).map (·.id)
  s.killLanes r.ctx { cause := r.cause, fva := r.fva, ifa := r.ifa, epc := 0, trec := 0, parked := r.lanes, core := r.core,
                      berth := r.berth, frame := r.info.toNat } ids

/-- The copy of a record goes on at its faulting unit, or is abandoned: it retires once what it has sent to other packages is
acknowledged (R172, R176, R275). -/
def State.replayCopy (s : State) (r : FaultRec) (disp : Nat) : State :=
  match s.copy? r.core r.info.toNat with
  | none => s
  | some c =>
    if c.ctx ≠ r.ctx ∨ !c.parked then s
    else if disp = 0 then s.putCopy r.core { c with parked := false, stampSent := false, held := !s.gangIn c.ctx }
    else s.putCopy r.core { c with parked := false, stampSent := false, abandoned := true, done := c.total }

/-- What the replay pointer does as it passes a record (R275). -/
def State.replay (s : State) (r : FaultRec) (disp : Nat) : State :=
  let stop (s : State) : State := s.stopCtx r.ctx { cause := r.cause, sub := r.sub, value := r.fva }
  if r.src ≤ 1 then
    if disp = 0 then r.laneIds.foldl (fun s i => s.reissue r.ctx i) s
    else if disp = 1 then s.killRecord r
    else stop s
  else if r.src = 2 then
    let s := s.replayCopy r disp
    if disp ≤ 1 then s else stop s
  else if r.src = 3 then
    if disp = 0 then s.reissue r.ctx ⟨r.core, quayBerth, r.qt⟩ else stop s
  else s

/-- The records from `rp` on, `n` of them, each with the disposition byte that host memory holds. -/
def State.replayFrom (s : State) (vf : Nat) : Nat → State
  | 0 => s
  | n + 1 =>
    let x := s.vf vf
    let disp := (SMap.get 0 s.hostMem (x.fqbase.toNat + 64 * (x.fqRp.toNat % 2 ^ x.fqLg) + 5)).toNat
    let r := x.fqLive.find? fun r => r.index == x.fqRp.toNat
    let s := s.setVf vf { x with fqRp := x.fqRp + 1, fqLive := x.fqLive.filter fun y => y.index != x.fqRp.toNat }
    match r with
    | some r => (s.replay r disp).replayFrom vf n
    | none => s.replayFrom vf n

/-- The lanes of the records that the pointer passes. -/
def Vf.passedLanes (x : Vf) (n : Nat) : List LaneId :=
  (x.fqLive.filter fun r => decide (r.src ≤ 1) && decide ((BitVec.ofNat 32 r.index - x.fqRp).toNat < n)).flatMap FaultRec.laneIds

/-- REPLAY_POINTER_WRITE (R274, R275): the lanes that reissue enter the ring together (R228). -/
def execReplayPointerWrite (vf : Nat) (v : BitVec 32) (s : State) : Out :=
  let x := s.vf vf
  let n := (v - x.fqRp).toNat
  if (x.fqWr - x.fqRp).toNat < n then .next s else .next ((s.replayFrom vf n).joinAll (x.passedLanes n).eraseDups)

/-! ### Shoot-downs (R267, R272) -/

/-- A request from outside waits. -/
def State.defer (s : State) (i : Instr) : State := { s with deferred := s.deferred ++ [i] }

/-- What waited is tried again, before anything that comes later. -/
def State.retry (s : State) : State := { s with agenda := s.deferred ++ s.agenda, deferred := [] }

/-- A shoot-down of a VF begins: the translations and lines go, and what it waits for is noted, the writebacks that this has sent
among it (R272, steps 1 to 4). -/
def State.beginShoot (s : State) (d : Shootdown) : State :=
  let s := s.shootNow d.kind d.addr d.vf
  let d := { d with copies := s.shootCopies d.kind d.vf, pends := s.shootPends d.kind d.vf }
  { s with shootdowns := s.shootdowns ++ [d] }

/-- A shoot-down that a write of the VF's register starts; one that finds an earlier one on its way waits for it. -/
def State.registerShoot (s : State) (kind vf gpa : Nat) (i : Instr) : State :=
  if s.shootdowns.any fun d => d.register && d.vf == vf then s.defer i
  else (s.modVf vf fun x => { x with sdbusy := true }).beginShoot { kind := kind, ctx := 0, vf := vf, addr := gpa, register := true }

/-- STAGE2_SHOOTDOWN_GPA (R267). -/
def execStage2ShootdownGpa (vf gpa : Nat) (s : State) : Out := .next (s.registerShoot 2 vf gpa (.stage2ShootdownGpa vf gpa))

/-- STAGE2_SHOOTDOWN_VF (R267). -/
def execStage2ShootdownVf (vf : Nat) (s : State) : Out := .next (s.registerShoot 3 vf 0 (.stage2ShootdownVf vf))

/-- Every access that translated with a removed entry has been performed or has parked, and every copy that held a removed
translation has retired or parked. -/
def State.shootDone (s : State) (d : Shootdown) : Bool :=
  (d.copies.all fun p => match s.copy? p.1 p.2 with
    | none => true
    | some c => c.retired || c.parked) &&
  d.pends.all fun t => !(s.pendings.any fun p => p.ttag == t)

/-- Erase a slot (R343): the owner's dirty stack-cache lines of blocks that were last written under it are written back and
dropped; then the slot is empty. -/
def State.eraseSlot (s : State) (slot : Nat) : State :=
  match s.key? slot with
  | none => s
  | some k =>
    let gone (l : ScLine) : Bool :=
      decide (k.owner = some l.vf) && l.dirty &&
      (SMap.get (0, 0) s.blockKeys (blockOf (l.stack * 2 ^ 38 + l.off))).1 == k.gen
    let moored := (s.sc.filter fun l => gone l && l.moored).length
    let s := { s with sc := s.sc.filter fun l => !gone l, keys := SMap.set none s.keys slot none }
    match k.owner with
    | some v => s.modVf v fun x => { x with mused := x.mused - moored }
    | none => s

/-- Every slot that a VF owns is erased (R343). -/
def State.eraseOwned (s : State) (vf : Nat) : State :=
  (s.keys.filter fun p => (p.2.bind fun k => k.owner) == some vf).foldl (fun s p => s.eraseSlot p.1) s

/-- SHOOTDOWN_COMPLETION (R272). -/
def execShootdownCompletion (s : State) : Out :=
  match s.shootdowns.find? s.shootDone with
  | none => .next s
  | some d =>
    let s := { s with shootdowns := s.shootdowns.erase d }
    if d.register then .next (s.modVf d.vf fun x => { x with sdbusy := false }).retry
    else if d.erase then .next (s.eraseOwned d.vf)
    else .next (s.finish 4 d.lanes)

/-! ### The commands of R299 -/

/-- A command ends with a result; a write of 0x600 that waits for it goes on. -/
def State.result (s : State) (vf r : Nat) : State := (s.modVf vf fun x => { x with cmdResult := r }).retry

/-- All of them, where each is there. -/
def allSome {α : Type} : List (Option α) → Option (List α)
  | [] => some []
  | x :: t => x.bind fun a => (allSome t).map fun l => a :: l

def State.ownStack (s : State) (vf stack : Nat) : Bool := has (s.partDies (s.vfPart vf)) stack

/-- TRANSFER (R299, op 1). -/
def execTransfer (vf stack count : Nat) (s : State) : Out :=
  let c := s.cnt vf stack
  if !s.ownStack vf stack then .next (s.result vf 5)
  else if s.freeAt stack < count then .next (s.result vf 2)
  else if c.burst < c.held + count then .next (s.result vf 3)
  else
    let s := s.setFree stack (s.freeAt stack - count)
    .next ((s.adjust vf stack fun c => { c with pool := c.pool + count }).result vf 0)

/-- RECLAIM (R299, op 2). -/
def execReclaim (vf stack count : Nat) (s : State) : Out :=
  let c := s.cnt vf stack
  if !s.ownStack vf stack then .next (s.result vf 5)
  else if c.pool < count ∨ c.held < c.guar + count then .next (s.result vf 3)
  else
    let s := s.setFree stack (s.freeAt stack + count)
    .next ((s.adjust vf stack fun c => { c with pool := c.pool - count }).result vf 0)

/-- The 4,096 blocks of the frame that a command names; none when its operand is bad. -/
def State.frameBlocks (s : State) (vf : Nat) : Option (List Nat) :=
  let D := (s.vf vf).cmdAddr.toNat
  let p := (s.vfPart vf)
  if D % 2 ^ 21 ≠ 0 then none
  else allSome ((List.range 4096).map fun i => (s.mapDevice p (D + 512 * i)).map blockOf)

/-- Frames' worth of blocks that are assigned in a partition. -/
def State.assignedBlocks (s : State) (p : Nat) : Nat :=
  let st := s.partDies p
  (s.descs.filter fun d => d.2.owned && has st (blockStack d.1)).length

/-- The overcommit ratio refuses one frame more (R299, R311). -/
def State.overFull (s : State) (p : Nat) : Bool :=
  decide ((s.part p).ocr * (s.partDies p).length * 49152 < (s.assignedBlocks p / 4096 + 1) * 64)

/-- Change the descriptors of blocks. -/
def State.mapDescs (s : State) (bs : List Nat) (f : Nat → Desc → Desc) : State :=
  bs.foldl (fun s b => s.setDesc b (f b (s.desc b))) s

/-- ASSIGN (R299, op 3). -/
def execAssign (vf : Nat) (s : State) : Out :=
  match s.frameBlocks vf with
  | none => .next (s.result vf 5)
  | some bs =>
    if bs.any fun b => (s.desc b).owned then .next (s.result vf 4)
    else if s.overFull (s.vfPart vf) then .next (s.result vf 3)
    else .next ((s.mapDescs bs fun _ d => { d with owned := true, vf := vf, spread := flag (s.vf vf).cmdAddr.toNat 43 }).result vf 0)

/-- The blocks of a list in each stack that they lie in. -/
def perStack (bs : List Nat) : List (Nat × Nat) :=
  let st := (bs.map blockStack).eraseDups
  st.map fun x => (x, (bs.filter fun b => blockStack b == x).length)

/-- Blocks of one stack become raw, each in a run of 8 free sectors of its own (R292, DESIGN CHOICE, log 13). -/
def State.rawBlocks (s : State) (vf : Nat) (wide : Bool) (bs : List Nat) : State :=
  match bs with
  | [] => s
  | b :: _ =>
    let r := s.places 0 stackSectors 8 (s.liveRuns (blockStack b) b) bs.length
    (bs.zip r.1).foldl (fun s p => s.setDesc p.1
      { zf := true, owned := true, vf := vf, run := BitVec.ofNat 31 p.2, count := 8, codec := 3, spread := wide }) r.2

/-- ASSIGN_RAW (R299, op 4): raw, 8 sectors a block, reading zero until the first write. -/
def execAssignRaw (vf : Nat) (s : State) : Out :=
  match s.frameBlocks vf with
  | none => .next (s.result vf 5)
  | some bs =>
    if bs.any fun b => (s.desc b).owned then .next (s.result vf 4)
    else if s.overFull (s.vfPart vf) then .next (s.result vf 3)
    else if (perStack bs).any fun p => decide ((s.cnt vf p.1).pool < 8 * p.2) then .next (s.result vf 2)
    else
      let wide := flag (s.vf vf).cmdAddr.toNat 43
      let s := (perStack bs).foldl (fun s p => s.adjust vf p.1 fun c => { c with pool := c.pool - 8 * p.2, used := c.used + 8 * p.2 }) s
      .next (((perStack bs).foldl (fun s p => s.rawBlocks vf wide (bs.filter fun b => blockStack b == p.1)) s).result vf 0)

/-- The stack-cache lines of a block, of every tag, are dropped; a moored line's place returns to its VF. -/
def State.dropBlockLines (s : State) (b : Nat) : State :=
  let inside (l : ScLine) : Bool := l.stack == blockStack b && l.off / 512 == b * 512 % 2 ^ 38 / 512
  let gone := s.sc.filter inside
  let s := { s with sc := s.sc.filter fun l => !inside l }
  (gone.filter (·.moored)).foldl (fun s l => s.modVf l.vf fun x => { x with mused := x.mused - 1 }) s

/-- Release of one block (R301, step 1). -/
def State.releaseBlock (s : State) (b : Nat) : State :=
  let d := s.desc b
  let st := blockStack b
  let s := s.setFree st (s.freeAt st + d.count)
  let s := s.adjust d.vf st fun c => { c with used := c.used - d.count }
  let s := (s.resvs.filter fun r => r.block == b).foldl (fun s r => s.endResv b r.holder) s
  let s := s.setDesc b { d with scrub := true, zf := false, owned := false, count := 0, run := 0, spread := false }
  let kept (m : SMap Nat) : SMap Nat := m.filter fun p => p.1 != b && p.2 != b + 1
  { s with
    undecodable := s.undecodable.filter (· != b), moved := kept s.moved
    lastWrites := s.lastWrites.filter fun p => p.1 / 64 != b }.dropBlockLines b

/-- RELEASE (R301, op 5). -/
def execRelease (vf : Nat) (s : State) : Out :=
  match s.frameBlocks vf with
  | none => .next (s.result vf 5)
  | some bs =>
    if bs.all fun b => (s.desc b).owned && (s.desc b).vf == vf then .next ((bs.foldl State.releaseBlock s).result vf 0)
    else .next (s.result vf 4)

/-- The doubleword of a descriptor (R286). -/
def Desc.word (d : Desc) : Nat :=
  d.codec % 4 + 2 ^ 2 * d.count + (if d.scrub then 2 ^ 6 else 0) + (if d.fb then 2 ^ 7 else 0) + 2 ^ 8 * d.run.toNat +
  2 ^ 39 * (d.vf % 1024) + (if d.owned then 2 ^ 49 else 0) + if d.zf then 2 ^ 50 else 0

/-- READ_DESCRIPTOR (R299, op 6). -/
def execReadDescriptor (vf : Nat) (s : State) : Out :=
  let x := s.vf vf
  match s.mapDevice (s.vfPart vf) x.cmdAddr.toNat with
  | none => .next (s.result vf 5)
  | some a => .next ((s.setVf vf { x with cmdDesc := BitVec.ofNat 64 (s.desc (blockOf a)).word }).result vf 0)

/-! ### Discards (R300) -/

/-- An acknowledged inbound packet adds its GPA line to the VF's notice (R346). -/
def State.inNotice (s : State) (v ln : Nat) : State :=
  s.modVf v fun x =>
    let c := x.current.add ln
    if 256 < popCount c.sig 1024 then { x with previous := c, current := {}, epoch := x.epoch + 1 } else { x with current := c }

/-- One block: none stops the walk; the flag says that it was discarded. -/
def State.discardBlock (s : State) (v gpa : Nat) : Option Bool × State :=
  match s.stage2 v gpa with
  | (.error _, s) => (none, s)
  | (.ok e, s) =>
    if !e.w || e.cls == 3 then (none, s)
    else if !e.ce then (some false, s)
    else
      match s.mapDevice (s.vfPart v) e.addr with
      | none => (none, s)
      | some a =>
        let s := (List.range 4).foldl (fun s i => s.revokeOwner noTag (a + 128 * i)) s
        let q : HomeReq := { vf := v, gpa := gpa, key := e.key, ce := true, tc := 2, kind := .inbound false, fund := .none }
        let s := (s.homeWrite q a ((List.range 512).map fun i => (a + i, 0))).2
        let s := [1, 2, 3].foldl (fun s i => s.scAccess v 2 1 (a + 128 * i) (s.keyMark e.key)) s
        (some true, (List.range 4).foldl (fun s i => s.inNotice v (gpa / 128 + i)) s)

/-- One block of the walk of a discard: how many blocks it discarded, and whether the walk stops (R300). -/
def State.discardOne (s : State) (v gpa : Nat) : (Nat × Bool) × State :=
  match s.discardBlock v gpa with
  | (none, s) => ((0, true), s)
  | (some b, s) => ((if b then 1 else 0, false), s)

/-- DISCARD (R300) of the requester that wrote `go`, and the VF: the discard takes its place behind that requester's earlier
posted writes. Its walk is made there, a block at a time. -/
def execDiscard (go : Requester × Nat) (s : State) : Out :=
  let vf := go.2
  let x := s.vf vf
  if x.dcount = 0 then .next (s.setVf vf { x with dprog := 0, dstat := 3 })
  else
    let p : InPacket :=
      { req := go.1, line := x.dgpa.toNat, mask := 0, data := 0, write := s.inWrites, discard := some (x.dgpa.toNat, x.dcount.toNat) }
    .next { s.setVf vf { x with dprog := 0, dstat := 1, inbound := x.inbound ++ [p] } with inWrites := s.inWrites + 1 }

end Sys2Proof.Machine
end

