-- ==== Sys2Proof/Machine/Launch.lean ====
section
/-! DEFINITION. Launch queues: how the dispatcher takes a record, and what each kind of record does (R315 to R321, R364,
R365). -/

namespace Sys2Proof.Machine

/-- The dispatcher's own place in the TLBs: it belongs to no core. -/
abbrev noCore : Nat := 256

/-! ### Records (R315 to R318) -/

def queueReal : QueueId → Bool
  | .vf v q => decide (v < 1024) && decide (q < 16)
  | .pf p q => decide (p < 2) && decide (q < 16)

/-- The VF whose queue it is. -/
def queueVf : QueueId → Option Nat
  | .vf v _ => some v
  | .pf _ _ => none

/-- The block that a merge in `p` absorbs (R328); none where `p` cannot merge. -/
def State.mergePart (s : State) (p : Nat) : Option Nat :=
  if (s.part p).shape = 1 ∧ p % 2 = 0 ∧ (s.part (p + 1)).shape = 1 then some (p + 1)
  else if p = 0 ∧ (s.part 0).shape = 2 ∧ (s.part 2).shape = 2 then some 2
  else none

/-- A merge or split that has begun holds every queue of the VFs of its parts (R315, R328). -/
def State.quiesced (s : State) (q : QueueId) : Bool :=
  match queueVf q with
  | none => false
  | some v => (List.range 4).any fun p =>
    let b := s.vfPart v
    (s.part p).joining.isSome && (b == p || (decide ((s.part p).joining = some true) && decide (s.mergePart p = some b)))

/-- The dispatcher takes records of the queue (R309, R317). -/
def State.served (s : State) (q : QueueId) : Bool :=
  let x := s.queue q
  queueReal q && x.en && !x.stop && !s.quiesced q && x.head != x.tail &&
  (match q with
   | .vf v _ => (s.vf v).en
   | .pf _ _ => true)

/-- Address of a slot: a ring of the physical function always lies in host memory (R316). -/
def State.slotAddr (s : State) (q : QueueId) (n : BitVec 32) : Nat :=
  let x := s.queue q
  x.base.toNat + 128 * (n.toNat % 2 ^ x.lg)

def State.ringInHost (s : State) (q : QueueId) : Bool := (queueVf q).isNone || (s.queue q).host

/-- What the read of a slot gives. -/
inductive SlotRead
  | bytes (bs : List Byte)
  | unreadable
  /-- a page of host memory has been asked for (R339) -/
  | later
  deriving DecidableEq, Repr

/-- The 128 bytes of a slot. -/
def State.readSlot (s : State) (q : QueueId) (n : BitVec 32) : SlotRead × State :=
  let a := s.slotAddr q n
  let host (s : State) (h : Nat) : SlotRead × State :=
    if s.hostBad h 128 then (.unreadable, s) else (.bytes (readMap 0 s.hostMem h 128), s)
  if s.ringInHost q then host s a
  else
    let v := (queueVf q).getD 0
    match s.translateGpa v a .load with
    | (.error f, s) => (if f.waits then .later else .unreadable, s)
    | (.ok t, s) =>
      match t.target with
      | .device d =>
        let s := s.comeHome d
        if s.bad d then (.unreadable, s)
        else
          let r := s.readAt v 2 t.key d 128
          (.bytes r.1, r.2)
      | .host h => host s h
      | .fabric _ _ => (.unreadable, s)

/-- Bytes written into a record's own slot. -/
def State.writeSlot (s : State) (q : QueueId) (n : BitVec 32) (off : Nat) (bs : List Byte) : State :=
  let a := s.slotAddr q n + off
  if s.ringInHost q then s.post a bs
  else
    let v := (queueVf q).getD 0
    match s.translateGpa v a .store with
    | (.error _, s) => s
    | (.ok t, s) => (s.writePiece noCore (2 ^ 64) a { vf := v, gpa := t.gpa, key := t.key, ce := t.ce, tc := 2 } t bs).2

/-- Doubleword `i` of a record. -/
def recWord (bs : List Byte) (i : Nat) : Nat := ofBytes ((bs.drop (8 * i)).take 8)

def recKind (bs : List Byte) : Nat := recWord bs 0 % 256
def recPrio (bs : List Byte) : Nat := bits (recWord bs 0) 9 8

/-- What comes of a record. -/
inductive Verdict
  | taken (s : State)
  | bad (err : Nat)
  /-- the record waits at the head of its queue -/
  | hold
  /-- the same, once this has been noted -/
  | wait (s : State)

/-- The queue stops at head with an error (R315, R317). -/
def State.queueErr (s : State) (q : QueueId) (err : Nat) : State :=
  s.setQueue q { s.queue q with err := err, stop := true }

def slotsOf (kind : Nat) : Nat := if kind = 3 then 2 else 1

/-- Act on the record at the head of a queue when it is of this kind. A record that breaks its rules takes no effect. -/
def State.takeRecord (s : State) (q : QueueId) (kind : Nat) (act : State → List Byte → Verdict) : State :=
  if !s.served q then s
  else
    match s.readSlot q (s.queue q).head with
    | (.unreadable, s) => s.queueErr q 3
    | (.later, s) => s
    | (.bytes bs, s) =>
      if 6 < recKind bs then s.queueErr q 1
      else if recKind bs ≠ kind then s
      else
        match act s bs with
        | .hold => s
        | .wait s => s
        | .bad e => s.queueErr q e
        | .taken s => s.setQueue q { s.queue q with head := (s.queue q).head + BitVec.ofNat 32 (slotsOf kind) }

/-- Whether a ctxid names another VF than the queue's (R318, R319). -/
def queueForeign (q : QueueId) (ctxid : Nat) : Bool :=
  match q with
  | .vf v _ => bits ctxid 25 16 != v
  | .pf _ _ => false

/-- A record for a context that must exist. -/
def State.onCtx (s : State) (q : QueueId) (bs : List Byte) (f : Ctx → Verdict) : Verdict :=
  if queueForeign q (recWord bs 1) then .bad 2
  else
    match s.ctx? (recWord bs 1) with
    | none => .bad 4
    | some c => f c

/-! ### nop, set-layout, set-codebook, tear-down (R318, R321) -/

/-- NOP_RECORD (R318). -/
def execNopRecord (q : QueueId) (s : State) : Out := .next (s.takeRecord q 0 fun s _ => .taken s)

/-- The layout record of slot 2 with its ctxid filled in (R177). -/
def layoutWith (bs : List Byte) (ctx : Nat) : BitVec 1024 :=
  BitVec.ofNat 1024 (ofBytes (bs.take 16 ++ toBytes ctx 8 ++ bs.drop 24))

/-- SET_LAYOUT (R318, R177). -/
def execSetLayout (q : QueueId) (s : State) : Out :=
  .next (s.takeRecord q 3 fun s bs =>
    let x := s.queue q
    if (x.tail - x.head).toNat < 2 then .hold
    else
      match s.readSlot q (x.head + 1) with
      | (.unreadable, _) => .bad 3
      | (.later, s) => .wait s
      | (.bytes rec, s) => s.onCtx q bs fun c =>
        .taken (s.putCtx { c with layouts := SMap.set 0 c.layouts (recWord bs 2 % 65536) (layoutWith rec c.id) }))

/-- SET_CODEBOOK (R318, R186): on every core pair of the partition, once the matrix operations that were issued there before the
record have retired. -/
def execSetCodebook (q : QueueId) (s : State) : Out :=
  .next (s.takeRecord q 4 fun s bs => s.onCtx q bs fun c =>
    let x := s.queue q
    let from_ := (x.cbkSeq).getD s.matSeq
    let pairs := (s.partCores (s.partOf c.id)).filter isLeader
    if pairs.any fun k => (s.coreAt k).matQ.any fun o => decide (o.seq < from_) then .wait (s.setQueue q { x with cbkSeq := some from_ })
    else
      .taken (pairs.foldl (fun s k => s.modCore k fun k => k.loadSlot (recWord bs 2 % 32) c.id (BitVec.ofNat 256 (ofBytes ((bs.drop 32).take 32))))
        (s.setQueue q { x with cbkSeq := none })))

/-- A spawn of a context that the core issues next and that passes its checks. -/
def State.spawnComes (s : State) (ctx core : Nat) : Bool :=
  match (s.coreAt core).ring with
  | [] => false
  | e :: _ =>
    if e.ctx ≠ ctx then false
    else
      match (s.peek core ctx e.pc.toNat 4 .fetch).1 with
      | .bytes bs =>
        match decode (bs ++ [0, 0, 0, 0]), berthsOf (sortLanes e.lanes) with
        | .ok (.spawn pl a n g, _), b :: _ =>
          let i : Issue := { core := core, quay := false, ctx := ctx, pc := e.pc, lanes := (sortLanes e.lanes).filter fun l => l.berth == b }
          match execSpawn pl a n g { s with issue := some i } with
          | .next t => decide (((s.taskOf? core b).map (·.pending)).getD 0 < ((t.taskOf? core b).map (·.pending)).getD 0)
          | _ => false
        | _, _ => false
      | _ => false

/-- The spawns that reach the dispatcher in the cycle of a tear-down and are discarded whole (R192, R321): whether a core's next
spawn does is open. -/
def State.spawnsDiscarded (s : State) (ctx : Nat) : Nat × State :=
  ((s.cores.map (·.1)).filter (s.spawnComes ctx)).foldl (fun p _ =>
    let c := p.2.pickNat 2
    (p.1 + c.1, c.2)) (0, s)

/-- TEAR_DOWN (R321): the counts of discarded spawns, killed groups and dropped tasks go to the record's slot. -/
def execTearDown (q : QueueId) (s : State) : Out :=
  .next (s.takeRecord q 6 fun s bs => s.onCtx q bs fun c =>
    let n := s.spawnsDiscarded c.id
    let r := n.2.tearDown c.id
    .taken (r.2.2.writeSlot q (s.queue q).head 0x20 (toBytes n.1 8 ++ toBytes r.1 8 ++ toBytes r.2.1 8)))

/-- QUEUE_STOP_CLEAR (R315): clearing stop skips the record at head. -/
def execQueueStopClear (q : QueueId) (s : State) : Out :=
  let x := s.queue q
  if !queueReal q || !x.stop then .next s
  else
    let n := match (s.readSlot q x.head).1 with
      | .bytes bs => slotsOf (recKind bs)
      | _ => 1
    .next (s.setQueue q { x with stop := false, err := 0, cbkSeq := none, head := x.head + BitVec.ofNat 32 (min n (x.tail - x.head).toNat) })

/-! ### Launches (R319, R320, R364) -/

/-- Reserved fields of a launch record, and those that hold for a new context only (R319). -/
def launchLegal (bs : List Byte) (q : QueueId) (kind : Nat) : Bool :=
  let w := recWord bs
  bits (w 0) 63 12 == 0 && ((queueVf q).isNone || !flag (w 0) 10) && bits (w 1) 63 26 == 0 && !queueForeign q (w 1) &&
  bits (w 4) 63 48 == 0 && decide (bits (w 4) 31 0 ≤ 16777215) && bits (w 12) 2 1 == 0 &&
  (kind == 2 || (w 13 == 0 && w 14 == 0)) && bits (w 14) 63 16 == 0 && w 15 == 0

def newCtxLegal (bs : List Byte) : Bool :=
  let w := recWord bs
  w 5 % 4096 == 0 && w 6 % 4096 == 0 && decide (4096 ≤ w 6) && w 7 % 4096 == 0 && w 9 % 2 ^ 21 == 0 && w 10 % 16 == 0 &&
  decide (w 10 ≤ 65536)

/-- A gang identifier names exactly one valid entry (R362). -/
def State.gangNamed (s : State) (gid : Nat) : Bool := (s.gangs.filter fun p => p.2.valid && p.2.gid == gid).length == 1

/-- The gang field of a timed launch (R363, R364). -/
def State.gangLegal (s : State) (gid ctx : Nat) : Bool :=
  gid == 0 || (s.gangNamed gid && !(s.ctxs.any fun c => c.id != ctx && c.gang == gid) &&
    ((s.ctx? ctx).map fun c => c.gang == 0 || c.gang == gid).getD true)

/-- The context that a first launch creates (R320). -/
def newCtx (bs : List Byte) (q : QueueId) (id gid : Nat) : Ctx :=
  let d (i : Nat) : Word := BitVec.ofNat 64 (recWord bs i)
  { id := id, vf := bits id 25 16, priv := flag (recWord bs 0) 10, prio := recPrio bs, hbase := d 5, hsize := d 6,
    s1root := d 7, qentry := d 8, spill := d 9, ss := d 10, tvec := d 11, gang := gid, queue := some q }

/-- The root groups' frames and tasks; the tasks of a timed launch wait for its release. What completed launches of the context wrote
is in their notices (DEDUCED, log 162). -/
def State.addRoots (s : State) (c : Ctx) (d : TaskDesc) (bs : List Byte) (id size n : Nat) : List (Nat × Nat) → State
  | [] => s
  | (f, i) :: r =>
    let t : Task :=
      { ctx := c.id, frame := f, width := d.width, nreg := d.nreg, pair := d.pair, prio := recPrio bs, phase := .queued, notice := c.notice,
        origin := noCore, tix := i, nkid := n, desc := BitVec.ofNat 32 d.raw, entry := BitVec.ofNat 64 (recWord bs 2),
        arg := BitVec.ofNat 64 (recWord bs 3), granules := granulesOf size, launch := some id }
    (s.newTask noCore t).addRoots c d bs id size n r

/-- A legal launch record whose context exists by now (R320). -/
def State.launchIn (s : State) (q : QueueId) (kind gid : Nat) (bs : List Byte) (c : Ctx) : Verdict :=
  let entry := recWord bs 2
  let n := bits (recWord bs 4) 31 0
  if entry % 8 ≠ 0 then .bad 2
  else
    match s.peek noCore c.id (BitVec.ofNat 64 entry - 8).toNat 8 .load with
    | (.later _, s) => .wait s
    | (.fault _ _ _, _) => .bad 2
    | (.bytes ds, s) =>
      match taskDesc (ofBytes ds) with
      | none => .bad 2
      | some d =>
        let size := frameSize d.width d.nreg c.ss
        if d.nreg ≠ 16 * bits (recWord bs 4) 47 40 ∨ d.width ≠ 8 * 2 ^ bits (recWord bs 4) 33 32 then .bad 2
        else if fits (granulesOf size) [(c.hbase.toNat / 256, c.hsize.toNat / 256)] < n then .bad 2
        else if !s.heapHolds c n size then .hold
        else
          let fr := s.allocFrames c n size
          match fr.2.reserveFrames noCore c.id d.width d.nreg fr.1 with
          | .error f => if f.cause = 17 ∨ f.waits then .hold else .bad 2
          | .ok s =>
            let l : Launch :=
              { id := s.launchIds, queue := q, ctx := c.id, remaining := n, cpla := BitVec.ofNat 64 (recWord bs 12),
                irq := flag (recWord bs 0) 11, slot := (s.queue q).head.toNat,
                timed := if kind = 2 then some (BitVec.ofNat 64 (recWord bs 13), gid) else none
                frames := if kind = 2 then fr.1 else [] }
            let s := { s with launchIds := s.launchIds + 1 }.addRoots c d bs l.id size n (fr.1.zip (List.range n))
            let s := if kind = 2 then s else { s with waiting := s.waiting ++ fr.1.map fun f => (c.id, f) }
            if n = 0 ∧ kind = 1 then .taken (s.launchDone l) else .taken { s with launches := s.launches ++ [l] }

/-- A record that waits has not created its context (R317, R320). -/
def Verdict.without (ctx : Nat) : Verdict → Verdict
  | .wait s => .wait { s with ctxs := s.ctxs.filter fun c => !(c.id == ctx), tlb := s.tlb.filter fun e => !(e.ctx == ctx) }
  | v => v

/-- A launch record: it joins its context or creates it. -/
def State.launch (s : State) (q : QueueId) (kind : Nat) (bs : List Byte) : Verdict :=
  let id := recWord bs 1
  let gid := recWord bs 14
  if !launchLegal bs q kind then .bad 2
  else if kind = 2 ∧ !s.gangLegal gid id then .bad 2
  else
    match s.ctx? id with
    | some c => s.launchIn q kind gid bs c
    | none =>
      if !newCtxLegal bs then .bad 2
      else
        let c := newCtx bs q id gid
        ((s.putCtx c).launchIn q kind gid bs c).without id

/-- Within one priority the dispatcher takes a record of the physical function first (R316). -/
def State.behindPf (s : State) (q : QueueId) (prio : Nat) : Bool :=
  (queueVf q).isSome && (List.range 2).any fun p => (List.range 16).any fun n =>
    let x : QueueId := .pf p n
    s.served x &&
    (match s.readSlot x (s.queue x).head with
     | (.bytes bs, s) =>
       (recKind bs == 1 || recKind bs == 2) && recPrio bs == prio &&
       (match s.launch x (recKind bs) bs with
        | .hold => false
        | .wait _ => false
        | _ => true)
     | (_, _) => false)

def State.takeLaunch (s : State) (q : QueueId) (kind : Nat) : State :=
  s.takeRecord q kind fun s bs => if s.behindPf q (recPrio bs) then .hold else s.launch q kind bs

/-- LAUNCH (R319, R320). -/
def execLaunch (q : QueueId) (s : State) : Out := .next (s.takeLaunch q 1)

/-- TIMED_LAUNCH (R364): read and checked; its root groups wait for the instant of T. -/
def execTimedLaunch (q : QueueId) (s : State) : Out := .next (s.takeLaunch q 2)

/-! ### Gang-switch records (R365) -/

/-- The whole spill area of 576 MiB is mapped. -/
def State.spillLarge (s : State) (c : Ctx) : Bool :=
  (List.range 147456).all fun i => match (s.translate noCore c.id (c.spill.toNat + 4096 * i) .store).1 with
    | .ok _ => true
    | .error _ => false

/-- The member context of a gang on this package (R363). -/
def State.member (s : State) (gid : Nat) : Option Ctx := if gid = 0 then none else s.ctxs.find? fun c => c.gang == gid

def State.switchLegal (s : State) (q : QueueId) (bs : List Byte) : Bool :=
  let w := recWord bs
  let big (gid : Nat) : Bool := ((s.member gid).map s.spillLarge).getD true
  (queueVf q).isNone && bits (w 0) 63 12 == 0 && !flag (w 0) 8 && bits (w 2) 63 16 == 0 && bits (w 3) 63 16 == 0 &&
  (w 4 == 0 || w 4 % 16 == 1) && (List.range 11).all (fun i => w (i + 5) == 0) && (w 2 != w 3 || w 2 == 0) &&
  (w 2 == 0 || s.gangNamed (w 2)) && (w 3 == 0 || s.gangNamed (w 3)) && (!flag (w 0) 10 || (w 3 != 0 && big (w 3))) &&
  (!flag (w 0) 9 || (w 2 != 0 && big (w 2)))

/-- Change the valid entry of a gang. -/
def State.modGang (s : State) (gid : Nat) (f : Gang → Gang) : State :=
  match s.gangEntry gid with
  | none => s
  | some p => { s with gangs := SMap.set {} s.gangs p.1 (f p.2) }

/-- A report that concerns this switch (R369). -/
def Switch.about (w : Switch) (p : Packet) : Bool :=
  decide (p.opd0 = w.t) && bits p.opd1.toNat 15 0 == w.gout && bits p.opd1.toNat 31 16 == w.gin

def queuePort : QueueId → Nat
  | .vf _ _ => 0
  | .pf p _ => p

/-- GANG_SWITCH (R365): the switch is accepted, and both gangs are switch pending. -/
def execGangSwitch (q : QueueId) (s : State) : Out :=
  .next (s.takeRecord q 5 fun s bs =>
    if !s.switchLegal q bs then .bad 2
    else
      let w := recWord bs
      let x : Switch :=
        { t := BitVec.ofNat 64 (w 1), gout := w 2, gin := w 3, full := flag (w 0) 9, restore := flag (w 0) 10,
          irq := flag (w 0) 11, rpt := BitVec.ofNat 64 (w 4), port := queuePort q }
      let x := { x with reports := ((s.earlyReports.filter x.about).map (·.src)).eraseDups }
      let s := { s with earlyReports := s.earlyReports.filter fun p => !x.about p, switches := s.switches ++ [x] }
      .taken ((s.modGang (w 2) fun g => { g with gstate := 2 }).modGang (w 3) fun g => { g with gstate := 2 }))

end Sys2Proof.Machine
end

