-- ==== Sys2Proof/Machine/Partitions.lean ====
section
/-! DEFINITION. Hard partitions: the commands of a partition block (R310 to R313, R326 to R328). -/

namespace Sys2Proof.Machine

/-- Status of a partition's last command (R311). -/
def State.partStatus (s : State) (p status : Nat) : State := s.setPart p { s.part p with status := status }

/-- The VFs placed in a partition (R312), of the 1,024. -/
def State.vfsOf (s : State) (p : Nat) : List Nat := (List.range 1024).filter fun v => s.vfPart v == p

/-- Whether a queue is busy in the sense of R328. -/
def State.queueBusy (s : State) (q : QueueId) : Bool :=
  let x := s.queue q
  x.head != x.tail || s.ctxs.any fun c => decide (c.queue = some q) &&
    ((s.groups.any fun g => g.ctx == c.id) || (s.spilled.any fun y => y.ctx == c.id && !y.groups.isEmpty) ||
     (s.waiting.any fun w => w.1 == c.id) || (s.tasks.any fun t => t.ctx == c.id && decide (t.phase = .waiting)) || (s.launches.any fun l => l.ctx == c.id && !l.frames.isEmpty) ||
     (c.gang != 0 && s.spawnHeld.any fun p => p.gid == c.gang) ||
     (s.cores.any fun k => k.2.copies.any fun y => y.ctx == c.id && !y.retired))

/-- 16·VF + queue of the first busy queue of these VFs. -/
def State.firstBusy (s : State) (vs : List Nat) : Option Nat :=
  vs.findSome? fun v => (List.range 16).findSome? fun n => if s.queueBusy (.vf v n) then some (16 * v + n) else none

/-- A frame is assigned under a spread name on one of these stacks (R328, step 4). -/
def State.spreadOn (s : State) (stacks_ : List Nat) : Bool :=
  s.descs.any fun d => d.2.owned && d.2.spread && has stacks_ (blockStack d.1)

/-- Seal entries of the contexts of some VFs, each once: context, base and size. -/
def State.sealKeys (s : State) (vs : List Nat) : List (Nat × Nat × Nat) :=
  ((s.seals.filter fun e => has vs (s.vfOf e.ctx)).map fun e => (e.ctx, e.base, e.lg)).eraseDups

/-- Every die of `dies` holds an entry for each seal of these VFs, and no other die does (R328, step 6). -/
def State.spreadSeals (s : State) (vs dies : List Nat) : State :=
  let keys := s.sealKeys vs
  let keep := s.seals.filter fun e => !has vs (s.vfOf e.ctx) || has dies e.die
  let new := dies.flatMap fun d => (keys.filter fun k =>
    !(keep.any fun e => e.die == d && e.ctx == k.1 && e.base == k.2.1 && e.lg == k.2.2)).map fun k =>
      ({ die := d, ctx := k.1, base := k.2.1, lg := k.2.2 } : SealEntry)
  { s with seals := keep ++ new }

/-- Every TLB entry of these VFs is shot down (R328, step 7; R272, kind 3). -/
def State.dropTlb (s : State) (vs : List Nat) : State := vs.foldl (fun s v => s.shootNow 3 0 v) s

/-- A core that a partition takes receives the partition's split, as soon as its engines are idle (R250, R251). -/
def State.newSplit (s : State) (p : Nat) (cs : List Nat) : State :=
  cs.foldl (fun s c => (s.modCore c fun k => { k with splitTake := some (s.part p).dflt }).fallToLim c) s

/-- Islands of a block and shape, as a mask. -/
def islandMask (p shape : Nat) : BitVec 128 :=
  (shapeDies p shape).foldl (fun m d => (List.range 16).foldl (fun m i => m ||| bitAt (16 * d + i)) m) 0

/-! ### merge and split (R328) -/

/-- The upper block that a split of `p` makes active. -/
def State.splitPart (s : State) (p : Nat) : Option Nat :=
  if (s.part p).shape = 2 then some (p + 1) else if (s.part p).shape = 3 then some 2 else none

/-- Steps 2 to 5: a refusal, with its status and detail. -/
def State.quiesce (s : State) (vs stacks_ : List Nat) (sealMax : Nat) : Option (Nat × Nat) :=
  match s.firstBusy vs with
  | some d => some (2, d)
  | none => if s.spreadOn stacks_ then some (3, 0) else if 256 < sealMax then some (4, 0) else none

/-- A command of a partition block ends; a write of op that waits for it goes on (R311). -/
def State.partDone (s : State) (p status : Nat) : State :=
  (s.setPart p { s.part p with status := status, joining := none }).retry

def State.refusePart (s : State) (p : Nat) (r : Nat × Nat) : State :=
  (s.setPart p { s.part p with detail := if r.1 = 2 then r.2 else (s.part p).detail }).partDone p r.1

/-- Step 2 of R328: every queue of the parts' VFs is held from now on. -/
def State.beginJoin (s : State) (p : Nat) (merging : Bool) : State :=
  s.setPart p { s.part p with status := 1, joining := some merging }

/-- Join block `q` to block `p`. -/
def State.join2 (s : State) (p q : Nat) (vs : List Nat) : State :=
  let a := s.part p
  let b := s.part q
  let lent := a.lent ||| b.lent
  let took := a.borrowed ||| b.borrowed
  let self := lent &&& took &&& (islandMask p a.shape ||| islandMask q b.shape)
  let s := s.setPart q { b with shape := 0, margin := 0, lent := 0, borrowed := 0 }
  let s := s.setPart p
    { a with shape := a.shape + 1, margin := a.margin ||| b.margin, lent := lent &&& ~~~self, borrowed := took &&& ~~~self }
  let upper := (List.range 256).filter fun c => (islandMask q b.shape).getLsbD (c / 2)
  ((s.spreadSeals vs (shapeDies p (a.shape + 1))).dropTlb vs).newSplit p upper

/-- MERGE (R328, op 1): its first step begins the command, its second ends it. -/
def execMerge (p : Nat) (s : State) : Out :=
  match s.mergePart p with
  | none => .next (s.partDone p 5)
  | some q =>
    if (s.part p).joining ≠ some true then .next (s.beginJoin p true) else
    let vs := s.vfsOf p ++ s.vfsOf q
    match s.quiesce vs (s.partDies p ++ s.partDies q) (s.sealKeys vs).length with
    | some r => .next (s.refusePart p r)
    | none => .next ((s.join2 p q vs).partDone p 0)

/-- Whether a VF will lie in the upper part. -/
def State.goesUp (s : State) (q v : Nat) : Bool := decide (q ≤ (s.vf v).part)

/-- Every assigned frame of the partition's VFs lies in the part that its VF names. -/
def State.splitOk (s : State) (p q shape : Nat) : Bool :=
  let lo := shapeDies p shape
  let hi := shapeDies q shape
  s.descs.all fun d => !d.2.owned || !(has (lo ++ hi) (blockStack d.1)) ||
    has (if s.goesUp q d.2.vf then hi else lo) (blockStack d.1)

/-- SPLIT (R328, op 2): reverses a merge, in the same two steps. -/
def execSplit (p : Nat) (s : State) : Out :=
  match s.splitPart p with
  | none => .next (s.partDone p 5)
  | some q =>
    let a := s.part p
    let b := s.part q
    let sh := a.shape - 1
    let vs := s.vfsOf p
    if !s.splitOk p q sh then .next (s.partDone p 5)
    else if (s.part p).joining ≠ some false then .next (s.beginJoin p false)
    else
      match s.quiesce vs (s.partDies p) 0 with
      | some r => .next (s.refusePart p r)
      | none =>
        let up := vs.filter (s.goesUp q)
        let lo := vs.filter fun v => !s.goesUp q v
        let mine := islandMask p sh
        let theirs := islandMask q sh
        let s := s.setPart p { a with shape := sh, margin := a.margin &&& mine, lent := a.lent &&& mine }
        let s := s.setPart q { b with shape := sh, margin := a.margin &&& theirs, lent := a.lent &&& theirs, borrowed := 0 }
        let upper := (List.range 256).filter fun c => theirs.getLsbD (c / 2)
        .next (((((s.spreadSeals lo (shapeDies p sh)).spreadSeals up (shapeDies q sh)).dropTlb vs).newSplit q upper).partDone p 0)

/-! ### lend and revoke (R326, R327) -/

/-- Dies that have a link to each other (R10). -/
def dieLink (a b : Nat) : Bool :=
  (a / 4 == b / 4 && (a % 4 + 1 == b % 4 || b % 4 + 1 == a % 4)) || (a % 4 == b % 4 && a / 4 != b / 4)

/-- Two active partitions with a link between their dies. -/
def State.adjacent (s : State) (p q : Nat) : Bool :=
  p != q && (s.partDies p).any fun a => (s.partDies q).any fun b => dieLink a b

/-- Neither core of the pair has a group, a copy in flight or a served context (R326). -/
def State.pairIdle (s : State) (island : Nat) : Bool :=
  [2 * island, 2 * island + 1].all fun c =>
    !(s.groups.any fun g => g.core == c) && (s.coreAt c).copies.all (·.retired) && (s.coreAt c).qctx.isNone

def islands (m : BitVec 128) : List Nat := (List.range 128).filter m.getLsbD

def maskOf (l : List Nat) : BitVec 128 := l.foldl (fun m i => m ||| bitAt i) 0

def pairCores (l : List Nat) : List Nat := l.flatMap fun i => [2 * i, 2 * i + 1]

/-- LEND (R326, op 3). A core that changes hands keeps its split until it begins work for another context; the split falls to the new
owner's lim then (R250). -/
def execLend (p tgt : Nat) (s : State) : Out :=
  let a := s.part p
  if a.shape = 0 then .next s
  else if (s.part tgt).shape = 0 ∨ !s.adjacent p tgt then .next (s.partDone p 5)
  else
    let go := (islands (a.oper &&& a.margin &&& ~~~a.lent)).filter s.pairIdle
    let s := s.setPart p { a with lent := a.lent ||| maskOf go }
    let s := s.setPart tgt { s.part tgt with borrowed := (s.part tgt).borrowed ||| maskOf go }
    let s := (pairCores go).foldl (fun s c => s.modCore c fun k => { k with tenant := none }) s
    .next (s.partDone p 0)

/-- Everything on a core is spilled (R327). -/
def State.spillCore (s : State) (c : Nat) : State :=
  let s := match (s.coreAt c).rowA with
    | some x => s.spillA c x
    | none => s
  let s := match (s.coreAt c).rowW with
    | some x => s.spillW c x
    | none => s
  let s := match (s.coreAt c).rowC with
    | some x => s.spillC c x
    | none => s
  let s := (s.groups.filter fun g => g.core == c).foldl (fun s g => (s.putGroup { g with halted := true }).spillBerth { g with halted := true }) s
  let s := s.spillQuay c
  ((s.coreAt c).kicks.map (·.ctx)).foldl (fun s x => s.putSpilled (s.spillOf c x)) s

/-- A revoked core is emptied: what its accesses have still to do is done, its L1 is written back and dropped, its buffers and tiles
are zero. -/
def State.emptyCore (s : State) (c : Nat) : State :=
  let s := (s.pendings.filter fun p => p.core == c && p.isLate).foldl (fun s p => { s with pendings := s.pendings.erase p }.lateAnswer p) s
  let s := s.spillCore c
  let s := (s.l1.filter fun l => l.core == c).foldl State.evict s
  s.modCore c fun k =>
    { k with tenant := none, rowA := none, rowW := none, rowC := none, abuf := [], wbuf := [], tiles := [], pairCtx := none, ring := [] }

/-- Operations of the core that are still in flight and that go on by themselves: one that a fault has parked, or that waits until its
gang is in, does not hold the core (R327). -/
def State.coreBusy (s : State) (c : Nat) : Bool :=
  ((s.coreAt c).copies.any fun y => !y.retired && !y.parked && (!y.held || s.gangIn y.ctx)) || !(s.coreAt c).matQ.isEmpty

/-- No borrower runs anything more on these islands. -/
def State.takeBack (s : State) (m : BitVec 128) : State :=
  (List.range 4).foldl (fun s q => s.setPart q { s.part q with borrowed := (s.part q).borrowed &&& ~~~m }) s

/-- Every group on lent pairs halts, and no borrower runs anything more there. -/
def State.takePairs (s : State) (l : List Nat) : State := (pairCores l).foldl State.haltCore (s.takeBack (maskOf l))

/-- Whether their engines have still something to finish. -/
def State.pairsBusy (s : State) (l : List Nat) : Bool := (pairCores l).any s.coreBusy

/-- The pairs are emptied and return to their owner. -/
def State.returnPairs (s : State) (p : Nat) (l : List Nat) : State :=
  let s := (pairCores l).foldl State.emptyCore s
  s.setPart p { s.part p with lent := (s.part p).lent &&& ~~~(maskOf l) }

/-- REVOKE (R327, op 4): the lent pairs that oper names at the write are halted at once; they return when their engines have
finished. -/
def execRevoke (p : Nat) (s : State) : Out :=
  let a := s.part p
  if a.shape = 0 then .next s
  else
    let m := (a.taking).getD (a.oper &&& a.lent)
    let l := islands m
    let s := s.takePairs l
    if s.pairsBusy l then .next (s.setPart p { s.part p with taking := some m, status := 1 })
    else
      let s := s.returnPairs p l
      .next ((s.setPart p { s.part p with taking := none }).partDone p 0)

end Sys2Proof.Machine
end

