-- ==== Sys2Proof/Machine/Gangs.lean ====
section
/-! DEFINITION. The tideline, timed releases, gang switches, reports and stragglers (R358 to R376). -/

namespace Sys2Proof

/-- What the bytes of a context image say that another package wrote (R375): the spec gives them no format (DESIGN CHOICE,
DESIGN CHOICE, log 52). None where Pallan's restore can make nothing of it. -/
opaque Config.foreignImage : Nat → Option Machine.Image

end Sys2Proof

namespace Sys2Proof.Machine

/-! ### The tideline (R358 to R360) -/

/-- Units of the tideline in a nanosecond, and some spans of time. -/
abbrev nsUnits : Nat := 65536
abbrev usUnits : Nat := 1000 * 65536
abbrev msUnits : Nat := 1000000 * 65536
abbrev secUnits : Nat := 1000000000 * 65536

/-- The tideline changes its state; the harbourmaster reports it (R360, R389). -/
def State.tideState (s : State) (st : Nat) : State :=
  let old := s.tide.state
  if old = st then s
  else
    let s := { s with tide := { s.tide with state := st, lostAt := if st = 2 then s.tide.now else s.tide.lostAt } }
    s.event 2 old st

/-- A usable beacon has come within the last millisecond (R360). -/
def Tide.beaconsCome (t : Tide) : Bool := (t.lastBeacon.map fun b => decide (t.now < b + msUnits)).getD false

/-- PTP_SYNC (R359, R360): a Sync is accepted; `offset` is master time minus tideline in ns. Before the first lock the
master's time is far away: there the offset counts as steady when it stays within ±1 µs of the one before. -/
def execPtpSync (offset : Int) (s : State) : Out :=
  let t := s.tide
  if !t.en then .next s
  else
    let near := if t.everLocked then decide (offset.natAbs ≤ 1000) else decide ((offset - t.offset.toInt).natAbs ≤ 1000)
    let good := if near then t.good + 1 else 0
    let s := { s with tide := { t with offset := BitVec.ofInt 64 offset, good := good, lastSync := t.now } }
    if t.state = 1 then
      if near then .next { s with tide := { s.tide with slew := offset * nsUnits } }
      else .next ({ s with tide := { s.tide with good := 0, slew := 0 } }.tideState 2)
    else if good < 16 then .next s
    else if !t.everLocked ∧ 0 < offset then
      .next ({ s with tide := { s.tide with everLocked := true, now := t.now + offset.toNat * nsUnits, slew := 0,
                                            lastSync := t.now + offset.toNat * nsUnits } }.tideState 1)
    else .next ({ s with tide := { s.tide with everLocked := true, slew := offset * nsUnits } }.tideState 1)

def State.lockLost (s : State) : Bool := s.tide.state == 1 && decide (s.tide.lastSync + 2 * secUnits ≤ s.tide.now)

/-- LOCK_LOSS_TIMEOUT (R360): no Sync for 2 s. -/
def execLockLossTimeout (s : State) : Out :=
  if s.lockLost then .next ({ s with tide := { s.tide with good := 0, slew := 0 } }.tideState 2) else .next s

def State.holdoverOver (s : State) : Bool := s.tide.state == 2 && decide (s.tide.lostAt + 10 * secUnits ≤ s.tide.now)

/-- HOLDOVER_EXPIRY (R360): 10 s have elapsed. -/
def execHoldoverExpiry (s : State) : Out :=
  if s.holdoverOver then .next (s.tideState (if s.tide.beaconsCome then 3 else 4)) else .next s

def State.beaconsGone (s : State) : Bool :=
  (s.tide.state == 0 && decide (msUnits ≤ s.tide.now) || s.tide.state == 3) && !s.tide.beaconsCome

/-- BEACON_LOSS_TIMEOUT (R360): no usable beacon for 1 ms. -/
def execBeaconLossTimeout (s : State) : Out := if s.beaconsGone then .next (s.tideState 4) else .next s

/-- The valid gang entry of the lowest number (R373). -/
def State.firstGang (s : State) : Option Gang := (s.gangs.find? fun p => p.2.valid).map (·.2)

/-- TIME_BEACON (R373): a usable beacon; in state 3 the master's time is followed. -/
def execTimeBeacon (p : Packet) (s : State) : Out :=
  let st := bits p.opd1.toNat 18 16
  if p.kind ≠ 9 ∨ (st ≠ 1 ∧ st ≠ 2) ∨ s.deaf then .next s
  else
    let s := { s with tide := { s.tide with lastBeacon := some s.tide.now } }
    let s := if s.tide.state = 4 then s.tideState 3 else s
    if s.tide.state = 3 ∧ (s.firstGang.map fun g => g.master == p.src).getD false then
      let theirs := p.opd0.toNat * nsUnits + p.opd1.toNat % 65536 + SMap.get 0 s.hm.latency p.src * nsUnits
      .next { s with tide := { s.tide with slew := (theirs : Int) - (s.tide.now : Int) } }
    else .next s

def Gang.memberList (g : Gang) : List Nat := (List.range 512).filter g.members.getLsbD

def State.beaconDue (s : State) (i : Nat) : Bool :=
  let g := s.gang i
  g.valid && g.master == s.hm.pkgid && decide (g.beaconAt ≤ s.tide.now)

/-- BEACON_SEND (R373): every 100 µs the master sends its time to every other member. -/
def execBeaconSend (gang : Nat) (s : State) : Out :=
  let g := s.gang gang
  if !s.beaconDue gang then .next s
  else
    let p (m : Nat) : Packet :=
      { dst := m, src := s.hm.pkgid, kind := 9, opd0 := BitVec.ofNat 64 (s.tide.now / 65536)
        opd1 := BitVec.ofNat 64 (s.tide.now % 65536 + 65536 * s.tide.state) }
    let s := { s with gangs := SMap.set {} s.gangs gang { g with beaconAt := s.tide.now + 100 * usUnits } }
    .next ((g.memberList.filter (· != s.hm.pkgid)).foldl (fun s m => s.emit (p m)) s)

/-! ### The instant of T (R364, R366, R374) -/

/-- The coordinator of a gang. -/
def State.coordOf (s : State) (gid : Nat) : Nat := ((s.gangEntry gid).map fun g => g.2.coord).getD 0

/-- Whether a timed record acts: at the tideline, or in barrier mode at the coordinator's release (R374). -/
def State.due (s : State) (gid : Nat) (t : Word) : Bool :=
  if s.tide.state = 4 ∧ gid ≠ 0 ∧ s.coordOf gid ≠ s.hm.pkgid then
    s.releases.any fun r => r.1 == gid && decide (t.toNat ≤ r.2.toNat)
  else decide (t.toNat ≤ s.tlNow)

/-- The coordinator tells the other members of its gang that it acts on T (R374). -/
def State.sendReleases (s : State) (gid : Nat) (t : Word) : State :=
  if gid ≠ 0 ∧ s.coordOf gid = s.hm.pkgid then
    ((s.gangMembers gid).filter (· != s.hm.pkgid)).foldl (fun s m =>
      s.emit { dst := m, src := s.hm.pkgid, kind := 10, gid := gid, op := 2, opd0 := t }) s
  else s

/-- Cores whose tenant is the VF take up its halted groups and spilled rows again. -/
def State.wakeVf (s : State) (v : Nat) : State :=
  s.cores.foldl (fun s p =>
    if (s.coreAt p.1).tenant = some v then s.returnRows p.1 v else s) s

/-- Copies of a gang's member context that were let go on while it was out move again (R367). -/
def State.freeCopies (s : State) (gid : Nat) : State :=
  match s.member gid with
  | none => s
  | some c => s.cores.foldl (fun s p => s.modCore p.1 fun k =>
      { k with copies := k.copies.map fun y : Copy => if y.ctx = c.id then { y with held := false } else y }) s

/-- gstate as the host reads it: switch pending while an accepted switch of the gang has not acted (R365). -/
def State.settleGang (s : State) (gid : Nat) (isIn : Bool) (t : Word) : State :=
  let more := s.switches.any fun w => w.acted.isNone && (w.gout == gid || w.gin == gid)
  let s := s.modGang gid fun g => { g with isIn := isIn, lastT := t, gstate := if more then 2 else if isIn then 1 else 0 }
  if isIn then s.freeCopies gid else s

def Launch.due (l : Launch) (s : State) : Bool := (l.timed.map fun x => s.due x.2 x.1).getD false

/-- TIMED_RELEASE (R364). -/
def execTimedRelease (id : Nat) (s : State) : Out :=
  match s.launches.find? fun l => l.id == id && l.due s with
  | none => .next s
  | some l =>
    let t := ((l.timed).map (·.1)).getD 0
    let gid := ((l.timed).map (·.2)).getD 0
    let s := if gid = 0 then s else ((s.settleGang gid true t).wakeVf (s.vfOf l.ctx)).sendReleases gid t
    let s := { s with waiting := s.waiting ++ l.frames.map fun f => (l.ctx, f) }
    let l := { l with timed := none, frames := [] }
    if l.remaining = 0 then .next (s.launchDone l)
    else .next { s with launches := upsert (fun x => x.id == id) l s.launches }

/-! ### Full spill and restore (R375, R376) -/

def State.imageBase (_ : State) (c : Ctx) : Nat := c.spill.toNat + 0x20000000

/-- Every row of the context on every core is spilled (R375). -/
def State.spillAll (s : State) (ctx : Nat) : State :=
  (List.range 256).foldl (fun s c =>
    let s := if (s.coreAt c).rowA = some ctx then (s.spillA c ctx).modCore c fun k => { k with rowA := none, abuf := [] } else s
    let s := if (s.coreAt c).rowW = some ctx then (s.spillW c ctx).modCore c fun k => { k with rowW := none, wbuf := [] } else s
    let s := if (s.coreAt c).rowC = some ctx then (s.spillC c ctx).modCore c fun k => { k with rowC := none, tiles := [] } else s
    let s := (s.groups.filter fun g => g.core == c && g.ctx == ctx && !s.groupSignals g).foldl State.spillBerth s
    if (s.coreAt c).qctx = some ctx then s.spillQuay c else s) s

def State.imageOf (s : State) (c : Ctx) (t : Word) : Image :=
  { ctx := c.id, gid := c.gang, t := t, tasks := s.tasks.filter fun x => x.ctx == c.id
    waiting := s.waiting.filter fun w => w.1 == c.id, layouts := c.layouts
    seals := (s.sealKeys [c.vf]).filterMap fun k => if k.1 = c.id then some k.2 else none
    barriers := s.barriers.filter fun b => b.ctx == c.id
    timelines := s.cores.map fun k => (k.1, k.2.timeline)
    cores := s.spilled.filter fun x => x.ctx == c.id
    codebook := s.cores.flatMap fun k => k.2.codebook.filterMap fun e => match e.2 with
      | some x => if has x.1 c.id then some (k.1, e.1, x.2) else none
      | none => none }

/-- The first 32 bytes of an image. -/
def imageHeadBytes (c : Ctx) (t : Word) (complete : Nat) : List Byte :=
  toBytes c.id 8 ++ toBytes c.gang 8 ++ toBytes t.toNat 8 ++ toBytes complete 8

/-- A full spill at the instant of T: every row, and an image that is not complete yet. A spill that fails tears the context down (R324,
R375). -/
def State.fullSpill (s : State) (c : Ctx) (t : Word) : State :=
  let s := s.spillAll c.id
  match s.ctx? c.id with
  | none => s
  | some c =>
    match s.spillBytes noCore c.id (s.imageBase c) (imageHeadBytes c t 0) with
    | none => s.spillFailed c.id
    | some s => s

/-- The T of a complete image whose first 32 bytes lie at its place in memory. -/
def State.imageHead (s : State) (c : Ctx) : Option Word × State :=
  match s.frameRead noCore c.id (s.imageBase c) 4 with
  | (some [a, b, t, d], s) => (if a.toNat = c.id ∧ b.toNat = c.gang ∧ d = 1 then some t else none, s)
  | (_, s) => (none, s)

/-- What the image in memory says: what this package wrote, or the content of an image that came from another package, a free
value (DESIGN CHOICE, log 52). Where software has changed it, either it is read as written or there is none (R324). -/
def State.imageAt (s : State) (c : Ctx) : Option Image × State :=
  match s.imageHead c with
  | (none, s) => (none, s)
  | (some t, s) =>
    match s.images.find? fun i => i.ctx == c.id && i.gid == c.gang && decide (i.t = t) with
    | none =>
      ((Config.foreignImage s.freeCount).map fun i => { i with ctx := c.id, gid := c.gang, t := t }, { s with freeCount := s.freeCount + 1 })
    | some i =>
      if i.mark.all s.markSound then (some i, s)
      else
        let r := s.choose [some i, none]
        (r.1.join, r.2)

/-- A core image comes back to the spilled state; it is restored when its context's VF is tenant (R325, R327). -/
def State.putCoreImage (s : State) (c : Ctx) (x : Spilled) : State :=
  if (s.spilled.any fun y => y.core == x.core && y.ctx == c.id) then s
  else s.putSpilled { x with ctx := c.id, image := [] }

/-- Whether this package is the spare of a gang: its member context is new and has run nothing (R376, DEDUCED, log 159). -/
def State.isSpare (s : State) (c : Ctx) : Bool :=
  !(s.tasks.any fun t => t.ctx == c.id) && !(s.spilled.any fun x => x.ctx == c.id) && !(s.groups.any fun g => g.ctx == c.id)

/-- The tasks of an image come back, and their frames reserve their blocks as at an allocation (R396). A frame whose blocks cannot be
reserved stops the context (DESIGN CHOICE, log 169). -/
def State.restoreTasks (s : State) (ctx : Nat) : List Task → Except FrameFail State
  | [] => .ok s
  | t :: r =>
    if t.ctx ≠ ctx || (s.task? t.ctx t.frame).isSome then s.restoreTasks ctx r
    else
      match (s.putTask t).reserveFrame noCore ctx t.frame t.width t.nreg (t.trap.map (·.trec)) with
      | .error f => .error f
      | .ok s => s.restoreTasks ctx r

/-- The context resumes from its image; without one it stops (R324, R376). -/
def State.restoreImage (s : State) (c : Ctx) : Bool × State :=
  match s.imageAt c with
  | (none, s) => (false, s.stopCtx c.id { cause := 18 })
  | (some i, s) =>
    let s := s.putCtx { c with layouts := i.layouts }
    let dies := s.partDies (s.partOf c.id)
    let s := dies.foldl (fun s d => i.seals.foldl (fun s k =>
      if s.seals.any fun e => e.die == d && e.ctx == c.id && e.base == k.1 && e.lg == k.2 then s
      else { s with seals := s.seals ++ [{ die := d, ctx := c.id, base := k.1, lg := k.2 }] }) s) s
    let s := (i.barriers.filter fun b => b.ctx == c.id).foldl State.putBarrier s
    let s := i.timelines.foldl (fun s k => s.modCore k.1 fun x => { x with timeline := max x.timeline k.2, stamped := max x.stamped k.2 }) s
    let s := i.codebook.foldl (fun s k => s.modCore k.1 fun x => x.loadSlot k.2.1 c.id k.2.2) s
    match s.restoreTasks c.id i.tasks with
    | .error f => (false, s.stopCtx c.id { cause := f.cause, sub := f.sub })
    | .ok s =>
      let s := i.cores.foldl (fun s x => s.putCoreImage c x) s
      (true, { s with waiting := (i.waiting.filter fun w => w.1 == c.id).foldl addOnce s.waiting })

/-! ### The switch (R366 to R372) -/

/-- The gang whose entry a switch's stragglers are recorded in (R371). -/
def Switch.gang (w : Switch) : Nat := if w.gin ≠ 0 then w.gin else w.gout

/-- The gang whose coordinator releases a switch on this package: the incoming one, where the package is a member of it, else
the outgoing (R374, DEDUCED, log 111). -/
def State.governs (s : State) (w : Switch) : Nat :=
  if w.gin ≠ 0 ∧ (w.gout = 0 ∨ has (s.gangMembers w.gin) s.hm.pkgid) then w.gin else w.gout

def State.switchDue (s : State) (w : Switch) : Bool := w.acted.isNone && s.due (s.governs w) w.t

/-- The other members of either gang. -/
def State.otherMembers (s : State) (w : Switch) : List Nat :=
  ((s.gangMembers w.gout ++ s.gangMembers w.gin).eraseDups).filter (· != s.hm.pkgid)

def State.outstanding (s : State) (w : Switch) : List Nat := (s.otherMembers w).filter fun m => !has w.reports m

/-- 20 µs after T (R371), in ns. -/
def Switch.deadline (w : Switch) : Nat := w.t.toNat + 20000

def Switch.late (w : Switch) : Bool := (w.acted.map fun a => decide (w.deadline < a)).getD false

def State.setSwitch (s : State) (idx : Nat) (w : Switch) : State := { s with switches := s.switches.set idx w }

/-- The image of a full spill is complete: every operation of either side has landed, so that it holds what came after T (R367, R375). A
gang that is in again has none. -/
def State.completeImage (s : State) (idx : Nat) : State :=
  match nth? s.switches idx with
  | none => s
  | some w =>
    if !w.full || w.sdone || !w.reportSent || !(s.outstanding w).isEmpty then s
    else
      match s.member w.gout with
      | none => s
      | some c =>
        if s.gangIn c.id then s
        else
          let s := s.spillAll c.id
          match (s.spillBytes noCore c.id (s.imageBase c) (imageHeadBytes c w.t 1)).bind fun s =>
            s.writeOpaque noCore c.id (s.imageBase c + 512) with
          | none => s.spillFailed c.id
          | some r =>
            let i : Image := { r.2.imageOf c w.t with mark := r.1 }
            { r.2 with images := (r.2.images.filter fun i : Image => i.ctx != c.id) ++ [i] }.setSwitch idx { w with sdone := true }

def bitIf (b : Bool) (n : Nat) : Nat := if b then 2 ^ n else 0

/-- The 16 bytes at rpt, and MSI-X (R372). -/
def State.writeRpt (s : State) (idx : Nat) : State :=
  match nth? s.switches idx with
  | none => s
  | some w =>
    match w.acted with
    | none => s
    | some a =>
      let out := (s.outstanding w).length
      let all := out == 0
      let fl := 1 + bitIf w.late 1 + bitIf w.strag 2 + bitIf w.barrier 3 + bitIf w.beacon 4 + bitIf all 5 +
        bitIf (w.sdone && all) 6 + bitIf w.rdone 7
      if w.rpt = 0 then s
      else
        let s := s.post (w.rpt.toNat - 1) (toBytes a 8 ++ toBytes (fl + 2 ^ 32 * out) 8)
        if w.irq then s.msixPf w.port else s

/-- Step 1 of R366: the context's groups halt in place, and the cores on which it was tenant end their slices. -/
def State.haltCtx (s : State) (ctx : Nat) : State :=
  let on (c : Nat) : Bool := (s.groups.any fun g => g.core == c && g.ctx == ctx && !g.halted) || decide ((s.coreAt c).qctx = some ctx)
  (List.range 256).foldl (fun s c =>
    if on c && decide ((s.coreAt c).tenant = some (s.vfOf ctx)) then (s.haltCore c).modCore c fun k => { k with tenant := none } else s) s

/-- GANG_SWITCH_INSTANT (R366): halt the outgoing member, switch the gangs, spill and restore as the record asks. -/
def State.actSwitch (s : State) (idx : Nat) (w : Switch) : State :=
  let now := s.tlNow
  let out := s.member w.gout
  let s := match out with
    | some c => s.haltCtx c.id
    | none => s
  let w := { w with acted := some now, barrier := s.tide.state == 4, beacon := s.tide.state == 3 }
  let s := s.setSwitch idx w
  let s := (s.settleGang w.gout false w.t).settleGang w.gin true w.t
  let s := (s.sendReleases w.gin w.t).sendReleases w.gout w.t
  let s := match out with
    | some c => if w.full then s.fullSpill c w.t else s
    | none => s
  let s := match s.member w.gin with
    | some c =>
      let r := if w.restore && s.isSpare c then s.restoreImage c else (false, s)
      let w := (nth? r.2.switches idx).getD w
      (r.2.setSwitch idx { w with rdone := r.1 }).wakeVf c.vf
    | none => s
  if w.timedOut then s.writeRpt idx else s

def execGangSwitchInstant (idx : Nat) (s : State) : Out :=
  match nth? s.switches idx with
  | none => .next s
  | some w => if s.switchDue w then .next (s.actSwitch idx w) else .next s

/-- Bytes of a line that are still to go to another package. -/
def L1Line.owesFabric (l : L1Line) : Bool :=
  !(l.dirty == 0) && (match l.home with
    | .fabric _ _ => true
    | _ => false)

/-- Every operation of the context has retired, and been acknowledged (R368). -/
def State.ctxQuiet (s : State) (ctx : Nat) : Bool :=
  !(s.l1.any fun l => l.ctx == ctx && l.owesFabric) &&
  !(s.pendings.any fun p => p.ctx == ctx && p.packet.kind != 2) && !(s.threads.any fun t => t.ctx == ctx && s.signalling t) &&
  !(s.cores.any fun k => (k.2.copies.any fun c => c.ctx == ctx) || k.2.matQ.any fun o => o.ctx == ctx)

def State.reportDue (s : State) (w : Switch) : Bool :=
  w.acted.isSome && !w.reportSent && ((s.member w.gout).map fun c => s.ctxQuiet c.id).getD true

/-- REPORT_SEND (R368): to every other member of both gangs; the image of a full spill can be complete with it. -/
def execReportSend (idx : Nat) (s : State) : Out :=
  match nth? s.switches idx with
  | none => .next s
  | some w =>
    if !s.reportDue w then .next s
    else
      let p (m : Nat) : Packet :=
        { dst := m, src := s.hm.pkgid, kind := 10, gid := w.gang, op := 1, opd0 := w.t
          opd1 := BitVec.ofNat 64 (w.gout + 2 ^ 16 * w.gin + bitIf w.late 32) }
      .next (((s.otherMembers w).foldl (fun s m => s.emit (p m)) (s.setSwitch idx { w with reportSent := true })).completeImage idx)

def State.stragglersDue (s : State) (w : Switch) : Bool := !w.timedOut && decide (w.deadline ≤ s.tlNow)

/-- STRAGGLER_TIMEOUT (R371, R372): members that have not reported by T + 20 µs. -/
def execStragglerTimeout (idx : Nat) (s : State) : Out :=
  match nth? s.switches idx with
  | none => .next s
  | some w =>
    if !s.stragglersDue w then .next s
    else
      let late := s.outstanding w
      let s := match late with
        | [] => s
        | m :: _ =>
          let s := s.modGang w.gang fun g =>
            { g with nstrag := BitVec.ofNat 32 (min (g.nstrag.toNat + late.length) (2 ^ 32 - 1)), sv := true, strag := m }
          late.foldl (fun s m => s.event 3 w.gang m) s
      .next ((s.setSwitch idx { w with timedOut := true, strag := !late.isEmpty }).writeRpt idx)

/-- Packets whose report has come leave in their order (R370). -/
def State.releaseHeld (s : State) : State :=
  let ps := s.heldPackets
  ps.foldl (fun s p => s.emit p) { s with heldPackets := [] }

/-- The last switch that a report is about. -/
def lastAbout (p : Packet) : Nat → List Switch → Option Nat
  | _, [] => none
  | i, w :: t =>
    match lastAbout p (i + 1) t with
    | some j => some j
    | none => if w.about p then some i else none

/-- GANG_REPORT (R368 to R372). -/
def execGangReport (p : Packet) (s : State) : Out :=
  if p.kind ≠ 10 ∨ p.op ≠ 1 ∨ s.deaf then .next s
  else
    match lastAbout p 0 s.switches with
    | none => .next { s with earlyReports := addOnce s.earlyReports p }
    | some i =>
      match nth? s.switches i with
      | none => .next s
      | some w =>
        if has w.reports p.src then .next s
        else
          let s := ((s.setSwitch i { w with reports := w.reports ++ [p.src] }).completeImage i).releaseHeld
          if w.timedOut then .next (s.writeRpt i) else .next s

/-- GANG_RELEASE (R374): the coordinator's, kept until the record that it releases acts. -/
def execGangRelease (p : Packet) (s : State) : Out :=
  if p.kind ≠ 10 ∨ p.op ≠ 2 ∨ s.deaf ∨ p.src ≠ s.coordOf p.gid then .next s else .next { s with releases := addOnce s.releases (p.gid, p.opd0) }

end Sys2Proof.Machine
end

