-- ==== Sys2Proof/Machine/Fabric.lean ====
section
/-! DEFINITION. The Bruolm fabric: what arrives from other packages, and what the links do (R348 to R353, R369, R193,
R204, R373). -/

namespace Sys2Proof.Machine

/-! ### The destination of a request (R350, R352) -/

/-- The enabled VF with a fabric tag. -/
def State.vfByTag (s : State) (tag : Nat) : Option Nat := (s.vfs.find? fun p => p.2.fen && p.2.ftag == tag).map (·.1)

/-- An answer goes back with a status. It repeats the transaction tag and the destination GPA (R349). -/
def State.reply (s : State) (p : Packet) (kind status : Nat) (f : Packet → Packet) : State :=
  s.emit (f { kind := kind, dst := p.src, src := s.hm.pkgid, ftag := p.ftag, ttag := p.ttag, gpa := p.gpa, status := status })

/-- A packet whose tag names no enabled VF is discarded, counted and reported (R350, R389). -/
def State.discardPacket (s : State) : State :=
  let n := s.hm.discards + 1
  { s with hm := { s.hm with discards := n } }.event 7 s.hm.pkgid n

/-- Earlier posted writes of a requester through the ordering point of a VF that are not acknowledged (R345). -/
def State.behindWrites (s : State) (v : Nat) (r : Requester) : Bool :=
  s.vfs.any fun p => s.vfPort p.1 == s.vfPort v && p.2.inbound.any fun x => decide (x.req = r)

/-- The packets of a posted write take their places at the ordering point (R345). -/
def State.postPackets (s : State) (v : Nat) (ps : List InPacket) : State :=
  { s.modVf v fun x => { x with inbound := x.inbound ++ ps } with inWrites := s.inWrites + 1 }

/-- Where an access of another package ends; class 3 fails at the destination (R352). The error is the status. -/
def State.fabricTarget (s : State) (v gpa : Nat) (acc : Acc) : Except TFail (Nat × Trans) × State :=
  match s.translateGpa v gpa acc with
  | (.error f, s') => (.error f, if f.waits then s else s')
  | (.ok t, s) =>
    match t.target with
    | .device a => (.ok (a, t), s)
    | _ => (.error ⟨5, BitVec.ofNat 64 gpa⟩, s)

/-- FABRIC_READ (kind 1). A package that is in recovery or has stopped serves none of what the fabric brings (R382, R385). -/
def execFabricRead (p : Packet) (s : State) : Out :=
  if s.deaf then .next s else
  match s.vfByTag p.ftag with
  | none => .next (s.discardPacket.reply p 2 4 id)
  | some v =>
    if s.behindWrites v (.fabric p.src p.ftag) then .next (s.defer (.fabricRead p))
    else
      let ln := p.gpa / 128 * 128
      match s.fabricTarget v ln .load with
      | (.error _, s) => .next (s.reply p 2 1 id)
      | (.ok x, s) =>
        let s := s.comeHome x.1
        if s.bad x.1 then .next (s.reply p 2 3 id)
        else
          let r := s.readAt v 2 x.2.key x.1 128
          .next (r.2.reply p 2 0 fun q => { q with data := BitVec.ofNat 1536 (ofBytes r.1) })

/-- A posted write takes its place at the ordering point, one line (R345). -/
def State.postLine (s : State) (v : Nat) (p : Packet) (mask : BitVec 128) (data : BitVec 1024) (red : Option Nat) : State :=
  s.postPackets v [{ req := .fabric p.src p.ftag, line := p.gpa / 128 * 128, mask := mask, data := data, write := s.inWrites,
                     red := red, reply := some p }]

def State.fabricPosted (s : State) (p : Packet) (mask : BitVec 128) (data : BitVec 1024) (red : Option Nat) : Out :=
  if s.deaf then .next s else
  match s.vfByTag p.ftag with
  | none => .next (s.discardPacket.reply p 4 4 id)
  | some v => .next (s.postLine v p mask data red)

/-- FABRIC_WRITE (kind 3). -/
def execFabricWrite (p : Packet) (s : State) : Out := s.fabricPosted p p.mask (p.data.setWidth 1024) none

/-- REDUCE_WRITE (kind 7). -/
def execReduceWrite (p : Packet) (s : State) : Out := s.fabricPosted p p.mask (p.data.setWidth 1024) (some p.op)

/-- SIGNAL_PACKET (kind 8): an inbound write of the stamp (R353). -/
def execSignalPacket (p : Packet) (s : State) : Out :=
  let o := p.gpa % 128
  s.fabricPosted p (byteMask o 8) (BitVec.ofNat 1024 (p.opd0.toNat * 2 ^ (8 * o))) none

/-- The operation of an atomic packet (R349) on `n` bytes: the new value, if it writes one. -/
def packetOp (p : Packet) (n old : Nat) : Option Nat :=
  let v := p.opd0.toNat % 2 ^ (8 * n)
  if p.op = 12 then (if old = v then some (p.opd1.toNat % 2 ^ (8 * n)) else none)
  else if p.op = 13 then (if old = p.data.toNat % 2 ^ 128 then some (p.data.toNat / 2 ^ 128 % 2 ^ 128) else none)
  else
    let ops : List AtomOp := [.add, .smin, .smax, .umin, .umax, .and, .or, .xor, .exch, .fadd, .fmax, .famax]
    (nth? ops p.op).map fun op => atomApply op (8 * n) old v

/-- An atomic at its home, for an agent without an L1: the old value (R351). -/
def State.atomHome (s : State) (v : Nat) (t : Trans) (a n : Nat) (k : WriteKind) (f : Nat → Option Nat) : Nat × Fate × State :=
  let s := s.giveUp a
  let old := ofBytes (s.viewBytes v t.key a n)
  match f old with
  | none => (old, .done, s.scAccess v 2 2 a (s.viewMark v t.key a))
  | some w =>
    let r := s.homeWrite { vf := v, gpa := t.gpa, key := t.key, ce := t.ce, tc := 2, kind := k, atomic := true } a (withAddrs a (toBytes w n))
    (old, r.1, r.2)

/-- FABRIC_ATOMIC (kind 5). -/
def execFabricAtomic (p : Packet) (s : State) : Out :=
  if s.deaf then .next s else
  match s.vfByTag p.ftag with
  | none => .next (s.discardPacket.reply p 6 4 id)
  | some v =>
    if s.behindWrites v (.fabric p.src p.ftag) then .next (s.defer (.fabricAtomic p))
    else
      let n := if p.size = 0 then 4 else if p.size = 1 then 8 else 16
      match s.fabricTarget v p.gpa .atomic with
      | (.error _, s) => .next (s.reply p 6 1 id)
      | (.ok x, s) =>
        let s := s.giveUp x.1
        if s.bad x.1 then .next (s.reply p 6 3 id)
        else
          match s.atomHome v x.2 x.1 n .plain (packetOp p n) with
          | (_, .refused, s) => .next (s.reply p 6 2 id)
          | (old, _, s) =>
            .next ((s.inNotice v (p.gpa / 128)).reply p 6 0 fun q => { q with size := p.size, opd0 := BitVec.ofNat 64 old, opd1 := BitVec.ofNat 64 (old / 2 ^ 64) })

/-! ### What comes back (R349, R352) -/

/-- The request that an answer is for. -/
def State.pendingFor (s : State) (p : Packet) (kinds : List Nat) : Option Pending :=
  s.pendings.find? fun q => q.ttag == p.ttag && q.packet.dst == p.src && has kinds q.packet.kind

def State.dropPending (s : State) (q : Pending) : State := { s with pendings := s.pendings.erase q }

/-- The GPA of the record of a failed request: the destination's where the destination answered (R352), the access's own where it
stays unreachable (R276, R348). -/
def Pending.failGpa (q : Pending) (status off : Nat) : Word := BitVec.ofNat 64 (if status = 5 then q.agpa else q.packet.gpa + off)

/-- The requester learns that its read or atomic failed. -/
def State.failPending (s : State) (q : Pending) (status : Nat) : State :=
  let s := s.dropPending q
  let f := statusFault status
  match q.lane, q.copy with
  | some l, _ =>
    let g := q.failGpa status (if q.packet.kind = 1 then q.off else 0)
    let e : Arrival := .error f.1 f.2 g
    s.answer l q.ctx (2 * q.ttag + 1) [e, e]
  | none, some num =>
    match s.copy? q.core num with
    | some c => s.parkCopy q.core c ⟨f.1, f.2, q.fva.toNat, q.failGpa status 0⟩
    | none => s
  | none, none =>
    { s with pendings := s.pendings ++ [{ q with packet := { q.packet with kind := 2, status := status } }] }

/-- A line of another package comes into the L1: bytes that are not dirty take its value (R351). -/
def State.fillFabric (s : State) (q : Pending) (data : BitVec 1024) : State :=
  let ln := lineOf q.fva.toNat
  let all := BitVec.allOnes 128
  match s.line? q.core q.ctx ln with
  | some l => s.putLine { l with data := blend data l.data l.dirty, valid := all }
  | none =>
    (s.makeRoom q.core).putLine
      { core := q.core, ctx := q.ctx, line := ln, gpa := q.agpa / 128 * 128, home := .fabric q.packet.dst q.packet.gpa,
        vf := s.vfOf q.ctx, valid := all, data := data }

/-- The window of an `ld.d.ext` takes the home's value and leaves no copy (R351, R353). -/
def State.extWindow (s : State) (l : LaneId) (ctx tag : Nat) : Bool :=
  let ts := if (s.thread l).ctx = ctx then [s.thread l] else []
  let ts := ts ++ s.spilled.flatMap fun x => (x.groups.flatMap (·.2)).filter fun t => decide (t.id = l) && t.ctx == ctx
  ts.any fun t => t.windows.any fun w => w.tag == tag && w.closing.ext

/-- A read response: the line fills the L1, the lane's window, or the copy that waits. -/
def State.takeRead (s : State) (q : Pending) (data : BitVec 1024) : State :=
  let s := s.dropPending q
  match q.lane, q.copy with
  | some l, _ =>
    let tag := 2 * q.ttag + 1
    let s := if q.stale || s.extWindow l q.ctx tag then s else s.fillFabric q data
    let bs := q.blended q.off ((toBytes data.toNat 128).drop q.off |>.take q.bytes)
    s.answer l q.ctx tag [.value (extendTo q.signed q.bytes (ofBytes bs))]
  | none, some num =>
    match s.copy? q.core num with
    | some c => s.putCopy q.core { c with fetched := c.fetched ++ [(q.packet.dst, q.packet.gpa, data)] }
    | none => s
  | none, none => if q.stale then s else s.fillFabric q data

/-- FABRIC_READ_RESPONSE (kind 2). -/
def execFabricReadResponse (p : Packet) (s : State) : Out :=
  match s.pendingFor p [1] with
  | none => .next s
  | some q => if p.status = 0 then .next (s.takeRead q (p.data.setWidth 1024)) else .next (s.failPending q p.status)

/-- FABRIC_ACKNOWLEDGEMENT (kind 4): a write that was discarded is reported to the host (R352). -/
def execFabricAcknowledgement (p : Packet) (s : State) : Out :=
  match s.pendingFor p [3, 7, 8] with
  | none => .next s
  | some q =>
    let s := s.dropPending q
    let s := if p.status = 0 then s else s.event 7 p.src 1
    match q.copy with
    | some num => .next (s.copyAck q.core num)
    | none => .next s

/-- FABRIC_ATOMIC_RESPONSE (kind 6). -/
def execFabricAtomicResponse (p : Packet) (s : State) : Out :=
  match s.pendingFor p [5] with
  | none => .next s
  | some q =>
    if p.status ≠ 0 then .next (s.failPending q p.status)
    else
      match q.lane with
      | none => .next ((s.dropPending q).swapAnswer q p.opd0)
      | some l => .next ((s.dropPending q).answer l q.ctx (2 * q.ttag + 1) [.value p.opd0, .value p.opd1])

/-- A read or an atomic whose time to a destination runs: that spent held for a gang's report does not count (R370). -/
def State.outstandingTo (s : State) (dst : Nat) (q : Pending) : Bool :=
  q.packet.dst == dst && (q.packet.kind == 1 || q.packet.kind == 5) && !(has s.heldPackets q.packet && s.mustHold q.packet)

/-- FABRIC_UNREACHABLE_TIMEOUT (R348): reads and atomics end, and leave no more; writes wait. -/
def execFabricUnreachableTimeout (dst : Nat) (s : State) : Out :=
  let gone := s.pendings.filter (s.outstandingTo dst)
  let s := { s with heldPackets := s.heldPackets.filter fun p => !(gone.any fun q => decide (q.packet = p)) }
  .next ((gone.foldl (fun s q => s.failPending q 5) s).event 7 dst 1)

/-! ### Gang control that carries tasks, barriers and echoes (R369) -/

/-- ECHO_REQUEST (op 3). -/
def execEchoRequest (p : Packet) (s : State) : Out :=
  if p.kind ≠ 10 ∨ p.op ≠ 3 ∨ s.deaf then .next s
  else .next (s.emit { dst := p.src, src := s.hm.pkgid, kind := 10, gid := p.gid, op := 4, opd0 := p.opd0,
                       opd1 := BitVec.ofNat 64 s.tlNow })

/-- ECHO_REPLY (op 4): the one-way latency is half the round trip (R373). -/
def execEchoReply (p : Packet) (s : State) : Out :=
  if p.kind ≠ 10 ∨ p.op ≠ 4 ∨ s.deaf then .next s
  else .next { s with hm := { s.hm with latency := SMap.set 0 s.hm.latency p.src ((s.tlNow - p.opd0.toNat) / 2) } }

/-- The notice in the data flits of a pod-barrier packet. -/
def noticeOf (d : BitVec 1536) : Notice :=
  { list := (List.range 8).filterMap fun i =>
      let w := d.toNat / 2 ^ (64 * i) % 2 ^ 64
      if w % 2 = 1 then some (w % 2 ^ 48 / 128) else none
    sig := BitVec.ofNat 1024 (d.toNat / 2 ^ 512) }

/-- The pod-level barrier of a gang on this package, also before it has a member context. -/
def State.podBarrier (s : State) (gid slot : Nat) : Barrier :=
  let ctx := ((s.member gid).map (·.id)).getD noCtx
  (s.barriers.find? (isBarrier 5 gid ctx slot)).getD { level := 5, inst := gid, ctx := ctx, slot := slot }

/-- POD_BARRIER_ARRIVAL (op 5), at the coordinator. One that was sent before the release of an ended generation had come is sent anew
behind it (R204). -/
def execPodBarrierArrival (p : Packet) (s : State) : Out :=
  if p.kind ≠ 10 ∨ p.op ≠ 5 ∨ s.deaf then .next s
  else
    let b := s.podBarrier p.gid (bits p.opd0.toNat 6 3)
    if bits p.opd0.toNat 31 8 ≠ b.generation % 2 ^ 24 then .next s
    else .next (s.putBarrier (b.fromPkg p.src (p.opd1.toNat % 2 ^ 32) (p.opd1.toNat / 2 ^ 32) (noticeOf p.data)))

/-- The groups of this package that a release counts: the first to have arrived, as many as it says, or all (R204, DESIGN CHOICE,
DESIGN CHOICE, log 168). -/
def Barrier.freedBy (b : Barrier) (p : Packet) : List (Nat × Nat) :=
  if p.opd1 = 0 then b.arrived else b.arrived.take p.opd1.toNat

/-- POD_BARRIER_RELEASE (op 6), at a member. Groups that registered or arrived while it was on its way take part in the next generation:
the coordinator learns of them now (R204). -/
def execPodBarrierRelease (p : Packet) (s : State) : Out :=
  if p.kind ≠ 10 ∨ p.op ≠ 6 ∨ s.deaf then .next s
  else
    let b := s.podBarrier p.gid (bits p.opd0.toNat 6 3)
    if bits p.opd0.toNat 31 8 ≠ b.generation % 2 ^ 24 then .next s
    else
      let freed := b.freedBy p
      let s := s.endGeneration b freed (noticeOf p.data)
      if freed.length = b.registered.length then .next s else .next (s.barChanged (b.nextGeneration freed))

/-- Width of a spawn packet's code. -/
def packetWidth (p : Packet) : Nat := 8 * 2 ^ bits p.data.toNat 132 131

/-- The child of a spawn packet starts as a task of the member context; none while its frame is not granted (R193). -/
def State.remoteChild (s : State) (p : Packet) (c : Ctx) (d : TaskDesc) : Option State :=
  let size := frameSize d.width d.nreg c.ss
  let w := p.data.toNat
  let parent := w % 2 ^ 48
  let home := p.src == s.hm.pkgid
  if !s.heapHolds c 1 size then none
  else
    let r := s.allocFrames c 1 size
    match r.2.reserveFrames noCore c.id d.width d.nreg r.1 with
    | .error _ => none
    | .ok s =>
      let places : List Place := [.any, .c, .q, .d, .p, .pod]
      let n : Notice := if home then ((s.task? c.id parent).map (·.notice)).getD {} else {}
      let t : Task :=
        { ctx := c.id, frame := (nth? r.1 0).getD 0, width := d.width, nreg := d.nreg, pair := d.pair, prio := c.prio,
          phase := .queued, place := (nth? places (bits w 130 128)).getD .any, origin := noCore, rm := BitVec.ofNat 2 (bits w 134 133)
          parent := parent, parentPkg := if home then 0 else 1 + p.src, tix := bits w 95 64, nkid := bits w 119 96
          desc := BitVec.ofNat 32 d.raw, entry := p.opd0, arg := p.opd1, notice := n, granules := granulesOf size
          owesExt := !home, owesFabric := !home }
      some ((s.newTask noCore t).enqueue t)

/-- SPAWN_PACKET (op 7). At a member that has run nothing the child waits for its gang to be in: its heap may still have to come from an
image (R363, R376, DEDUCED, log 159). -/
def execSpawnPacket (p : Packet) (s : State) : Out :=
  if p.kind ≠ 10 ∨ p.op ≠ 7 ∨ s.deaf then .next s
  else
    match s.member p.gid with
    | none => .next (s.emit { p with dst := p.src })
    | some c =>
      let hold (s : State) : State := { s with spawnHeld := addOnce s.spawnHeld p }
      if !s.gangIn c.id && s.isSpare c then .next (hold s)
      else match s.peek noCore c.id (p.opd0 - 8).toNat 8 .load with
      | (.later _, s) => .next (hold s)
      | (.fault cause sub _, s) => .next (s.stopCtx c.id { cause := cause, sub := sub, value := p.opd0 - 8 })
      | (.bytes bs, s) =>
        match taskDesc (ofBytes bs) with
        | none => .next (s.stopCtx c.id { cause := 1, value := p.opd0 })
        | some d =>
          match s.remoteChild p c d with
          | none => .next (hold s)
          | some s => .next { s with spawnHeld := s.spawnHeld.filter fun q => !decide (q = p) }

/-- JOIN_PACKET (op 8): a remote child has completed (R193, R199). -/
def execJoinPacket (p : Packet) (s : State) : Out :=
  if p.kind ≠ 10 ∨ p.op ≠ 8 ∨ s.deaf then .next s
  else
    match s.member p.gid with
    | none => .next s
    | some c =>
      let core := ((s.task? c.id p.opd0.toNat).map (·.origin)).getD noCore
      .next (s.joinParent core c.id p.opd0.toNat {} true)

/-! ### Links (R348) -/

def State.setLink (s : State) (l : Nat) (x : Link) : State := { s with links := SMap.set ({} : Link) s.links l x }

/-- FLIT_REPLAY (R348): the eighth replay of one flit in a row retrains the link. -/
def execFlitReplay (link : Nat) (s : State) : Out :=
  let x := SMap.get ({} : Link) s.links link
  if 8 ≤ x.replays + 1 then .next (s.setLink link { retraining := true, replays := 0 })
  else .next (s.setLink link { x with replays := x.replays + 1 })

/-- LINK_RETRAIN (R348, R379): the link's traffic waits. -/
def execLinkRetrain (link : Nat) (s : State) : Out := .next (s.setLink link { retraining := true, replays := 0 })

end Sys2Proof.Machine
end

