-- ==== Sys2Proof/Machine/Float.lean ====
section
/-! DEFINITION. Floating-point and complex instructions (R98 to R110). -/

namespace Sys2Proof.Machine

/-- A result and its flags into a thread (R55, R66, R99). -/
def Thread.fput (t : Thread) (d : Reg) (r : Nat × Flags) : Thread := (t.raise r.2).wr d (fResult r.1)

/-- x[d] ← f(t, x[a], x[b]) with flags. -/
def fop3 (s : State) (d a b : Reg) (f : Thread → Word → Word → Nat × Flags) : Out :=
  regOp s .thread [d, a, b] 4 fun t => t.fput d (f t (t.rd a) (t.rd b))

def fop2 (s : State) (d a : Reg) (f : Thread → Word → Nat × Flags) : Out :=
  regOp s .thread [d, a] 4 fun t => t.fput d (f t (t.rd a))

/-- An exact value, rounded once, with nv for signalling operands and invalid cases (R54, R63, R66). -/
def finish (x : Ext) (inv : Bool) (ops : List Ext) (f : Fmt) (rm : BitVec 2) : Nat × Flags :=
  let r := roundFmt x f rm false
  (r.1, r.2 ||| sigFlag ops ||| (if inv then flagNv else 0))

/-- a × b + c, exact and rounded once (R102). -/
def fmaV (f : Fmt) (rm : BitVec 2) (a b c : Ext) : Nat × Flags :=
  let p := a.mul b
  let r := sumExt rm [p.1, c]
  finish r.1 (p.2 || r.2) [a, b, c] f rm

def encBits (f : Fmt) (w : Word) : Nat := w.toNat % 2 ^ f.bits

/-- `fadd` (R100). -/
def execFadd (t : FTy) (d a b : Reg) (s : State) : Out :=
  fop3 s d a b fun u a b =>
    let r := sumExt u.rm [rdF t a, rdF t b]
    finish r.1 r.2 [rdF t a, rdF t b] (FTy.fmt t) u.rm

/-- `fsub` (R100). -/
def execFsub (t : FTy) (d a b : Reg) (s : State) : Out :=
  fop3 s d a b fun u a b =>
    let r := sumExt u.rm [rdF t a, (rdF t b).neg]
    finish r.1 r.2 [rdF t a, rdF t b] (FTy.fmt t) u.rm

/-- `fmul` (R100). -/
def execFmul (t : FTy) (d a b : Reg) (s : State) : Out :=
  fop3 s d a b fun u a b =>
    let p := (rdF t a).mul (rdF t b)
    finish p.1 p.2 [rdF t a, rdF t b] (FTy.fmt t) u.rm

/-- `fmin` (R101). -/
def execFmin (t : FTy) (d a b : Reg) (s : State) : Out :=
  fop3 s d a b fun _ a b => minNum (FTy.fmt t) (encBits (FTy.fmt t) a) (encBits (FTy.fmt t) b)

/-- `fmax` (R101). -/
def execFmax (t : FTy) (d a b : Reg) (s : State) : Out :=
  fop3 s d a b fun _ a b => maxNum (FTy.fmt t) (encBits (FTy.fmt t) a) (encBits (FTy.fmt t) b)

/-- `fma` (R102). -/
def execFma (t : FTy) (d a b : Reg) (s : State) : Out :=
  fop3 s d a b fun u a b => fmaV (FTy.fmt t) u.rm (rdF t a) (rdF t b) (rdF t (u.rd d))

/-- `fms` (R102). -/
def execFms (t : FTy) (d a b : Reg) (s : State) : Out :=
  fop3 s d a b fun u a b => fmaV (FTy.fmt t) u.rm (rdF t a) (rdF t b) (rdF t (u.rd d)).neg

/-- `fnma` (R102). -/
def execFnma (t : FTy) (d a b : Reg) (s : State) : Out :=
  fop3 s d a b fun u a b => fmaV (FTy.fmt t) u.rm (rdF t a).neg (rdF t b) (rdF t (u.rd d))

/-- `fabs` (R105): the sign bit cleared, no flags. -/
def execFabs (t : FTy) (d a : Reg) (s : State) : Out :=
  fop2 s d a fun _ a => (encBits (FTy.fmt t) a % 2 ^ ((FTy.fmt t).bits - 1), 0)

/-- `fneg` (R105): the sign bit inverted, no flags. -/
def execFneg (t : FTy) (d a : Reg) (s : State) : Out :=
  fop2 s d a fun _ a => (Nat.xor (encBits (FTy.fmt t) a) (2 ^ ((FTy.fmt t).bits - 1)), 0)

/-- `fclass` (R106). -/
def execFclass (t : FTy) (d a : Reg) (s : State) : Out :=
  fop2 s d a fun _ a => (classMask (FTy.fmt t) (encBits (FTy.fmt t) a), 0)

/-- An integral value by the rounding mode; a zero keeps the sign (R105). -/
def frndV (f : Fmt) (rm : BitVec 2) (x : Ext) : Nat × Flags :=
  match x with
  | .fin neg m e =>
    let r := roundInt rm neg m e
    let y := roundFmt (.fin neg r.1.natAbs 0) f rm false
    (y.1, if r.2 then flagNx else 0)
  | _ => finish x false [x] f rm

/-- `frnd` (R105). -/
def execFrnd (t : FTy) (d a : Reg) (s : State) : Out := fop2 s d a fun u a => frndV (FTy.fmt t) u.rm (rdF t a)

/-- A comparison writes 1 or 0 (R107). -/
def fcmp (s : State) (t : FTy) (d a b : Reg) (quiet : Bool) (f : Ext → Ext → Bool) : Out :=
  fop3 s d a b fun _ a b =>
    let x := rdF t a
    let y := rdF t b
    let nan := x.isNan || y.isNan
    (if f x y then 1 else 0, if quiet then sigFlag [x, y] else if nan then flagNv else 0)

/-- `fcmp.eq` (R107). -/
def execFcmpEq (t : FTy) (d a b : Reg) (s : State) : Out := fcmp s t d a b true fun x y => x.eq y

/-- `fcmp.lt` (R107). -/
def execFcmpLt (t : FTy) (d a b : Reg) (s : State) : Out := fcmp s t d a b false fun x y => x.lt y

/-- `fcmp.le` (R107). -/
def execFcmpLe (t : FTy) (d a b : Reg) (s : State) : Out := fcmp s t d a b false fun x y => x.lt y || x.eq y

/-- `fcmp.un` (R107). -/
def execFcmpUn (t : FTy) (d a b : Reg) (s : State) : Out := fcmp s t d a b true fun x y => x.isNan || y.isNan

/-- `fcvt` (R108). -/
def execFcvt (t src : FTy) (d a : Reg) (s : State) : Out :=
  fop2 s d a fun u a => finish (rdF src a) false [rdF src a] (FTy.fmt t) u.rm

/-- `icvt.sf` (R109). -/
def execIcvtSf (t : FTy) (d a : Reg) (s : State) : Out :=
  fop2 s d a fun u a => roundFmt (.fin (decide (a.toInt < 0)) a.toInt.natAbs 0) (FTy.fmt t) u.rm false

/-- `icvt.uf` (R109). -/
def execIcvtUf (t : FTy) (d a : Reg) (s : State) : Out :=
  fop2 s d a fun u a => roundFmt (.fin false a.toNat 0) (FTy.fmt t) u.rm false

/-- FP to integer: out of range or a NaN gives the fixed value with nv alone (R109). -/
def toIntV (rm : BitVec 2) (x : Ext) (lo hi : Int) (bad : Nat) : Nat × Flags :=
  match x with
  | .fin neg m e =>
    let r := roundInt rm neg m e
    if r.1 < lo ∨ hi < r.1 then (bad, flagNv) else ((r.1 % 2 ^ 64).toNat, if r.2 then flagNx else 0)
  | _ => (bad, flagNv)

/-- `icvt.fs` (R109). -/
def execIcvtFs (t : FTy) (d a : Reg) (s : State) : Out :=
  fop2 s d a fun u a => toIntV u.rm (rdF t a) (-(2 ^ 63)) (2 ^ 63 - 1) (2 ^ 63)

/-- `icvt.fu` (R109). -/
def execIcvtFu (t : FTy) (d a : Reg) (s : State) : Out :=
  fop2 s d a fun u a => toIntV u.rm (rdF t a) 0 (2 ^ 64 - 1) (2 ^ 64 - 1)

/-- The type of a complex instruction: CF64 or CF32 (R110). -/
def cty (single : Bool) : FTy := if single then .s else .d

/-- One part of a complex product: the exact sum of its products and an addend, rounded once. -/
def cPart (f : Fmt) (rm : BitVec 2) (c : List Ext) (p q : Ext × Ext) : Nat × Flags :=
  let x := p.1.mul p.2
  let y := q.1.mul q.2
  let r := sumExt rm (c ++ [x.1, y.1])
  finish r.1 (x.2 || y.2 || r.2) (c ++ [p.1, p.2, q.1, q.2]) f rm

/-- `cmul` and `cma`: sources read before either part is written. -/
def complexOp (s : State) (single : Bool) (d a b : Reg) (add : Bool) : Out :=
  let ty := cty single
  regOp s .thread [d, a, b] 4 fun t =>
    let ar := rdF ty (t.rdLo a)
    let ai := rdF ty (t.rdHi a)
    let br := rdF ty (t.rdLo b)
    let bi := rdF ty (t.rdHi b)
    let cr := if add then [rdF ty (t.rdLo d)] else []
    let ci := if add then [rdF ty (t.rdHi d)] else []
    let re := cPart (FTy.fmt ty) t.rm cr (ar, br) (ai.neg, bi)
    let im := cPart (FTy.fmt ty) t.rm ci (ar, bi) (ai, br)
    (t.raise (re.2 ||| im.2)).wrPair d (fResult re.1) (fResult im.1)

/-- `cmul` (R110). -/
def execCmul (single : Bool) (d a b : Reg) (s : State) : Out := complexOp s single d a b false

/-- `cma` (R110). -/
def execCma (single : Bool) (d a b : Reg) (s : State) : Out := complexOp s single d a b true

/-- A long-latency result that is known at issue, its flags owed to the close of the window (R99). -/
def fLong (s : State) (rs : List Reg) (d : Reg) (k : BitVec 4) (f : Thread → Nat × Flags) : Out :=
  perLane s .thread rs 8 fun s l =>
    let t := s.thread l
    let r := f t
    let w := openWindow t false d k (.value (fResult r.1)) t.pc 0
    (s.putThread (t.claim d), .done [{ w with closing := { flags := r.2 } }])

/-- `fdiv` (R103, R104). -/
def execFdiv (t : FTy) (d a b : Reg) (k : BitVec 4) (s : State) : Out :=
  fLong s [d, a, b] d k fun u =>
    let x := rdF t (u.rd a)
    let y := rdF t (u.rd b)
    let q := x.div y
    let r := finish q.1 false [x, y] (FTy.fmt t) u.rm
    (r.1, r.2 ||| q.2)

/-- `fsqrt` (R103, R104). -/
def execFsqrt (t : FTy) (d a : Reg) (k : BitVec 4) (s : State) : Out :=
  fLong s [d, a] d k fun u =>
    let x := rdF t (u.rd a)
    let q := x.sqrt
    let r := finish q.1 false [x] (FTy.fmt t) u.rm
    (r.1, r.2 ||| q.2)

end Sys2Proof.Machine
end

