-- ==== Sys2Proof/Machine/HostLink.lean ====
section
/-! DEFINITION. The host link: inbound accesses at the ordering points, key slots, the firmware image's delivery (R278,
R339 to R347, R385). -/

namespace Sys2Proof.Machine

/-! ### Inbound accesses (R278, R345, R346) -/

def requesterId : Requester → Nat
  | .pcie i => i
  | .fabric src tag => src * 2 ^ 16 + tag

def isFabricReq : Requester → Bool
  | .pcie _ => false
  | .fabric _ _ => true

/-- A record of source 4 (R276, R278, R295). -/
def State.inboundRecord (s : State) (v : Nat) (r : Requester) (gpa cause sub : Nat) (g : Word) : State :=
  s.addRecord v { src := 4, cause := cause, sub := sub, fva := BitVec.ofNat 64 gpa, gpa := g, info := BitVec.ofNat 64 (requesterId r) }

/-- Bytes cut at line boundaries: GPA of the line, mask, data. -/
def cutLines : Nat → Nat → List Byte → List (Nat × BitVec 128 × BitVec 1024)
  | 0, _, _ => []
  | n + 1, g, bs =>
    if bs.isEmpty then []
    else
      let o := g % 128
      let k := 128 - o
      let part := bs.take k
      (g - o, byteMask o part.length, BitVec.ofNat 1024 (ofBytes part * 2 ^ (8 * o))) :: cutLines n (g + k) (bs.drop k)

/-- The port through which the host reaches a register space; a block reached directly counts with port 0. -/
def spacePort (s : State) : RegSpace → Nat
  | .vfOwn v => s.vfPort v
  | .pf p => p
  | .config p => p
  | _ => 0

/-- A register write that came through a port waits: what the host sends after it through the same port waits too (R335). -/
def State.portHeld (s : State) (port : Nat) : Bool :=
  s.deferred.any fun i => match i with
    | .registerWrite w _ _ => spacePort s w.2 == port
    | _ => false

/-- The largest payload and read request of the host link (R339). -/
abbrev maxPayload : Nat := 4096

/-- INBOUND_POSTED_WRITE (R345): one packet for each line, behind the earlier writes of its requester. A VF that no port presents
receives nothing, and a payload that the link does not carry does not come (DEDUCED, log 158). -/
def execInboundPostedWrite (r : Requester) (vf gpa len : Nat) (data : List Byte) (s : State) : Out :=
  if !s.presented vf ∨ maxPayload < len then .next s
  else if s.portHeld (s.vfPort vf) then .next (s.defer (.inboundPostedWrite r vf gpa len data))
  else
    let bs := data.take len
    let ls := cutLines (bs.length / 128 + 2) gpa bs
    .next (s.postPackets vf (ls.map fun l => { req := r, line := l.1, mask := l.2.1, data := l.2.2, write := s.inWrites }))

/-- The units of a reduce-write (R185): each whole unit of the mask is combined with the home's bytes. -/
def redWrites (op a : Nat) (mask : BitVec 128) (data : BitVec 1024) (old : List Byte) : List (Nat × Byte) :=
  let n := redUnit op
  (List.range (128 / n)).flatMap fun j =>
    let m := byteMask (n * j) n
    if mask &&& m == m then
      withAddrs (a + n * j) (redBytes op ((old.drop (n * j)).take n) (((toBytes data.toNat 128).drop (n * j)).take n))
    else []

/-- The GPA that a packet names: a fabric packet's own, else that of its first byte. -/
def InPacket.addr (x : InPacket) : Nat :=
  match x.reply with
  | some p => p.gpa
  | none => x.line + ((List.range 128).find? x.mask.getLsbD).getD 0

/-- A packet takes effect at its home; the status of its acknowledgement (R352). None while it waits for a page of host memory. -/
def State.performInbound (s : State) (v : Nat) (x : InPacket) : Option Nat × State :=
  let fab := isFabricReq x.req
  let g := BitVec.ofNat 64 x.addr
  match s.translateGpa v x.line (if x.red.isSome then .atomic else .store) with
  | (.error f, s') =>
    if !f.waits then (some 1, s'.inboundRecord v x.req x.addr 16 f.sub g)
    else if fab then (some 1, s.inboundRecord v x.req x.addr 16 5 g)
    else (none, s')
  | (.ok t, s) =>
    match t.target with
    | .host a =>
      if fab then (some 1, s.inboundRecord v x.req x.addr 16 5 g)
      else (some 0, (runsOf (lineWrites a x.mask x.data)).foldl (fun s r => s.post r.1 r.2) s)
    | .fabric p ga =>
      if fab then (some 1, s.inboundRecord v x.req x.addr 16 5 g)
      else (some 0, s.sendRequest
        { ttag := 0, core := noCore, ctx := 2 ^ 64
          packet := { kind := 3, dst := p, gpa := ga, ftag := (s.vf v).ftag, mask := x.mask, data := x.data.setWidth 1536 } })
    | .device a =>
      let s := s.giveUp a
      if x.red.isSome && s.bad a then (some 3, s.inboundRecord v x.req x.addr 18 0 g)
      else
        let ws := match x.red with
          | some op => redWrites op a x.mask x.data (s.viewBytes v t.key a 128)
          | none => lineWrites a x.mask x.data
        if ws.isEmpty then (some 0, s) else
        let kind : WriteKind := if x.red.isSome then .plain
          else .inbound ((x.reply.map fun p => p.kind == 8).getD false)
        let bad := s.bad a
        match s.homeWrite { vf := v, gpa := t.gpa, key := t.key, ce := t.ce, tc := 2, kind := kind, atomic := x.red.isSome } a ws with
        | (.refused, s) => (some 2, s.inboundRecord v x.req x.addr 17 (blockStack (blockOf a)) g)
        | (.lost, s) => if bad && fab then (some 3, s.inboundRecord v x.req x.addr 18 0 g) else (some 0, s)
        | (.done, s) => (some 0, s)

/-- No earlier write of the same requester through the same ordering point has a packet that is not acknowledged (R345, item
2). -/
def State.mayPerform (s : State) (v : Nat) (p : InPacket) : Bool :=
  s.vfs.all fun x => s.vfPort x.1 != s.vfPort v || x.2.inbound.all fun q => !(decide (q.req = p.req) && decide (q.write < p.write))

/-- A discard goes on by one block (R300). It is over where its walk stops or has reached its end. -/
def State.discardStep (s : State) (v idx : Nat) (p : InPacket) (gpa n : Nat) : State :=
  let r := s.discardOne v gpa
  let s := r.2.modVf v fun x => { x with dprog := x.dprog + BitVec.ofNat 32 r.1.1 }
  let ended (st : Nat) : State :=
    (s.modVf v fun x =>
      let rest := x.inbound.erase p
      { x with inbound := rest, dstat := if rest.any fun q => q.discard.isSome then 1 else st }).retry
  if r.1.2 then ended 2
  else if n ≤ 1 then ended 0
  else s.modVf v fun x => { x with inbound := x.inbound.set idx { p with line := gpa + 512, discard := some (gpa + 512, n - 1) } }

/-- A packet has been acknowledged: it leaves its place, and the ordering point's notice takes its line (R345, R346). -/
def State.ackPacket (s : State) (v : Nat) (p : InPacket) (status : Nat) : State :=
  let s := s.modVf v fun x => { x with inbound := x.inbound.erase p }
  let s := s.inNotice v (p.line / 128)
  let s := match p.reply with
    | some q => s.reply q 4 status id
    | none => s
  s.retry

/-- INBOUND_PACKET_ACK (R345, R346): a packet is performed and acknowledged, or a discard that stands in its place goes on. -/
def execInboundPacketAck (vf idx : Nat) (s : State) : Out :=
  match nth? (s.vf vf).inbound idx with
  | none => .next s
  | some p =>
    if !s.mayPerform vf p then .next s
    else
      match p.discard with
      | some d => .next (s.discardStep vf idx p d.1 d.2)
      | none =>
        match s.performInbound vf p with
        | (none, s) => .next s
        | (some st, s) => .next (s.ackPacket vf p st)

/-- Bytes of an inbound read; the error is the completion status: 1 Unsupported Request, 4 Completer Abort; 0 while it waits
for a page of host memory. -/
def State.inboundBytes (s : State) (v : Nat) (r : Requester) : List (Nat × Nat) → Except Nat (List Byte) × State
  | [] => (.ok [], s)
  | (g, n) :: rest =>
    match s.translateGpa v g .load with
    | (.error f, s) => (.error (if f.waits then 0 else 1), s)
    | (.ok t, s) =>
      match t.target with
      | .fabric _ _ => (.error 1, s)
      | .host a =>
        if s.hostBad a n then (.error 4, s.inboundRecord v r g 18 1 (BitVec.ofNat 64 g)) else
        match s.inboundBytes v r rest with
        | (.ok bs, s) => (.ok (readMap 0 s.hostMem a n ++ bs), s)
        | (.error e, s) => (.error e, s)
      | .device a =>
        let s := s.comeHome a
        if s.bad a then (.error 4, s.inboundRecord v r g 18 0 (BitVec.ofNat 64 g))
        else
          let x := s.readAt v 2 t.key a n
          match x.2.inboundBytes v r rest with
          | (.ok bs, s) => (.ok (x.1 ++ bs), s)
          | (.error e, s) => (.error e, s)

/-- A range cut at line boundaries. -/
def cutRange : Nat → Nat → Nat → List (Nat × Nat)
  | 0, _, _ => []
  | n + 1, g, len => if len = 0 then [] else (g, min len (128 - g % 128)) :: cutRange n (g + (128 - g % 128)) (len - (128 - g % 128))

/-- INBOUND_READ (R278, R345): after every earlier posted write of its requester. -/
def execInboundRead (r : Requester) (vf gpa len : Nat) (s : State) : Out :=
  let wait (s : State) : Out := .next (s.defer (.inboundRead r vf gpa len))
  if !s.presented vf ∨ maxPayload < len then .next (s.output (.completion 1 []))
  else if s.portHeld (s.vfPort vf) || s.behindWrites vf r then wait s
  else
    match s.inboundBytes vf r (cutRange (len / 128 + 2) gpa len) with
    | (.ok bs, s) => .next (s.output (.completion 0 bs))
    | (.error 0, s) => wait s
    | (.error e, s) => .next (s.output (.completion e []))

/-- The AtomicOps of R339 at a home: FetchAdd, Swap and CAS of 32 and 64 bits. -/
def inboundOp (op : AtomOp) (isCas : Bool) (n : Nat) (v w : BitVec 64) (old : Nat) : Option Nat :=
  let x := v.toNat % 2 ^ (8 * n)
  if isCas then (if old = x then some (w.toNat % 2 ^ (8 * n)) else none) else some (atomApply op (8 * n) old x)

/-- INBOUND_ATOMICOP (R339, R345). -/
def execInboundAtomicop (r : Requester) (vf gpa : Nat) (op : AtomOp) (isCas dbl : Bool) (v w : BitVec 64) (s : State) : Out :=
  let n := if dbl then 8 else 4
  let ur (s : State) : Out := .next (s.output (.completion 1 []))
  if !s.presented vf then ur s
  else if s.portHeld (s.vfPort vf) || s.behindWrites vf r then .next (s.defer (.inboundAtomicop r vf gpa op isCas dbl v w))
  else if gpa % n ≠ 0 ∨ (!isCas && op ≠ .add && op ≠ .exch) then ur s
  else
    match s.translateGpa vf gpa .atomic with
    | (.error f, s') => ur (if f.waits then s else s')
    | (.ok t, s) =>
      match t.target with
      | .device a =>
        let s := s.giveUp a
        if s.bad a then .next ((s.inboundRecord vf r gpa 18 0 (BitVec.ofNat 64 gpa)).output (.completion 4 []))
        else
          match s.atomHome vf t a n .plain (inboundOp op isCas n v w) with
          | (_, .refused, s) => ur (s.inboundRecord vf r gpa 17 (blockStack (blockOf a)) (BitVec.ofNat 64 gpa))
          | (old, _, s) => .next ((s.inNotice vf (gpa / 128)).output (.completion 0 (toBytes old n)))
      | _ => ur s

/-! ### Key slots (R341 to R344) -/

/-- The answer to a message of R344: its bytes 0 and 1. -/
def State.doeReply (s : State) (code status : Nat) : State := s.output (.doe ((0x80 + code) % 256) status)

/-- A field of a message's body. -/
def doeField (obj : List Byte) (off n : Nat) : Nat := ofBytes ((obj.drop off).take n)

/-- The message of an object: `c` is its code, and `code` the code of the step. Another message has a step of its own; an unknown code receives status 7. -/
def State.doeCode (s : State) (c code : Nat) (f : State → State) : Out :=
  if c = code then .next (f s)
  else if 1 ≤ c ∧ c ≤ 3 then .next s
  else .next (s.doeReply c 7)

/-- A key message of a VF is accepted in RUN, as application data inside a secured session with it (R341, R344). -/
def State.keysOpen (s : State) (secured : Bool) (vf : Nat) : Bool := secured && decide ((s.vf vf).tdisp = .run) && (s.vf vf).session

/-- Load a slot, for a message that R341 accepts (R342): only the empty slots 1 to 4,095. -/
def State.loadKey (s : State) (vf slot : Nat) (key : BitVec 512) : Nat × State :=
  if slot = 0 ∨ 4095 < slot then (2, s)
  else if (s.key? slot).isSome then (1, s)
  else
    let g := s.keyGens + 1
    (0, { s with keyGens := g, keys := SMap.set none s.keys slot (some { owner := some vf, key := key, gen := g }) })

/-- SET_KEY (R342, R344), behind what the host has sent through the VF's port before (R335). A VF that no port presents receives no
message (R340). -/
def execSetKey (secured : Bool) (vf : Nat) (obj : List Byte) (s : State) : Out :=
  if !s.presented vf then .next s
  else if s.portHeld (s.vfPort vf) then .next (s.defer (.setKey secured vf obj))
  else
    s.doeCode (doeField obj 0 1) 1 fun s =>
      if !s.keysOpen secured vf then s.doeReply 1 3
      else
        let r := s.loadKey vf (doeField obj 2 2) (BitVec.ofNat 512 (doeField obj 8 64))
        r.2.doeReply 1 r.1

/-- A valid stage-2 entry of some VF names the slot. -/
def State.slotNamed (s : State) (slot : Nat) : Bool :=
  s.vfs.any fun p => (List.range (2 ^ (p.2.gpab - 21))).any fun i =>
    match s.mapDevice (s.vfPart p.1) (p.2.s2base.toNat + 8 * i) with
    | none => false
    | some a =>
      let e := s.readTable p.1 0 a
      flag e 0 && e2Key e == slot

/-- ERASE_KEY (R342 to R344): whether it comes inside a secured session, and the VF. -/
def execEraseKey (via : Bool × Nat) (obj : List Byte) (s : State) : Out :=
  if !s.presented via.2 then .next s
  else if s.portHeld (s.vfPort via.2) then .next (s.defer (.eraseKey via obj))
  else
    s.doeCode (doeField obj 0 1) 2 fun s =>
      let slot := doeField obj 2 2
      if !s.keysOpen via.1 via.2 then s.doeReply 2 3
      else if ((s.key? slot).bind fun k => k.owner) ≠ some via.2 then s.doeReply 2 1
      else if s.slotNamed slot then s.doeReply 2 4
      else (s.eraseSlot slot).doeReply 2 0

/-- Every slot that a VF owns is erased as soon as its stage-2 entries have been shot down (R343); its session is over
(PRESUMED, log 160). -/
def State.eraseAll (s : State) (vf : Nat) : State :=
  (s.modVf vf fun x => { x with session := false }).beginShoot { kind := 3, ctx := 0, vf := vf, addr := 0, erase := true }

/-- What the host asks of a VF's interface: nothing of a VF that no port presents (R340), and behind what it has sent through the VF's
port before (R335). -/
def State.ofInterface (s : State) (vf : Nat) (i : Instr) (f : State → State) : Out :=
  if !s.presented vf then .next s else if s.portHeld (s.vfPort vf) then .next (s.defer i) else .next (f s)

/-- FUNCTION_LEVEL_RESET (R343). -/
def execFunctionLevelReset (vf : Nat) (s : State) : Out := s.ofInterface vf (.functionLevelReset vf) fun s => s.eraseAll vf

/-- TDISP_STOP (R343): the interface leaves RUN. -/
def execTdispStop (vf : Nat) (s : State) : Out :=
  s.ofInterface vf (.tdispStop vf) fun s => (s.eraseAll vf).modVf vf fun x => { x with tdisp := .unlocked }

/-- TDISP_STATE_CHANGE (R339, R341). -/
def execTdispStateChange (vf : Nat) (st : Tdisp) (s : State) : Out :=
  s.ofInterface vf (.tdispStateChange vf st) fun s => s.modVf vf fun x => { x with tdisp := st }

/-- SECURED_SPDM_SESSION (R341): a session with the VF is open from now on. -/
def execSecuredSpdmSession (vf : Nat) (s : State) : Out :=
  s.ofInterface vf (.securedSpdmSession vf) fun s => s.modVf vf fun x => { x with session := true }

/-! ### ATS and PRI (R277, R339) -/

/-- ATS_INVALIDATION_REQUEST: the translation of a host page is asked for anew; whether the page is there is open. -/
def execAtsInvalidationRequest (vf addr : Nat) (s : State) : Out :=
  let page := (vf, addr / 4096)
  let c := s.pickNat 2
  let s := { c.2 with ats := c.2.ats.filter fun x => !decide (x = page) }
  .next (if c.1 = 1 then { s with hostMissing := addOnce s.hostMissing page } else s)

/-- PRI_PAGE_RESPONSE: the page is there; or a response other than Success refuses it (R339; R277, sub 9). What waited for it is
tried again. -/
def execPriPageResponse (vf addr : Nat) (success : Bool) (s : State) : Out :=
  let page := (vf, addr / 4096)
  let without (l : List (Nat × Nat)) : List (Nat × Nat) := l.filter fun x => !decide (x = page)
  let s := { s with priAsked := without s.priAsked }
  if success then .next { s with priRefused := without s.priRefused, hostMissing := without s.hostMissing }.retry
  else .next { s with priRefused := addOnce s.priRefused page, ats := without s.ats }.retry

/-! ### The firmware image (R344, R384, R385) -/

/-- The checks of R384 but for the start's. -/
def State.imageGood (s : State) (img : List Byte) : Bool :=
  Config.imageVerifies img && decide (((s.hm.fused).getD Config.fusedVersion0).toNat ≤ (Config.imageVersion img).toNat)

/-- A chunk of an image (R344): status 6 where it does not follow the last one, or is of a length that the table does not give;
5 where the whole image does not verify. A first chunk discards any partial image. -/
def State.fwChunk (s : State) (first last : Bool) (off total : Nat) (chunk : List Byte) : Nat × State :=
  let part := if first then some (total, []) else s.hm.fwPart
  let s := { s with hm := { s.hm with fwPart := if first then none else s.hm.fwPart } }
  let got : List Byte := (part.map (·.2)).getD []
  let known := (part.map fun p => p.1 == total).getD false
  let n := chunk.length
  if !known || off ≠ got.length || total < off + n || Config.imageStore < total || n = 0 || 4096 < n || n % 4 ≠ 0 then (6, s)
  else
    let img := got ++ chunk
    if !last then (0, { s with hm := { s.hm with fwPart := some (total, img) } })
    else
      let s := { s with hm := { s.hm with fwPart := none } }
      if img.length ≠ total then (6, s)
      else if s.imageGood img then (0, { s with hm := { s.hm with fwImage := img } })
      else (5, s)

/-- FW_WRITE (R344, R385): the four leading doublewords of the object's body, and the bytes from 0x10. Chunks come in ascending
order; the last starts the verification. A chunk shorter than its length field has no such length: the message is refused, and changes
nothing. It comes to the physical function of port 0, behind what came through that port before (R335). -/
def execFwWrite (head off total len : Nat) (rest : List Byte) (s : State) : Out :=
  if s.hm.stopped then .next s
  else if s.portHeld 0 then .next (s.defer (.fwWrite head off total len rest))
  else
    s.doeCode (head % 256) 3 fun s =>
      let chunk := rest.take len
      if chunk.length ≠ len then s.doeReply 3 6
      else
        let r := s.fwChunk (head / 256 % 2 == 1) (head / 512 % 2 == 1) off total chunk
        r.2.doeReply 3 r.1

end Sys2Proof.Machine
end

