-- ==== Sys2Proof/Machine/Harbour.lean ====
section
/-! DEFINITION. The harbourmaster: starts, the mailbox, repairs, power, hot rows, halts (R216, R333, R348, R377 to
R391). -/

namespace Sys2Proof.Machine

/-! ### Corrected errors and repairs (R378, R379) -/

abbrev dayNs : Nat := 86400 * 1000000000

/-- Times, newest first, of a unit's errors of the last 24 hours. -/
def State.errorTimes (s : State) (u : FaultUnit) : List Nat :=
  (s.hm.errors.filter fun e => decide (e.1 = u) && decide (s.tlNow ≤ e.2 + dayNs)).map (·.2)

/-- The repair that a unit needs: row spare, column spare, lane sparing, retirement of a pair; 4 where none is. -/
def repairKind (u : FaultUnit) : Nat :=
  if u.utype = 0 then 0 else if u.utype = 1 then 1 else if u.utype = 3 then 2
  else if u.utype = 2 ∧ u.code.toNat % 256 = 255 then 4 else 3

/-- An SRAM word of a clean L1 copy, a clean stack-cache line or a TLB entry may have held an error that could not be corrected:
the copy is dropped, and its source is read anew (R377). Whether it did, and which copy it was, is open. -/
def State.refetch (s : State) (u : FaultUnit) : State :=
  let c := u.code.toNat
  let core := c % 256
  let what := if u.utype = 2 then bits c 15 11 else 0
  if what = 4 then
    let r := s.choose (none :: (s.l1.filter fun l => l.core == core && l.dirty == 0).map some)
    match r.1.join with
    | some l => r.2.dropLine l
    | none => r.2
  else if what = 5 ∧ core = 255 then
    let r := s.choose (none :: (s.sc.filter fun l => l.stack == bits c 10 8 && !l.dirty).map some)
    match r.1.join with
    | some l => { r.2 with sc := r.2.sc.filter fun x => !sameSc l x }.unmoor l
    | none => r.2
  else if what = 6 then
    let hit (e : TlbEntry) : Bool := if core = 255 then e.llt && dieOf e.core == bits c 10 8 else !e.llt && e.core == core
    let r := s.choose (none :: (s.tlb.filter hit).map some)
    match r.1.join with
    | some e => { r.2 with tlb := r.2.tlb.erase e }
    | none => r.2
  else s

/-- A corrected error counts on its unit; the third within 24 hours makes the unit lasting (R378). Whether a spare remains is left
open. -/
def State.countCorrected (s : State) (u : FaultUnit) : State :=
  let before := s.errorTimes u
  let s := { s with hm := { s.hm with errors := (u, s.tlNow) :: s.hm.errors.filter fun e => decide (s.tlNow ≤ e.2 + dayNs) } }
  if before.length + 1 ≠ 3 then s
  else
    let c := s.pickNat 2
    let s := c.2
    let kind := if c.1 = 1 ∧ repairKind u ≤ 2 then 4 else repairKind u
    let id := s.hm.proposals.length
    let p : Proposal :=
      { id := id, kind := kind, unit := u, count := 3, first := BitVec.ofNat 64 ((before.getLast?).getD s.tlNow) }
    ({ s with hm := { s.hm with proposals := s.hm.proposals ++ [p] } }).event 4 id kind

/-- CORRECTED_ERROR (R377, R378). -/
def execCorrectedError (u : FaultUnit) (s : State) : Out := .next ((s.refetch u).countCorrected u)

def State.setProposal (s : State) (p : Proposal) : State :=
  { s with hm := { s.hm with proposals := s.hm.proposals.map fun q : Proposal => if q.id = p.id then p else q } }

/-- The island of a proposal of kind 3. -/
def Proposal.island (p : Proposal) : Nat := if p.unit.utype = 4 then p.unit.code.toNat % 128 else p.unit.code.toNat % 256 / 2

/-- The partition that has lent the pair (R326). -/
def State.lender (s : State) (island : Nat) : Option Nat := (List.range 4).find? fun p => (s.part p).lent.getLsbD island

/-- The authorised proposal that retires a pair which is idle, or is lent and can be revoked (R379). -/
def State.retirable (s : State) (island : Nat) : Option Proposal :=
  if s.pairIdle island || ((s.lender island).isSome && !s.pairsBusy [island]) then
    s.hm.proposals.find? fun p => p.kind == 3 && p.state == 1 && p.island == island
  else none

/-- The pair runs nothing any more, and leaves every margin. -/
def State.retirePair (s : State) (island : Nat) : State :=
  let s := [2 * island, 2 * island + 1].foldl (fun s c => s.modCore c fun k => { k with retired := true, tenant := none }) s
  let s := (List.range 4).foldl (fun s p => s.setPart p { s.part p with margin := (s.part p).margin &&& ~~~bitAt island }) s
  { s with hm := { s.hm with retiredPairs := addOnce s.hm.retiredPairs island } }

/-- PAIR_RETIREMENT (R379): when the pair is idle; one that is lent is revoked first (R327). -/
def execPairRetirement (island : Nat) (s : State) : Out :=
  match s.retirable island with
  | none => .next s
  | some p =>
    let s := match s.lender island with
      | some q => (s.takePairs [island]).returnPairs q [island]
      | none => s
    .next ((s.retirePair island).setProposal { p with state := 3 })

/-! ### Power and heat (R387) -/

abbrev fullSpeed : Nat := 2400

/-- Change an island's frequency by one step, and report it. -/
def State.stepIsland (s : State) (i : Nat) (down : Bool) : State :=
  let f := SMap.get fullSpeed s.hm.islands i
  let f' := if down then max 1200 (f - 100) else min fullSpeed (f + 100)
  if f' = f then s
  else { s with hm := { s.hm with islands := SMap.set fullSpeed s.hm.islands i f' } }.event 6 i f'

/-- Whether no island that can still be lowered draws more than this one now. -/
def State.drawsMost (s : State) (island : Nat) : Bool :=
  (List.range 128).all fun j =>
    decide (SMap.get fullSpeed s.hm.islands j ≤ 1200) || decide (Config.draw s.freeCount j ≤ Config.draw s.freeCount island)

/-- POWER_CAP_STEP: the 1 ms average against the cap. The highest-drawing islands are lowered first. -/
def execPowerCapStep (island watts : Nat) (s : State) : Out :=
  if s.hm.cap < watts then .next (if s.drawsMost island then s.stepIsland island true else s)
  else if watts * 100 ≤ s.hm.cap * 95 then .next (s.stepIsland island false)
  else .next s

/-- THERMAL_STEP: a die at 105 °C. -/
def execThermalStep (die tenths : Nat) (s : State) : Out :=
  if tenths < 1050 then .next s
  else .next ((List.range 16).foldl (fun s i => s.stepIsland (16 * die + i) true) s)

/-! ### Hot rows (R333), retraining (R348), halts (R216, R386) -/

/-- HOT_ROW_EVENT (R333): only requests to the row are held. -/
def execHotRowEvent (stack bank row : Nat) (s : State) : Out := .next { s with hotRows := addOnce s.hotRows (stack, bank, row) }

/-- REFRESH_MANAGEMENT_WINDOW_END (R333). -/
def execRefreshManagementWindowEnd (stack bank row : Nat) (s : State) : Out :=
  .next { s with hotRows := s.hotRows.filter fun r => !decide (r = (stack, bank, row)) }

/-- LINK_RETRAIN_COMPLETE (R348): the traffic that waited leaves in its order. -/
def execLinkRetrainComplete (link : Nat) (s : State) : Out := .next (s.setLink link {}).releaseHeld

def State.drained (s : State) (ctx : Nat) : Bool := ((s.ctx? ctx).map fun c => c.dbg == 1).getD false && s.ctxQuiet ctx

/-- HALT_DRAIN_COMPLETE (R386): every operation issued before the halt has retired. -/
def execHaltDrainComplete (ctx : Nat) (s : State) : Out :=
  match s.ctx? ctx with
  | none => .next s
  | some c => if s.drained ctx then .next (s.putCtx { c with dbg := 2 }) else .next s

/-! ### Starts (R382 to R384) -/

/-- Proposals that a start applies: authorised row and column spares (R379). -/
def Proposal.applied (p : Proposal) : Proposal := if p.kind ≤ 1 ∧ p.state = 1 then { p with state := 3 } else p

/-- What the harbourmaster's non-volatile store keeps (R11, R378, R379, R383, R391). -/
def Hm.kept (h : Hm) : Hm :=
  { errors := h.errors, proposals := h.proposals, spares := h.spares, retiredPairs := h.retiredPairs, failedWarm := h.failedWarm, trained := h.trained, pkgid := h.pkgid, podid := h.podid
    fwImage := h.fwImage, measured1 := Config.romVersion, measured := Config.digest384 h.fwImage, fused := h.fused }

/-- The store once a start has applied the authorised spares (R379). -/
def Hm.repaired (h : Hm) : Hm :=
  { h with
    proposals := h.proposals.map Proposal.applied
    spares := h.spares ++ (h.proposals.filter fun p => p.kind ≤ 1 && p.state == 1).map fun p => (p.kind, p.unit) }

/-- The package at the beginning of a start: everything but the store, the world outside and the model's own counters is
as `State.reset` has it. -/
def State.blank (s : State) (h : Hm) : State :=
  h.retiredPairs.foldl State.retirePair { State.reset with
    agenda := s.agenda, freeCount := s.freeCount, hostMem := s.hostMem, hostWrites := s.hostWrites, out := s.out
    images := s.images, starts := s.starts + 1, keyGens := s.keyGens + 1, hm := h
    keys := [(0, some { owner := none, key := Config.startKey (s.starts + 1), gen := s.keyGens + 1 })] }

/-- An accepted image with a higher security version raises the fused minimum to its own (R384). -/
def Hm.raised (h : Hm) : Hm :=
  let v := Config.imageVersion h.fwImage
  { h with fused := if ((h.fused).getD Config.fusedVersion0).toNat < v.toNat then some v else h.fused }

/-- A start fails and stops: the mailbox shows status 6 with the failure count (R382). -/
def State.startFailed (s : State) (warm : Bool) : State :=
  let h := s.hm.kept.raised
  let n := if warm then h.failedWarm + 1 else h.failedWarm
  s.blank { h with failedWarm := n, status := 6, rsp := writeMap 0 [] 0 (toBytes n 4), stopped := true }

/-- A start: the image is verified first; `ok` says whether the steps that the spec leaves to the hardware succeed. -/
def State.start (s : State) (warm ok : Bool) : State :=
  let warm := warm && decide (s.hm.failedWarm < 3)
  if !s.imageGood s.hm.fwImage then s.blank { s.hm.kept with recovery := true }
  else if !ok || (warm && !s.hm.trained) then s.startFailed warm
  else
    s.blank { s.hm.kept.repaired.raised with failedWarm := 0, trained := true }

/-- COLD_START (R382). -/
def execColdStart (ok : Bool) (s : State) : Out := .next (s.start false ok)

/-- WARM_START (R382); after three failed ones in a row the start is cold (R383). -/
def execWarmStart (ok : Bool) (s : State) : Out := .next (s.start true ok)

/-! ### The mailbox (R388, R391) -/

def State.req (s : State) (off n : Nat) : Nat := ofBytes (readMap 0 s.hm.req off n)

/-- A command ends; a write of the command register that waits for it goes on (R388). -/
def State.mailDone (s : State) (status : Nat) (rsp : List Byte) : State :=
  { s with hm := { s.hm with status := status, seq := s.hm.seq + 1, rsp := writeMap 0 [] 0 rsp } }.retry

/-- The commands of the mailbox are not served in recovery mode (R385). -/
def State.mailbox (s : State) (f : State → State) : Out := if s.hm.recovery then .next s else .next (f s)

/-- RESTART (command 1); whether the start's steps succeed is left open. -/
def execRestart (s : State) : Out :=
  s.mailbox fun s =>
    let k := s.req 0 1
    if 1 < k then s.mailDone 2 []
    else
      let c := s.pickNat 2
      c.2.start (k == 1) (c.1 == 0)

/-- The 24 bytes of a proposal (R391). -/
def State.proposalBytes (s : State) (p : Proposal) : List Byte :=
  toBytes p.id 4 ++ toBytes p.kind 1 ++ toBytes p.unit.utype 1 ++ toBytes p.state 1 ++
  toBytes (min 255 (s.errorTimes p.unit).length) 1 ++ toBytes p.unit.code.toNat 8 ++ toBytes p.first.toNat 8

/-- LIST_PROPOSALS (command 2). -/
def execListProposals (s : State) : Out :=
  s.mailbox fun s =>
    let l := (s.hm.proposals.filter fun p => decide (s.req 0 4 ≤ p.id)).take 8
    s.mailDone 0 (toBytes l.length 8 ++ l.flatMap s.proposalBytes)

/-- AUTHORISE_PROPOSAL (command 3): lane sparing is applied at once (R379). -/
def execAuthoriseProposal (s : State) : Out :=
  s.mailbox fun s =>
    match s.hm.proposals.find? fun p => p.id == s.req 0 4 with
    | none => s.mailDone 2 []
    | some p =>
      let d := s.req 8 1
      if 1 < d then s.mailDone 2 []
      else if p.state ≠ 0 ∨ (d = 1 ∧ p.kind = 4) then s.mailDone 3 []
      else if d = 0 then (s.setProposal { p with state := 2 }).mailDone 0 []
      else if p.kind = 2 then
        ((s.setProposal { p with state := 3 }).setLink (p.unit.code.toNat % 256) { retraining := true }).mailDone 0 []
      else (s.setProposal { p with state := 1 }).mailDone 0 []

/-- SET_POWER_CAP (command 4). -/
def execSetPowerCap (s : State) : Out :=
  s.mailbox fun s =>
    let w := s.req 0 4
    if w < 800 ∨ 2600 < w then s.mailDone 3 [] else { s with hm := { s.hm with cap := w } }.mailDone 0 []

/-- READ_SENSORS (command 5): the readings are open values. -/
def execReadSensors (s : State) : Out :=
  s.mailbox fun s =>
    let n := s.freeCount
    let r (i : Nat) : List Byte := toBytes (Config.sensor (n + i)).toNat 2
    let rsp := r 0 ++ toBytes 0 2 ++ (List.range 16).flatMap fun i => r (i + 1)
    { s with freeCount := n + 17 }.mailDone 0 rsp

/-- The harbourmaster measures a route when it sets it up (R373). -/
def State.echo (s : State) (dst : Nat) : State :=
  if dst = s.hm.pkgid then s
  else s.emit { dst := dst, src := s.hm.pkgid, kind := 10, op := 3, opd0 := BitVec.ofNat 64 s.tlNow }

/-- SET_IDENTITY_AND_ROUTES (command 6). -/
def execSetIdentityAndRoutes (s : State) : Out :=
  s.mailbox fun s =>
    let m := s.req 8 2
    let f := s.req 6 2
    if s.gangs.any fun g => g.2.valid then s.mailDone 3 []
    else if 240 < m ∨ 512 < f + m ∨ 511 < s.req 2 2 then s.mailDone 2 []
    else
      let es := readMap 0 s.hm.req 0x10 m
      let h := { s.hm with routes := writeMap 0 s.hm.routes f es }
      let h := if s.req 0 1 % 2 = 1 then { h with pkgid := s.req 2 2, podid := s.req 4 2 } else h
      let s := { s with hm := h }
      let new := (es.zipIdx.filter fun e => e.1.getLsbD 7).map fun e => f + e.2
      (new.foldl State.echo s).mailDone 0 []

/-- READ_IDENTITY (command 7, R390). -/
def execReadIdentity (s : State) : Out :=
  s.mailbox fun s =>
    let h := s.hm
    let part : List Byte := [0x4c, 0x58, 0x2d, 0x49, 0x58, 0x50, 0x38, 0x00]
    s.mailDone 0 (part ++ toBytes Config.serial.toNat 8 ++ (List.range 10).map Config.stepping ++ toBytes 0 6 ++
      List.replicate 8 (96 : Byte) ++ toBytes h.retiredPairs.length 2 ++ toBytes 0 2 ++
      toBytes ((h.fused).getD Config.fusedVersion0).toNat 4 ++ toBytes h.pkgid 2 ++ toBytes h.podid 2)

end Sys2Proof.Machine
end

