-- ==== Sys2Proof/Machine/Integer.lean ====
section
/-! DEFINITION. Integer, bit-field, compare, address and immediate instructions (R79 to R88). -/

namespace Sys2Proof.Machine

/-- x[d] ← f(x[a], x[b]), read before the write (R79). -/
def alu3 (s : State) (d a b : Reg) (f : Word → Word → Word) : Out :=
  regOp s .both [d, a, b] 4 fun t => t.wr d (f (t.rd a) (t.rd b))

def alu2 (s : State) (len : Nat) (d a : Reg) (f : Word → Word) : Out :=
  regOp s .both [d, a] len fun t => t.wr d (f (t.rd a))

def b2w (b : Bool) : Word := if b then 1 else 0

/-! ### Results -/

def shlV (a : Word) (n : Nat) : Word := BitVec.ofNat 64 (a.toNat * 2 ^ n)
def shrV (a : Word) (n : Nat) : Word := BitVec.ofNat 64 (a.toNat / 2 ^ n)
/-- Floor division of the signed value (R80). -/
def sraV (a : Word) (n : Nat) : Word := wrap64 (a.toInt / 2 ^ n)
def rotV (a : Word) (n : Nat) : Word := BitVec.ofNat 64 (a.toNat / 2 ^ n + a.toNat * 2 ^ (64 - n))

def divV (a b : Word) : Word := if b = 0 then BitVec.allOnes 64 else wrap64 (a.toInt.tdiv b.toInt)
def divuV (a b : Word) : Word := if b = 0 then BitVec.allOnes 64 else BitVec.ofNat 64 (a.toNat / b.toNat)
def remV (a b : Word) : Word := if b = 0 then a else wrap64 (a.toInt - b.toInt * a.toInt.tdiv b.toInt)
def remuV (a b : Word) : Word := if b = 0 then a else BitVec.ofNat 64 (a.toNat % b.toNat)

/-- Zero bits above the highest one bit among the low `n` bits. -/
def clzGo (a : Word) : Nat → Nat
  | 0 => 0
  | n + 1 => if a.getLsbD n then 0 else 1 + clzGo a n

/-- Zero bits below the lowest one bit from bit `64 - n` on. -/
def ctzGo (a : Word) : Nat → Nat
  | 0 => 0
  | n + 1 => if a.getLsbD (63 - n) then 0 else 1 + ctzGo a n

/-- Bit i to bit 63 − i. -/
def brevGo (a : Word) : Nat → Nat
  | 0 => 0
  | n + 1 => brevGo a n + if a.getLsbD n then 2 ^ (63 - n) else 0

/-- A field never runs past bit 63 (R86). -/
def fieldWidth (b : Word) : Nat := min (bfWidth b) (64 - bfPos b)
def fieldVal (a b : Word) : Nat := a.toNat / 2 ^ bfPos b % 2 ^ fieldWidth b

def bfxV (a b : Word) : Word := BitVec.ofNat 64 (fieldVal a b)
def bfxSV (a b : Word) : Word :=
  let n := fieldWidth b
  let v := fieldVal a b
  if n = 0 then 0 else if v < 2 ^ (n - 1) then BitVec.ofNat 64 v else wrap64 ((v : Int) - 2 ^ n)
def bfiV (d a b : Word) : Word :=
  let m : Word := BitVec.ofNat 64 ((2 ^ fieldWidth b - 1) * 2 ^ bfPos b)
  (d &&& ~~~m) ||| (shlV a (bfPos b) &&& m)

def cmpEqV (a b : Word) : Bool := decide (a = b)
def cmpLtV (a b : Word) : Bool := decide (a.toInt < b.toInt)
def cmpLtuV (a b : Word) : Bool := decide (a.toNat < b.toNat)

/-! ### Meanings -/

/-- `add` (R79). -/
def execAdd (d a b : Reg) (s : State) : Out := alu3 s d a b fun a b => a + b

/-- `sub` (R79). -/
def execSub (d a b : Reg) (s : State) : Out := alu3 s d a b fun a b => a - b

/-- `and` (R79). -/
def execAnd (d a b : Reg) (s : State) : Out := alu3 s d a b fun a b => a &&& b

/-- `or` (R79). -/
def execOr (d a b : Reg) (s : State) : Out := alu3 s d a b fun a b => a ||| b

/-- `xor` (R79). -/
def execXor (d a b : Reg) (s : State) : Out := alu3 s d a b fun a b => a ^^^ b

/-- `andn` (R79). -/
def execAndn (d a b : Reg) (s : State) : Out := alu3 s d a b fun a b => a &&& ~~~b

/-- `orn` (R79). -/
def execOrn (d a b : Reg) (s : State) : Out := alu3 s d a b fun a b => a ||| ~~~b

/-- `min` (R79). -/
def execMin (d a b : Reg) (s : State) : Out := alu3 s d a b fun a b => if a.toInt ≤ b.toInt then a else b

/-- `max` (R79). -/
def execMax (d a b : Reg) (s : State) : Out := alu3 s d a b fun a b => if b.toInt ≤ a.toInt then a else b

/-- `minu` (R79). -/
def execMinu (d a b : Reg) (s : State) : Out := alu3 s d a b fun a b => if a.toNat ≤ b.toNat then a else b

/-- `maxu` (R79). -/
def execMaxu (d a b : Reg) (s : State) : Out := alu3 s d a b fun a b => if b.toNat ≤ a.toNat then a else b

/-- `shl` (R80). -/
def execShl (d a b : Reg) (s : State) : Out := alu3 s d a b fun a b => shlV a (shamt b)

/-- `shr` (R80). -/
def execShr (d a b : Reg) (s : State) : Out := alu3 s d a b fun a b => shrV a (shamt b)

/-- `sra` (R80). -/
def execSra (d a b : Reg) (s : State) : Out := alu3 s d a b fun a b => sraV a (shamt b)

/-- `rot` (R80). -/
def execRot (d a b : Reg) (s : State) : Out := alu3 s d a b fun a b => rotV a (shamt b)

/-- `mul` (R81). -/
def execMul (d a b : Reg) (s : State) : Out := alu3 s d a b fun a b => wrap64 (a.toInt * b.toInt)

/-- `mulh` (R81). -/
def execMulh (d a b : Reg) (s : State) : Out := alu3 s d a b fun a b => wrap64 (a.toInt * b.toInt / 2 ^ 64)

/-- `mulhu` (R81). -/
def execMulhu (d a b : Reg) (s : State) : Out := alu3 s d a b fun a b => BitVec.ofNat 64 (a.toNat * b.toNat / 2 ^ 64)

/-- `div` (R81). -/
def execDiv (d a b : Reg) (s : State) : Out := alu3 s d a b fun a b => divV a b

/-- `divu` (R81). -/
def execDivu (d a b : Reg) (s : State) : Out := alu3 s d a b fun a b => divuV a b

/-- `rem` (R81). -/
def execRem (d a b : Reg) (s : State) : Out := alu3 s d a b fun a b => remV a b

/-- `remu` (R81). -/
def execRemu (d a b : Reg) (s : State) : Out := alu3 s d a b fun a b => remuV a b

/-- `cmp.eq` (R83). -/
def execCmpEq (d a b : Reg) (s : State) : Out := alu3 s d a b fun a b => b2w (cmpEqV a b)

/-- `cmp.ne` (R83). -/
def execCmpNe (d a b : Reg) (s : State) : Out := alu3 s d a b fun a b => b2w (!cmpEqV a b)

/-- `cmp.lt` (R83). -/
def execCmpLt (d a b : Reg) (s : State) : Out := alu3 s d a b fun a b => b2w (cmpLtV a b)

/-- `cmp.ge` (R83). -/
def execCmpGe (d a b : Reg) (s : State) : Out := alu3 s d a b fun a b => b2w (!cmpLtV a b)

/-- `cmp.ltu` (R83). -/
def execCmpLtu (d a b : Reg) (s : State) : Out := alu3 s d a b fun a b => b2w (cmpLtuV a b)

/-- `cmp.geu` (R83). -/
def execCmpGeu (d a b : Reg) (s : State) : Out := alu3 s d a b fun a b => b2w (!cmpLtuV a b)

/-- `bfx` (R86). -/
def execBfx (d a b : Reg) (s : State) : Out := alu3 s d a b fun a b => bfxV a b

/-- `bfx.s` (R86). -/
def execBfxS (d a b : Reg) (s : State) : Out := alu3 s d a b fun a b => bfxSV a b

/-- `clz` (R82). -/
def execClz (d a : Reg) (s : State) : Out := alu2 s 4 d a fun a => BitVec.ofNat 64 (clzGo a 64)

/-- `ctz` (R82). -/
def execCtz (d a : Reg) (s : State) : Out := alu2 s 4 d a fun a => BitVec.ofNat 64 (ctzGo a 64)

/-- `popc` (R82). -/
def execPopc (d a : Reg) (s : State) : Out := alu2 s 4 d a fun a => BitVec.ofNat 64 (popCount a 64)

/-- `brev` (R82). -/
def execBrev (d a : Reg) (s : State) : Out := alu2 s 4 d a fun a => BitVec.ofNat 64 (brevGo a 64)

/-- `sel` (R84): the condition is the value in the destination register. -/
def execSel (d a b : Reg) (s : State) : Out :=
  regOp s .both [d, a, b] 4 fun t => t.wr d (if t.rd d ≠ 0 then t.rd a else t.rd b)

/-- `lea` (R85). -/
def execLea (d a b : Reg) (n : BitVec 4) (s : State) : Out := alu3 s d a b fun a b => a + shlV b n.toNat

/-- `bfi` (R86): it reads x[d] as well. -/
def execBfi (d a b : Reg) (s : State) : Out :=
  regOp s .both [d, a, b] 4 fun t => t.wr d (bfiV (t.rd d) (t.rd a) (t.rd b))

/-- `addi` (R87). -/
def execAddi (d a : Reg) (i : BitVec 11) (s : State) : Out := alu2 s 4 d a fun a => a + simm11 i

/-- `andi` (R87). -/
def execAndi (d a : Reg) (i : BitVec 11) (s : State) : Out := alu2 s 4 d a fun a => a &&& simm11 i

/-- `ori` (R87). -/
def execOri (d a : Reg) (i : BitVec 11) (s : State) : Out := alu2 s 4 d a fun a => a ||| simm11 i

/-- `xori` (R87). -/
def execXori (d a : Reg) (i : BitVec 11) (s : State) : Out := alu2 s 4 d a fun a => a ^^^ simm11 i

/-- `cmpieq` (R87). -/
def execCmpiEq (d a : Reg) (i : BitVec 11) (s : State) : Out := alu2 s 4 d a fun a => b2w (cmpEqV a (simm11 i))

/-- `cmpine` (R87). -/
def execCmpiNe (d a : Reg) (i : BitVec 11) (s : State) : Out := alu2 s 4 d a fun a => b2w (!cmpEqV a (simm11 i))

/-- `cmpilt` (R87). -/
def execCmpiLt (d a : Reg) (i : BitVec 11) (s : State) : Out := alu2 s 4 d a fun a => b2w (cmpLtV a (simm11 i))

/-- `cmpige` (R87). -/
def execCmpiGe (d a : Reg) (i : BitVec 11) (s : State) : Out := alu2 s 4 d a fun a => b2w (!cmpLtV a (simm11 i))

/-- `cmpiltu` (R87). -/
def execCmpiLtu (d a : Reg) (i : BitVec 11) (s : State) : Out := alu2 s 4 d a fun a => b2w (cmpLtuV a (simm11 i))

/-- `cmpigeu` (R87). -/
def execCmpiGeu (d a : Reg) (i : BitVec 11) (s : State) : Out := alu2 s 4 d a fun a => b2w (!cmpLtuV a (simm11 i))

/-- `shli` (R87). -/
def execShli (d a : Reg) (n : BitVec 6) (s : State) : Out := alu2 s 4 d a fun a => shlV a n.toNat

/-- `shri` (R87). -/
def execShri (d a : Reg) (n : BitVec 6) (s : State) : Out := alu2 s 4 d a fun a => shrV a n.toNat

/-- `srai` (R87). -/
def execSrai (d a : Reg) (n : BitVec 6) (s : State) : Out := alu2 s 4 d a fun a => sraV a n.toNat

/-- `limm` (R88). -/
def execLimm (d : Reg) (i : BitVec 32) (s : State) : Out := regOp s .both [d] 8 fun t => t.wr d (i.signExtend 64)

/-- `lhi` (R88): the upper half of x[d]. -/
def execLhi (d : Reg) (i : BitVec 32) (s : State) : Out :=
  regOp s .both [d] 8 fun t => t.wr d (i ++ (t.rd d).extractLsb' 0 32)

end Sys2Proof.Machine
end

