-- ==== Sys2Proof/Machine/Packed.lean ====
section
/-! DEFINITION. Packed instructions (R111 to R116). -/

namespace Sys2Proof.Machine

def unionFlags (l : List (Nat × Flags)) : Flags := l.foldl (fun f x => f ||| x.2) 0

/-- Element i of x[d] ← f(aᵢ, bᵢ, dᵢ) on the raw elements, with flags (R111). -/
def packed (s : State) (p : PTy) (d a b : Reg) (f : BitVec 2 → Nat → Nat → Nat → Nat × Flags) : Out :=
  regOp s .thread [d, a, b] 4 fun t =>
    let es := (List.range (PTy.count p)).map fun i =>
      f t.rm (elemAt p (t.rd a) i) (elemAt p (t.rd b) i) (elemAt p (t.rd d) i)
    (t.raise (unionFlags es)).wr d (packEls p (es.map (·.1)))

/-- A float element: an exact value, rounded in the element's format; an INT8 element wraps (R111). -/
def pElem (p : PTy) (rm : BitVec 2) (ops : List Nat) (x : Ext × Bool) (n : Int) : Nat × Flags :=
  match PTy.fmt p with
  | some f => finish x.1 x.2 (ops.map (decodeF f)) f rm
  | none => (wrap8 n, 0)

/-- `padd` (R112). -/
def execPadd (p : PTy) (d a b : Reg) (s : State) : Out :=
  packed s p d a b fun rm a b _ => pElem p rm [a, b] (sumExt rm [elemVal p a, elemVal p b]) (s8 a + s8 b)

/-- `psub` (R112). -/
def execPsub (p : PTy) (d a b : Reg) (s : State) : Out :=
  packed s p d a b fun rm a b _ => pElem p rm [a, b] (sumExt rm [elemVal p a, (elemVal p b).neg]) (s8 a - s8 b)

/-- `pmul` (R112). -/
def execPmul (p : PTy) (d a b : Reg) (s : State) : Out :=
  packed s p d a b fun rm a b _ => pElem p rm [a, b] ((elemVal p a).mul (elemVal p b)) (s8 a * s8 b)

/-- `pfma` (R112): x[d] is the addend. -/
def execPfma (p : PTy) (d a b : Reg) (s : State) : Out :=
  packed s p d a b fun rm a b c =>
    let m := (elemVal p a).mul (elemVal p b)
    let r := sumExt rm [m.1, elemVal p c]
    pElem p rm [a, b, c] (r.1, m.2 || r.2) (s8 a * s8 b + s8 c)

/-- `pmax` (R112). -/
def execPmax (p : PTy) (d a b : Reg) (s : State) : Out :=
  packed s p d a b fun _ a b _ => match PTy.fmt p with
    | some f => maxNum f a b
    | none => (if s8 b ≤ s8 a then a else b, 0)

/-- `pmin` (R112). -/
def execPmin (p : PTy) (d a b : Reg) (s : State) : Out :=
  packed s p d a b fun _ a b _ => match PTy.fmt p with
    | some f => minNum f a b
    | none => (if s8 a ≤ s8 b then a else b, 0)

/-- The larger magnitude; a NaN stays (R113). -/
def amaxGo (m : Ext) : List Ext → Ext
  | [] => m
  | e :: t =>
    if e.isNan then amaxGo (.nan false) t
    else if !m.isNan && m.lt e.abs then amaxGo e.abs t
    else amaxGo m t

def elems (p : PTy) (w : Word) : List Ext := (List.range (PTy.count p)).map fun i => elemVal p (elemAt p w i)

/-- `pamax` (R113). -/
def execPamax (p : PTy) (d a b : Reg) (s : State) : Out :=
  fop3 s d a b fun _ a b =>
    let es := elems p a ++ elems p b
    ((roundFmt (amaxGo (.fin false 0 0) es) fp64 rne false).1, sigFlag es)

/-- `pdot` (R114). The sum is formed as a cell's: an exact zero is −0 only where every term is (R71), under each rounding mode
(DEDUCED, log 36). A signalling addend raises nv as a signalling element does (R54, R66, DEDUCED, log 172). -/
def execPdot (p : PTy) (d a b : Reg) (s : State) : Out :=
  fop3 s d a b fun t a b =>
    match PTy.fmt p with
    | none =>
      let sum := (List.range 8).foldl (fun n i => n + s8 (elemAt p a i) * s8 (elemAt p b i)) (t.rd d).toInt
      ((sum % 2 ^ 64).toNat, 0)
    | some _ =>
      let c := decodeF fp64 (t.rd d).toNat
      let ps := ((elems p a).zip (elems p b)).map fun q => q.1.mul q.2
      let r := sumExt rne (c :: ps.map (·.1))
      finish r.1 (r.2 || ps.any (·.2)) (c :: elems p a ++ elems p b) fp64 t.rm

/-- Widen half of x[a] (R115). -/
def punpk (s : State) (p : PTy) (d a : Reg) (hi : Bool) : Out :=
  fop2 s d a fun _ a =>
    let n := PTy.count p / 2
    let es := (List.range n).map fun i => elemVal p (elemAt p a (if hi then i + n else i))
    let f := if PTy.width p = 8 then bf16 else fp32
    let rs := es.map fun e => (roundFmt e f rne false).1
    (rs.foldr (fun e acc => e + 2 ^ f.bits * acc) 0, sigFlag es)

/-- `punpk.lo` (R115). -/
def execPunpkLo (p : PTy) (d a : Reg) (s : State) : Out := punpk s p d a false

/-- `punpk.hi` (R115). -/
def execPunpkHi (p : PTy) (d a : Reg) (s : State) : Out := punpk s p d a true

def pTgt (p : PTy) : Tgt := match PTy.fmt p with
  | some f => .flt f
  | none => .int8

/-- Element i of one register or of a pair. -/
def pairElem (p : PTy) (lo hi : Word) (i : Nat) : Nat :=
  if i < PTy.count p then elemAt p lo i else elemAt p hi (i - PTy.count p)

/-- `pcvt` (R116). -/
def execPcvt (t src : PTy) (sat scl : Bool) (d a b : Reg) (s : State) : Out :=
  regOp s .thread [d, a, b] 8 fun u =>
    let n := max (PTy.count src) (PTy.count t)
    let lo := u.rd a
    let hi := if PTy.count src < n then u.rdHi a else 0
    let g := decodeF fp64 (u.rd b).toNat
    let rs := (List.range n).map fun i =>
      let e := elemVal src (pairElem src lo hi i)
      let v := if scl then e.mul g else (e, false)
      let r := roundTgt v.1 (pTgt t) u.rm sat
      let ops := if scl then [e, g] else [e]
      (r.1, r.2 ||| sigFlag ops ||| (if v.2 then flagNv else 0))
    let es := rs.map (·.1)
    let u := u.raise (unionFlags rs)
    if PTy.count t < n then u.wrPair d (packEls t (es.take 4)) (packEls t (es.drop 4)) else u.wr d (packEls t es)

end Sys2Proof.Machine
end

