-- ==== Sys2Proof/Machine/Registers.lean ====
section
/-! DEFINITION. The register maps: what a host write of a register does (R4, R5) and what a read returns. A write that
starts a step with a row of its own puts that step next on the agenda. -/

namespace Sys2Proof.Machine

/-- The value of a field. -/
def fld (v : Word) (hi lo : Nat) : Nat := bits v.toNat hi lo

/-- The nearer bound. -/
def clamp (lo hi n : Nat) : Nat := max lo (min hi n)

/-- A step that a write starts comes next. -/
def State.start2 (s : State) (i : Instr) : State := { s with agenda := i :: s.agenda }

/-- A word with its low bits cleared. -/
def clearLow (v : Word) (n : Nat) : Word := BitVec.ofNat 64 (v.toNat / 2 ^ n * 2 ^ n)

/-! ### Writes of a queue's registers (R315, R316) -/

def State.writeQueue (s : State) (q : QueueId) (off : Nat) (v : Word) : State :=
  let x := s.queue q
  if off = 0x00 then s.setQueue q { x with base := clearLow v 12, host := flag v.toNat 1 && (queueVf q).isSome, en := flag v.toNat 0 }
  else if off = 0x08 then s.setQueue q { x with lg := clamp 4 16 (fld v 4 0) }
  else if off = 0x10 then s.setQueue q { x with tail := v.setWidth 32 }
  else if off = 0x20 ∧ flag v.toNat 2 ∧ x.stop then s.start2 (.queueStopClear q)
  else s

/-! ### A VF's own space (R274, R293, R300, R315) -/

def State.writeOwn (s : State) (r : Requester) (vf off : Nat) (v : Word) : State :=
  let x := s.vf vf
  let idle := decide (x.fqWr = x.fqRp)
  if off = 0x200 then (if idle then s.setVf vf { x with fqbase := clearLow v 12 } else s)
  else if off = 0x208 then s.setVf vf { x with fqEn := flag v.toNat 31, fqLg := if idle then clamp 4 16 (fld v 4 0) else x.fqLg }
  else if off = 0x218 then s.start2 (.replayPointerWrite vf (v.setWidth 32))
  else if off = 0x228 then s.setVf vf { x with mlost := fld v 31 0 }
  else if 0x300 ≤ off ∧ off < 0x400 then
    let st := (off - 0x300) / 0x20
    if off % 0x20 = 0x10 ∧ flag v.toNat 0 then s.setCnt vf st { s.cnt vf st with evt := false } else s
  else if off = 0x400 then s.setVf vf { x with dgpa := BitVec.ofNat 64 (fld v 41 9 * 512) }
  else if off = 0x408 then s.setVf vf { x with dcount := v.setWidth 32 }
  else if off = 0x410 then (if flag v.toNat 0 then s.start2 (.discard (r, vf)) else s)
  else if 0x800 ≤ off ∧ off < 0xc00 then s.writeQueue (.vf vf ((off - 0x800) / 0x40)) (off % 0x40) v
  else s

/-! ### A VF's translation block (R267, R283, R293, R299, R309, R330, R332, R350) -/

/-- The placement of a VF (R309). -/
def State.writePlacement (s : State) (vf : Nat) (v : Word) : State :=
  let x := s.vf vf
  let p := fld v 1 0
  let keep := x.en || (s.part p).shape == 0
  s.setVf vf { x with weight := max 1 (fld v 15 8), en := flag v.toNat 2, part := if keep then x.part else p }

/-- A counter block's registers (R293); a change of rtarget refills (R294). -/
def State.writeCounters (s : State) (vf st off : Nat) (v : Word) : State :=
  let c := s.cnt vf st
  if off = 0x10 then
    let rlow := fld v 63 32
    let s := s.setCnt vf st { c with rlow := rlow, posted := c.posted && decide (c.rsv < rlow) }
    s.adjust vf st fun c => { c with rtarget := fld v 31 0 }
  else if off = 0x18 then s.setCnt vf st { c with burst := fld v 63 32, guar := fld v 31 0 }
  else if off = 0x20 then s.setCnt vf st { c with btarget := fld v 31 0 }
  else s

/-- The command register (R299): the command that a write starts, with result 1 until it ends; a write meanwhile waits. -/
def State.writeCommand (s : State) (vf : Nat) (v : Word) (i : Instr) : State :=
  let st := fld v 18 16
  let n := fld v 63 32
  let busy := s.modVf vf fun x => { x with cmdResult := 1 }
  if (s.vf vf).cmdResult = 1 then s.defer i
  else
    match fld v 3 0 with
    | 0 => s
    | 1 => busy.start2 (.transfer vf st n)
    | 2 => busy.start2 (.reclaim vf st n)
    | 3 => busy.start2 (.assign vf)
    | 4 => busy.start2 (.assignRaw vf)
    | 5 => busy.start2 (.release vf)
    | 6 => busy.start2 (.readDescriptor vf)
    | _ => s.result vf 5

/-- The shoot-down register (R267): sdbusy reads 1 from the write on; a write meanwhile waits. -/
def State.writeShoot (s : State) (vf : Nat) (v : Word) (i : Instr) : State :=
  let busy := s.modVf vf fun x => { x with sdbusy := true }
  if (s.vf vf).sdbusy then s.defer i
  else if fld v 1 0 = 2 then busy.start2 (.stage2ShootdownGpa vf (fld v 63 12 * 4096))
  else if fld v 1 0 = 3 then busy.start2 (.stage2ShootdownVf vf)
  else s

/-- Whether another enabled VF holds the tag (R350). -/
def State.tagTaken (s : State) (vf tag : Nat) : Bool := s.vfs.any fun p => p.1 != vf && p.2.fen && p.2.ftag == tag

def State.writeTranslation (s : State) (vf off : Nat) (v : Word) (i : Instr) : State :=
  let x := s.vf vf
  if off = 0x000 then s.writePlacement vf v
  else if off = 0x100 then s.setVf vf { x with s2base := BitVec.ofNat 64 (fld v 43 12 * 4096) }
  else if off = 0x108 then s.setVf vf { x with gpab := clamp 21 42 (fld v 5 0) }
  else if off = 0x110 then s.setVf vf { x with lbase := clearLow v 12 }
  else if off = 0x118 then
    s.setVf vf { x with logOvf := x.logOvf && !flag v.toNat 63, logEn := flag v.toNat 31, logLg := clamp 10 24 (fld v 4 0) }
  else if off = 0x128 then s.setVf vf { x with lrd := v.setWidth 32 }
  else if off = 0x138 then
    s.writeShoot vf v i
  else if off = 0x180 then
    (if flag v.toNat 31 && s.tagTaken vf (fld v 15 0) then s else s.setVf vf { x with fen := flag v.toNat 31, ftag := fld v 15 0 })
  else if 0x400 ≤ off ∧ off < 0x600 then s.writeCounters vf ((off - 0x400) / 0x40) (off % 0x40) v
  else if off = 0x600 then s.writeCommand vf v i
  else if off = 0x608 then s.setVf vf { x with cmdAddr := BitVec.ofNat 64 (fld v 43 9 * 512) }
  else if 0x700 ≤ off ∧ off < 0x720 then
    s.setVf vf { x with masks := SMap.set 0xffff x.masks ((off - 0x700) / 8) (BitVec.ofNat 22 (fld v 21 0)) }
  else if off = 0x740 then s.setVf vf { x with occSel := fld v 11 0 }
  else if off = 0x760 then s.setVf vf { x with mquota := fld v 31 0 }
  else s

/-! ### A partition block (R250, R311) -/

/-- A margin names pairs of the partition only, and at most as many as R310 allows. -/
def marginOk (p shape : Nat) (m : BitVec 128) : Bool :=
  m &&& ~~~(islandMask p shape) == 0 && decide (popCount m 128 ≤ 4 * 2 ^ shape)

/-- One half of a 128-bit pair of registers. -/
def half128 (m : BitVec 128) (high : Bool) (v : Word) : BitVec 128 :=
  if high then BitVec.ofNat 128 (m.toNat % 2 ^ 64 + 2 ^ 64 * v.toNat) else BitVec.ofNat 128 (m.toNat / 2 ^ 64 * 2 ^ 64 + v.toNat)

/-- Islands whose pairs have been retired: no margin names them (R379). -/
def State.retiredMask (s : State) : BitVec 128 := maskOf s.hm.retiredPairs

def State.writePartition (s : State) (p off : Nat) (v : Word) (i : Instr) : State :=
  let b := s.part p
  let active := b.shape != 0
  if off = 0x0000 then s.setPart p { b with ocr := clamp 64 128 (fld v 15 8), mode := flag v.toNat 0 }
  else if off = 0x0010 ∨ off = 0x0018 then
    let m := half128 b.margin (off == 0x18) v
    if active && marginOk p b.shape m then s.setPart p { b with margin := m &&& ~~~s.retiredMask } else s
  else if off = 0x0030 ∨ off = 0x0038 then
    (if active then s.setPart p { b with oper := half128 b.oper (off == 0x38) v } else s)
  else if off = 0x0040 then s.setPart p { b with dflt := fld v 7 4, lim := min 6 (fld v 3 0) }
  else if off = 0x0048 then s.setPart p { b with tq := max 1 (fld v 15 0) }
  else if off = 0x0050 then
    if !active then s
    else if b.status = 1 then s.defer i
    else
      let busy := s.partStatus p 1
      match fld v 3 0 with
      | 1 => busy.start2 (.merge p)
      | 2 => busy.start2 (.split p)
      | 3 => busy.start2 (.lend p (fld v 7 4))
      | 4 => busy.start2 (.revoke p)
      | _ => s.partStatus p 5
  else s

/-! ### The physical function (R316, R361, R362, R388) -/

/-- A gang entry; ignored while a switch is pending. -/
def State.writeGang (s : State) (i off : Nat) (v : Word) : State :=
  let g := s.gang i
  let put (g : Gang) : State := { s with gangs := SMap.set {} s.gangs i g }
  if g.gstate = 2 then s
  else if off = 0x00 then put { g with valid := flag v.toNat 63, coord := fld v 49 41, master := fld v 40 32, gid := fld v 15 0 }
  else if 0x10 ≤ off ∧ off < 0x50 then
    let j := 8 * (off - 0x10)
    put { g with members := BitVec.ofNat 512 (g.members.toNat % 2 ^ j + v.toNat * 2 ^ j + g.members.toNat / 2 ^ (j + 64) * 2 ^ (j + 64)) }
  else if off = 0x58 ∧ flag v.toNat 15 then put { g with sv := false }
  else s

/-- The harbourmaster's registers (R388). -/
def State.writeMailbox (s : State) (off : Nat) (v : Word) (i : Instr) : State :=
  let h := s.hm
  let busy : State := { s with hm := { h with status := 1 } }
  if off < 0x100 then { s with hm := { h with req := writeMap 0 h.req off (toBytes v.toNat 8) } }
  else if off = 0x200 then
    if h.status = 1 then s.defer i
    else
      match fld v 7 0 with
      | 1 => busy.start2 .restart
      | 2 => busy.start2 .listProposals
      | 3 => busy.start2 .authoriseProposal
      | 4 => busy.start2 .setPowerCap
      | 5 => busy.start2 .readSensors
      | 6 => busy.start2 .setIdentityAndRoutes
      | 7 => busy.start2 .readIdentity
      | _ => s.mailDone 2 []
  else if off = 0x208 then { s with hm := { h with evbase := clearLow v 12, evlg := clamp 6 16 (fld v 4 0) } }
  else if off = 0x218 then { s with hm := { h with evrd := v.setWidth 32 } }
  else s

def State.writePf (s : State) (port off : Nat) (v : Word) (i : Instr) : State :=
  if 0x800 ≤ off ∧ off < 0xc00 then s.writeQueue (.pf port ((off - 0x800) / 0x40)) (off % 0x40) v
  else if 0x8000 ≤ off ∧ off < 0x8300 then s.writeMailbox (off - 0x8000) v i
  else if off = 0x10018 then
    { s with tide := { s.tide with en := flag v.toNat 11, p2p := flag v.toNat 10, transport := fld v 9 8, domain := min 127 (fld v 7 0) } }
  else if 0x11000 ≤ off ∧ off < 0x13000 then s.writeGang ((off - 0x11000) / 0x80) (off % 0x80) v
  else s

/-- Register spaces and offsets that exist: doublewords of the functions and blocks of R308 and R316. -/
def RegSpace.real (sp : RegSpace) (off : Nat) : Bool :=
  off % 8 == 0 && (match sp with
    | .vfOwn v | .translation v => decide (v < 1024) && decide (off < 0x1000)
    | .partition p => decide (p < 4) && decide (off < 0x1000)
    | .pf port | .config port => decide (port < 2))

/-- The block that an offset of a physical function's BAR 0 lies in (R308). -/
def resolve (sp : RegSpace) (off : Nat) : RegSpace × Nat :=
  match sp with
  | .pf port =>
    if 0x20000 ≤ off ∧ off < 0x24000 then (.partition ((off - 0x20000) / 0x1000), off % 0x1000)
    else if 0x1000000 ≤ off ∧ off < 0x1400000 then (.translation ((off - 0x1000000) / 0x1000), off % 0x1000)
    else (.pf port, off)
  | sp => (sp, off)

/-- The SR-IOV capability: NumVFs at offset 0x10; a sum above 1,024 is ignored (R339, R340, PRESUMED, log 161). -/
def State.writeConfig (s : State) (port off : Nat) (v : Word) : State :=
  let n := fld v 15 0
  let m := if port = 0 then (n, s.numVfs.2) else (s.numVfs.1, n)
  if off = 0x10 ∧ m.1 + m.2 ≤ 1024 then { s with numVfs := m } else s

/-- Whether the package serves a write of a register now: no VF's that no port presents (R340), nothing in recovery mode (R385), and the
mailbox alone where a start has failed (R382). -/
def State.servesWrite (s : State) (sp : RegSpace) (off : Nat) : Bool :=
  if s.hm.recovery then false
  else if s.hm.stopped then
    match sp with
    | .pf _ => decide (0x8000 ≤ off) && decide (off < 0x8300)
    | _ => false
  else
    match sp with
    | .vfOwn v => s.presented v
    | _ => true

/-- What a register write waits behind: what came before it through its port (R335), and for a replay pointer the posted writes of its
requester too (R275). -/
def State.writeHeld (s : State) (w : Requester × RegSpace) (sp : RegSpace) (off : Nat) : Bool :=
  s.portHeld (spacePort s w.2) ||
  match sp with
  | .vfOwn v => off == 0x218 && s.behindWrites v w.1
  | _ => false

/-- REGISTER_WRITE (R4, R5): by the access code of each field. -/
def execRegisterWrite (w : Requester × RegSpace) (off : Nat) (v : BitVec 64) (s : State) : Out :=
  let i : Instr := .registerWrite w off v
  let at' := resolve w.2 off
  if !(s.servesWrite at'.1 at'.2 && RegSpace.real at'.1 at'.2) then .next s
  else if s.writeHeld w at'.1 at'.2 then .next (s.defer i)
  else
    match at'.1 with
    | .vfOwn vf => .next (s.writeOwn w.1 vf at'.2 v)
    | .translation vf => .next (s.writeTranslation vf at'.2 v i)
    | .partition p => .next (s.writePartition p at'.2 v i)
    | .pf port => .next (s.writePf port at'.2 v i)
    | .config port => .next (s.writeConfig port at'.2 v)

/-! ### Reads (R4) -/

def bw (n : Nat) : Word := BitVec.ofNat 64 n

def State.readQueue (s : State) (q : QueueId) (off : Nat) : Word :=
  let x := s.queue q
  if off = 0x00 then bw (x.base.toNat + bitIf (s.ringInHost q) 1 + bitIf x.en 0)
  else if off = 0x08 then bw x.lg
  else if off = 0x10 then bw x.tail.toNat
  else if off = 0x18 then bw x.head.toNat
  else if off = 0x20 then
    bw (x.cpl.toNat * 2 ^ 32 + x.err * 2 ^ 8 + bitIf x.stop 2 + bitIf (s.quiesced q) 1 + bitIf (s.queueBusy q) 0)
  else 0

def State.readOwn (s : State) (vf off : Nat) : Word :=
  let x := s.vf vf
  let c := s.cnt vf ((off - 0x300) / 0x20)
  if off = 0x200 then x.fqbase
  else if off = 0x208 then bw (bitIf x.fqEn 31 + x.fqLg)
  else if off = 0x210 then bw x.fqWr.toNat
  else if off = 0x218 then bw x.fqRp.toNat
  else if off = 0x228 then bw x.mlost
  else if 0x300 ≤ off ∧ off < 0x400 then
    (if off % 0x20 = 0 then bw (c.rsv * 2 ^ 32 + c.used)
     else if off % 0x20 = 8 then bw (c.btarget * 2 ^ 32 + c.pool)
     else if off % 0x20 = 0x10 then bw (bitIf c.evt 0) else 0)
  else if off = 0x400 then x.dgpa
  else if off = 0x408 then bw x.dcount.toNat
  else if off = 0x418 then bw (x.dprog.toNat * 2 ^ 32 + x.dstat)
  else if 0x800 ≤ off ∧ off < 0xc00 then s.readQueue (.vf vf ((off - 0x800) / 0x40)) (off % 0x40)
  else 0

def State.readCounters (s : State) (vf st off : Nat) : Word :=
  let c := s.cnt vf st
  if off = 0x00 then bw (c.grant * 2 ^ 32 + c.used)
  else if off = 0x08 then bw (c.pool * 2 ^ 32 + c.rsv)
  else if off = 0x10 then bw (c.rlow * 2 ^ 32 + c.rtarget)
  else if off = 0x18 then bw (c.burst * 2 ^ 32 + c.guar)
  else if off = 0x20 then bw (c.lostwb * 2 ^ 32 + c.btarget)
  else if off = 0x28 then bw (bitIf (decide (c.guar < c.held)) 1 + bitIf (decide (c.rsv < c.rlow)) 0)
  else 0

/-- The VF's lines in the selected slice, and the moored ones among them (R332). -/
def State.occupancy (s : State) (vf : Nat) : Nat × Nat :=
  let sel := (s.vf vf).occSel
  let mine := s.sc.filter fun l => l.vf == vf && l.stack == sel / 512 && l.slice == sel % 512
  (mine.length, (mine.filter (·.moored)).length)

def State.readTranslation (s : State) (vf off : Nat) : Word :=
  let x := s.vf vf
  if off = 0x000 then bw (x.weight * 2 ^ 8 + bitIf x.en 2 + x.part)
  else if off = 0x100 then x.s2base
  else if off = 0x108 then bw x.gpab
  else if off = 0x110 then x.lbase
  else if off = 0x118 then bw (bitIf x.logOvf 63 + bitIf x.logEn 31 + x.logLg)
  else if off = 0x120 then bw x.lwr.toNat
  else if off = 0x128 then bw x.lrd.toNat
  else if off = 0x140 then bw (bitIf x.sdbusy 0)
  else if off = 0x180 then bw (bitIf x.fen 31 + x.ftag)
  else if 0x400 ≤ off ∧ off < 0x600 then s.readCounters vf ((off - 0x400) / 0x40) (off % 0x40)
  else if off = 0x608 then x.cmdAddr
  else if off = 0x610 then bw x.cmdResult
  else if off = 0x618 then x.cmdDesc
  else if 0x680 ≤ off ∧ off < 0x6c0 then bw (s.freeAt ((off - 0x680) / 8))
  else if 0x700 ≤ off ∧ off < 0x720 then bw (SMap.get (0xffff : BitVec 22) x.masks ((off - 0x700) / 8)).toNat
  else if off = 0x740 then bw x.occSel
  else if off = 0x748 then bw ((s.occupancy vf).2 * 2 ^ 16 + (s.occupancy vf).1)
  else if off = 0x760 then bw (x.mused * 2 ^ 32 + x.mquota)
  else 0

def State.readPartition (s : State) (p off : Nat) : Word :=
  let b := s.part p
  if off = 0x0000 then bw (b.ocr * 2 ^ 8 + b.shape * 2 ^ 2 + bitIf b.mode 0)
  else if off = 0x0010 then b.margin.setWidth 64
  else if off = 0x0018 then bw (b.margin.toNat / 2 ^ 64)
  else if off = 0x0020 then b.lent.setWidth 64
  else if off = 0x0028 then bw (b.lent.toNat / 2 ^ 64)
  else if off = 0x0030 then b.oper.setWidth 64
  else if off = 0x0038 then bw (b.oper.toNat / 2 ^ 64)
  else if off = 0x0040 then bw (b.dflt * 2 ^ 4 + b.lim)
  else if off = 0x0048 then bw b.tq
  else if off = 0x0058 then bw (b.detail * 2 ^ 32 + b.status)
  else if off = 0x0060 then bw ((s.partDies p).foldl (fun m d => m + 2 ^ d) 0)
  else 0

def State.readGang (s : State) (i off : Nat) : Word :=
  let g := s.gang i
  if off = 0x00 then bw (bitIf g.valid 63 + g.coord * 2 ^ 41 + g.master * 2 ^ 32 + g.gid)
  else if off = 0x08 then bw g.gstate
  else if 0x10 ≤ off ∧ off < 0x50 then bw (g.members.toNat / 2 ^ (8 * (off - 0x10)))
  else if off = 0x50 then g.lastT
  else if off = 0x58 then bw (g.nstrag.toNat * 2 ^ 32 + bitIf g.sv 15 + g.strag)
  else 0

def State.readMailbox (s : State) (off : Nat) : Word :=
  let h := s.hm
  if off < 0x100 then bw (ofBytes (readMap 0 h.req off 8))
  else if off < 0x200 then bw (ofBytes (readMap 0 h.rsp (off - 0x100) 8))
  else if off = 0x200 then bw (h.seq.toNat * 2 ^ 32 + h.status * 2 ^ 8)
  else if off = 0x208 then bw (h.evbase.toNat + h.evlg)
  else if off = 0x210 then bw h.evwr.toNat
  else if off = 0x218 then bw h.evrd.toNat
  else 0

/-- Milliseconds since lock was lost (R361). -/
def State.lostMs (s : State) : Nat :=
  if s.tide.state = 1 ∨ !s.tide.everLocked then 0 else min ((s.tide.now - s.tide.lostAt) / msUnits) (2 ^ 32 - 1)

def State.readPf (s : State) (port off : Nat) : Word :=
  let t := s.tide
  if 0x800 ≤ off ∧ off < 0xc00 then s.readQueue (.pf port ((off - 0x800) / 0x40)) (off % 0x40)
  else if 0x8000 ≤ off ∧ off < 0x8300 then s.readMailbox (off - 0x8000)
  else if off = 0x10000 then bw s.tlNow
  else if off = 0x10008 then bw t.frac.toNat
  else if off = 0x10010 then bw t.state
  else if off = 0x10018 then bw (bitIf t.en 11 + bitIf t.p2p 10 + t.transport * 2 ^ 8 + t.domain)
  else if off = 0x10020 then t.offset
  else if off = 0x10028 then bw s.lostMs
  else if 0x11000 ≤ off ∧ off < 0x13000 then s.readGang ((off - 0x11000) / 0x80) (off % 0x80)
  else 0

/-- The Vendor and Device IDs (R390); InitialVFs and TotalVFs are 1,024 (R339); NumVFs is what was written. -/
def State.readConfig (s : State) (port off : Nat) : Word :=
  if off = 0x00 then bw (Config.vendorId.toNat + Config.deviceId.toNat * 2 ^ 16)
  else if off = 0x08 then bw (1024 * 2 ^ 48 + 1024 * 2 ^ 32)
  else if off = 0x10 then bw (if port = 0 then s.numVfs.1 else s.numVfs.2)
  else 0

/-- What a host read of a register returns; the read of `now` latches the fraction (R361). -/
def State.readRegister (s : State) (sp : RegSpace) (off : Nat) : Word × State :=
  let at' := resolve sp off
  if !(RegSpace.real at'.1 at'.2) then (0, s)
  else
    match at'.1 with
    | .vfOwn vf => (s.readOwn vf at'.2, s)
    | .translation vf => (s.readTranslation vf at'.2, s)
    | .partition p => (s.readPartition p at'.2, s)
    | .config port => (s.readConfig port at'.2, s)
    | .pf port =>
      (s.readPf port at'.2, if at'.2 = 0x10000 then { s with tide := { s.tide with frac := BitVec.ofNat 16 s.tide.now } } else s)

end Sys2Proof.Machine
end

