-- ==== Sys2Proof/Machine/Dispatch.lean ====
section
/-! DEFINITION. Every instruction, and the one meaning it calls. -/

namespace Sys2Proof.Machine

def exec (i : Instr) (s : State) : Host.Outcome State Fault Refusal :=
  match i with
  | .add a1 a2 a3 => Sys2Proof.Machine.execAdd a1 a2 a3 s
  | .sub a1 a2 a3 => Sys2Proof.Machine.execSub a1 a2 a3 s
  | .and a1 a2 a3 => Sys2Proof.Machine.execAnd a1 a2 a3 s
  | .or a1 a2 a3 => Sys2Proof.Machine.execOr a1 a2 a3 s
  | .xor a1 a2 a3 => Sys2Proof.Machine.execXor a1 a2 a3 s
  | .andn a1 a2 a3 => Sys2Proof.Machine.execAndn a1 a2 a3 s
  | .orn a1 a2 a3 => Sys2Proof.Machine.execOrn a1 a2 a3 s
  | .min a1 a2 a3 => Sys2Proof.Machine.execMin a1 a2 a3 s
  | .max a1 a2 a3 => Sys2Proof.Machine.execMax a1 a2 a3 s
  | .minu a1 a2 a3 => Sys2Proof.Machine.execMinu a1 a2 a3 s
  | .maxu a1 a2 a3 => Sys2Proof.Machine.execMaxu a1 a2 a3 s
  | .shl a1 a2 a3 => Sys2Proof.Machine.execShl a1 a2 a3 s
  | .shr a1 a2 a3 => Sys2Proof.Machine.execShr a1 a2 a3 s
  | .sra a1 a2 a3 => Sys2Proof.Machine.execSra a1 a2 a3 s
  | .rot a1 a2 a3 => Sys2Proof.Machine.execRot a1 a2 a3 s
  | .mul a1 a2 a3 => Sys2Proof.Machine.execMul a1 a2 a3 s
  | .mulh a1 a2 a3 => Sys2Proof.Machine.execMulh a1 a2 a3 s
  | .mulhu a1 a2 a3 => Sys2Proof.Machine.execMulhu a1 a2 a3 s
  | .div a1 a2 a3 => Sys2Proof.Machine.execDiv a1 a2 a3 s
  | .divu a1 a2 a3 => Sys2Proof.Machine.execDivu a1 a2 a3 s
  | .rem a1 a2 a3 => Sys2Proof.Machine.execRem a1 a2 a3 s
  | .remu a1 a2 a3 => Sys2Proof.Machine.execRemu a1 a2 a3 s
  | .clz a1 a2 => Sys2Proof.Machine.execClz a1 a2 s
  | .ctz a1 a2 => Sys2Proof.Machine.execCtz a1 a2 s
  | .popc a1 a2 => Sys2Proof.Machine.execPopc a1 a2 s
  | .brev a1 a2 => Sys2Proof.Machine.execBrev a1 a2 s
  | .cmpEq a1 a2 a3 => Sys2Proof.Machine.execCmpEq a1 a2 a3 s
  | .cmpNe a1 a2 a3 => Sys2Proof.Machine.execCmpNe a1 a2 a3 s
  | .cmpLt a1 a2 a3 => Sys2Proof.Machine.execCmpLt a1 a2 a3 s
  | .cmpGe a1 a2 a3 => Sys2Proof.Machine.execCmpGe a1 a2 a3 s
  | .cmpLtu a1 a2 a3 => Sys2Proof.Machine.execCmpLtu a1 a2 a3 s
  | .cmpGeu a1 a2 a3 => Sys2Proof.Machine.execCmpGeu a1 a2 a3 s
  | .sel a1 a2 a3 => Sys2Proof.Machine.execSel a1 a2 a3 s
  | .lea a1 a2 a3 a4 => Sys2Proof.Machine.execLea a1 a2 a3 a4 s
  | .bfx a1 a2 a3 => Sys2Proof.Machine.execBfx a1 a2 a3 s
  | .bfxS a1 a2 a3 => Sys2Proof.Machine.execBfxS a1 a2 a3 s
  | .bfi a1 a2 a3 => Sys2Proof.Machine.execBfi a1 a2 a3 s
  | .addi a1 a2 a3 => Sys2Proof.Machine.execAddi a1 a2 a3 s
  | .andi a1 a2 a3 => Sys2Proof.Machine.execAndi a1 a2 a3 s
  | .ori a1 a2 a3 => Sys2Proof.Machine.execOri a1 a2 a3 s
  | .xori a1 a2 a3 => Sys2Proof.Machine.execXori a1 a2 a3 s
  | .shli a1 a2 a3 => Sys2Proof.Machine.execShli a1 a2 a3 s
  | .shri a1 a2 a3 => Sys2Proof.Machine.execShri a1 a2 a3 s
  | .srai a1 a2 a3 => Sys2Proof.Machine.execSrai a1 a2 a3 s
  | .cmpiEq a1 a2 a3 => Sys2Proof.Machine.execCmpiEq a1 a2 a3 s
  | .cmpiNe a1 a2 a3 => Sys2Proof.Machine.execCmpiNe a1 a2 a3 s
  | .cmpiLt a1 a2 a3 => Sys2Proof.Machine.execCmpiLt a1 a2 a3 s
  | .cmpiGe a1 a2 a3 => Sys2Proof.Machine.execCmpiGe a1 a2 a3 s
  | .cmpiLtu a1 a2 a3 => Sys2Proof.Machine.execCmpiLtu a1 a2 a3 s
  | .cmpiGeu a1 a2 a3 => Sys2Proof.Machine.execCmpiGeu a1 a2 a3 s
  | .limm a1 a2 => Sys2Proof.Machine.execLimm a1 a2 s
  | .lhi a1 a2 => Sys2Proof.Machine.execLhi a1 a2 s
  | .beqz a1 a2 => Sys2Proof.Machine.execBeqz a1 a2 s
  | .bnez a1 a2 => Sys2Proof.Machine.execBnez a1 a2 s
  | .bltz a1 a2 => Sys2Proof.Machine.execBltz a1 a2 s
  | .bgez a1 a2 => Sys2Proof.Machine.execBgez a1 a2 s
  | .blez a1 a2 => Sys2Proof.Machine.execBlez a1 a2 s
  | .bgtz a1 a2 => Sys2Proof.Machine.execBgtz a1 a2 s
  | .jmp a1 => Sys2Proof.Machine.execJmp a1 s
  | .call a1 => Sys2Proof.Machine.execCall a1 s
  | .callr a1 => Sys2Proof.Machine.execCallr a1 s
  | .ret => Sys2Proof.Machine.execRet s
  | .jr a1 => Sys2Proof.Machine.execJr a1 s
  | .recWait => Sys2Proof.Machine.execRecWait s
  | .win a1 => Sys2Proof.Machine.execWin a1 s
  | .brk a1 => Sys2Proof.Machine.execBrk a1 s
  | .yield => Sys2Proof.Machine.execYield s
  | .fadd a1 a2 a3 a4 => Sys2Proof.Machine.execFadd a1 a2 a3 a4 s
  | .fsub a1 a2 a3 a4 => Sys2Proof.Machine.execFsub a1 a2 a3 a4 s
  | .fmul a1 a2 a3 a4 => Sys2Proof.Machine.execFmul a1 a2 a3 a4 s
  | .fmin a1 a2 a3 a4 => Sys2Proof.Machine.execFmin a1 a2 a3 a4 s
  | .fmax a1 a2 a3 a4 => Sys2Proof.Machine.execFmax a1 a2 a3 a4 s
  | .fma a1 a2 a3 a4 => Sys2Proof.Machine.execFma a1 a2 a3 a4 s
  | .fms a1 a2 a3 a4 => Sys2Proof.Machine.execFms a1 a2 a3 a4 s
  | .fnma a1 a2 a3 a4 => Sys2Proof.Machine.execFnma a1 a2 a3 a4 s
  | .fabs a1 a2 a3 => Sys2Proof.Machine.execFabs a1 a2 a3 s
  | .fneg a1 a2 a3 => Sys2Proof.Machine.execFneg a1 a2 a3 s
  | .fclass a1 a2 a3 => Sys2Proof.Machine.execFclass a1 a2 a3 s
  | .frnd a1 a2 a3 => Sys2Proof.Machine.execFrnd a1 a2 a3 s
  | .fcmpEq a1 a2 a3 a4 => Sys2Proof.Machine.execFcmpEq a1 a2 a3 a4 s
  | .fcmpLt a1 a2 a3 a4 => Sys2Proof.Machine.execFcmpLt a1 a2 a3 a4 s
  | .fcmpLe a1 a2 a3 a4 => Sys2Proof.Machine.execFcmpLe a1 a2 a3 a4 s
  | .fcmpUn a1 a2 a3 a4 => Sys2Proof.Machine.execFcmpUn a1 a2 a3 a4 s
  | .fcvt a1 a2 a3 a4 => Sys2Proof.Machine.execFcvt a1 a2 a3 a4 s
  | .icvtSf a1 a2 a3 => Sys2Proof.Machine.execIcvtSf a1 a2 a3 s
  | .icvtUf a1 a2 a3 => Sys2Proof.Machine.execIcvtUf a1 a2 a3 s
  | .icvtFs a1 a2 a3 => Sys2Proof.Machine.execIcvtFs a1 a2 a3 s
  | .icvtFu a1 a2 a3 => Sys2Proof.Machine.execIcvtFu a1 a2 a3 s
  | .cmul a1 a2 a3 a4 => Sys2Proof.Machine.execCmul a1 a2 a3 a4 s
  | .cma a1 a2 a3 a4 => Sys2Proof.Machine.execCma a1 a2 a3 a4 s
  | .padd a1 a2 a3 a4 => Sys2Proof.Machine.execPadd a1 a2 a3 a4 s
  | .psub a1 a2 a3 a4 => Sys2Proof.Machine.execPsub a1 a2 a3 a4 s
  | .pmul a1 a2 a3 a4 => Sys2Proof.Machine.execPmul a1 a2 a3 a4 s
  | .pfma a1 a2 a3 a4 => Sys2Proof.Machine.execPfma a1 a2 a3 a4 s
  | .pmax a1 a2 a3 a4 => Sys2Proof.Machine.execPmax a1 a2 a3 a4 s
  | .pmin a1 a2 a3 a4 => Sys2Proof.Machine.execPmin a1 a2 a3 a4 s
  | .pamax a1 a2 a3 a4 => Sys2Proof.Machine.execPamax a1 a2 a3 a4 s
  | .pdot a1 a2 a3 a4 => Sys2Proof.Machine.execPdot a1 a2 a3 a4 s
  | .punpkLo a1 a2 a3 => Sys2Proof.Machine.execPunpkLo a1 a2 a3 s
  | .punpkHi a1 a2 a3 => Sys2Proof.Machine.execPunpkHi a1 a2 a3 s
  | .fdiv a1 a2 a3 a4 a5 => Sys2Proof.Machine.execFdiv a1 a2 a3 a4 a5 s
  | .fsqrt a1 a2 a3 a4 => Sys2Proof.Machine.execFsqrt a1 a2 a3 a4 s
  | .pcvt a1 a2 a3 a4 a5 a6 a7 => Sys2Proof.Machine.execPcvt a1 a2 a3 a4 a5 a6 a7 s
  | .ldB a1 a2 a3 a4 => Sys2Proof.Machine.execLdB a1 a2 a3 a4 s
  | .ldH a1 a2 a3 a4 => Sys2Proof.Machine.execLdH a1 a2 a3 a4 s
  | .ldW a1 a2 a3 a4 => Sys2Proof.Machine.execLdW a1 a2 a3 a4 s
  | .ldD a1 a2 a3 a4 => Sys2Proof.Machine.execLdD a1 a2 a3 a4 s
  | .ldBS a1 a2 a3 a4 => Sys2Proof.Machine.execLdBS a1 a2 a3 a4 s
  | .ldHS a1 a2 a3 a4 => Sys2Proof.Machine.execLdHS a1 a2 a3 a4 s
  | .ldWS a1 a2 a3 a4 => Sys2Proof.Machine.execLdWS a1 a2 a3 a4 s
  | .ldDExt a1 a2 a3 a4 => Sys2Proof.Machine.execLdDExt a1 a2 a3 a4 s
  | .stB a1 a2 a3 => Sys2Proof.Machine.execStB a1 a2 a3 s
  | .stH a1 a2 a3 => Sys2Proof.Machine.execStH a1 a2 a3 s
  | .stW a1 a2 a3 => Sys2Proof.Machine.execStW a1 a2 a3 s
  | .stD a1 a2 a3 => Sys2Proof.Machine.execStD a1 a2 a3 s
  | .lda a1 a2 a3 a4 => Sys2Proof.Machine.execLda a1 a2 a3 a4 s
  | .sta a1 a2 a3 => Sys2Proof.Machine.execSta a1 a2 a3 s
  | .ldc a1 a2 a3 a4 => Sys2Proof.Machine.execLdc a1 a2 a3 a4 s
  | .stc a1 a2 a3 => Sys2Proof.Machine.execStc a1 a2 a3 s
  | .pref a1 a2 => Sys2Proof.Machine.execPref a1 a2 s
  | .seal a1 a2 => Sys2Proof.Machine.execSeal a1 a2 s
  | .unseal a1 a2 => Sys2Proof.Machine.execUnseal a1 a2 s
  | .atom a1 a2 a3 a4 a5 a6 a7 => Sys2Proof.Machine.execAtom a1 a2 a3 a4 a5 a6 a7 s
  | .cas a1 a2 a3 a4 a5 a6 => Sys2Proof.Machine.execCas a1 a2 a3 a4 a5 a6 s
  | .cas2 a1 a2 a3 a4 => Sys2Proof.Machine.execCas2 a1 a2 a3 a4 s
  | .spawn a1 a2 a3 a4 => Sys2Proof.Machine.execSpawn a1 a2 a3 a4 s
  | .await a1 => Sys2Proof.Machine.execAwait a1 s
  | .exit a1 => Sys2Proof.Machine.execExit a1 s
  | .waitge a1 a2 a3 => Sys2Proof.Machine.execWaitge a1 a2 a3 s
  | .signal a1 a2 => Sys2Proof.Machine.execSignal a1 a2 s
  | .bar => Sys2Proof.Machine.execBar s
  | .barl a1 => Sys2Proof.Machine.execBarl a1 s
  | .barreg a1 => Sys2Proof.Machine.execBarreg a1 s
  | .elect a1 => Sys2Proof.Machine.execElect a1 s
  | .voteCnt a1 a2 => Sys2Proof.Machine.execVoteCnt a1 a2 s
  | .voteRank a1 a2 => Sys2Proof.Machine.execVoteRank a1 a2 s
  | .voteEq a1 a2 => Sys2Proof.Machine.execVoteEq a1 a2 s
  | .shflFrom a1 a2 a3 => Sys2Proof.Machine.execShflFrom a1 a2 a3 s
  | .shflRot a1 a2 a3 => Sys2Proof.Machine.execShflRot a1 a2 a3 s
  | .shflMirror a1 a2 a3 => Sys2Proof.Machine.execShflMirror a1 a2 a3 s
  | .shflLead a1 a2 a3 => Sys2Proof.Machine.execShflLead a1 a2 a3 s
  | .gred a1 a2 a3 => Sys2Proof.Machine.execGred a1 a2 a3 s
  | .rds a1 a2 a3 => Sys2Proof.Machine.execRds a1 a2 a3 s
  | .wrs a1 a2 => Sys2Proof.Machine.execWrs a1 a2 s
  | .rdsy a1 a2 => Sys2Proof.Machine.execRdsy a1 a2 s
  | .wrsy a1 a2 => Sys2Proof.Machine.execWrsy a1 a2 s
  | .tlbi a1 a2 a3 => Sys2Proof.Machine.execTlbi a1 a2 a3 s
  | .resume a1 => Sys2Proof.Machine.execResume a1 s
  | .halt a1 a2 => Sys2Proof.Machine.execHalt a1 a2 s
  | .eret => Sys2Proof.Machine.execEret s
  | .kill a1 => Sys2Proof.Machine.execKill a1 s
  | .mm a1 a2 a3 a4 => Sys2Proof.Machine.execMm a1 a2 a3 a4 s
  | .mms a1 a2 a3 a4 => Sys2Proof.Machine.execMms a1 a2 a3 a4 s
  | .mmc a1 a2 a3 => Sys2Proof.Machine.execMmc a1 a2 a3 s
  | .mmconv a1 a2 a3 a4 => Sys2Proof.Machine.execMmconv a1 a2 a3 a4 s
  | .mmz a1 => Sys2Proof.Machine.execMmz a1 s
  | .acvt a1 a2 a3 a4 => Sys2Proof.Machine.execAcvt a1 a2 a3 a4 s
  | .aload a1 a2 a3 => Sys2Proof.Machine.execAload a1 a2 a3 s
  | .amax a1 a2 a3 => Sys2Proof.Machine.execAmax a1 a2 a3 s
  | .tmark a1 => Sys2Proof.Machine.execTmark a1 s
  | .fvote a1 => Sys2Proof.Machine.execFvote a1 s
  | .qkick a1 a2 a3 => Sys2Proof.Machine.execQkick a1 a2 a3 s
  | .qwaitk a1 => Sys2Proof.Machine.execQwaitk a1 s
  | .qcopy a1 a2 a3 a4 => Sys2Proof.Machine.execQcopy a1 a2 a3 a4 s
  | .qlin a1 a2 a3 => Sys2Proof.Machine.execQlin a1 a2 a3 s
  | .qgath a1 a2 a3 => Sys2Proof.Machine.execQgath a1 a2 a3 s
  | .qscat a1 a2 a3 => Sys2Proof.Machine.execQscat a1 a2 a3 s
  | .qfill a1 a2 a3 => Sys2Proof.Machine.execQfill a1 a2 a3 s
  | .qred a1 a2 a3 => Sys2Proof.Machine.execQred a1 a2 a3 s
  | .qcbk a1 a2 a3 => Sys2Proof.Machine.execQcbk a1 a2 a3 s
  | .qstamp a1 a2 => Sys2Proof.Machine.execQstamp a1 a2 s
  | .qmoor a1 a2 a3 => Sys2Proof.Machine.execQmoor a1 a2 a3 s
  | .qunmoor a1 a2 a3 => Sys2Proof.Machine.execQunmoor a1 a2 a3 s
  | .qtlIssued a1 => Sys2Proof.Machine.execQtlIssued a1 s
  | .qtlDone a1 => Sys2Proof.Machine.execQtlDone a1 s
  | .qdrain => Sys2Proof.Machine.execQdrain s
  | .pick a1 => Sys2Proof.Machine.execPick a1 s
  | .quayThreadPick a1 => Sys2Proof.Machine.execQuayThreadPick a1 s
  | .longLatencyResult a1 a2 => Sys2Proof.Machine.execLongLatencyResult a1 a2 s
  | .recRelease a1 a2 => Sys2Proof.Machine.execRecRelease a1 a2 s
  | .barRelease a1 a2 => Sys2Proof.Machine.execBarRelease a1 a2 s
  | .barrierGenerationRelease a1 a2 a3 a4 => Sys2Proof.Machine.execBarrierGenerationRelease a1 a2 a3 a4 s
  | .taskComplete a1 a2 => Sys2Proof.Machine.execTaskComplete a1 a2 s
  | .taskPlacement a1 a2 a3 => Sys2Proof.Machine.execTaskPlacement a1 a2 a3 s
  | .sliceEnd a1 a2 => Sys2Proof.Machine.execSliceEnd a1 a2 s
  | .matrixOpExecute a1 => Sys2Proof.Machine.execMatrixOpExecute a1 s
  | .matrixOpRetire a1 => Sys2Proof.Machine.execMatrixOpRetire a1 s
  | .qpContextStart a1 => Sys2Proof.Machine.execQpContextStart a1 s
  | .copyUnit a1 a2 => Sys2Proof.Machine.execCopyUnit a1 a2 s
  | .copyRetire a1 a2 => Sys2Proof.Machine.execCopyRetire a1 a2 s
  | .stampWrite a1 => Sys2Proof.Machine.execStampWrite a1 s
  | .codebookSlotWrite a1 a2 => Sys2Proof.Machine.execCodebookSlotWrite a1 a2 s
  | .loadMiss a1 a2 a3 => Sys2Proof.Machine.execLoadMiss a1 a2 a3 s
  | .writeback a1 a2 a3 => Sys2Proof.Machine.execWriteback a1 a2 a3 s
  | .ownershipRequest a1 a2 a3 => Sys2Proof.Machine.execOwnershipRequest a1 a2 a3 s
  | .sealedFill a1 a2 a3 => Sys2Proof.Machine.execSealedFill a1 a2 a3 s
  | .sealEntryInstall a1 => Sys2Proof.Machine.execSealEntryInstall a1 s
  | .unsealComplete a1 a2 a3 => Sys2Proof.Machine.execUnsealComplete a1 a2 a3 s
  | .homeWrite a1 a2 a3 a4 => Sys2Proof.Machine.execHomeWrite a1 a2 a3 a4 s
  | .scrubClear a1 => Sys2Proof.Machine.execScrubClear a1 s
  | .faultRecordWrite a1 => Sys2Proof.Machine.execFaultRecordWrite a1 s
  | .replayPointerWrite a1 a2 => Sys2Proof.Machine.execReplayPointerWrite a1 a2 s
  | .stage2ShootdownGpa a1 a2 => Sys2Proof.Machine.execStage2ShootdownGpa a1 a2 s
  | .stage2ShootdownVf a1 => Sys2Proof.Machine.execStage2ShootdownVf a1 s
  | .shootdownCompletion => Sys2Proof.Machine.execShootdownCompletion s
  | .transfer a1 a2 a3 => Sys2Proof.Machine.execTransfer a1 a2 a3 s
  | .reclaim a1 a2 a3 => Sys2Proof.Machine.execReclaim a1 a2 a3 s
  | .assign a1 => Sys2Proof.Machine.execAssign a1 s
  | .assignRaw a1 => Sys2Proof.Machine.execAssignRaw a1 s
  | .release a1 => Sys2Proof.Machine.execRelease a1 s
  | .readDescriptor a1 => Sys2Proof.Machine.execReadDescriptor a1 s
  | .discard a1 => Sys2Proof.Machine.execDiscard a1 s
  | .nopRecord a1 => Sys2Proof.Machine.execNopRecord a1 s
  | .launch a1 => Sys2Proof.Machine.execLaunch a1 s
  | .timedLaunch a1 => Sys2Proof.Machine.execTimedLaunch a1 s
  | .timedRelease a1 => Sys2Proof.Machine.execTimedRelease a1 s
  | .setLayout a1 => Sys2Proof.Machine.execSetLayout a1 s
  | .setCodebook a1 => Sys2Proof.Machine.execSetCodebook a1 s
  | .gangSwitch a1 => Sys2Proof.Machine.execGangSwitch a1 s
  | .tearDown a1 => Sys2Proof.Machine.execTearDown a1 s
  | .queueStopClear a1 => Sys2Proof.Machine.execQueueStopClear a1 s
  | .merge a1 => Sys2Proof.Machine.execMerge a1 s
  | .split a1 => Sys2Proof.Machine.execSplit a1 s
  | .lend a1 a2 => Sys2Proof.Machine.execLend a1 a2 s
  | .revoke a1 => Sys2Proof.Machine.execRevoke a1 s
  | .inboundPostedWrite a1 a2 a3 a4 a5 => Sys2Proof.Machine.execInboundPostedWrite a1 a2 a3 a4 a5 s
  | .inboundRead a1 a2 a3 a4 => Sys2Proof.Machine.execInboundRead a1 a2 a3 a4 s
  | .inboundAtomicop a1 a2 a3 a4 a5 a6 a7 a8 => Sys2Proof.Machine.execInboundAtomicop a1 a2 a3 a4 a5 a6 a7 a8 s
  | .inboundPacketAck a1 a2 => Sys2Proof.Machine.execInboundPacketAck a1 a2 s
  | .setKey a1 a2 a3 => Sys2Proof.Machine.execSetKey a1 a2 a3 s
  | .eraseKey a1 a2 => Sys2Proof.Machine.execEraseKey a1 a2 s
  | .fwWrite a1 a2 a3 a4 a5 => Sys2Proof.Machine.execFwWrite a1 a2 a3 a4 a5 s
  | .functionLevelReset a1 => Sys2Proof.Machine.execFunctionLevelReset a1 s
  | .tdispStop a1 => Sys2Proof.Machine.execTdispStop a1 s
  | .fabricRead a1 => Sys2Proof.Machine.execFabricRead a1 s
  | .fabricReadResponse a1 => Sys2Proof.Machine.execFabricReadResponse a1 s
  | .fabricWrite a1 => Sys2Proof.Machine.execFabricWrite a1 s
  | .fabricAcknowledgement a1 => Sys2Proof.Machine.execFabricAcknowledgement a1 s
  | .fabricAtomic a1 => Sys2Proof.Machine.execFabricAtomic a1 s
  | .fabricAtomicResponse a1 => Sys2Proof.Machine.execFabricAtomicResponse a1 s
  | .reduceWrite a1 => Sys2Proof.Machine.execReduceWrite a1 s
  | .signalPacket a1 => Sys2Proof.Machine.execSignalPacket a1 s
  | .timeBeacon a1 => Sys2Proof.Machine.execTimeBeacon a1 s
  | .beaconSend a1 => Sys2Proof.Machine.execBeaconSend a1 s
  | .gangReport a1 => Sys2Proof.Machine.execGangReport a1 s
  | .gangRelease a1 => Sys2Proof.Machine.execGangRelease a1 s
  | .echoRequest a1 => Sys2Proof.Machine.execEchoRequest a1 s
  | .echoReply a1 => Sys2Proof.Machine.execEchoReply a1 s
  | .podBarrierArrival a1 => Sys2Proof.Machine.execPodBarrierArrival a1 s
  | .podBarrierRelease a1 => Sys2Proof.Machine.execPodBarrierRelease a1 s
  | .spawnPacket a1 => Sys2Proof.Machine.execSpawnPacket a1 s
  | .joinPacket a1 => Sys2Proof.Machine.execJoinPacket a1 s
  | .flitReplay a1 => Sys2Proof.Machine.execFlitReplay a1 s
  | .linkRetrain a1 => Sys2Proof.Machine.execLinkRetrain a1 s
  | .fabricUnreachableTimeout a1 => Sys2Proof.Machine.execFabricUnreachableTimeout a1 s
  | .ptpSync a1 => Sys2Proof.Machine.execPtpSync a1 s
  | .lockLossTimeout => Sys2Proof.Machine.execLockLossTimeout s
  | .holdoverExpiry => Sys2Proof.Machine.execHoldoverExpiry s
  | .beaconLossTimeout => Sys2Proof.Machine.execBeaconLossTimeout s
  | .gangSwitchInstant a1 => Sys2Proof.Machine.execGangSwitchInstant a1 s
  | .reportSend a1 => Sys2Proof.Machine.execReportSend a1 s
  | .stragglerTimeout a1 => Sys2Proof.Machine.execStragglerTimeout a1 s
  | .restart => Sys2Proof.Machine.execRestart s
  | .listProposals => Sys2Proof.Machine.execListProposals s
  | .authoriseProposal => Sys2Proof.Machine.execAuthoriseProposal s
  | .setPowerCap => Sys2Proof.Machine.execSetPowerCap s
  | .readSensors => Sys2Proof.Machine.execReadSensors s
  | .setIdentityAndRoutes => Sys2Proof.Machine.execSetIdentityAndRoutes s
  | .readIdentity => Sys2Proof.Machine.execReadIdentity s
  | .correctedError a1 => Sys2Proof.Machine.execCorrectedError a1 s
  | .pairRetirement a1 => Sys2Proof.Machine.execPairRetirement a1 s
  | .powerCapStep a1 a2 => Sys2Proof.Machine.execPowerCapStep a1 a2 s
  | .thermalStep a1 a2 => Sys2Proof.Machine.execThermalStep a1 a2 s
  | .hotRowEvent a1 a2 a3 => Sys2Proof.Machine.execHotRowEvent a1 a2 a3 s
  | .haltDrainComplete a1 => Sys2Proof.Machine.execHaltDrainComplete a1 s
  | .coldStart a1 => Sys2Proof.Machine.execColdStart a1 s
  | .warmStart a1 => Sys2Proof.Machine.execWarmStart a1 s
  | .registerWrite a1 a2 a3 => Sys2Proof.Machine.execRegisterWrite a1 a2 a3 s
  | .linkRetrainComplete a1 => Sys2Proof.Machine.execLinkRetrainComplete a1 s
  | .refreshManagementWindowEnd a1 a2 a3 => Sys2Proof.Machine.execRefreshManagementWindowEnd a1 a2 a3 s
  | .atsInvalidationRequest a1 a2 => Sys2Proof.Machine.execAtsInvalidationRequest a1 a2 s
  | .priPageResponse a1 a2 a3 => Sys2Proof.Machine.execPriPageResponse a1 a2 a3 s
  | .tdispStateChange a1 a2 => Sys2Proof.Machine.execTdispStateChange a1 a2 s
  | .securedSpdmSession a1 => Sys2Proof.Machine.execSecuredSpdmSession a1 s

end Sys2Proof.Machine
end

