-- ==== Sys2Proof/Machine/Fetch.lean ====
section
/-! DEFINITION. The fetch and decode of the instruction that has been picked (R32, R33, R44, R45). -/

namespace Sys2Proof.Machine

/-! ### Instruction fetch (R32, R33, R35) -/

/-- The 8-byte unit that instruction fetch holds for a context on a core. -/
def State.codeUnit (s : State) (core ctx u : Nat) : Option (List Byte) :=
  (s.code.find? fun l => l.core == core && l.ctx == ctx && l.line == lineOf u).bind fun l =>
    if l.valid.getLsbD (u % 128) then some (toBytes (lineVal l (u % 128) 8) 8) else none

/-- The line of code that instruction fetch holds with these bytes at `u` in it, as it translates. -/
def State.codeLine (s : State) (core ctx u : Nat) (bs : List Byte) : L1Line :=
  let l := (s.code.find? fun l => l.core == core && l.ctx == ctx && l.line == lineOf u).getD { core := core, ctx := ctx, line := lineOf u }
  let m := byteMask (u % 128) bs.length
  let l := { l with valid := l.valid ||| m, data := blend l.data (BitVec.ofNat 1024 (ofBytes bs * 2 ^ (8 * (u % 128)))) m }
  match (s.translate core ctx u .fetch).1 with
  | .ok t => { l with home := t.target.lineBase, gpa := t.gpa / 128 * 128, vf := t.vf }
  | .error _ => l

/-- Instruction fetch holds bytes from now on. -/
def State.holdCode (s : State) (core ctx u : Nat) (bs : List Byte) : State :=
  { s with code := upsert (sameLine (s.codeLine core ctx u bs)) (s.codeLine core ctx u bs) s.code }

/-- Instruction fetch takes a line before it is needed (R35): a store to it that no edge follows is then not seen. It changes
nothing else. -/
def State.fetchAhead (s : State) (x : Nat × Nat × Nat) : State :=
  if (s.code.any fun l => l.core == x.1 && l.ctx == x.2.1 && l.line == x.2.2) || (s.ctx? x.2.1).isNone then s
  else
    match s.peek x.1 x.2.1 (x.2.2 * 128) 128 .fetch with
    | (.bytes bs, s') => { s with code := (s'.holdCode x.1 x.2.1 (x.2.2 * 128) bs).code }
    | _ => s

/-- An 8-byte unit of code, whole. Where a store has changed it since it was fetched, and no edge has come between, what is held
and what memory holds are both open (R35; DESIGN CHOICE, log 32). -/
def State.fetchUnit (s : State) (i : Issue) (u : Nat) : Peek × State :=
  match s.peek i.core i.ctx u 8 .fetch with
  | (.bytes bs, s) =>
    (match s.codeUnit i.core i.ctx u with
     | some old =>
       if old = bs then (.bytes bs, s)
       else
         let c := s.pickNat 2
         if c.1 = 1 then (.bytes old, c.2) else (.bytes bs, c.2.holdCode i.core i.ctx u bs)
     | none => (.bytes bs, s.holdCode i.core i.ctx u bs))
  | r => r

/-- A failed fetch parks every lane; the record names the instruction and the word that failed (R33, R273). -/
def fetchFault (s : State) (i : Issue) (cause sub : Nat) (fva gpa : Word) : State :=
  let s := { s with issue := none }
  if i.quay then i.lanes.foldl (fun s l => s.faultQuay i.core l.tid i.ctx cause sub fva i.pc gpa 0) s
  else (berthsOf i.lanes).foldl (fun s b =>
    s.faultLanes 1 i.core b (i.lanes.filter fun l => l.berth == b) cause sub fva i.pc gpa) s

/-- The lanes wait for their code. -/
def fetchLater (s : State) (i : Issue) (why : Stall) : State := { s with issue := none }.stallLanes i.lanes why

/-- What the picked address holds: the bytes of one instruction, or why there are none. -/
inductive Code
  | ok (bs : List Byte) (s : State)
  | fault (cause sub : Nat) (fva gpa : Word) (s : State)
  | later (why : Stall) (s : State)

/-- A 64-bit instruction executes only when both words have been fetched; the address of a failed fetch is that of the
lowest word that failed (R33). An entry address that is no multiple of 4 names the bytes that are fetched (DEDUCED, log 31). -/
def fetchCode (s : State) (i : Issue) : Code :=
  let off := i.pc.toNat % 8
  let long (w : List Byte) : Bool := isLong (opOf (BitVec.ofNat 32 (ofBytes (w.take 4))))
  match s.fetchUnit i (i.pc.toNat - off) with
  | (.later why, s) => .later why s
  | (.fault c u g, s) => .fault c u i.pc (if g = noGpa then g else g + BitVec.ofNat 64 off) s
  | (.bytes bs, s) =>
    let w := bs.drop off
    if off ≤ 4 && !long w then .ok (w.take 4) s
    else if off = 0 then .ok bs s
    else
      match s.fetchUnit i (i.pc.toNat - off + 8) with
      | (.later why, s) => .later why s
      | (.fault c u g, s) => .fault c u (if off ≤ 4 then i.pc + 4 else i.pc) g s
      | (.bytes cs, s) => if long (w ++ cs) then .ok ((w ++ cs).take 8) s else .ok ((w ++ cs).take 4) s

/-! ### The lanes that issue (R146, R189, R229, R380) -/

/-- The instructions that are collective over one group (R146, R189, R229). -/
def oneGroup : Instr → Bool
  | .mm _ _ _ _ | .mms _ _ _ _ | .mmc _ _ _ | .mmconv _ _ _ _ | .mmz _ | .acvt _ _ _ _ | .aload _ _ _ | .amax _ _ _ => true
  | .tmark _ | .fvote _ | .seal _ _ | .unseal _ _ | .qkick _ _ _ | .spawn _ _ _ _ | .barreg _ => true
  | _ => false

/-- The instructions that each lane makes for itself, with the checks of R120. -/
def laneAccess : Instr → Bool
  | .ldB _ _ _ _ | .ldH _ _ _ _ | .ldW _ _ _ _ | .ldD _ _ _ _ | .ldBS _ _ _ _ | .ldHS _ _ _ _ | .ldWS _ _ _ _ | .ldDExt _ _ _ _ => true
  | .stB _ _ _ | .stH _ _ _ | .stW _ _ _ | .stD _ _ _ | .lda _ _ _ _ | .sta _ _ _ | .ldc _ _ _ _ | .stc _ _ _ => true
  | .atom _ _ _ _ _ _ _ | .cas _ _ _ _ _ _ | .cas2 _ _ _ _ | .signal _ _ => true
  | _ => false

/-- Lists of at most `n` elements. -/
def chunks {α : Type} (n : Nat) : Nat → List α → List (List α)
  | 0, _ => []
  | fuel + 1, l => if l.isEmpty then [] else l.take n :: chunks n fuel (l.drop n)

/-- The lanes that issue, and the entries that the others form (R229). -/
def splitLanes (one : Bool) (lanes : List LaneId) : List LaneId × List (List LaneId) :=
  if one then
    match berthsOf lanes with
    | [] => ([], [])
    | b :: bs => (lanes.filter fun l => l.berth == b, bs.map fun x => lanes.filter fun l => l.berth == x)
  else (lanes.take 64, chunks 64 lanes.length (lanes.drop 64))

/-- Lanes in any order. -/
def State.shuffle (s : State) : Nat → List LaneId → List LaneId × State
  | 0, l => (l, s)
  | n + 1, l =>
    let c := s.choose l
    match c.1 with
    | none => ([], c.2)
    | some x =>
      let q := c.2.shuffle n (l.filter fun y => !decide (y = x))
      (x :: q.1, q.2)

/-- Lanes that reissue an access for themselves alone make it apart from the others of their entry, in any order (R120, R307, DEDUCED,
DEDUCED, log 166). -/
def State.splitAlone (s : State) (acc one : Bool) (lanes : List LaneId) : (List LaneId × List (List LaneId)) × State :=
  let solo := if acc && decide (1 < lanes.length) then lanes.filter fun l => (s.thread l).alone else []
  if solo.isEmpty then (splitLanes one lanes, s)
  else
    let q := s.shuffle solo.length solo
    match lanes.filter fun l => !has solo l, q.1 with
    | [], x :: r => (([x], r.map ([·])), q.2)
    | ls, r =>
      let p := splitLanes one ls
      ((p.1, p.2 ++ r.map ([·])), q.2)

/-- The issue for the lanes of this pick; the rest wait in closed entries at the tail. -/
def State.splitIssue (s : State) (i : Issue) (one acc : Bool) : Issue × State :=
  let c := s.splitAlone acc one i.lanes
  let p := c.1
  let s := c.2
  let es : List RingEntry := p.2.map fun ls => { ctx := i.ctx, pc := i.pc, lanes := ls, isOpen := false }
  let i' := { i with lanes := p.1 }
  let s := { s with issue := some i' }
  (i', if es.isEmpty then s else s.modCore i.core fun k => { k with ring := k.ring ++ es })

/-- An uncorrectable error in a thread's registers is met: one of them holds an open value from now on (DESIGN CHOICE, log 83). -/
def State.spoilRegs (s : State) (l : LaneId) : State :=
  let n := ((s.group? l.core l.berth).map (·.nreg)).getD 64
  let c := s.pickNat n
  let v := c.2.freeVal
  { v.2.modThread l fun t => t.setPhys c.1 v.1 with
    struck := s.struck.filter fun x => !decide (x = .regs l.core l.berth l.tid) }

/-- Lanes whose registers hold an uncorrectable error take a data-error fault with subcause 3 (R380). The spec gives it no
address: those of its record are free values (DESIGN CHOICE, log 83). -/
def State.strikeLanes (s : State) (i : Issue) : Issue × State :=
  let bad := if s.struck.isEmpty then [] else i.lanes.filter fun l => has s.struck (.regs l.core l.berth l.tid)
  if bad.isEmpty then (i, s)
  else
    let a := s.freeVal
    let g := a.2.freeVal
    let s := bad.foldl State.spoilRegs g.2
    let s :=
      if i.quay then bad.foldl (fun s l => s.faultQuay i.core l.tid i.ctx 18 3 a.1 i.pc g.1 0) s
      else s.faultGroups i.core i.pc (bad.map fun l => (l, 18, 3, a.1, g.1))
    ({ i with lanes := i.lanes.filter fun l => !has bad l }, s)

/-- Fetch, decode and execute for the lanes of an issue. Bytes that are not an instruction trap (R44). A word that is malformed names
no opcode that could be collective over one group: its first 64 lanes trap, of whatever groups (DESIGN CHOICE, log 167). -/
def runIssue (s : State) (i : Issue) : Out :=
  let p := s.strikeLanes i
  let i := p.1
  if i.lanes.isEmpty then .next { p.2 with issue := none }
  else
    match fetchCode p.2 i with
    | .later why s =>
      let p := s.splitIssue i false false
      .next (fetchLater p.2 p.1 why)
    | .fault c u fva g s =>
      let p := s.splitIssue i false false
      .next (fetchFault p.2 p.1 c u fva g)
    | .ok bs s =>
      match decode bs with
      | .ok p => exec p.1 (s.splitIssue i (oneGroup p.1) (laneAccess p.1)).2
      | .error _ => illegal (s.splitIssue i false false).2 4

end Sys2Proof.Machine
end

