-- ==== Sys2Proof/Machine/Agenda.lean ====
section
/-! DEFINITION. Time, the writes of the host's own processors, uncorrectable errors, threads that wait for nothing any more,
which steps fall due at an instant, and which steps the machine can take when nothing is asked of it. -/

namespace Sys2Proof.Machine

/-- The host's own writes of host memory that are due. -/
def State.hostDue (s : State) : State :=
  let due := s.hostWrites.filter fun w => decide (w.1 ≤ s.tlNow)
  if due.isEmpty then s
  else
    { s with
      hostMem := due.foldl (fun m w => writeMap 0 m w.2.1 w.2.2) s.hostMem
      hostWrites := s.hostWrites.filter fun w => !decide (w.1 ≤ s.tlNow) }

/-- The part of what is to be slewed that is taken off while `d` passes: at most 100 parts per million (R358). -/
def slewBy (slew : Int) (d : Nat) : Int := max (-(d / 10000 : Nat)) (min (d / 10000 : Nat) slew)

/-- Some time passes; the tideline never decreases (R358). -/
def Tide.pass (t : Tide) (d : Nat) : Tide :=
  let a := slewBy t.slew d
  { t with now := ((t.now + d : Nat) + a).toNat, slew := t.slew - a }

/-- Time passes before each step but the issue of an instruction that has been picked; instruction fetch takes lines ahead. -/
def State.tick (s : State) : State :=
  { s with
    freeCount := s.freeCount + 1, tide := s.tide.pass (Config.elapsed s.freeCount), slow := Config.slowLines s.freeCount
    code := ((Config.codeAhead s.freeCount).foldl State.fetchAhead s).code }

/-! ### Uncorrectable errors (R377, R380) -/

/-- An error that is counted as corrected, in an SRAM word of this structure: its word index is open (R378, R391). -/
def State.countError (s : State) (unit structure_ : Nat) : State :=
  let w := s.freeVal
  w.2.countCorrected { utype := 2, code := BitVec.ofNat 64 (unit + structure_ * 2 ^ 11 + w.1.toNat % 2 ^ 32 * 2 ^ 16) }

/-- TLB entries in which an error stands are dropped, to be walked anew (R377). -/
def State.strikeTlb (s : State) (unit : Nat) (hit : TlbEntry → Bool) : State :=
  if s.tlb.any hit then ({ s with tlb := s.tlb.filter fun e => !hit e }).countError unit 6 else s

/-- An error strikes. Clean copies and TLB entries are dropped, to be fetched anew, and the error counts as corrected (R377); what
has no other copy holds the error until something meets it (R380). -/
def State.strike (s : State) (x : Config.Strike) : State :=
  match x with
  | .block b => s.markBad b true
  | .line core ctx ln =>
    (match s.line? core ctx ln with
     | none => s
     | some l => if l.dirty == 0 then (s.dropLine l).countError core 4 else { s with struck := addOnce s.struck x })
  | .cache a =>
    (match s.sc.find? fun l => l.stack == stackOf a && l.off == a % 2 ^ 38 / 128 * 128 with
     | none => s
     | some l =>
       if l.dirty then s.markBad (blockOf a) true
       else (({ s with sc := s.sc.filter fun y => !sameSc l y }).unmoor l).countError (255 + stackOf a * 2 ^ 8) 5)
  | .tlb core ctx va => s.strikeTlb core fun e => !e.llt && e.core == core && e.ctx == ctx && e.covers va
  | .llt die ctx va => s.strikeTlb (255 + die * 2 ^ 8) fun e => e.llt && dieOf e.core == die && e.ctx == ctx && e.covers va
  | _ => { s with struck := addOnce s.struck x }

/-- The errors whose time has come strike. -/
def State.strikeDue (s : State) : State :=
  let due := s.strikes.filter fun x => decide (x.1 ≤ s.tlNow)
  if due.isEmpty then s
  else due.foldl (fun s x => s.strike x.2) { s with strikes := s.strikes.filter fun x => !decide (x.1 ≤ s.tlNow) }

/-! ### Waits that are over (R37, R169, R174, R200, R228, R250, R268) -/

/-- Whether what a stalled thread waits for has still to happen. -/
def State.holds (s : State) (t : Thread) (why : Stall) : Bool :=
  let core := t.id.core
  match why with
  | .copy sp lo n => s.behindCopy core t.ctx sp lo n
  | .bytes lo n => s.behindCopy core t.ctx 1 lo n || s.heldByQueue core lo n
  | .tile c n => s.tileBusy c n
  | .matrixQueue => decide (8 ≤ (s.coreAt core).matQ.length)
  | .matrixWork => s.matrixBusy t.id
  | .engines => s.coreWorks core
  | .kicks => decide (32 ≤ (s.coreAt core).kicks.length)
  | .copies => decide (64 ≤ s.inFlight core)
  | .unacked => s.unacked core t.ctx
  | .stamps => s.unacked core t.ctx || s.haltedIn t
  | .code => s.pendings.any fun p => p.core == core && p.ctx == t.ctx && p.lane.isNone && p.copy.isNone && p.packet.kind == 1
  | .page v a => has s.hostMissing (v, a) && has s.priAsked (v, a)
  | .tags port => decide (768 ≤ (s.pendings.filter fun p => p.toHost && s.vfPort p.vf == port).length)
  | .line ln => s.pendings.any fun p => p.core == core && p.ctx == t.ctx && (p.lane.isSome || p.packet.kind == 8) && lineOf p.fva.toNat == ln

/-- Stalled threads whose wait is over. -/
def State.freed (s : State) : List LaneId :=
  (s.threads.filter fun t => match t.wait with
    | .stalled why => !s.holds t why
    | _ => false).map (·.id)

/-- A successor that is pending is tried again (R200, R255). -/
def State.succeedAgain (s : State) (g : Group) : State :=
  match s.task? g.ctx g.frame with
  | none => s
  | some t =>
    match t.agreed with
    | none => s
    | some a =>
      if t.kind = 3 ∧ s.releasable g.core g.berth ∧ !s.unacked g.core g.ctx then s.succeed g.core g.berth g t a.cont t.lastEnd else s

/-- A core whose split is to fall does so once its engines are idle; threads in `qdrain` go on when they can. -/
def State.settleCore (s : State) (c : Nat) (k : Core) : State :=
  let s := if k.splitDue then s.fallToLim c else s
  if s.threads.any fun t => t.id.core == c && (match t.wait with
    | .draining _ => true
    | _ => false)
  then s.undrain c else s

/-- Whatever waits for something that has happened goes on. -/
def State.wakeDue (s : State) : State :=
  let s := s.cores.foldl (fun s p => s.settleCore p.1 p.2) s
  let s := if s.lateSpills.isEmpty then s else s.spillLate
  let s := (s.launches.filter fun l => l.remaining == 0 && l.timed.isNone).foldl State.launchDone s
  let s := (s.groups.filter fun g => ((s.task? g.ctx g.frame).map fun t => t.kind == 3).getD false).foldl State.succeedAgain s
  let ids := s.freed
  if ids.isEmpty then s else s.readyAll ids

/-! ### Steps that fall due at an instant (R360, R364, R366, R371) -/

/-- One step per index of a list for which `p` holds. -/
def perIndex {α : Type} (f : Nat → Instr) (p : α → Bool) (l : List α) : List Instr :=
  l.zipIdx.filterMap fun x => if p x.1 then some (f x.2) else none

def one (b : Bool) (i : Instr) : List Instr := if b then [i] else []

/-- The T of a timed launch. -/
def Launch.instant (l : Launch) : Nat :=
  match l.timed with
  | some x => x.1.toNat
  | none => 0

/-- Instants in their order; of two that are the same, the first of the list comes first. -/
def insertT (x : Nat × Instr) : List (Nat × Instr) → List (Nat × Instr)
  | [] => [x]
  | y :: t => if x.1 ≤ y.1 then x :: y :: t else y :: insertT x t

/-- The switches and releases that are due, in the order of their T; switches come before the releases of the same instant
(R366). -/
def State.instants (s : State) : List Instr :=
  let ws : List (Nat × Instr) := s.switches.zipIdx.filterMap fun x =>
    if s.switchDue x.1 then some (x.1.t.toNat, .gangSwitchInstant x.2) else none
  let ls : List (Nat × Instr) := (s.launches.filter fun l => l.due s).map fun l => (l.instant, .timedRelease l.id)
  ((ws ++ ls).foldr insertT []).map Prod.snd

def State.urgent (s : State) : List Instr :=
  s.instants ++ perIndex .stragglerTimeout s.stragglersDue s.switches ++
  one s.lockLost .lockLossTimeout ++ one s.holdoverOver .holdoverExpiry ++ one s.beaconsGone .beaconLossTimeout

/-! ### Steps that the package can take by itself -/

/-- Steps of one core's engines. -/
def State.coreSteps (s : State) (c : Nat) (k : Core) : List Instr :=
  one (!k.ring.isEmpty || (s.lateSignal c).isSome) (.pick c) ++ one (s.quayNext c k.qrr 4).isSome (.quayThreadPick c) ++
  (match k.matQ with
   | [] => []
   | o :: _ => if o.executed then [.matrixOpRetire c] else [.matrixOpExecute c]) ++
  one ((s.quayTurn c).any fun x => decide (k.qctx ≠ some x.id) && s.quayFree c) (.qpContextStart c) ++
  (k.copies.flatMap fun y => one (s.copyMoves c y) (.copyUnit c y.num) ++
    one (!y.retired && !y.parked && decide (y.total ≤ y.done) && !s.copyAwaits c y.num) (.copyRetire c y.num) ++
    one (decide (y.kind = .qcbk)) (.codebookSlotWrite c y.num)) ++
  one ((firstCopy k.copies).any s.stampDue) (.stampWrite c)

/-- Releases of groups, and the steps of tasks. -/
def State.taskSteps (s : State) : List Instr :=
  (s.groups.filter fun g => s.releasable g.core g.berth).flatMap (fun g =>
    let ts := s.counted g.core g.berth
    one (ts.any fun t => decide (t.wait = .atRec)) (.recRelease g.core g.berth) ++
    one (ts.any fun t => decide (t.wait = .atBar)) (.barRelease g.core g.berth)) ++
  (s.barriers.filter Barrier.complete).map (fun b => .barrierGenerationRelease b.level b.inst b.ctx b.slot) ++
  (s.tasks.filter s.complete?).map (fun t => .taskComplete t.ctx t.frame) ++
  s.waitingTasks.flatMap fun t => (s.partCores (s.partOf t.ctx)).filterMap fun c =>
    if s.chosen t c && s.tenantOk c (s.vfOf t.ctx) then some (.taskPlacement t.ctx t.frame c) else none

/-- VFs of contexts, each once. -/
def State.ctxVfs (s : State) : List Nat := (s.ctxs.map (·.vf)).eraseDups

def State.sliceSteps (s : State) : List Instr :=
  s.ctxVfs.flatMap fun v => (s.partCores (s.vfPart v)).filterMap fun c => if s.sliceEndsAt c v then some (.sliceEnd c v) else none

/-- The step that takes the record at the head of a queue; a record that cannot be read or is of no kind ends in an
error whichever step meets it, and one on a missing page of host memory has to be asked for once. -/
def State.recordStep (s : State) (q : QueueId) : Option Instr :=
  if !s.served q then none
  else
    match s.readSlot q (s.queue q).head with
    | (.later, r) => if r.priAsked = s.priAsked then none else some (.nopRecord q)
    | (.unreadable, _) => some (.nopRecord q)
    | (.bytes bs, _) =>
      match recKind bs with
      | 1 => some (.launch q)
      | 2 => some (.timedLaunch q)
      | 3 => some (.setLayout q)
      | 4 => some (.setCodebook q)
      | 5 => some (.gangSwitch q)
      | 6 => some (.tearDown q)
      | _ => some (.nopRecord q)

def State.queueSteps (s : State) : List Instr :=
  (s.vfs.flatMap fun p => p.2.queues.filterMap fun q => s.recordStep (.vf p.1 q.1)) ++
  s.pfQueues.filterMap fun q => s.recordStep (.pf (q.1 / 16) (q.1 % 16))

/-- Steps of the homes and of the VFs' own logic. -/
def State.homeSteps (s : State) : List Instr :=
  (s.l1.filter fun l => !(l.dirty == 0)).map (fun l => .writeback l.core l.ctx l.line) ++
  (s.sealWaits.flatMap fun w => w.dies.map Instr.sealEntryInstall) ++
  s.unsealWaits.map (fun w => .unsealComplete w.ctx w.base (2 ^ w.lg)) ++
  s.descs.filterMap (fun d => if d.2.scrub then some (.scrubClear d.1) else none) ++
  s.vfs.flatMap (fun p => one (!p.2.fqWaiting.isEmpty && p.2.fqRoom) (.faultRecordWrite p.1) ++
    perIndex (.inboundPacketAck p.1) (s.mayPerform p.1) p.2.inbound) ++
  one (s.shootdowns.any s.shootDone) .shootdownCompletion

/-- What a partition's block has begun and not finished (R327, R328). -/
def partSteps (p : Nat) (b : Partition) : List Instr :=
  one (b.status == 1 && b.taking.isSome) (.revoke p) ++ one (decide (b.joining = some true)) (.merge p) ++
  one (decide (b.joining = some false)) (.split p)

/-- Answers of the host and of homes that answer late, and what gangs and the harbourmaster do. -/
def State.otherSteps (s : State) : List Instr :=
  (s.pendings.filter s.answerable).map (fun p => .longLatencyResult p.ttag true) ++
  perIndex .reportSend s.reportDue s.switches ++
  (s.gangs.filter fun g => s.beaconDue g.1).map (fun g => .beaconSend g.1) ++
  s.spawnHeld.map .spawnPacket ++
  (List.range 4).flatMap (fun p => partSteps p (s.part p)) ++
  (s.hm.proposals.filter fun p => (s.retirable p.island).isSome).map (fun p => .pairRetirement p.island) ++
  (s.ctxs.filter fun c => s.drained c.id).map fun c => .haltDrainComplete c.id

/-- The steps that the package can take by itself now. Some of them may turn out to change nothing. -/
def State.enabled (s : State) : List Instr :=
  s.cores.flatMap (fun p => s.coreSteps p.1 p.2) ++ s.taskSteps ++ s.sliceSteps ++ s.queueSteps ++ s.homeSteps ++ s.otherSteps

end Sys2Proof.Machine
end

