-- ==== Sys2Proof/Machine/Step.lean ====
section
/-! DEFINITION. One step of the machine. -/

namespace Sys2Proof.Machine

/-- Whether an issue names a core and a quay thread that exist (R9, R12). -/
def Issue.real (i : Issue) : Bool :=
  decide (i.core < 256) && i.lanes.all fun l => decide (l.core = i.core) && (!i.quay || decide (l.tid < 4))

/-! ### Fairness (R223, R232) -/

/-- The step that has been passed over as often as it can be; of several, the one that has been there longest (R232). -/
def State.mustGo (s : State) (es : List Instr) : Option Instr := (s.passes.find? fun p => p.2 == 0 && has es p.1).map (·.1)

/-- The placement of a task that still waits keeps its turn while it cannot happen (R223). -/
def State.keepsTurn (s : State) (e : Instr) : Bool :=
  match e with
  | .taskPlacement c f _ => has s.waiting (c, f)
  | _ => false

/-- What could have been taken and was not is passed over once more; what is new stands behind it (DESIGN CHOICE, log 140). -/
def State.passOver (s : State) (es : List Instr) (taken : Option Instr) : State :=
  let rest := es.filter fun e => !decide (some e = taken)
  let old := s.passes.filterMap fun p =>
    if has rest p.1 then some (p.1, p.2 - 1) else if decide (some p.1 = taken) || !s.keepsTurn p.1 then none else some p
  let new := rest.filter fun e => !s.passes.any fun p => decide (p.1 = e)
  { s with passes := old ++ new.map fun e => (e, Config.patience s.freeCount) }

/-- The step that comes next when no instruction has been picked: one that falls due at this instant, the first on the
agenda, or one of those that the package can take by itself. Among these, one that has been passed over too often has to be
taken (R223, R232). -/
def State.next (s : State) : Option Instr × State :=
  match s.urgent with
  | e :: _ => (some e, s)
  | [] =>
    match s.agenda with
    | e :: rest => (some e, { s with agenda := rest })
    | [] =>
      let es := s.enabled
      match s.mustGo es with
      | some e => (some e, s.passOver es (some e))
      | none =>
        let c := s.choose es
        (c.1, c.2.passOver es c.1)

/-- One step. An instruction that has been picked is fetched, decoded and executed. Otherwise time passes, what waited
for something that has happened goes on, and the step that comes next happens. -/
def step (s : State) : Host.Outcome State Fault Refusal :=
  match s.issue with
  | some i => if i.real then runIssue s i else .fault .noSuchEngine
  | none =>
    let c := s.tick.hostDue.strikeDue.wakeDue.next
    match c.1 with
    | some e => exec e c.2
    | none => .next c.2

/-- The opcode of an instruction's first word says whether only a quay thread can run it (R45). -/
def quayOnly (w : Nat) : Bool := decide (0x61 ≤ bits w 31 25) && decide (bits w 31 25 ≤ 0x6f)

/-- The state with an instruction placed where the next step fetches: a privileged context 0 runs one thread of a width-8
task on core 0, or quay thread 0 there; its code is at virtual address 0x1000, mapped to device address 0x1000. -/
def State.withFetchWord (s : State) (_nbits w : Nat) : State :=
  let quay := quayOnly w
  let id : LaneId := ⟨0, if quay then quayBerth else 0, 0⟩
  let s := s.putCtx { id := 0, vf := 0, priv := true, hbase := 0x10000, hsize := 0x10000 }
  let s := s.putGroup { core := 0, berth := 0, ctx := 0, frame := 0x10000, width := 8, nreg := 128 }
  let s := s.putTask { ctx := 0, frame := 0x10000, width := 8, nreg := 128, phase := .running 0 0, granules := 33 }
  let s := s.putThread { id := id, ctx := 0, pc := 0x1000 }
  let s := s.modCore 0 fun k => { k with tenant := some 0, qctx := some 0 }
  let s := s.setDesc 8 { owned := true, vf := 0, count := 8, codec := 3 }
  { s with
    tlb := { llt := false, core := 0, ctx := 0, vf := 0, base := 0, size := 2 ^ 21, target := .device 0, gpa := 0, key := 0,
             ce := false, r := true, w := true, x := true, w1 := true, x1 := true } :: s.tlb
    mem := writeMap memDefault s.mem 0x1000 (toBytes w 8)
    blockKeys := SMap.set (0, 0) s.blockKeys 8 (0, 0)
    undecodable := s.undecodable.filter (· != 8)
    code := s.code.filter fun l => !(l.core == 0 && l.ctx == 0)
    sc := s.sc.filter fun l => !(l.stack == 0 && l.off / 512 == 8)
    struck := s.struck.filter fun x => !decide (x = .regs 0 id.berth 0)
    issue := some { core := 0, quay := quay, ctx := 0, pc := 0x1000, lanes := [id] } }

end Sys2Proof.Machine
end

