-- ==== Sys2Proof/Safety.lean ====
section
/-! DEFINITION. What counts as a safe run, and the terms in which claims say what an instruction did. -/

namespace Sys2Proof.Machine

/-- The memory keeps its canonical form. -/
def State.memOk (s : State) : Prop := Memory.wf s.mem = true

/-- Each thread, task and group is recorded once. -/
structure State.Unique (s : State) : Prop where
  threads : (s.threads.map (·.id)).Nodup
  tasks : (s.tasks.map fun t => (t.ctx, t.frame)).Nodup
  groups : (s.groups.map fun g => (g.core, g.berth)).Nodup

/-- A context has nothing to publish on a core: no dirty line, and no write that another package has not acknowledged. -/
def State.Quiet (s : State) (core ctx : Nat) : Prop :=
  (∀ l ∈ s.l1, l.core = core → l.ctx = ctx → l.dirty = 0) ∧ s.unacked core ctx = false

/-- A step that goes on. -/
def StepsTo (s t : State) : Prop := step s = .next t

/-- A run that never stops, of any length. -/
def Runs (s : State) : Prop := ∀ n, ∃ t, Host.Core.run
  { State := State, Fault := Fault, Refusal := Refusal, step := step, reset := State.reset } n s = .next t

/-! ### What words mean -/

/-- These words, wherever they stand in memory, are the instruction `i`. -/
def IsCode (ws : List (BitVec 32)) (i : Instr) : Prop :=
  ∀ rest, decode (ws.flatMap (fun w => bytesOf 4 w.toNat) ++ rest) = .ok (i, rest)

/-- These words are no instruction of the part (R44). -/
def IsNoCode (ws : List (BitVec 32)) : Prop :=
  ∀ rest, ∃ e, decode (ws.flatMap (fun w => bytesOf 4 w.toNat) ++ rest) = .error e

/-- The T and I forms of R28, from the fields of a word. -/
def wordT (op : BitVec 7) (d a b : Reg) (k : BitVec 4) : BitVec 32 := op ++ d ++ a ++ b ++ k
def wordI (op : BitVec 7) (d a : Reg) (i : BitVec 11) : BitVec 32 := op ++ d ++ a ++ i

/-! ### An issue that nothing holds up -/

/-- The thread stands ready at `pc`, has no data error to reissue, and none of its windows closes with the next
instruction (R37, R38). -/
structure Thread.Calm (t : Thread) (pc : Word) : Prop where
  at_pc : t.pc = pc
  ready : t.wait = .ready
  reissue : t.reissue = none
  base : 16 ≤ t.wb
  windows : ∀ w ∈ t.windows, 2 ≤ w.count

/-- An instruction with register fields `rs` that the engines `e` allow has been picked for lanes that are all calm
(R44, R45, R229). -/
structure Issued (s : State) (i : Issue) (e : Engine) (rs : List Reg) : Prop where
  issue : s.issue = some i
  lanes : i.lanes.Nodup
  calm : ∀ l ∈ i.lanes, (s.thread l).Calm i.pc
  engine : engineOk e rs i.quay = true

/-- No lane has an open window, so that an instruction which closes them first (R37) goes on with every lane. -/
def NoWindows (s : State) (i : Issue) : Prop := ∀ l ∈ i.lanes, (s.thread l).windows = []

/-- The state without its issue, which every instruction starts from. -/
def State.picked (s : State) : State := { s with issue := none }

/-- The state in which the lanes of a global access are checked: `batch` names the accesses of this instruction. -/
def State.batched (s : State) : State := { s with issue := none, batch := s.ttags }

/-- No atomic or `ld.d.ext` that is still to be performed has to act before the lane's next (R137, R242). -/
def State.NoneBefore (s : State) (l : LaneId) (ctx : Nat) : Prop := ∀ q ∈ s.pendings, q.goesBefore (some l) ctx s.batch = false

/-! ### What an instruction changed -/

/-- From `s` to `t` the issue ended, only threads of `ids` changed, and of the cores only the picker's order: every other
piece of state is the same, each byte of memory among it. -/
structure OnlyThreads (s t : State) (ids : List LaneId) : Prop where
  rest : t = { s with issue := none, threads := t.threads, cores := t.cores }
  others : ∀ l, l ∉ ids → t.thread l = s.thread l
  cores : ∀ c, t.coreAt c = { s.coreAt c with ring := (t.coreAt c).ring }
  memory : ∀ slot a, t.homeByte slot a = s.homeByte slot a

/-- From `t` to `u` the thread went on to `pc`, raised `f`, and wrote `v` to x[d] (R18, R24): a write to x0 is discarded,
every other physical register is the same, windows count down, and results bound to the register written are cancelled
(R37). -/
structure Wrote (t u : Thread) (pc : Word) (d : Reg) (v : Word) (f : Flags) : Prop where
  dest : u.rd d = if d = 0 then 0 else v
  regs : ∀ p, (d = 0 ∨ p ≠ t.phys d) → u.physAt p = t.physAt p
  windows : u.windows = t.windows.map fun w =>
    { w with count := w.count - 1, cancelled := w.cancelled || (decide (d ≠ 0) && decide (w.phys = t.phys d)) }
  rest : u = { t with pc := pc, alone := false, regs := u.regs, windows := u.windows, flags := t.flags ||| f }

/-- The instruction completes: every lane goes on `len` bytes further with `v` of its thread in x[d] and `f` of its thread
raised, and nothing else changes. -/
def WritesF (s : State) (i : Issue) (ins : Instr) (len : Nat) (d : Reg) (v : Thread → Word) (f : Thread → Flags) : Prop :=
  ∃ t, exec ins s = .next t ∧ OnlyThreads s t i.lanes ∧
    ∀ l ∈ i.lanes, Wrote (s.thread l) (t.thread l) (i.pc + BitVec.ofNat 64 len) d (v (s.thread l)) (f (s.thread l))

/-- The same for an instruction that raises no flag. -/
def Writes (s : State) (i : Issue) (ins : Instr) (len : Nat) (d : Reg) (v : Thread → Word) : Prop :=
  WritesF s i ins len d v fun _ => 0

/-- The instruction completes: every lane's thread goes on at its address of `pc` and changes by `f` alone. -/
def Goes (s : State) (i : Issue) (ins : Instr) (pc : Thread → Word) (f : Thread → Thread) : Prop :=
  ∃ t, exec ins s = .next t ∧ OnlyThreads s t i.lanes ∧
    ∀ l ∈ i.lanes, t.thread l = (f (s.thread l)).advance (pc (s.thread l)) []

/-- From `t` to `u` the thread went on to `pc`, raised `f`, and wrote the pair `lo`, `hi` to x[d] and x[d + 1] (R22, R98). -/
structure WrotePair (t u : Thread) (pc : Word) (d : Reg) (lo hi : Word) (f : Flags) : Prop where
  low : u.rd d = if d = 0 then 0 else lo
  high : d ≠ 0 → u.rd (d + 1) = hi
  regs : ∀ p, (d = 0 ∨ (p ≠ t.phys d ∧ p ≠ t.phys (d + 1))) → u.physAt p = t.physAt p
  windows : u.windows = t.windows.map fun w =>
    { w with count := w.count - 1, cancelled := w.cancelled || (decide (d ≠ 0) &&
        (decide (w.phys = t.phys d) || decide (w.phys = t.phys (d + 1)))) }
  rest : u = { t with pc := pc, alone := false, regs := u.regs, windows := u.windows, flags := t.flags ||| f }

/-- The instruction completes: every lane writes a pair of its thread. -/
def WritesPairF (s : State) (i : Issue) (ins : Instr) (len : Nat) (d : Reg) (lo hi : Thread → Word) (f : Thread → Flags) : Prop :=
  ∃ t, exec ins s = .next t ∧ OnlyThreads s t i.lanes ∧
    ∀ l ∈ i.lanes, WrotePair (s.thread l) (t.thread l) (i.pc + BitVec.ofNat 64 len) d (lo (s.thread l)) (hi (s.thread l))
      (f (s.thread l))

/-- From `t` to `u` the thread went on to `pc` and opened a window of `k` instructions that will write `v` to x[d] and raise
`f` (R37, R99): results bound to the register already are cancelled. -/
structure Opened (t u : Thread) (pc : Word) (d : Reg) (k : BitVec 4) (v : Word) (f : Flags) (w : Window) : Prop where
  count : w.count = k.toNat
  phys : w.phys = t.phys d
  value : w.arrival = .value v
  live : w.cancelled = false
  flags : w.closing.flags = f
  rest : u = { t with pc := pc, alone := false, windows := (t.windows.map fun x =>
    { x with count := x.count - 1, cancelled := x.cancelled || decide (x.phys = t.phys d) }) ++ [w] }

/-- A long-latency instruction whose result is known at issue completes: with a lookahead and a destination other than x0 it
opens a window, except on a quay thread; otherwise it has written its result (R37, R166). -/
def OpensF (s : State) (i : Issue) (ins : Instr) (len : Nat) (quay : LaneId → Bool) (d : Reg) (k : BitVec 4) (v : Thread → Word)
    (f : Thread → Flags) : Prop :=
  ∃ t, exec ins s = .next t ∧ OnlyThreads s t i.lanes ∧ ∀ l ∈ i.lanes,
    let pc := i.pc + BitVec.ofNat 64 len
    if quay l = true ∨ d = 0 ∨ k = 0 then Wrote (s.thread l) (t.thread l) pc d (v (s.thread l)) (f (s.thread l))
    else ∃ w, Opened (s.thread l) (t.thread l) pc d k (v (s.thread l)) (f (s.thread l)) w

/-- Of the threads at most one changed. -/
def OnlyThread (s t : State) (l : LaneId) : Prop := ∀ m, m ≠ l → t.thread m = s.thread m

/-- A long-latency instruction of one lane has completed from `s` to `t` with its result known: it stands in x[d] already, or
in the window that the instruction opened (R37, R166). -/
def Result (s t : State) (pc : Word) (l : LaneId) (d : Reg) (k : BitVec 4) (v : Word) : Prop :=
  if l.berth = quayBerth ∨ d = 0 ∨ k = 0 then Wrote (s.thread l) (t.thread l) pc d v 0
  else ∃ w, Opened (s.thread l) (t.thread l) pc d k v 0 w

/-- No L1 holds a copy of the line at the home address `a`, and the core's L1 has room for it under the virtual address
`va`. -/
structure State.Fresh (s : State) (core ctx va a : Nat) : Prop where
  absent : s.line? core ctx (lineOf va) = none
  room : (s.l1.filter fun l => l.core == core).length < l1Lines (s.coreAt core).split
  alone : ∀ l ∈ s.l1, l.home ≠ .device (a / 128 * 128)
  same : va % 128 = a % 128

/-- The `n` bytes of an L1 line from `off` on. -/
def L1Line.bytesAt (l : L1Line) (off n : Nat) : List Byte := (List.range n).map fun j => lineByte l.data (off + j)

/-- From the line `a` to the line `b` only the bytes from `off` on changed, `n` of them. -/
def L1Line.OnlyBytes (a b : L1Line) (off n : Nat) : Prop :=
  ∀ j, j < 128 → (j < off ∨ off + n ≤ j) → b.valid.getLsbD j = a.valid.getLsbD j ∧ b.dirty.getLsbD j = a.dirty.getLsbD j ∧
    lineByte b.data j = lineByte a.data j

/-- Every byte of device memory reads as before. -/
def SameBytes (s t : State) : Prop := ∀ slot a, t.homeByte slot a = s.homeByte slot a

/-! ### The walk of stage 1 (R264) -/

/-- The entry of an address in a table of level `n`. -/
def walkIndex (n va : Nat) : Nat := va / 2 ^ (12 + 9 * (3 - n)) % 512

/-- The walk for the address `va` comes, through entries that are valid and name tables, to the table of level `n` at the GPA `tb`, and
the state is `p` then (R264). -/
def State.TableAt (s : State) (v va root : Nat) : Nat → Nat → State → Prop
  | 0, tb, p => tb = root ∧ p = s
  | n + 1, tb, p => ∃ tb' p' x u, s.TableAt v va root n tb' p' ∧ p'.walkRead v (tb' + 8 * walkIndex n va) = (.ok x, u) ∧
      u.readTable v x.2 x.1 % 4 = 3 ∧ e1Legal n (u.readTable v x.2 x.1) = true ∧ tb = e1Addr (u.readTable v x.2 x.1) ∧
      p = u.scAccess v 3 0 x.1 (u.viewMark v x.2 x.1)

/-! ### Numbers (R63) -/

/-- The rational number that a finite value is; 0 for the others. -/
def Ext.rat : Ext → ℚ
  | .fin neg m e => (if neg then -1 else 1) * (m : ℚ) * (2 : ℚ) ^ e
  | _ => 0

def Ext.finite : Ext → Bool
  | .fin _ _ _ => true
  | _ => false

/-- Whether a rational is the value of some pattern of the format. -/
def Fmt.has (f : Fmt) (z : ℚ) : Prop := ∃ n, n < 2 ^ f.bits ∧ (decodeF f n).finite = true ∧ (decodeF f n).rat = z

/-- `n` encodes a finite value to which `x` rounds in the mode (R63): down, up, toward zero, or to the nearest, and of two
nearest to the one whose pattern is even. -/
structure RoundsTo (f : Fmt) (rm : BitVec 2) (x : ℝ) (n : Nat) : Prop where
  pattern : n < 2 ^ f.bits
  finite : (decodeF f n).finite = true
  down : (rm = rdn ∨ (rm = rtz ∧ 0 ≤ x)) → ((decodeF f n).rat : ℝ) ≤ x ∧ ∀ z, f.has z → (z : ℝ) ≤ x → z ≤ (decodeF f n).rat
  up : (rm = rup ∨ (rm = rtz ∧ x ≤ 0)) → x ≤ ((decodeF f n).rat : ℝ) ∧ ∀ z, f.has z → x ≤ (z : ℝ) → (decodeF f n).rat ≤ z
  nearest : rm = rne → ∀ z, f.has z → |((decodeF f n).rat : ℝ) - x| ≤ |(z : ℝ) - x|
  even : rm = rne → ∀ z, f.has z → |((decodeF f n).rat : ℝ) - x| = |(z : ℝ) - x| → z = (decodeF f n).rat ∨ n % 2 = 0

end Sys2Proof.Machine
end

