-- ==== Sys2Proof/Certificates/Slice0/Obligations.lean ====
section
/-! DEFINITION. The statements for the provers, rule by rule of spec/. -/

open Sys2Proof Sys2Proof.Machine

/-! ### Encoding and decoding -/

/-- R28, R40 to R43: every instruction with an encoding is read back from its words, with every operand at every value
that the encoding admits, whatever bytes follow. -/
def Obligations.DecodeEncode : Prop :=
  ∀ i : Instr, i.WellFormed → encode i ≠ [] → IsCode (encode i) i

/-- R32, R44: words that decode are the words that the encoder writes, so that no bit of an instruction is ignored. -/
def Obligations.EncodeDecode : Prop :=
  ∀ (bs rest : List Byte) (i : Instr), decode bs = .ok (i, rest) → i.WellFormed ∧ bs = encodeBytes i ++ rest

/-- The words of "Worked encodings" (spec/05), and of other chapters' entries, written out field by field. -/
def Obligations.DecodeWords : Prop :=
  IsCode [0x0058a000#32] (.add 22 20 0) ∧ IsCode [0x0e50a963#32] (.lea 20 21 22 3) ∧
  IsCode [0x2064cfff#32] (.addi 25 25 0x7ff) ∧ IsCode [0x2850a803#32] (.shli 20 21 3) ∧
  IsCode [0x8e000040#32] (.call 64) ∧ IsCode [0x9000a000#32] (.callr 20) ∧ IsCode [0x90000001#32] .ret ∧
  IsCode [0x9000a002#32] (.jr 20) ∧ IsCode [0x90000003#32] .recWait ∧ IsCode [0x90000024#32] (.win 2) ∧
  IsCode [0x900007e4#32] (.win 0x7e) ∧ IsCode [0xe0500000#32, 0x00009033#32] (.limm 20 0x9033) ∧
  IsNoCode [0x90000007#32] ∧ IsNoCode [0x2850a843#32] ∧ IsCode [0#32] (.add 0 0 0) ∧
  IsCode [(0b0100000#7 ++ 20#7 ++ 21#7 ++ 22#7 ++ 0b0001#4 : BitVec 32)] (.fadd .s 20 21 22) ∧
  IsCode [(0b0110011#7 ++ 50#7 ++ 16#7 ++ 0#7 ++ 2#4 : BitVec 32)] (.ldD 50 16 0 2) ∧
  IsCode [(0b1010000#7 ++ 20#7 ++ 21#7 ++ 22#7 ++ 0b0011#4 : BitVec 32)] (.mm 3 20 21 22) ∧
  IsCode [(0b1100000#7 ++ 20#7 ++ 21#7 ++ 0#7 ++ 5#4 : BitVec 32)] (.qkick 20 21 5) ∧
  IsCode [(0b1001001#7 ++ 20#7 ++ 21#7 ++ 22#7 ++ 0b0101#4 : BitVec 32)] (.spawn .pod 20 21 22)

/-- R32, R33, R229, R380: lanes whose registers hold an uncorrectable error leave the issue first; with the bytes of a
well-formed instruction at the picked address, one step is then `exec` of that instruction, at the state in which the lanes of
this pick are the issue and the others wait in closed entries at the tail. `t` is the state that the fetch leaves. Lanes that
reissue an access each for itself alone (R120) may issue apart (DEDUCED, log 166). -/
def Clause.StepRunsDecoded : Prop :=
  (∀ (s t : State) (i : Issue) (ins : Instr) (bs : List Byte), s.issue = some i → i.real = true → ins.WellFormed →
    encode ins ≠ [] → (s.strikeLanes i).1.lanes ≠ [] →
    fetchCode (s.strikeLanes i).2 (s.strikeLanes i).1 = .ok bs t → bs = encodeBytes ins →
    step s = exec ins (t.splitIssue (s.strikeLanes i).1 (oneGroup ins) (laneAccess ins)).2 ∧
    ((laneAccess ins = false ∨ ∀ l ∈ (s.strikeLanes i).1.lanes, (t.thread l).alone = false) →
      (t.splitIssue (s.strikeLanes i).1 (oneGroup ins) (laneAccess ins)).2.issue =
        some { i with lanes := (splitLanes (oneGroup ins) (s.strikeLanes i).1.lanes).1 }) ∧
    (laneAccess ins = true → ∀ l, (s.strikeLanes i).1.lanes = [l] →
      (t.splitIssue (s.strikeLanes i).1 (oneGroup ins) (laneAccess ins)).2.issue = some { i with lanes := [l] })) ∧
  (∀ (s : State) (i : Issue), (∀ l ∈ i.lanes, Config.Strike.regs l.core l.berth l.tid ∉ s.struck) → s.strikeLanes i = (i, s)) ∧
  ∀ (s : State) (i : Issue), ∀ l ∈ (s.strikeLanes i).1.lanes, l ∈ i.lanes ∧ Config.Strike.regs l.core l.berth l.tid ∉ s.struck

/-- R33, R35: the fetch brings the bytes that the homes hold at the picked address, unit by unit of eight bytes: one word, and two
words where the opcode is of class 111. Where a unit that was fetched before has changed at its home, either is fetched. An
address that is no multiple of 4 names the bytes from it on, in two units where they lie in two (DEDUCED, log 31). -/
def Clause.FetchBringsCode : Prop :=
  (∀ (s t : State) (i : Issue) (u : Nat) (p : List Byte), s.peek i.core i.ctx u 8 .fetch = (.bytes p, t) →
    (∃ q, (s.fetchUnit i u).1 = .bytes q ∧ (q = p ∨ t.codeUnit i.core i.ctx u = some q)) ∧
    ((t.codeUnit i.core i.ctx u = none ∨ t.codeUnit i.core i.ctx u = some p) → (s.fetchUnit i u).1 = .bytes p)) ∧
  ∀ (s t u : State) (i : Issue) (p q : List Byte),
    s.fetchUnit i (i.pc.toNat - i.pc.toNat % 8) = (.bytes p, t) → p.length = 8 →
    let off := i.pc.toNat % 8
    let w := p.drop off
    let long (bs : List Byte) : Bool := isLong (opOf (BitVec.ofNat 32 (ofBytes (bs.take 4))))
    (off ≤ 4 → long w = false → fetchCode s i = .ok (w.take 4) t) ∧
    (off = 0 → long w = true → fetchCode s i = .ok p t) ∧
    (off ≠ 0 → (4 < off ∨ long w = true) → t.fetchUnit i (i.pc.toNat - off + 8) = (.bytes q, u) →
      fetchCode s i = .ok ((w ++ q).take (if long (w ++ q) then 8 else 4)) u)

/-- R44: bytes that are no instruction raise the illegal-instruction trap on every lane and change nothing else; the spec
states no fault address, and the model leaves it free (DESIGN CHOICE, log 5). -/
def Clause.IllegalTraps : Prop :=
  ∀ (s t : State) (i : Issue) (bs : List Byte) (e : DecodeError), s.issue = some i → i.real = true → i.lanes ≠ [] →
    (∀ l ∈ i.lanes, Config.Strike.regs l.core l.berth l.tid ∉ s.struck) → fetchCode s i = .ok bs t → decode bs = .error e →
    ∃ fva : Word, step s = .next (({ (t.splitIssue i false false).2 with issue := none, freeCount := t.freeCount + 1 } : State).conclude
      (t.splitIssue i false false).1 4 ((splitLanes false i.lanes).1.map fun l => (l, .trap 1 fva)))

/-! ### Integer instructions (spec/05) -/

/-- R79: the encodings of the alu opcode, its unassigned codes, and what each operation writes. -/
def Clause.ArithmeticLogic : Prop :=
  (∀ d a b, IsCode [wordT 0x00 d a b 0] (.add d a b) ∧ IsCode [wordT 0x00 d a b 1] (.sub d a b) ∧
    IsCode [wordT 0x00 d a b 2] (.and d a b) ∧ IsCode [wordT 0x00 d a b 3] (.or d a b) ∧
    IsCode [wordT 0x00 d a b 4] (.xor d a b) ∧ IsCode [wordT 0x00 d a b 5] (.andn d a b) ∧
    IsCode [wordT 0x00 d a b 6] (.orn d a b) ∧ IsCode [wordT 0x00 d a b 7] (.min d a b) ∧
    IsCode [wordT 0x00 d a b 8] (.max d a b) ∧ IsCode [wordT 0x00 d a b 9] (.minu d a b) ∧
    IsCode [wordT 0x00 d a b 10] (.maxu d a b) ∧ ∀ k : BitVec 4, 11 ≤ k.toNat → IsNoCode [wordT 0x00 d a b k]) ∧
  ∀ s i d a b, Issued s i .both [d, a, b] →
    Writes s i (.add d a b) 4 d (fun t => t.rd a + t.rd b) ∧
    Writes s i (.sub d a b) 4 d (fun t => t.rd a - t.rd b) ∧
    Writes s i (.and d a b) 4 d (fun t => t.rd a &&& t.rd b) ∧
    Writes s i (.or d a b) 4 d (fun t => t.rd a ||| t.rd b) ∧
    Writes s i (.xor d a b) 4 d (fun t => t.rd a ^^^ t.rd b) ∧
    Writes s i (.andn d a b) 4 d (fun t => t.rd a &&& ~~~t.rd b) ∧
    Writes s i (.orn d a b) 4 d (fun t => t.rd a ||| ~~~t.rd b) ∧
    Writes s i (.min d a b) 4 d (fun t => if (t.rd a).sle (t.rd b) then t.rd a else t.rd b) ∧
    Writes s i (.max d a b) 4 d (fun t => if (t.rd b).sle (t.rd a) then t.rd a else t.rd b) ∧
    Writes s i (.minu d a b) 4 d (fun t => if (t.rd a).ule (t.rd b) then t.rd a else t.rd b) ∧
    Writes s i (.maxu d a b) 4 d (fun t => if (t.rd b).ule (t.rd a) then t.rd a else t.rd b)

/-- R80: the shifts and the rotation, by bits [5:0] of x[b]. -/
def Clause.Shifts : Prop :=
  (∀ d a b, IsCode [wordT 0x01 d a b 0] (.shl d a b) ∧ IsCode [wordT 0x01 d a b 1] (.shr d a b) ∧
    IsCode [wordT 0x01 d a b 2] (.sra d a b) ∧ IsCode [wordT 0x01 d a b 3] (.rot d a b) ∧
    ∀ k : BitVec 4, 4 ≤ k.toNat → IsNoCode [wordT 0x01 d a b k]) ∧
  ∀ s i d a b, Issued s i .both [d, a, b] →
    Writes s i (.shl d a b) 4 d (fun t => t.rd a <<< ((t.rd b).extractLsb' 0 6).toNat) ∧
    Writes s i (.shr d a b) 4 d (fun t => t.rd a >>> ((t.rd b).extractLsb' 0 6).toNat) ∧
    Writes s i (.sra d a b) 4 d (fun t => (t.rd a).sshiftRight ((t.rd b).extractLsb' 0 6).toNat) ∧
    Writes s i (.rot d a b) 4 d (fun t => (t.rd a).rotateRight ((t.rd b).extractLsb' 0 6).toNat)

/-- R81: products and quotients; division by zero does not trap. -/
def Clause.MultiplyDivide : Prop :=
  (∀ d a b, IsCode [wordT 0x02 d a b 0] (.mul d a b) ∧ IsCode [wordT 0x02 d a b 1] (.mulh d a b) ∧
    IsCode [wordT 0x02 d a b 2] (.mulhu d a b) ∧ IsCode [wordT 0x03 d a b 0] (.div d a b) ∧
    IsCode [wordT 0x03 d a b 1] (.divu d a b) ∧ IsCode [wordT 0x03 d a b 2] (.rem d a b) ∧
    IsCode [wordT 0x03 d a b 3] (.remu d a b) ∧ (∀ k : BitVec 4, 3 ≤ k.toNat → IsNoCode [wordT 0x02 d a b k]) ∧
    ∀ k : BitVec 4, 4 ≤ k.toNat → IsNoCode [wordT 0x03 d a b k]) ∧
  ∀ s i d a b, Issued s i .both [d, a, b] →
    Writes s i (.mul d a b) 4 d (fun t => t.rd a * t.rd b) ∧
    Writes s i (.mulh d a b) 4 d (fun t => (((t.rd a).signExtend 128) * ((t.rd b).signExtend 128)).extractLsb' 64 64) ∧
    Writes s i (.mulhu d a b) 4 d (fun t => (((t.rd a).setWidth 128) * ((t.rd b).setWidth 128)).extractLsb' 64 64) ∧
    Writes s i (.div d a b) 4 d (fun t => if t.rd b = 0 then BitVec.allOnes 64 else (t.rd a).sdiv (t.rd b)) ∧
    Writes s i (.divu d a b) 4 d (fun t => if t.rd b = 0 then BitVec.allOnes 64 else t.rd a / t.rd b) ∧
    Writes s i (.rem d a b) 4 d (fun t => if t.rd b = 0 then t.rd a else (t.rd a).srem (t.rd b)) ∧
    Writes s i (.remu d a b) 4 d (fun t => if t.rd b = 0 then t.rd a else t.rd a % t.rd b)

/-- R82: bit counts and the reversal; the b field is zero. -/
def Clause.BitCounts : Prop :=
  (∀ d a, IsCode [wordT 0x04 d a 0 0] (.clz d a) ∧ IsCode [wordT 0x04 d a 0 1] (.ctz d a) ∧
    IsCode [wordT 0x04 d a 0 2] (.popc d a) ∧ IsCode [wordT 0x04 d a 0 3] (.brev d a) ∧
    (∀ k : BitVec 4, 4 ≤ k.toNat → IsNoCode [wordT 0x04 d a 0 k]) ∧ ∀ b k, b ≠ 0 → IsNoCode [wordT 0x04 d a b k]) ∧
  ∀ s i d a, Issued s i .both [d, a] →
    Writes s i (.clz d a) 4 d (fun t => (t.rd a).clz) ∧
    Writes s i (.ctz d a) 4 d (fun t => (t.rd a).ctz) ∧
    Writes s i (.popc d a) 4 d (fun t => (t.rd a).cpop) ∧
    Writes s i (.brev d a) 4 d (fun t => (t.rd a).reverse)

/-- R83, R84, R85: comparisons write 1 or 0, `sel` chooses by the value in its destination, `lea` scales by 2 to the n. -/
def Clause.CompareSelectAddress : Prop :=
  (∀ d a b, IsCode [wordT 0x05 d a b 0] (.cmpEq d a b) ∧ IsCode [wordT 0x05 d a b 1] (.cmpNe d a b) ∧
    IsCode [wordT 0x05 d a b 2] (.cmpLt d a b) ∧ IsCode [wordT 0x05 d a b 3] (.cmpGe d a b) ∧
    IsCode [wordT 0x05 d a b 4] (.cmpLtu d a b) ∧ IsCode [wordT 0x05 d a b 5] (.cmpGeu d a b) ∧
    (∀ k : BitVec 4, 6 ≤ k.toNat → IsNoCode [wordT 0x05 d a b k]) ∧
    IsCode [wordT 0x06 d a b 0] (.sel d a b) ∧ (∀ k : BitVec 4, k ≠ 0 → IsNoCode [wordT 0x06 d a b k]) ∧
    (∀ k : BitVec 4, k.toNat ≤ 4 → IsCode [wordT 0x07 d a b k] (.lea d a b k)) ∧
    ∀ k : BitVec 4, 5 ≤ k.toNat → IsNoCode [wordT 0x07 d a b k]) ∧
  ∀ s i d a b (n : BitVec 4), Issued s i .both [d, a, b] →
    Writes s i (.cmpEq d a b) 4 d (fun t => if t.rd a = t.rd b then 1 else 0) ∧
    Writes s i (.cmpNe d a b) 4 d (fun t => if t.rd a = t.rd b then 0 else 1) ∧
    Writes s i (.cmpLt d a b) 4 d (fun t => if (t.rd a).slt (t.rd b) then 1 else 0) ∧
    Writes s i (.cmpGe d a b) 4 d (fun t => if (t.rd a).slt (t.rd b) then 0 else 1) ∧
    Writes s i (.cmpLtu d a b) 4 d (fun t => if (t.rd a).ult (t.rd b) then 1 else 0) ∧
    Writes s i (.cmpGeu d a b) 4 d (fun t => if (t.rd a).ult (t.rd b) then 0 else 1) ∧
    Writes s i (.sel d a b) 4 d (fun t => if t.rd d = 0 then t.rd b else t.rd a) ∧
    Writes s i (.lea d a b n) 4 d (fun t => t.rd a + (t.rd b <<< n.toNat))

/-- R86: bit fields at p = x[b][5:0], w = x[b][12:6] bits wide but never past bit 63, bit by bit. -/
def Clause.BitFields : Prop :=
  (∀ d a b, IsCode [wordT 0x08 d a b 0] (.bfx d a b) ∧ IsCode [wordT 0x08 d a b 1] (.bfxS d a b) ∧
    IsCode [wordT 0x09 d a b 0] (.bfi d a b) ∧ (∀ k : BitVec 4, 2 ≤ k.toNat → IsNoCode [wordT 0x08 d a b k]) ∧
    ∀ k : BitVec 4, k ≠ 0 → IsNoCode [wordT 0x09 d a b k]) ∧
  ∀ s i d a b, Issued s i .both [d, a, b] →
    let p (t : Thread) : Nat := ((t.rd b).extractLsb' 0 6).toNat
    let n (t : Thread) : Nat := Nat.min ((t.rd b).extractLsb' 6 7).toNat (64 - p t)
    Writes s i (.bfx d a b) 4 d (fun t => BitVec.ofFnLE fun j : Fin 64 =>
      decide (j.val < n t) && (t.rd a).getLsbD (p t + j.val)) ∧
    Writes s i (.bfxS d a b) 4 d (fun t => BitVec.ofFnLE fun j : Fin 64 =>
      decide (0 < n t) && (t.rd a).getLsbD (p t + Nat.min j.val (n t - 1))) ∧
    Writes s i (.bfi d a b) 4 d (fun t => BitVec.ofFnLE fun j : Fin 64 =>
      if p t ≤ j.val ∧ j.val < p t + n t then (t.rd a).getLsbD (j.val - p t) else (t.rd d).getLsbD j.val)

/-- R87: the immediate forms, with the immediate's sign extended, for the logical operations as well. -/
def Clause.ImmediateForms : Prop :=
  (∀ d a i, IsCode [wordI 0x10 d a i] (.addi d a i) ∧ IsCode [wordI 0x11 d a i] (.andi d a i) ∧
    IsCode [wordI 0x12 d a i] (.ori d a i) ∧ IsCode [wordI 0x13 d a i] (.xori d a i) ∧
    IsCode [wordI 0x18 d a i] (.cmpiEq d a i) ∧ IsCode [wordI 0x19 d a i] (.cmpiNe d a i) ∧
    IsCode [wordI 0x1a d a i] (.cmpiLt d a i) ∧ IsCode [wordI 0x1b d a i] (.cmpiGe d a i) ∧
    IsCode [wordI 0x1c d a i] (.cmpiLtu d a i) ∧ IsCode [wordI 0x1d d a i] (.cmpiGeu d a i) ∧
    IsNoCode [wordI 0x17 d a i] ∧ IsNoCode [wordI 0x1e d a i] ∧ IsNoCode [wordI 0x1f d a i] ∧
    (64 ≤ i.toNat → IsNoCode [wordI 0x14 d a i] ∧ IsNoCode [wordI 0x15 d a i] ∧ IsNoCode [wordI 0x16 d a i])) ∧
  (∀ d a (n : BitVec 6), IsCode [wordI 0x14 d a (0#5 ++ n)] (.shli d a n) ∧ IsCode [wordI 0x15 d a (0#5 ++ n)] (.shri d a n) ∧
    IsCode [wordI 0x16 d a (0#5 ++ n)] (.srai d a n)) ∧
  ∀ s i d a (e : BitVec 11) (n : BitVec 6), Issued s i .both [d, a] →
    Writes s i (.addi d a e) 4 d (fun t => t.rd a + e.signExtend 64) ∧
    Writes s i (.andi d a e) 4 d (fun t => t.rd a &&& e.signExtend 64) ∧
    Writes s i (.ori d a e) 4 d (fun t => t.rd a ||| e.signExtend 64) ∧
    Writes s i (.xori d a e) 4 d (fun t => t.rd a ^^^ e.signExtend 64) ∧
    Writes s i (.shli d a n) 4 d (fun t => t.rd a <<< n.toNat) ∧
    Writes s i (.shri d a n) 4 d (fun t => t.rd a >>> n.toNat) ∧
    Writes s i (.srai d a n) 4 d (fun t => (t.rd a).sshiftRight n.toNat) ∧
    Writes s i (.cmpiEq d a e) 4 d (fun t => if t.rd a = e.signExtend 64 then 1 else 0) ∧
    Writes s i (.cmpiNe d a e) 4 d (fun t => if t.rd a = e.signExtend 64 then 0 else 1) ∧
    Writes s i (.cmpiLt d a e) 4 d (fun t => if (t.rd a).slt (e.signExtend 64) then 1 else 0) ∧
    Writes s i (.cmpiGe d a e) 4 d (fun t => if (t.rd a).slt (e.signExtend 64) then 0 else 1) ∧
    Writes s i (.cmpiLtu d a e) 4 d (fun t => if (t.rd a).ult (e.signExtend 64) then 1 else 0) ∧
    Writes s i (.cmpiGeu d a e) 4 d (fun t => if (t.rd a).ult (e.signExtend 64) then 0 else 1)

/-- R88: the long immediates, two words long. -/
def Clause.LongImmediates : Prop :=
  (∀ (d : Reg) (e : BitVec 32), IsCode [wordT 0x70 d 0 0 0, e] (.limm d e) ∧ IsCode [wordT 0x71 d 0 0 0, e] (.lhi d e) ∧
    ∀ a b k, (a ≠ 0 ∨ b ≠ 0 ∨ k ≠ 0) → IsNoCode [wordT 0x70 d a b k, e] ∧ IsNoCode [wordT 0x71 d a b k, e]) ∧
  ∀ s i (d : Reg) (e : BitVec 32), Issued s i .both [d] →
    Writes s i (.limm d e) 8 d (fun _ => e.signExtend 64) ∧
    Writes s i (.lhi d e) 8 d (fun t => e ++ (t.rd d).extractLsb' 0 32)

/-! ### Control (spec/05) -/

/-- R89, R30: the branches, taken by the sign of x[a], to A + 4 times the offset. -/
def Clause.Branches : Prop :=
  (∀ (a : Reg) (o : BitVec 18), IsCode [(0x40#7 ++ a ++ o : BitVec 32)] (.beqz a o) ∧
    IsCode [(0x41#7 ++ a ++ o : BitVec 32)] (.bnez a o) ∧ IsCode [(0x42#7 ++ a ++ o : BitVec 32)] (.bltz a o) ∧
    IsCode [(0x43#7 ++ a ++ o : BitVec 32)] (.bgez a o) ∧ IsCode [(0x44#7 ++ a ++ o : BitVec 32)] (.blez a o) ∧
    IsCode [(0x45#7 ++ a ++ o : BitVec 32)] (.bgtz a o)) ∧
  ∀ s i a (o : BitVec 18), Issued s i .both [a] →
    let dest (taken : Bool) : Word := if taken then i.pc + o.signExtend 64 * 4 else i.pc + 4
    Goes s i (.beqz a o) (fun t => dest (t.rd a == 0)) id ∧
    Goes s i (.bnez a o) (fun t => dest (t.rd a != 0)) id ∧
    Goes s i (.bltz a o) (fun t => dest ((t.rd a).slt 0)) id ∧
    Goes s i (.bgez a o) (fun t => dest ((0 : Word).sle (t.rd a))) id ∧
    Goes s i (.blez a o) (fun t => dest ((t.rd a).sle 0)) id ∧
    Goes s i (.bgtz a o) (fun t => dest ((0 : Word).slt (t.rd a))) id

/-- R90, R91, R34: jumps, calls and returns; `callr` reads x[a] before it writes x[2]. -/
def Clause.JumpsCallsReturns : Prop :=
  ∀ s i (a : Reg) (o : BitVec 25),
    (Issued s i .both [] → Goes s i (.jmp o) (fun _ => i.pc + o.signExtend 64 * 4) id ∧
      Goes s i (.call o) (fun _ => i.pc + o.signExtend 64 * 4) (fun t => t.wr 2 (i.pc + 4))) ∧
    (Issued s i .both [] → (∀ l ∈ i.lanes, (s.thread l).rd 2 % 4 = 0) → Goes s i .ret (fun t => t.rd 2) id) ∧
    (Issued s i .both [a] → (∀ l ∈ i.lanes, (s.thread l).rd a % 4 = 0) →
      Goes s i (.jr a) (fun t => t.rd a) id ∧ Goes s i (.callr a) (fun t => t.rd a) fun t => t.wr 2 (i.pc + 4))

/-- R34, R168: a target that is no multiple of 4 raises the misaligned-access trap at the jump, with the target as the fault
address, before the PC changes; `callr` leaves x[2] unwritten. For the lanes of one group that all jump to such targets; and
for a quay thread, which stops with a record of the cause. -/
def Clause.MisalignedJumpTraps : Prop :=
  ∀ s i (a : Reg) (l : LaneId), Issued s i .both [a] →
    let traps (r : Reg) (ins : Instr) : Prop :=
      (∀ ls, i.quay = false → i.lanes = l :: ls → (∀ m ∈ i.lanes, m.berth = l.berth ∧ (s.thread m).rd r % 4 ≠ 0) →
        exec ins s = .next (({ s with issue := none }).takeTrap i.core l.berth i.lanes 2 ((s.thread l).rd r) i.pc i.pc)) ∧
      (i.quay = true → i.lanes = [l] → l = ⟨i.core, quayBerth, l.tid⟩ → (s.thread l).rd r % 4 ≠ 0 →
        ∃ t f, exec ins s = .next t ∧ t.thread l = { s.thread l with wait := .faulted } ∧ (∀ m, m ≠ l → t.thread m = s.thread m) ∧
          (t.vf (s.vfOf i.ctx)).fqWaiting = (s.vf (s.vfOf i.ctx)).fqWaiting ++ [f] ∧ f.src = 3 ∧ f.cause = 2 ∧
          f.fva = (s.thread l).rd r ∧ f.ifa = i.pc ∧ f.ctx = i.ctx ∧ f.qt = l.tid ∧ f.core = i.core)
    traps a (.jr a) ∧ traps a (.callr a) ∧ traps 2 .ret

/-- R92, R18, R20, R93: `win` moves the window base by 16 times its field, closes no window, and writes nothing else. -/
def Clause.WindowMoves : Prop :=
  ∀ s i (n : BitVec 7), Issued s i .thread [] →
    let nreg (t : Thread) : Nat := ((s.group? t.id.core t.id.berth).map (·.nreg)).getD 128
    let new (t : Thread) : Int := t.wb + 16 * n.toInt
    ((∀ l ∈ i.lanes, 16 ≤ new (s.thread l) ∧ new (s.thread l) ≤ nreg (s.thread l) - 112) →
      Goes s i (.win n) (fun _ => i.pc + 4) fun t => { t with wb := (new t).toNat }) ∧
    (∀ l ls, i.lanes = l :: ls → (∀ m ∈ i.lanes, m.berth = l.berth ∧
        (new (s.thread m) < 16 ∨ nreg (s.thread m) - 112 < new (s.thread m))) →
      exec (.win n) s = .next
        (({ s with issue := none }).takeTrap i.core l.berth i.lanes 7 (BitVec.ofInt 64 (new (s.thread l))) i.pc i.pc))

/-! ### Number formats (spec/03) -/

/-- R52 to R55, R61 to R63: every finite pattern of a format is a value that rounds to that very pattern and raises no
flag, in every mode. -/
def Clause.PatternsAreExact : Prop :=
  ∀ f ∈ [fp64, fp32, fp16, bf16, e4m3, e5m2, a56, a112], ∀ (rm : BitVec 2) (sat : Bool) (n : Nat), n < 2 ^ f.bits →
    (decodeF f n).finite = true → roundFmt (decodeF f n) f rm sat = (n, 0)

/-- R63, R66: an exact finite value that raises no overflow is rounded correctly in every mode, and inexact is raised where
and only where the result is another value. -/
def Obligations.RoundingIsCorrect : Prop :=
  ∀ f ∈ [fp64, fp32, fp16, bf16, e4m3, e5m2, a56, a112], ∀ (rm : BitVec 2) (sat neg : Bool) (m : Nat) (e : Int),
    let r := roundFmt (.fin neg m e) f rm sat
    r.2 &&& flagOf = 0 →
      RoundsTo f rm ((Ext.fin neg m e).rat : ℝ) r.1 ∧ (r.2 &&& flagNx = 0 ↔ (decodeF f r.1).rat = (Ext.fin neg m e).rat)

/-- R63, R71, R102: products and sums of finite values are formed exactly; comparisons are those of the numbers. -/
def Clause.ExactArithmetic : Prop :=
  (∀ a b : Ext, a.finite = true → b.finite = true →
    (a.mul b).1.finite = true ∧ (a.mul b).1.rat = a.rat * b.rat ∧ (a.mul b).2 = false ∧
    (a.lt b = decide (a.rat < b.rat)) ∧ (a.eq b = decide (a.rat = b.rat)) ∧ a.neg.rat = -a.rat) ∧
  ∀ (rm : BitVec 2) (ts : List Ext), (∀ x ∈ ts, x.finite = true) →
    (sumExt rm ts).1.finite = true ∧ (sumExt rm ts).1.rat = (ts.map Ext.rat).sum ∧ (sumExt rm ts).2 = false

/-- R104: quotients and square roots of finite values are correctly rounded in the four scalar formats. -/
def Obligations.QuotientAndRootRound : Prop :=
  ∀ f ∈ [fp64, fp32, fp16, bf16], ∀ (rm : BitVec 2) (a b : Nat), a < 2 ^ f.bits → b < 2 ^ f.bits →
    (decodeF f a).finite = true → (decodeF f b).finite = true →
    ((decodeF f b).rat ≠ 0 → (roundFmt ((decodeF f a).div (decodeF f b)).1 f rm false).2 &&& flagOf = 0 →
      RoundsTo f rm (((decodeF f a).rat : ℝ) / ((decodeF f b).rat : ℝ)) (roundFmt ((decodeF f a).div (decodeF f b)).1 f rm false).1) ∧
    (0 ≤ (decodeF f a).rat → RoundsTo f rm (Real.sqrt ((decodeF f a).rat : ℝ)) (roundFmt (decodeF f a).sqrt.1 f rm false).1)

/-! ### Floating-point and packed instructions (spec/06) -/

/-- R100, R102: sums, differences, products and fused forms: the exact result, rounded once in the thread's mode. The flags
are those of the rounding, and nv for a signalling operand, for infinities that cancel and for 0 times infinity (R54, R66). -/
def Clause.FloatArithmetic : Prop :=
  ∀ s i (ty : FTy) (d a b : Reg), Issued s i .thread [d, a, b] →
    let f := FTy.fmt ty
    let put (ins : Instr) (v : Thread → Ext) (inv : Thread → Bool) (ops : Thread → List Ext) : Prop :=
      WritesF s i ins 4 d (fun t => BitVec.ofNat 64 (roundFmt (v t) f t.rm false).1) fun t =>
        (roundFmt (v t) f t.rm false).2 ||| (if (ops t).any Ext.isSig then flagNv else 0) ||| (if inv t then flagNv else 0)
    let x (t : Thread) : Ext := rdF ty (t.rd a)
    let y (t : Thread) : Ext := rdF ty (t.rd b)
    let c (t : Thread) : Ext := rdF ty (t.rd d)
    let fused (ins : Instr) (x y c : Thread → Ext) : Prop :=
      put ins (fun t => (sumExt t.rm [((x t).mul (y t)).1, c t]).1)
        (fun t => ((x t).mul (y t)).2 || (sumExt t.rm [((x t).mul (y t)).1, c t]).2) (fun t => [x t, y t, c t])
    put (.fadd ty d a b) (fun t => (sumExt t.rm [x t, y t]).1) (fun t => (sumExt t.rm [x t, y t]).2) (fun t => [x t, y t]) ∧
    put (.fsub ty d a b) (fun t => (sumExt t.rm [x t, (y t).neg]).1) (fun t => (sumExt t.rm [x t, (y t).neg]).2)
      (fun t => [x t, y t]) ∧
    put (.fmul ty d a b) (fun t => ((x t).mul (y t)).1) (fun t => ((x t).mul (y t)).2) (fun t => [x t, y t]) ∧
    fused (.fma ty d a b) x y c ∧ fused (.fms ty d a b) x y (fun t => (c t).neg) ∧ fused (.fnma ty d a b) (fun t => (x t).neg) y c

/-- R101, R105, R106, R107: minimum and maximum number, sign operations, class, comparisons; no result but a NaN's is
rounded, and -0 lies below +0 for the minimum and maximum. -/
def Clause.FloatSelectCompare : Prop :=
  ∀ s i (ty : FTy) (d a b : Reg),
    let f := FTy.fmt ty
    let p (r : Reg) (t : Thread) : Nat := (t.rd r).toNat % 2 ^ f.bits
    let v (r : Reg) (t : Thread) : Ext := decodeF f (p r t)
    let sig (t : Thread) : Flags := if (v a t).isSig || (v b t).isSig then flagNv else 0
    let nan (t : Thread) : Flags := if (v a t).isNan || (v b t).isNan then flagNv else 0
    let lower (t : Thread) : Bool := (v a t).lt (v b t) || ((v a t).eq (v b t) && (v a t).isNeg)
    let upper (t : Thread) : Bool := (v b t).lt (v a t) || ((v a t).eq (v b t) && !(v a t).isNeg)
    let pick (t : Thread) (first : Bool) : Word := BitVec.ofNat 64 (
      if (v a t).isNan && (v b t).isNan then f.canonNan else if (v a t).isNan then p b t
      else if (v b t).isNan || first then p a t else p b t)
    (Issued s i .thread [d, a, b] →
      WritesF s i (.fmin ty d a b) 4 d (fun t => pick t (lower t)) sig ∧
      WritesF s i (.fmax ty d a b) 4 d (fun t => pick t (upper t)) sig ∧
      WritesF s i (.fcmpEq ty d a b) 4 d (fun t => if (v a t).eq (v b t) then 1 else 0) sig ∧
      WritesF s i (.fcmpLt ty d a b) 4 d (fun t => if (v a t).lt (v b t) then 1 else 0) nan ∧
      WritesF s i (.fcmpLe ty d a b) 4 d (fun t => if (v a t).lt (v b t) || (v a t).eq (v b t) then 1 else 0) nan ∧
      WritesF s i (.fcmpUn ty d a b) 4 d (fun t => if (v a t).isNan || (v b t).isNan then 1 else 0) sig) ∧
    (Issued s i .thread [d, a] →
      Writes s i (.fabs ty d a) 4 d (fun t => BitVec.ofNat 64 (p a t % 2 ^ (f.bits - 1))) ∧
      Writes s i (.fneg ty d a) 4 d (fun t => BitVec.ofNat 64 (p a t) ^^^ BitVec.ofNat 64 (2 ^ (f.bits - 1))) ∧
      Writes s i (.fclass ty d a) 4 d (fun t => BitVec.ofNat 64 (classMask f (p a t))))

/-- R106: the class of a value sets exactly one of ten bits. -/
def Clause.ClassIsOneBit : Prop :=
  ∀ f ∈ [fp64, fp32, fp16, bf16], ∀ n, n < 2 ^ f.bits → ∃ j, j < 10 ∧ classMask f n = 2 ^ j

/-- R105, R108, R109: roundings to an integral value, conversions between the formats, from and to 64-bit integers; out of
range and NaN give the fixed value with nv alone. -/
def Clause.FloatConvert : Prop :=
  ∀ s i (ty src : FTy) (d a : Reg), Issued s i .thread [d, a] →
    let f := FTy.fmt ty
    let x (t : Thread) : Ext := rdF ty (t.rd a)
    let y (t : Thread) : Ext := rdF src (t.rd a)
    let put (ins : Instr) (r : Thread → Nat × Flags) : Prop := WritesF s i ins 4 d (fun t => BitVec.ofNat 64 (r t).1) fun t => (r t).2
    put (.fcvt ty src d a) (fun t => ((roundFmt (y t) f t.rm false).1,
      (roundFmt (y t) f t.rm false).2 ||| if (y t).isSig then flagNv else 0)) ∧
    put (.icvtSf ty d a) (fun t => roundFmt (.fin (t.rd a).msb (t.rd a).toInt.natAbs 0) f t.rm false) ∧
    put (.icvtUf ty d a) (fun t => roundFmt (.fin false (t.rd a).toNat 0) f t.rm false) ∧
    put (.frnd ty d a) (fun t => match x t with
      | .fin neg m e => ((roundFmt (.fin neg (roundInt t.rm neg m e).1.natAbs 0) f t.rm false).1,
          if (roundInt t.rm neg m e).2 then flagNx else 0)
      | v => ((roundFmt v f t.rm false).1, if v.isSig then flagNv else 0)) ∧
    put (.icvtFs ty d a) (fun t => match x t with
      | .fin neg m e =>
        let n := (roundInt t.rm neg m e).1
        if -(2 ^ 63) ≤ n ∧ n < 2 ^ 63 then ((BitVec.ofInt 64 n).toNat, if (roundInt t.rm neg m e).2 then flagNx else 0)
        else (2 ^ 63, flagNv)
      | _ => (2 ^ 63, flagNv)) ∧
    put (.icvtFu ty d a) (fun t => match x t with
      | .fin neg m e =>
        let n := (roundInt t.rm neg m e).1
        if 0 ≤ n ∧ n < 2 ^ 64 then ((BitVec.ofInt 64 n).toNat, if (roundInt t.rm neg m e).2 then flagNx else 0)
        else (2 ^ 64 - 1, flagNv)
      | _ => (2 ^ 64 - 1, flagNv))

/-- R103, R104, R99: `fdiv` and `fsqrt` are long-latency: their flags are owed to the close of the window. -/
def Clause.FloatDivideRoot : Prop :=
  ∀ s i (ty : FTy) (d a b : Reg) (k : BitVec 4),
    let f := FTy.fmt ty
    let x (t : Thread) : Ext := rdF ty (t.rd a)
    let y (t : Thread) : Ext := rdF ty (t.rd b)
    (Issued s i .thread [d, a, b] → OpensF s i (.fdiv ty d a b k) 8 (fun _ => false) d k
      (fun t => BitVec.ofNat 64 (roundFmt ((x t).div (y t)).1 f t.rm false).1)
      (fun t => (roundFmt ((x t).div (y t)).1 f t.rm false).2 ||| ((x t).div (y t)).2 |||
        if (x t).isSig || (y t).isSig then flagNv else 0)) ∧
    (Issued s i .thread [d, a] → OpensF s i (.fsqrt ty d a k) 8 (fun _ => false) d k
      (fun t => BitVec.ofNat 64 (roundFmt (x t).sqrt.1 f t.rm false).1)
      (fun t => (roundFmt (x t).sqrt.1 f t.rm false).2 ||| (x t).sqrt.2 ||| if (x t).isSig then flagNv else 0))

/-- R37, R38, R93, R99: the window of a thread with one window closes with the next instruction, a taken jump among them: a result
that has come is written, unless it is cancelled, and its flags are raised either way; a thread whose result has not come is
held; a data error parks it at L and adds one record that names L, or its lane to the record of its group that waits (R273).
Several windows close in the order in which they opened, an instruction that writes the register of one cancels it, and a window
whose count has not run out stays. -/
def Clause.WindowCloses : Prop :=
  (∀ s i l w (o : BitVec 25), s.issue = some i → i.lanes = [l] → i.quay = false → l.berth ≠ quayBerth → (s.thread l).pc = i.pc →
    (s.thread l).wait = .ready → (s.thread l).reissue = none → (s.thread l).windows = [w] → w.count = 1 →
    w.closing.ext = false → w.closing.fabric = false →
    ∀ x ∈ [((.add 0 0 0 : Instr), i.pc + 4), (.jmp o, i.pc + o.signExtend 64 * 4)], ∃ t, exec x.1 s = .next t ∧
      (∀ v, w.arrival = .value v → OnlyThreads s t [l] ∧ (t.thread l).windows = [] ∧ (t.thread l).wait = .ready ∧
        (t.thread l).pc = x.2 ∧ (t.thread l).flags = (s.thread l).flags ||| w.closing.flags ∧
        ∀ p, (t.thread l).physAt p =
          if p = w.phys ∧ p ≠ 0 ∧ w.cancelled = false then v else (s.thread l).physAt p) ∧
      (w.arrival = .waiting → OnlyThreads s t [l] ∧ t.thread l =
        { s.thread l with pc := x.2, windows := [{ w with count := 0 }], wait := .held, alone := false }) ∧
      (∀ c u g gr, w.arrival = .error c u g → s.group? l.core l.berth = some gr →
        (t.thread l).wait = .faulted ∧ (t.thread l).pc = w.ifa ∧ ((t.thread l).reissue.map (·.back)) = some x.2 ∧
        let old := (s.vf (s.vfOf gr.ctx)).fqWaiting
        ((∀ r ∈ old, r.cause = c → r.ifa ≠ w.ifa) →
          ∃ r, (t.vf (s.vfOf gr.ctx)).fqWaiting = old ++ [r] ∧ r.cause = c ∧ r.sub = u ∧ r.gpa = g ∧
            r.ifa = w.ifa ∧ r.fva = w.fva ∧ r.lanes = BitVec.ofNat 64 (2 ^ l.tid)) ∧
        (l.tid < 64 → ∃ r ∈ (t.vf (s.vfOf gr.ctx)).fqWaiting, r.cause = c ∧ r.ifa = w.ifa ∧ r.ctx = gr.ctx ∧
          r.lanes.getLsbD l.tid = true))) ∧
  ∀ s i l (d a b : Reg), s.issue = some i → i.lanes = [l] → i.quay = false → l.berth ≠ quayBerth → (s.thread l).pc = i.pc →
    (s.thread l).wait = .ready → (s.thread l).reissue = none → 16 ≤ (s.thread l).wb →
    (∀ w ∈ (s.thread l).windows, 1 ≤ w.count ∧ w.closing.ext = false ∧ w.closing.fabric = false ∧ ∃ v, w.arrival = .value v) →
    ∃ t, exec (.add d a b) s = .next t ∧ OnlyThreads s t [l] ∧ (t.thread l).pc = i.pc + 4 ∧ (t.thread l).wait = .ready ∧
      let x := s.thread l
      let hit (w : Window) : Bool := decide (d ≠ 0) && decide (w.phys = x.phys d)
      (t.thread l).windows = (x.windows.filter fun w => w.count != 1).map (fun w =>
        { w with count := w.count - 1, cancelled := w.cancelled || hit w }) ∧
      (t.thread l).flags = (x.windows.filter fun w => w.count == 1).foldl (fun f w => f ||| w.closing.flags) x.flags ∧
      ∀ p, p ≠ 0 → (t.thread l).physAt p =
        match (x.windows.filter fun w => w.count == 1 && !w.cancelled && !hit w && w.phys == p).getLast? with
        | some w => (match w.arrival with | .value v => v | _ => 0)
        | none => if d ≠ 0 ∧ p = x.phys d then x.rd a + x.rd b else x.physAt p

/-- R37, R38: an instruction that ends windows does not issue before they have closed: a thread whose result has not come is
held before it, with its windows at count 0 and nothing else changed; where it has come it is written first, and the
instruction issues. -/
def Clause.WindowCloseBefore : Prop :=
  ∀ s i l w (a b c : Reg) (n : BitVec 7) (pl : Place), s.issue = some i → i.lanes = [l] → i.quay = false → l.berth ≠ quayBerth →
    (s.thread l).pc = i.pc → (s.thread l).wait = .ready → (s.thread l).reissue = none → (s.thread l).windows = [w] →
    w.closing.ext = false → w.closing.fabric = false →
    (w.arrival = .waiting →
      ∀ ins ∈ [Instr.recWait, .bar, .barl a, .await a, .exit a, .waitge a b c, .yield, .brk n, .spawn pl a b c, .signal a b],
        ∃ t, exec ins s = .next t ∧ OnlyThreads s t [l] ∧ t.thread l =
          { s.thread l with windows := [{ w with count := 0 }], wait := .held }) ∧
    ∀ v, w.arrival = .value v →
      let x := { s.thread l with windows := [], flags := (s.thread l).flags ||| w.closing.flags }
      let y := if w.cancelled then x else x.setPhys w.phys v
      (∃ t, exec .recWait s = .next t ∧ OnlyThreads s t [l] ∧ t.thread l = { y with wait := .atRec }) ∧
      ∃ t, exec .yield s = .next t ∧ OnlyThreads s t [l] ∧
        t.thread l = { y with pc := i.pc + 4, wait := .ready, yielded := true, alone := false }

/-- R123, R238, R346, R353: with the window of an `ld.d.ext` the external edge is applied: no line of the VF's contexts in the core's
L1 keeps a clean byte that the VF's notices name (of every context of the VF, for the core keeps one epoch for it; DEDUCED,
DEDUCED, log 142), or of any of its lines where the core's epoch is older than the last but one, and the core's epoch is the VF's; with an edge of the
fabric no clean byte of the context's fabric lines either. -/
def Clause.ExternalWindowClose : Prop :=
  ∀ s i l w c v, s.issue = some i → i.lanes = [l] → i.quay = false → l.berth ≠ quayBerth → (s.thread l).pc = i.pc →
    (s.thread l).wait = .ready → (s.thread l).reissue = none → (s.thread l).windows = [w] → w.count = 1 →
    w.closing.ext = true → w.arrival = .value v → s.ctx? (s.thread l).ctx = some c →
    let ctx := (s.thread l).ctx
    let x := s.vf (s.vfOf ctx)
    ∃ t, exec (.add 0 0 0) s = .next t ∧ (t.thread l).windows = [] ∧ (t.thread l).wait = .ready ∧ (t.thread l).pc = i.pc + 4 ∧
      SMap.get 0 (t.coreAt l.core).epochs (s.vfOf ctx) = x.epoch ∧ SameBytes s t ∧
      (∀ q ∈ t.l1, q.core = l.core → q.sealed = false → s.vfOf q.ctx = s.vfOf ctx →
        (SMap.get 0 (s.coreAt l.core).epochs (s.vfOf ctx) + 1 < x.epoch ∨ x.current.names (lineOf q.gpa) = true ∨
          x.previous.names (lineOf q.gpa) = true) → q.valid &&& ~~~q.dirty = 0) ∧
      (w.closing.fabric = true → ∀ q ∈ t.l1, q.core = l.core → q.sealed = false → q.ctx = ctx →
        (∃ p g, q.home = .fabric p g) → q.valid &&& ~~~q.dirty = 0) ∧
      (∀ q ∈ t.l1, ∃ r ∈ s.l1, q = { r with valid := q.valid } ∧ q.valid &&& r.valid = q.valid) ∧
      ∃ d, t.ctx? ctx = some d ∧ d.ext = true ∧ d.fabric = (c.fabric || w.closing.fabric)

/-- R37, R38, R99, R123: the close of lookahead windows: with the next instruction, before one that ends windows, and with an external
edge. -/
def Obligations.WindowClose : Prop := Clause.WindowCloses ∧ Clause.WindowCloseBefore ∧ Clause.ExternalWindowClose

/-- R58, R110, R98: the parts of complex products, each the exact sum of its products and addend, rounded once, sources
read before either part is written. -/
def Clause.ComplexProducts : Prop :=
  ∀ s i (single : Bool) (d a b : Reg), (Instr.cmul single d a b).WellFormed → Issued s i .thread [d, a, b] →
    let ty := if single then FTy.s else FTy.d
    let f := FTy.fmt ty
    let re (r : Reg) (t : Thread) : Ext := rdF ty (t.rd r)
    let im (r : Reg) (t : Thread) : Ext := rdF ty (if r = 0 then 0 else t.rd (r + 1))
    let part (c : List Ext) (p q r u : Ext) (rm : BitVec 2) : Nat × Flags :=
      let z := sumExt rm (c ++ [(p.mul q).1, (r.mul u).1])
      ((roundFmt z.1 f rm false).1, (roundFmt z.1 f rm false).2 |||
        (if (c ++ [p, q, r, u]).any Ext.isSig then flagNv else 0) ||| if (p.mul q).2 || (r.mul u).2 || z.2 then flagNv else 0)
    let put (ins : Instr) (cr ci : Thread → List Ext) : Prop :=
      let x (t : Thread) := part (cr t) (re a t) (re b t) (im a t).neg (im b t) t.rm
      let y (t : Thread) := part (ci t) (re a t) (im b t) (im a t) (re b t) t.rm
      WritesPairF s i ins 4 d (fun t => BitVec.ofNat 64 (x t).1) (fun t => BitVec.ofNat 64 (y t).1) fun t => (x t).2 ||| (y t).2
    put (.cmul single d a b) (fun _ => []) (fun _ => []) ∧ put (.cma single d a b) (fun t => [re d t]) fun t => [im d t]

/-- R111, R112: the packed operations, element by element: floating-point elements are rounded in their own format, INT8
elements wrap, and the flags are the union of the elements' flags. -/
def Clause.PackedArithmetic : Prop :=
  ∀ s i (p : PTy) (d a b : Reg), Issued s i .thread [d, a, b] →
    let es (r : Reg) (t : Thread) (j : Nat) : Nat := elemAt p (t.rd r) j
    let put (ins : Instr) (e : Thread → Nat → Nat × Flags) : Prop :=
      WritesF s i ins 4 d (fun t => packEls p ((List.range (PTy.count p)).map fun j => (e t j).1))
        fun t => ((List.range (PTy.count p)).map fun j => (e t j).2).foldl (· ||| ·) 0
    let el (t : Thread) (ops : List Nat) (x : Ext × Bool) (n : Int) : Nat × Flags := match PTy.fmt p with
      | some f => ((roundFmt x.1 f t.rm false).1, (roundFmt x.1 f t.rm false).2 |||
          (if (ops.map (decodeF f)).any Ext.isSig then flagNv else 0) ||| if x.2 then flagNv else 0)
      | none => ((n % 256).toNat, 0)
    let v (r : Reg) (t : Thread) (j : Nat) : Ext := elemVal p (es r t j)
    let n (r : Reg) (t : Thread) (j : Nat) : Int := (BitVec.ofNat 8 (es r t j)).toInt
    let ma (t : Thread) (j : Nat) : Ext × Bool :=
      let m := (v a t j).mul (v b t j)
      ((sumExt t.rm [m.1, v d t j]).1, m.2 || (sumExt t.rm [m.1, v d t j]).2)
    put (.padd p d a b) (fun t j => el t [es a t j, es b t j] (sumExt t.rm [v a t j, v b t j]) (n a t j + n b t j)) ∧
    put (.psub p d a b) (fun t j => el t [es a t j, es b t j] (sumExt t.rm [v a t j, (v b t j).neg]) (n a t j - n b t j)) ∧
    put (.pmul p d a b) (fun t j => el t [es a t j, es b t j] ((v a t j).mul (v b t j)) (n a t j * n b t j)) ∧
    put (.pfma p d a b) (fun t j => el t [es a t j, es b t j, es d t j] (ma t j) (n a t j * n b t j + n d t j)) ∧
    put (.pmax p d a b) (fun t j => match PTy.fmt p with
      | some f => maxNum f (es a t j) (es b t j)
      | none => (if n b t j ≤ n a t j then es a t j else es b t j, 0)) ∧
    put (.pmin p d a b) (fun t j => match PTy.fmt p with
      | some f => minNum f (es a t j) (es b t j)
      | none => (if n a t j ≤ n b t j then es a t j else es b t j, 0))

/-- R113 to R116: the largest magnitude, the dot product (whose sum of zeros has the sign of a cell's, R71; DEDUCED, log 36), the widening of half a register, and the packed conversion. -/
def Clause.PackedReduceConvert : Prop :=
  ∀ s i (p q : PTy) (sat scl : Bool) (d a b : Reg), Issued s i .thread [d, a, b] →
    let val (r : Reg) (t : Thread) : List Ext := (List.range (PTy.count p)).map fun j => elemVal p (elemAt p (t.rd r) j)
    let nv (b : Bool) : Flags := if b then flagNv else 0
    let put (ins : Instr) (r : Thread → Nat × Flags) : Prop := WritesF s i ins 4 d (fun t => BitVec.ofNat 64 (r t).1) fun t => (r t).2
    let half (t : Thread) (hi : Bool) : List Ext := if hi then (val a t).drop (PTy.count p / 2) else (val a t).take (PTy.count p / 2)
    let wide : Fmt := if PTy.width p = 8 then bf16 else fp32
    let unpk (t : Thread) (hi : Bool) : Nat × Flags :=
      ((half t hi).foldr (fun e acc => (roundFmt e wide rne false).1 + 2 ^ wide.bits * acc) 0, nv ((half t hi).any Ext.isSig))
    put (.pamax p d a b) (fun t => ((roundFmt (amaxGo (.fin false 0 0) (val a t ++ val b t)) fp64 rne false).1,
      nv ((val a t ++ val b t).any Ext.isSig))) ∧
    (PTy.fmt p = none → put (.pdot p d a b) fun t =>
      ((((List.range 8).foldl (fun n j => n + (BitVec.ofNat 8 (elemAt p (t.rd a) j)).toInt * (BitVec.ofNat 8 (elemAt p (t.rd b) j)).toInt)
        (t.rd d).toInt) % 2 ^ 64).toNat, 0)) ∧
    (PTy.fmt p ≠ none → put (.pdot p d a b) fun t =>
      let c := decodeF fp64 (t.rd d).toNat
      let ps := List.zipWith Ext.mul (val a t) (val b t)
      let z := sumExt rne (c :: ps.map (·.1))
      ((roundFmt z.1 fp64 t.rm false).1, (roundFmt z.1 fp64 t.rm false).2 ||| nv ((c :: val a t ++ val b t).any Ext.isSig) |||
        nv (z.2 || ps.any (·.2)))) ∧
    put (.punpkLo p d a) (fun t => unpk t false) ∧ put (.punpkHi p d a) (fun t => unpk t true) ∧
    ((Instr.pcvt q p sat scl d a b).WellFormed →
      let n := Nat.max (PTy.count p) (PTy.count q)
      let src (t : Thread) (j : Nat) : Ext :=
        elemVal p (if j < PTy.count p then elemAt p (t.rd a) j else elemAt p (if a = 0 then 0 else t.rd (a + 1)) (j - PTy.count p))
      let g (t : Thread) : Ext := decodeF fp64 (t.rd b).toNat
      let x (t : Thread) (j : Nat) : Ext × Bool := if scl then (src t j).mul (g t) else (src t j, false)
      let r (t : Thread) (j : Nat) : Nat × Flags := match PTy.fmt q with
        | some f => roundFmt (x t j).1 f t.rm sat
        | none => roundInt8 (x t j).1 t.rm sat
      let fl (t : Thread) : Flags := ((List.range n).map fun j =>
        (r t j).2 ||| nv ((src t j).isSig || (scl && (g t).isSig)) ||| nv (x t j).2).foldl (· ||| ·) 0
      let els (t : Thread) : List Nat := (List.range n).map fun j => (r t j).1
      if PTy.count q < n then
        WritesPairF s i (.pcvt q p sat scl d a b) 8 d (fun t => packEls q ((els t).take 4)) (fun t => packEls q ((els t).drop 4)) fl
      else WritesF s i (.pcvt q p sat scl d a b) 8 d (fun t => packEls q (els t)) fl)

/-! ### Waiting, traps and returns (spec/05, spec/10, spec/11) -/

/-- R94, R95, R202, R208: `rec` and `bar` leave their lanes waiting; arrival at `bar` publishes first; `yield` puts its lanes
behind every other entry of the picker's order, in one closed entry. -/
def Clause.WaitingInstructions : Prop :=
  ∀ s i, Issued s i .thread [] → NoWindows s i →
    (∃ t, exec .recWait s = .next t ∧ OnlyThreads s t i.lanes ∧
      ∀ l ∈ i.lanes, t.thread l = { s.thread l with wait := .atRec }) ∧
    (let u := s.picked.publishGroups i.core i.ctx i.lanes;
      i.lanes ≠ [] → u.unacked i.core i.ctx = false →
        ∃ t, exec .bar s = .next t ∧ t = { u with threads := t.threads } ∧ (∀ l, l ∉ i.lanes → t.thread l = s.thread l) ∧
          ∀ l ∈ i.lanes, t.thread l = { s.thread l with wait := .atBar }) ∧
    ((∀ l ∈ i.lanes, s.isReady (s.thread l) = true ∧ l.core = i.core ∧ l.berth < quayBerth ∧ (s.thread l).ctx = i.ctx ∧
        inRing l (s.coreAt i.core).ring = false) → i.lanes ≠ [] → sortLanes i.lanes = i.lanes →
      ∃ t, exec .yield s = .next t ∧ OnlyThreads s t i.lanes ∧
        (∀ l ∈ i.lanes, t.thread l = { s.thread l with pc := i.pc + 4, yielded := true, alone := false }) ∧
        (t.coreAt i.core).ring = (s.coreAt i.core).ring ++ [{ ctx := i.ctx, pc := i.pc + 4, lanes := i.lanes, isOpen := false }])

/-- R94, R202, R257: when every counted thread of a group waits at a `rec`, those at the lowest address go on behind it and
the others keep waiting; when every counted thread waits at `bar`, all go on. Nothing else in the machine changes but the
picker's order and, at `bar`, the lines and the fetched code that the group's core drops by its notice, and what its reads under way may
fill. -/
def Clause.GroupReleases : Prop :=
  ∀ (s : State) (core berth : Nat), s.Unique → s.releasable core berth = true → s.counted core berth ≠ [] →
    ((∀ u ∈ s.counted core berth, u.wait = .atRec) →
      ∃ t, exec (.recRelease core berth) s = .next t ∧ t = { s with threads := t.threads, cores := t.cores } ∧
        ∀ l, t.thread l =
          if s.thread l ∈ s.counted core berth ∧ (∀ u ∈ s.counted core berth, (s.thread l).pc.toNat ≤ u.pc.toNat) then
            { s.thread l with pc := (s.thread l).pc + 4, wait := .ready, alone := false }
          else s.thread l) ∧
    ((∀ u ∈ s.counted core berth, u.wait = .atBar) →
      ∃ t, exec (.barRelease core berth) s = .next t ∧ t = { s with threads := t.threads, cores := t.cores, l1 := t.l1, code := t.code, pendings := t.pendings } ∧
        t.pendings.map (fun p => { p with stale := false }) = s.pendings.map (fun p => { p with stale := false }) ∧
        ∀ l, t.thread l = if s.thread l ∈ s.counted core berth then
          { s.thread l with pc := (s.thread l).pc + 4, wait := .ready, alone := false } else s.thread l)

/-- R96, R97, R211: on a thread core `brk` takes the breakpoint trap with its code as the fault address and the address
behind it as `sy.epc`; on a quay processor it stops the one thread, which will go on behind it, and adds one record with
the code. The GPA of that record is free (DESIGN CHOICE, log 20). -/
def Clause.Breakpoints : Prop :=
  (∀ s i (n : BitVec 7) l ls, Issued s i .thread [] → NoWindows s i → i.lanes = l :: ls → (∀ m ∈ i.lanes, m.berth = l.berth) →
    exec (.brk n) s = .next (s.picked.takeTrap i.core l.berth i.lanes 9 (n.setWidth 64) i.pc (i.pc + 4))) ∧
  ∀ s i (n : BitVec 7) l, s.issue = some i → i.quay = true → i.lanes = [l] → l = ⟨i.core, quayBerth, l.tid⟩ →
    ∃ t r, exec (.brk n) s = .next t ∧ t.thread l = { s.thread l with pc := i.pc + 4, wait := .faulted } ∧
      (∀ m, m ≠ l → t.thread m = s.thread m) ∧
      (t.vf (s.vfOf i.ctx)).fqWaiting = (s.vf (s.vfOf i.ctx)).fqWaiting ++ [r] ∧ r.src = 3 ∧ r.cause = 9 ∧
      r.ifa = i.pc ∧ r.info = n.setWidth 64 ∧ r.ctx = i.ctx ∧ r.qt = l.tid ∧ r.core = i.core

/-- R209 to R212: a trap of threads of a group publishes, parks them, and queues a trap task at `sy.tvec` whose registers
hold the cause, the fault address, the address of the instruction and the address to resume at; no other thread
changes. -/
def Clause.TrapEntry : Prop :=
  ∀ (s p q r : State) (core berth : Nat) (ids : List LaneId) (cause f : Nat) (fva ifa epc : Word) (g : Group) (c : Ctx) (k : Task)
    (bs : List Byte) (d : TaskDesc),
    s.group? core berth = some g → s.ctx? g.ctx = some c → s.task? g.ctx g.frame = some k → c.tvec ≠ 0 → k.trap = none →
    s.Unique → p = s.publish core g.ctx g.frame → p.unacked core g.ctx = false →
    p.peek core g.ctx (c.tvec - 8).toNat 8 .load = (.bytes bs, q) → taskDesc (ofBytes bs) = some d → d.pair = false →
    q.heapHolds c 1 (frameSize d.width d.nreg c.ss + 64) = true →
    (q.allocFrames c 1 (frameSize d.width d.nreg c.ss + 64)).1 = [f] →
    (q.allocFrames c 1 (frameSize d.width d.nreg c.ss + 64)).2.reserveFrame core g.ctx f d.width d.nreg
      (some (f + frameSize d.width d.nreg c.ss)) = .ok r →
    let t := s.takeTrap core berth ids cause fva ifa epc
    (∀ l ∈ ids, t.thread l = { s.thread l with wait := .trapped f }) ∧ (∀ l, l ∉ ids → t.thread l = s.thread l) ∧
    (g.ctx, f) ∈ t.waiting ∧ t.ctxs = s.ctxs ∧ t.groups = s.groups ∧
    ∃ u, t.task? g.ctx f = some u ∧ u.phase = .queued ∧ u.entry = c.tvec ∧ u.width = d.width ∧ u.nreg = d.nreg ∧
      u.prio = k.prio ∧ u.tix = 0 ∧ u.nkid = 1 ∧ u.arg = BitVec.ofNat 64 (f + frameSize d.width d.nreg c.ss) ∧
      u.trap = some { cause := cause, fva := fva, ifa := ifa, epc := epc, trec := f + frameSize d.width d.nreg c.ss,
                      parked := laneMask ids, core := core, berth := berth, frame := g.frame }

/-- R211: with `sy.tvec` zero, or a trap of a trap task, the context stops with a report of the cause, and its threads are
picked no more. -/
def Clause.TrapStopsContext : Prop :=
  ∀ (s : State) (core berth : Nat) (ids : List LaneId) (cause : Nat) (fva ifa epc : Word) (g : Group) (c : Ctx) (k : Task),
    s.group? core berth = some g → s.ctx? g.ctx = some c → s.task? g.ctx g.frame = some k →
    (c.tvec = 0 ∨ k.trap.isSome = true) → c.stopped = none → (s.publish core g.ctx g.frame).unacked core g.ctx = false →
    let t := s.takeTrap core berth ids cause fva ifa epc
    t.ctx? g.ctx = some { c with stopped := some { cause := cause, value := if cause = 9 then fva else 0 } } ∧
    (∀ l ∈ ids, ∃ f, (t.thread l).wait = .trapped f) ∧ ∀ n, ∀ e ∈ (t.coreAt n).ring, e.ctx ≠ g.ctx

/-- R214, R209, R257: `resume` lets the threads go on that its trap parked and its mask names, at `sy.epc`, with their
registers and windows, each for itself where that is the trapped instruction (R120); bits of the mask that name no parked thread
are ignored. One lane of a trap task, with nothing to
publish, and the trapped group in its berth. -/
def Clause.ResumeReturns : Prop :=
  ∀ (s u : State) i (a : Reg) (l : LaneId) (k : Task) (x : TrapInfo),
    Issued s i .thread [a] → i.lanes = [l] → s.laneTask? l = some k → k.trap = some x →
    u = s.picked.publishGroups i.core i.ctx i.lanes → u.unacked i.core i.ctx = false → (∀ y ∈ s.spilled, y.ctx ≠ k.ctx) →
    ∃ t, exec (.resume a) s = .next t ∧ t.thread l = (s.thread l).advance (i.pc + 4) [] ∧
      ∀ m, m ≠ l → t.thread m =
        if m ∈ s.parkedBy k.ctx x k.frame ∧ ((s.thread l).rd a).getLsbD m.tid = true then
          { (s.thread m).restartAt x.epc with wait := .ready, alone := decide (x.epc = x.ifa) }
        else s.thread m

/-- R38, R214: a thread restarts at the address given, and keeps its registers and windows. -/
def Clause.RestartAddress : Prop :=
  ∀ (u : Thread) (epc : Word), (u.restartAt epc).pc = epc ∧ (u.restartAt epc).windows = u.windows ∧
    (u.reissue = none → u.restartAt epc = { u with pc := epc }) ∧ (u.reissue ≠ none → epc = u.pc → u.restartAt epc = u)

/-- R214, R195: `eret` resumes everything that is still parked, and its thread ends: no lane of it is left running. -/
def Clause.EretEnds : Prop :=
  ∀ (s u : State) i (l m : LaneId) (k : Task) (x : TrapInfo), s.Unique → l.core = i.core →
    Issued s i .thread [] → i.lanes = [l] → s.laneTask? l = some k → k.trap = some x →
    u = s.picked.publishGroups i.core i.ctx i.lanes → u.unacked i.core i.ctx = false →
    m ≠ l → m.core = l.core → m.berth = l.berth → (s.thread m).wait ≠ .exited → s.thread m ∈ s.threads →
    (∀ b w, (s.thread b).wait = .atBarl w → b.core ≠ l.core ∨ b.berth ≠ l.berth) → l ∉ s.parkedBy k.ctx x k.frame →
    m ∉ s.parkedBy k.ctx x k.frame → (∀ y ∈ s.spilled, y.ctx ≠ k.ctx) →
    ∃ t, exec .eret s = .next t ∧ (t.thread l).wait = .exited ∧ (t.thread l).windows = [] ∧ t.thread m = s.thread m ∧
      ∀ n ∈ s.parkedBy k.ctx x k.frame, t.thread n = { (s.thread n).restartAt x.epc with wait := .ready, alone := decide (x.epc = x.ifa) }

/-- R214: `kill` ends the threads that its trap parked and its mask names: they are exited and have no windows. While
another thread of their group lives, nothing else of that group changes. -/
def Clause.KillEnds : Prop :=
  ∀ (s : State) i (a : Reg) (l m : LaneId) (k : Task) (x : TrapInfo), s.Unique →
    Issued s i .thread [a] → i.lanes = [l] → s.laneTask? l = some k → k.trap = some x →
    m.core = x.core → m.berth = x.berth → (s.thread m).wait = .ready → s.thread m ∈ s.threads →
    (l.core ≠ x.core ∨ l.berth ≠ x.berth) →
    (∀ b w, (s.thread b).wait = .atBarl w → b.core ≠ x.core ∨ b.berth ≠ x.berth) → (∀ y ∈ s.spilled, y.ctx ≠ k.ctx) →
    ∃ t, exec (.kill a) s = .next t ∧ t.thread l = (s.thread l).advance (i.pc + 4) [] ∧
      ∀ n, n ≠ l → t.thread n =
        if n ∈ s.parkedBy k.ctx x k.frame ∧ ((s.thread l).rd a).getLsbD n.tid = true then { s.thread n with wait := .exited, windows := [] }
        else s.thread n

/-! ### Special and system registers (spec/02, spec/10) -/

/-- R11, R17, R23, R207: every special register that `rds` reads, on thread cores and on quay processors. -/
def Clause.SpecialRegisters : Prop :=
  ∀ s i (d : Reg), Issued s i .both [d] →
    let reads (n : Reg) (v : Thread → Nat) : Prop := Writes s i (.rds d n 0) 4 d fun t => BitVec.ofNat 64 (v t)
    let q (t : Thread) : Bool := t.id.berth == quayBerth
    let task (t : Thread) (f : Task → Nat) : Nat := ((s.taskOf? t.id.core t.id.berth).map f).getD 0
    reads 0 (fun t => t.id.tid) ∧
    reads 1 (fun t => if q t then 4 else ((s.group? t.id.core t.id.berth).map (·.width)).getD 8) ∧
    reads 2 (fun t => if q t then 0 else task t (·.tix)) ∧ reads 3 (fun t => if q t then 0 else task t (·.nkid)) ∧
    reads 4 (fun t => t.id.core % 32) ∧ reads 5 (fun t => t.id.core % 32 / 4) ∧ reads 6 (fun t => t.id.core / 32) ∧
    reads 7 (fun _ => s.hm.pkgid) ∧ reads 8 (fun _ => s.hm.podid) ∧ reads 9 (fun t => s.vfOf t.ctx) ∧ reads 10 (fun t => t.ctx) ∧
    (∀ k : BitVec 4, OpensF s i (.rds d 11 k) 4 (fun l => l.berth == quayBerth) d k (fun _ => BitVec.ofNat 64 (s.tide.now / 65536))
      fun _ => 0) ∧
    ((∀ l ∈ i.lanes, l.berth = quayBerth ∨ s.matrixBusy l = false) →
      reads 12 (fun t => if q t then 0 else (s.coreAt t.id.core).split % 16 * 256 + t.flags.toNat * 4 + t.rm.toNat))

/-- R24, R99, R251: `wrs` of `tmode` writes the flags and the rounding mode; a carve field that names the core's own split
changes nothing else. -/
def Clause.WriteTmode : Prop :=
  ∀ s i (a : Reg), Issued s i .thread [a] → (∀ l ∈ i.lanes, s.matrixBusy l = false ∧
      bits ((s.thread l).rd a).toNat 11 8 = (s.coreAt l.core).split) →
    Goes s i (.wrs 12 a) (fun _ => i.pc + 4) fun t =>
      { t with flags := ((t.rd a).extractLsb' 2 5), rm := ((t.rd a).extractLsb' 0 2) }

/-- R26, R46, R213: the system registers as a task reads them that may. -/
def Clause.SystemRegisters : Prop :=
  ∀ s i (d n : Reg), n.toNat ≤ 7 → Issued s i .thread [d] →
    let priv (t : Thread) : Bool := ((s.ctx? t.ctx).map (·.priv)).getD false
    let trap (t : Thread) : Option TrapInfo := (s.taskOf? t.id.core t.id.berth).bind (·.trap)
    (∀ l ∈ i.lanes, n = 6 ∨ priv (s.thread l) = true ∨ (n.toNat < 6 ∧ (trap (s.thread l)).isSome = true)) →
    Writes s i (.rdsy d n) 4 d fun t =>
      if n = 0 then ((s.ctx? t.ctx).map (·.tvec)).getD 0
      else if n = 1 then (match trap t with
        | some x => x.epc
        | none => ((s.taskOf? t.id.core t.id.berth).map (·.privEpc)).getD 0)
      else if n = 2 then BitVec.ofNat 64 (((trap t).map (·.cause)).getD 0)
      else if n = 3 then ((trap t).map (·.fva)).getD 0
      else if n = 4 then ((trap t).map (·.ifa)).getD 0
      else if n = 5 then BitVec.ofNat 64 (((trap t).map (·.trec)).getD 0)
      else if n = 6 then BitVec.ofNat 64 ((if priv t then 1 else 0) + if (trap t).isSome then 2 else 0)
      else BitVec.ofNat 64 ((((s.ctx? t.ctx).bind (·.haltTarget)).bind fun x => (s.ctx? x).map (·.dbg)).getD 0)

/-- R26, R46, R213: `wrsy` writes `sy.tvec` in a privileged context, and `sy.epc` in a trap task as well; an `sy.epc` that is
no multiple of 4 traps. -/
def Clause.WriteSystemRegisters : Prop :=
  ∀ s i (a : Reg) l c k, Issued s i .thread [a] → i.lanes = [l] → s.ctx? (s.thread l).ctx = some c →
    s.taskOf? l.core l.berth = some k →
    let w := (s.thread l).rd a
    let u := (s.thread l).advance (i.pc + 4) []
    (c.priv = true → ∃ t, exec (.wrsy 0 a) s = .next t ∧ t.thread l = u ∧ t.ctx? c.id = some { c with tvec := w } ∧
      t = { s with issue := none, threads := t.threads, cores := t.cores, ctxs := t.ctxs } ∧
      ∀ x, x ≠ c.id → t.ctx? x = s.ctx? x) ∧
    ((c.priv = true ∨ k.trap.isSome = true) → w % 4 = 0 → ∃ t, exec (.wrsy 1 a) s = .next t ∧ t.thread l = u ∧
      t = { s with issue := none, threads := t.threads, cores := t.cores, tasks := t.tasks } ∧
      t.task? k.ctx k.frame = some (match k.trap with
        | some x => { k with trap := some { x with epc := w } }
        | none => { k with privEpc := w })) ∧
    ((c.priv = true ∨ k.trap.isSome = true) → w % 4 ≠ 0 →
      exec (.wrsy 1 a) s = .next (s.picked.takeTrap i.core l.berth [l] 2 w i.pc i.pc))

/-- R46: in a task that is neither of a privileged context nor a trap task, the instructions of a trap task, `wrsy`, `tlbi`
and `halt`, and `rdsy` of anything but `sy.priv`, raise the illegal-instruction trap and do nothing else. The fault address
is free (DESIGN CHOICE, log 5). -/
def Clause.PrivilegeTraps : Prop :=
  ∀ s i l (x a b n : Reg), Issued s i .thread [] → i.lanes = [l] → l.core = i.core →
    ((s.ctx? (s.thread l).ctx).map (·.priv)).getD false = false →
    ((s.taskOf? l.core l.berth).bind (·.trap)) = none → n.toNat ≤ 7 → NoWindows s i →
    ∀ ins, (ins = .resume a ∨ ins = .eret ∨ ins = .kill a ∨ ins = .wrsy n a ∨ ins = .tlbi x a b ∨ ins = .halt a b ∨
        (n ≠ 6 ∧ ins = .rdsy x n)) →
      ∃ fva, exec ins s = .next (({ s with issue := none, freeCount := s.freeCount + 1 } : State).takeTrap
        i.core l.berth [l] 1 fva i.pc i.pc)

/-- R215, R272: `tlbi` removes from every TLB the translations that were made through a stage-1 entry which covers the address, of
the context, through a stage-2 entry which covers the guest address, or of the VF, and no others, and every L1 line of the whole
1 GiB region around the address (which holds the pages of R272; DEDUCED, log 56), of the context or of the VF; with no access or copy of that scope in flight it completes. -/
def Clause.TlbInvalidate : Prop :=
  ∀ s i l (x a b : Reg), Issued s i .thread [x, a, b] → i.lanes = [l] →
    ((s.ctx? (s.thread l).ctx).map (·.priv)).getD false = true → ((s.thread l).rd x).toNat ≤ 3 →
    (s.picked.shootNow ((s.thread l).rd x).toNat ((s.thread l).rd a).toNat ((s.thread l).rd b).toNat).shootCopies
      ((s.thread l).rd x).toNat ((s.thread l).rd b).toNat = [] →
    (s.picked.shootNow ((s.thread l).rd x).toNat ((s.thread l).rd a).toNat ((s.thread l).rd b).toNat).shootPends
      ((s.thread l).rd x).toNat ((s.thread l).rd b).toNat = [] →
    ∃ t, exec (.tlbi x a b) s = .next t ∧ t.thread l = (s.thread l).advance (i.pc + 4) [] ∧
      (∀ e, e ∈ t.tlb ↔ e ∈ s.tlb ∧ ¬ (match ((s.thread l).rd x).toNat with
        | 0 => e.ctx = ((s.thread l).rd b).toNat ∧ ((s.thread l).rd a).toNat / e.s1 = e.base / e.s1
        | 1 => e.ctx = ((s.thread l).rd b).toNat
        | 2 => e.vf = ((s.thread l).rd b).toNat % 1024 ∧ ((s.thread l).rd a).toNat / e.s2 = e.gpa / e.s2
        | _ => e.vf = ((s.thread l).rd b).toNat % 1024)) ∧
      ∀ e ∈ t.l1, ¬ (match ((s.thread l).rd x).toNat with
        | 0 => e.ctx = ((s.thread l).rd b).toNat ∧ e.line * 128 / 2 ^ 30 = ((s.thread l).rd a).toNat / 2 ^ 30
        | 1 => e.ctx = ((s.thread l).rd b).toNat
        | 2 => e.vf = ((s.thread l).rd b).toNat % 1024 ∧ e.gpa / 2 ^ 30 = ((s.thread l).rd a).toNat / 2 ^ 30
        | _ => e.vf = ((s.thread l).rd b).toNat % 1024)

/-- R216: `halt` of a context of the caller's partition begins a debugger halt of it, or ends one; `sy.halt` then tells of
that context; an identifier of no such context leaves every other context alone. One lane of a privileged context. -/
def Clause.DebuggerHalts : Prop :=
  ∀ s i l (a b : Reg) c, Issued s i .thread [a, b] → i.lanes = [l] → s.ctx? (s.thread l).ctx = some c → c.priv = true →
    (∀ y, s.ctx? ((s.thread l).rd a).toNat = some y → y.id ≠ c.id → s.partOf y.id = s.partOf c.id →
      ((s.thread l).rd b = 0 → ∃ t, exec (.halt a b) s = .next t ∧ t.thread l = (s.thread l).advance (i.pc + 4) [] ∧
        t.ctx? y.id = some { y with dbg := if y.dbg = 0 then 1 else y.dbg } ∧ t.ctx? c.id = some { c with haltTarget := some y.id } ∧
        ∀ n, ∀ e ∈ (t.coreAt n).ring, e.ctx ≠ y.id) ∧
      ((s.thread l).rd b = 1 → ∃ t, exec (.halt a b) s = .next t ∧ t.thread l = (s.thread l).advance (i.pc + 4) [] ∧
        t.ctx? y.id = some { y with dbg := 0 } ∧ t.ctx? c.id = some { c with haltTarget := none })) ∧
    (s.ctx? ((s.thread l).rd a).toNat = none → ((s.thread l).rd b).toNat ≤ 1 →
      ∃ t, exec (.halt a b) s = .next t ∧ t.thread l = (s.thread l).advance (i.pc + 4) [] ∧
        ∀ x, x ≠ c.id → t.ctx? x = s.ctx? x)

/-! ### Groups and tasks (spec/10, spec/11) -/

/-- R205, R206: elections, votes, shuffles and reductions among the lanes of one group, all operands read before any result
is written. The lanes stand in lane order (R119). -/
def Obligations.GroupOperations : Prop :=
  (∀ d a b, IsCode [wordT 0x4c d 0 0 0] (.elect d) ∧ IsCode [wordT 0x4c d a 0 1] (.voteCnt d a) ∧
    IsCode [wordT 0x4c d a 0 2] (.voteRank d a) ∧ IsCode [wordT 0x4c d a 0 3] (.voteEq d a) ∧
    IsCode [wordT 0x4c d a b 4] (.shflFrom d a b) ∧ IsCode [wordT 0x4c d a b 5] (.shflRot d a b) ∧
    IsCode [wordT 0x4c d a b 6] (.shflMirror d a b) ∧ IsCode [wordT 0x4c d a b 7] (.shflLead d a b) ∧
    IsNoCode [wordT 0x4d d a 0 8]) ∧
  (∀ d a, ∀ p ∈ [((0 : BitVec 4), AtomOp.add), (1, .smin), (2, .smax), (3, .umin), (4, .umax), (5, .and), (6, .or), (7, .xor),
    (9, .fadd), (10, .fmax), (11, .famax)], IsCode [wordT 0x4d d a 0 p.1] (.gred p.2 d a)) ∧
  ∀ s i (d a b : Reg), Issued s i .thread [d, a, b] → i.lanes.Pairwise (fun x y => laneLe x y = true) →
    (∀ l ∈ i.lanes, l.core = i.core) →
    let ps (t : Thread) : List Thread := (i.lanes.filter fun m => m.berth == t.id.berth).map s.thread
    let held (t : Thread) (n : Nat) : Word :=
      if ⟨t.id.core, t.id.berth, n⟩ ∈ i.lanes then (s.thread ⟨t.id.core, t.id.berth, n⟩).rd a else t.rd a
    let gwd (t : Thread) : Nat := ((s.group? t.id.core t.id.berth).map (·.width)).getD 8
    let m (t : Thread) : Nat := Nat.min (2 ^ ((t.rd b).extractLsb' 0 3).toNat) (gwd t)
    let start (t : Thread) : Nat := t.id.tid - t.id.tid % m t
    let num (w : Word → Word → Bool) (t : Thread) : Word := (ps t).foldl (fun x u => if w (u.rd a) x then u.rd a else x) (t.rd a)
    Writes s i (.elect d) 4 d (fun t => if ∀ x ∈ i.lanes, x.berth = t.id.berth → t.id.tid ≤ x.tid then 1 else 0) ∧
    Writes s i (.voteCnt d a) 4 d (fun t => BitVec.ofNat 64 ((ps t).filter fun u => decide (u.rd a ≠ 0)).length) ∧
    Writes s i (.voteRank d a) 4 d (fun t =>
      BitVec.ofNat 64 ((ps t).filter fun u => decide (u.id.tid < t.id.tid ∧ u.rd a ≠ 0)).length) ∧
    Writes s i (.voteEq d a) 4 d (fun t => if ∀ u ∈ ps t, u.rd a = t.rd a then 1 else 0) ∧
    Writes s i (.shflFrom d a b) 4 d (fun t => held t ((t.rd b).toNat % gwd t)) ∧
    Writes s i (.shflRot d a b) 4 d (fun t => held t ((t.id.tid + (t.rd b).toNat) % gwd t)) ∧
    Writes s i (.shflMirror d a b) 4 d (fun t => held t (2 * start t + m t - 1 - t.id.tid)) ∧
    Writes s i (.shflLead d a b) 4 d (fun t =>
      ((((List.range (m t)).map (start t + ·)).find? fun n => decide (⟨t.id.core, t.id.berth, n⟩ ∈ i.lanes)).map (held t)).getD
        (t.rd a)) ∧
    Writes s i (.gred .add d a) 4 d (fun t => (ps t).foldl (fun x u => x + u.rd a) 0) ∧
    Writes s i (.gred .and d a) 4 d (fun t => (ps t).foldl (fun x u => x &&& u.rd a) (BitVec.allOnes 64)) ∧
    Writes s i (.gred .or d a) 4 d (fun t => (ps t).foldl (fun x u => x ||| u.rd a) 0) ∧
    Writes s i (.gred .xor d a) 4 d (fun t => (ps t).foldl (fun x u => x ^^^ u.rd a) 0) ∧
    Writes s i (.gred .smin d a) 4 d (num fun x y => x.slt y) ∧ Writes s i (.gred .smax d a) 4 d (num fun x y => y.slt x) ∧
    Writes s i (.gred .umin d a) 4 d (num fun x y => x.ult y) ∧ Writes s i (.gred .umax d a) 4 d (num fun x y => y.ult x) ∧
    Writes s i (.gred .fadd d a) 4 d (fun t =>
      BitVec.ofNat 64 (roundFmt (sumExt rne ((ps t).map fun u => rdF .d (u.rd a))).1 fp64 rne false).1) ∧
    Writes s i (.gred .fmax d a) 4 d (fun t =>
      BitVec.ofNat 64 ((ps t).foldl (fun x u => (maxNum fp64 x (u.rd a).toNat).1) fp64.canonNan)) ∧
    Writes s i (.gred .famax d a) 4 d (fun t => BitVec.ofNat 64 ((ps t).foldl (fun x u => atomApply .famax 64 x (u.rd a).toNat) 0))

/-- R190, R192, R194: a spawn whose checks pass raises its task's pending count by n and leaves n children waiting in the
dispatcher, each on a frame of its own with the fields that the spawn gives it. Of a spawn whose children all stay on the
package. -/
def Obligations.SpawnMakesChildren : Prop :=
  ∀ (s p q r : State) i (pl : Place) (e n g : Reg) (l : LaneId) (gr : Group) (c : Ctx) (k : Task) (bs : List Byte) (d : TaskDesc),
    Issued s i .thread [e, n, g] → NoWindows s i → i.lanes = [l] → (pl = .pod → s.gidOf i.ctx = 0) →
    s.group? i.core l.berth = some gr → gr.ctx = i.ctx → s.ctx? i.ctx = some c → s.task? i.ctx gr.frame = some k → s.Unique →
    let w := s.thread l
    let m := (w.rd n).toNat
    (w.rd e).toNat % 8 = 0 → m < 2 ^ 24 → k.pending + m < 2 ^ 32 →
    s.picked.peek i.core i.ctx (w.rd e - 8).toNat 8 .load = (.bytes bs, q) → taskDesc (ofBytes bs) = some d →
    let size := frameSize d.width d.nreg c.ss
    let fs := (q.allocFrames c m size).1
    q.heapHolds c m size = true → fs.Nodup → (∀ f ∈ fs, s.task? i.ctx f = none) →
    (q.allocFrames c m size).2.reserveFrames i.core i.ctx d.width d.nreg fs = .ok r →
    p = r.publish i.core i.ctx gr.frame → p.unacked i.core i.ctx = false →
    ∃ t, exec (.spawn pl e n g) s = .next t ∧ t.thread l = w.advance (i.pc + 4) [] ∧ (∀ x, x ≠ l → t.thread x = s.thread x) ∧
      t.groups = s.groups ∧ t.ctxs = s.ctxs ∧ (t.task? i.ctx gr.frame).map (·.pending) = some (k.pending + m) ∧ fs.length = m ∧
      ∀ j f, fs[j]? = some f → (i.ctx, f) ∈ t.waiting ∧ ∃ u, t.task? i.ctx f = some u ∧
        u.phase = .queued ∧ u.place = pl ∧ u.width = d.width ∧ u.nreg = d.nreg ∧ u.pair = d.pair ∧ u.entry = w.rd e ∧
        u.arg = w.rd g ∧ u.tix = j ∧ u.nkid = m ∧ u.parent = gr.frame ∧ u.pending = 0 ∧ u.prio = k.prio ∧ u.rm = w.rm

/-- R222: frames are whole granules inside the heap and never overlap: neither each other nor a frame that is allocated. -/
def Obligations.FramesNeverOverlap : Prop :=
  ∀ (s : State) (c : Ctx) (n size : Nat), 0 < size → s.heapHolds c n size = true →
    (∀ t ∈ s.tasks, t.ctx = c.id → t.frame / 256 + t.granules ≤ (c.hbase.toNat + c.hsize.toNat) / 256) →
    let fs := (s.allocFrames c n size).1
    let g := granulesOf size
    fs.length = n ∧ fs.Pairwise (fun x y => x / 256 + g ≤ y / 256 ∨ y / 256 + g ≤ x / 256) ∧
    ∀ f ∈ fs, f % 256 = 0 ∧ c.hbase.toNat / 256 ≤ f / 256 ∧ f / 256 + g ≤ (c.hbase.toNat + c.hsize.toNat) / 256 ∧
      ∀ t ∈ s.tasks, t.ctx = c.id → f / 256 + g ≤ t.frame / 256 ∨ t.frame / 256 + t.granules ≤ f / 256

/-- R195, R196, R220: `exit`, `await` and `waitge` end their thread, which has no window from then on; the first to end with
a continuation or a successor fixes it for its task. While another thread of the group lives, no other thread changes. That a `waitge`
waits on the unit that its GPA names is the model's reading (DEDUCED, log 43). -/
def Clause.ThreadsEnd : Prop :=
  ∀ (s : State) i (m v c : Reg) (l o : LaneId) (k : Task), s.Unique →
    Issued s i .thread [m, v, c] → NoWindows s i → i.lanes = [l] → l.core = i.core → s.taskOf? l.core l.berth = some k →
    k.phase = .running l.core l.berth → o ≠ l → o.core = l.core → o.berth = l.berth → (s.thread o).wait ≠ .exited → s.thread o ∈ s.threads →
    (∀ b w, (s.thread b).wait = .atBarl w → b.core ≠ l.core ∨ b.berth ≠ l.berth) →
    let w := s.thread l
    let ends (ins : Instr) (f : Task → Prop) : Prop :=
      ∃ t u, exec ins s = .next t ∧ t.thread l = { w with wait := .exited, windows := [] } ∧
        (∀ x, x ≠ l → t.thread x = s.thread x) ∧ t.groups = s.groups ∧ t.ctxs = s.ctxs ∧ t.task? k.ctx k.frame = some u ∧ f u
    ends (.exit 0) (fun u => u.agreed = k.agreed) ∧
    (k.agreed = none → c ≠ 0 → w.rd c % 4 = 0 →
      ends (.exit c) fun u => u.agreed = some { kind := 3, cont := w.rd c, wb := w.wb, wt := l.tid }) ∧
    (k.agreed = none → s.matrixBusy l = false → w.rd c % 4 = 0 →
      ends (.await c) fun u => u.agreed = some { kind := 1, cont := w.rd c, wb := w.wb, wt := l.tid } ∧ l.tid ∈ u.saved) ∧
    (∀ tr q a, k.agreed = none → s.matrixBusy l = false → w.rd c % 4 = 0 → (w.rd m).toNat % 8 = 0 →
      s.picked.translate l.core w.ctx (w.rd m).toNat .load = (.ok tr, q) → tr.target = .device a →
      ends (.waitge m v c) fun u => l.tid ∈ u.saved ∧ u.waitAt.map (·.2) = some tr.key ∧ u.waitGpa = tr.gpa ∧
        u.agreed = some { kind := 2, addr := w.rd m, value := w.rd v, cont := w.rd c, wb := w.wb, wt := l.tid,
                          wm := m.toNat, wv := v.toNat })

/-- R195, R198, R199, R218: with its last thread a task ends and gives back its berth and its threads. Without a
continuation it waits for its children; with `await` it waits for them too, and its continuation goes to the dispatcher
when there are none. -/
def Clause.TasksEnd : Prop :=
  ∀ (s : State) i (c : Reg) (l : LaneId) (k : Task), s.Unique →
    Issued s i .thread [c] → NoWindows s i → i.lanes = [l] → l.core = i.core → s.taskOf? l.core l.berth = some k →
    s.thread l ∈ s.threads → (∀ o, o ≠ l → o.core = l.core → o.berth = l.berth → (s.thread o).wait = .exited) →
    k.agreed = none → k.trap = none → k.waitAt = none →
    let gone (t : State) : Prop :=
      t.group? l.core l.berth = none ∧ (∀ u ∈ t.threads, ¬(u.id.core = l.core ∧ u.id.berth = l.berth)) ∧
      ∀ x, (x.core ≠ l.core ∨ x.berth ≠ l.berth) → t.thread x = s.thread x
    (∃ t, exec (.exit 0) s = .next t ∧ gone t ∧ (t.task? k.ctx k.frame).map (·.phase) = some .ending) ∧
    (s.matrixBusy l = false → (s.thread l).rd c % 4 = 0 → ∃ t, exec (.await c) s = .next t ∧ gone t ∧
      (t.task? k.ctx k.frame).map (·.phase) = some (if k.pending = 0 then .queuedCont else .waiting) ∧
      (k.pending = 0 → (k.ctx, k.frame) ∈ t.waiting))

/-- R200, R194, R219, R227, R255: when a task ends whose threads have named a successor with a proper descriptor, every thread of
its width starts afresh at the successor, in the same berth and on the same frame, with the rounding mode that it ended with;
while writes of the context are not acknowledged the successor is pending, and its frame says so. -/
def Clause.SuccessorStarts : Prop :=
  ∀ (s q : State) (core berth : Nat) (last : Option (LaneId × Word)) (g : Group) (k : Task) (a : Agreed) (d : TaskDesc),
    s.group? core berth = some g → s.task? g.ctx g.frame = some k → k.agreed = some a → a.kind = 3 →
    k.ctx = g.ctx → k.frame = g.frame → s.Unique → s.successorDesc core k a.cont = (.suits d, q) →
    let t := s.endTask core berth last
    ((q.endEdge core berth k).unacked core g.ctx = false →
      (t.group? core berth).map (·.nreg) = some d.nreg ∧
      ∀ j, j < k.width → t.thread ⟨core, berth, j⟩ =
        { startThread { k with entry := a.cont, nreg := d.nreg } core berth (((s.ctx? k.ctx).map (·.ss)).getD 0) j with
          rm := ((k.endRm.find? fun p => p.1 == j).map (·.2)).getD 0 }) ∧
    ((q.endEdge core berth k).unacked core g.ctx = true →
      (t.task? g.ctx g.frame).map (·.kind) = some 3 ∧ ∀ l, t.thread l = s.thread l)

/-- R201, R126, R240, R295: `signal` publishes its task's lines and then writes the value as a doubleword at its home. A stamp
that the home takes lets the lane go on, and one that it performs leaves those eight bytes there; where its growth request is
refused the lane parks. One lane whose store checks pass (R120). -/
def Obligations.SignalWritesStamp : Prop :=
  ∀ (s q p : State) i (a v : Reg) l tr (x : Nat), Issued s i .thread [a, v] → NoWindows s i → i.lanes = [l] → l.core = i.core →
    s.picked.check l ((s.thread l).rd a) 8 .store true = (.ok tr, q) → tr.target = .device x → x % 8 = 0 →
    p = q.publishGroups i.core i.ctx [l] → p.unacked i.core i.ctx = false →
    let th := s.thread l
    let w := ((p.sendAhead l.core th.ctx (th.rd a).toNat).writeAt
      { vf := tr.vf, gpa := tr.gpa, key := tr.key, ce := tr.ce,
        kind := .signal th.ctx (((p.taskOf? l.core l.berth).map (·.notice)).getD {}) }
      x (withAddrs x (toBytes (th.rd v).toNat 8))).1
    ∃ t, exec (.signal a v) s = .next t ∧ (∀ m, m ≠ l → t.thread m = s.thread m) ∧ t.groups = s.groups ∧ t.ctxs = s.ctxs ∧
      (w ≠ .refused → t.thread l = th.advance (i.pc + 4) []) ∧ (w = .refused → (t.thread l).wait = .faulted ∧ (t.thread l).pc = th.pc) ∧
      (w = .done → t.homeBytes tr.key x 8 = toBytes (th.rd v).toNat 8)

/-- R203, R204: `barreg` registers its group with the barrier that x[a] names; `barl` waits, and when every counted thread
of the group waits with the same word the group has arrived. -/
def Clause.LevelBarriers : Prop :=
  ∀ s i (a : Reg) l, s.Unique → Issued s i .thread [a] → i.lanes = [l] → l.core = i.core →
    (s.group? l.core l.berth).map (·.ctx) = some i.ctx → (s.thread l).ctx = i.ctx → s.barLegal i.ctx ((s.thread l).rd a) = true →
    let w := (s.thread l).rd a
    (∃ t, exec (.barreg a) s = .next t ∧ t.thread l = (s.thread l).advance (i.pc + 4) [] ∧
      (l.core, l.berth) ∈ (t.barrier i.core i.ctx w).registered ∧ t = { s.picked with
        threads := t.threads, cores := t.cores, barriers := t.barriers, out := t.out, links := t.links, heldPackets := t.heldPackets }) ∧
    (NoWindows s i → (l.core, l.berth) ∈ (s.barrier i.core i.ctx w).registered →
      (s.picked.publishGroups i.core i.ctx [l]).unacked i.core i.ctx = false →
      ((∃ o ∈ s.threads, o.id ≠ l ∧ o.id.core = l.core ∧ o.id.berth = l.berth ∧ o.wait ≠ .exited ∧ ∀ y, o.wait ≠ .atBarl y) →
        ∃ t, exec (.barl a) s = .next t ∧ t.thread l = { s.thread l with wait := .atBarl w } ∧
          ∀ m, m ≠ l → t.thread m = s.thread m) ∧
      ((∀ o ∈ s.threads, o.id ≠ l → o.id.core = l.core → o.id.berth = l.berth → o.wait = .exited ∨ o.wait = .atBarl w) →
        ∃ t, exec (.barl a) s = .next t ∧ t.thread l = { s.thread l with wait := .atBarl w } ∧
          (l.core, l.berth) ∈ (t.barrier i.core i.ctx w).arrived ∧ ∀ m, m ≠ l → t.thread m = s.thread m))

/-- R204, R257: when every registered group has arrived, the generation ends: the threads of the groups that took part go
on behind their `barl`, and every other thread stays as it is. With no group spilled. -/
def Clause.BarrierReleases : Prop :=
  ∀ (s : State) (level inst ctx slot : Nat) (b : Barrier), s.Unique → s.spilled = [] →
    s.barriers.find? (isBarrier level inst ctx slot) = some b → b.complete = true →
    ∃ t, exec (.barrierGenerationRelease level inst ctx slot) s = .next t ∧
      t.barriers.find? (isBarrier level inst ctx slot) =
        some { b with arrived := [], generation := b.generation + 1, pods := b.pods.map fun p => (p.1, 0, p.2.2), podNotice := {} } ∧
      ∀ u ∈ s.threads,
        ((∀ w, u.wait ≠ .atBarl w) → t.thread u.id = u) ∧
        ((u.id.core, u.id.berth) ∉ b.arrived → t.thread u.id = u) ∧
        ∀ w g, u.wait = .atBarl w → (u.id.core, u.id.berth) ∈ b.arrived → s.group? u.id.core u.id.berth = some g → g.ctx = b.ctx →
          u.ctx = b.ctx → t.thread u.id = { u with pc := u.pc + 4, wait := .ready, alone := false }

/-- R199, R198, R320: a task that has ended completes when no child is pending: its frame is freed, and its parent counts
one child fewer, which can release the parent's `await`; the last root of a launch completes the launch. Of a task whose last
publication is acknowledged, and of a completion write that waits for no page of the host. -/
def Clause.TaskCompletes : Prop :=
  ∀ (s : State) (ctx frame : Nat) (k : Task), s.Unique → s.task? ctx frame = some k → s.complete? k = true → k.parentPkg = 0 →
    (s.finishEdge k).2.unacked k.origin ctx = false →
    ∃ t, exec (.taskComplete ctx frame) s = .next t ∧ t.task? ctx frame = none ∧ t.threads = s.threads ∧ t.groups = s.groups ∧
      (∀ p, k.parent ≠ 0 → k.parent ≠ frame → s.task? ctx k.parent = some p → p.waitAt = none →
        ∃ u, t.task? ctx k.parent = some u ∧ u.pending = p.pending - 1 ∧ u.notice = p.notice.merge (s.finishEdge k).1.notice ∧
          (p.phase = .waiting → p.agreed.map (·.kind) = some 1 → p.pending = 1 →
            u.phase = .queuedCont ∧ (ctx, k.parent) ∈ t.waiting)) ∧
      ∀ id x, k.parent = 0 → (s.hostMissing = [] ∨ x.cpla = 0) → k.launch = some id → s.launches.find? (fun l => l.id == id) = some x → x.remaining = 1 →
        (t.queue x.queue).cpl = (s.queue x.queue).cpl + 1 ∧ ∀ y ∈ t.launches, y.id ≠ id

/-- R217, R218, R223, R194, R19: the dispatcher starts a waiting task in a free berth of a core with room: its group, its
threads with the registers that a start gives them, its frame's phase; the VF is the core's tenant. -/
def Clause.PlacementStarts : Prop :=
  ∀ (s : State) (ctx frame core : Nat) (k : Task), s.Unique → s.spilled = [] → s.task? ctx frame = some k → k.phase = .queued →
    s.chosen k core = true → s.tenantOk core (s.vfOf ctx) = true → s.room core k.width k.nreg = true →
    ∃ t b, exec (.taskPlacement ctx frame core) s = .next t ∧ b < 32 ∧ s.group? core b = none ∧
      t.group? core b = some { core := core, berth := b, ctx := ctx, frame := frame, width := k.width, nreg := k.nreg, pair := k.pair } ∧
      (t.task? ctx frame).map (·.phase) = some (.running core b) ∧ (ctx, frame) ∉ t.waiting ∧
      (t.coreAt core).tenant = some (s.vfOf ctx) ∧
      ∀ j, j < k.width → t.thread ⟨core, b, j⟩ = startThread k core b (((s.ctx? ctx).map (·.ss)).getD 0) j ∧
        (t.thread ⟨core, b, j⟩).pc = k.entry ∧ (t.thread ⟨core, b, j⟩).rd 3 = BitVec.ofNat 64 frame ∧
        (t.thread ⟨core, b, j⟩).rd 4 = k.arg ∧ (t.thread ⟨core, b, j⟩).rd 5 = BitVec.ofNat 64 k.tix ∧
        (t.thread ⟨core, b, j⟩).rd 6 = BitVec.ofNat 64 k.nkid ∧ (t.thread ⟨core, b, j⟩).rd 7 = BitVec.ofNat 64 j

/-- R322, R323: at the end of a slice every running group of the core halts in place and the next VF is its tenant, whose
own groups run on. On a core of another VF or of none, whose groups, halted ones too, are within the limits of R217: no berth is claimed (R324). -/
def Clause.SliceEndHalts : Prop :=
  ∀ (s : State) (core vf : Nat), s.Unique → s.spilled = [] → s.sliceEnds core vf = true → (s.coreAt core).tenant ≠ some vf →
    (s.coreAt core).splitTake = none →
    fits217 (sizeOf3 (s.groups.filter fun g => g.core == core)) = true →
    ∃ t, exec (.sliceEnd core vf) s = .next t ∧ (t.coreAt core).tenant = some vf ∧ (t.coreAt core).sliceStart = s.tlNow ∧
      t.threads = s.threads ∧ t.tasks = s.tasks ∧
      (∀ g ∈ t.groups, g.core = core → (g.halted = true ↔ ¬(s.vfOf g.ctx = vf ∧ s.gangIn g.ctx = true))) ∧
      ∀ c, c ≠ core → (t.coreAt c) = s.coreAt c

/-- R229, R166: the picker takes the oldest entry of the core's ring, but first the lanes of a `signal` of a halted group that waited for
its publication alone (R323, R368); the quay processor the first ready thread in its
circle; the instruction at its address issues for those lanes. -/
def Clause.PickersPick : Prop :=
  (∀ (s : State) (core : Nat) (u : Thread), s.issue = none → s.lateSignal core = some u →
    ∃ t, exec (.pick core) s = .next t ∧ t = { s with issue := t.issue, threads := t.threads } ∧
      (∀ l, t.thread l = if l ∈ s.signalLanes u then { s.thread l with wait := .ready } else s.thread l) ∧
      t.issue = some { core := core, quay := false, ctx := u.ctx, pc := u.pc, lanes := sortLanes (s.signalLanes u) }) ∧
  (∀ (s : State) (core : Nat) (e : RingEntry) r, s.issue = none → s.lateSignal core = none → (s.coreAt core).ring = e :: r →
    ∃ t, exec (.pick core) s = .next t ∧ t = { s with issue := t.issue, cores := t.cores, threads := t.threads } ∧
      (t.coreAt core).ring = r ∧ (∀ l, t.thread l = s.thread l ∨ l ∈ e.lanes ∧ t.thread l = { s.thread l with yielded := false }) ∧
      t.issue = some { core := core, quay := false, ctx := e.ctx, pc := e.pc, lanes := sortLanes e.lanes } ∧
      ∀ c, c ≠ core → t.coreAt c = s.coreAt c) ∧
  ∀ (s : State) (core k : Nat), s.issue = none → k < 4 →
    let at_ (j : Nat) : LaneId := ⟨core, quayBerth, ((s.coreAt core).qrr + j) % 4⟩
    s.quayReady core (s.thread (at_ k)) = true → (∀ j, j < k → s.quayReady core (s.thread (at_ j)) = false) →
    ∃ t, exec (.quayThreadPick core) s = .next t ∧ t = { s with issue := t.issue, cores := t.cores } ∧
      (t.coreAt core).qrr = ((at_ k).tid + 1) % 4 ∧
      t.issue = some { core := core, quay := true, ctx := (s.thread (at_ k)).ctx, pc := (s.thread (at_ k)).pc, lanes := [at_ k] }

/-- R37, R140, R252, R380: an answer of the host fills the window that waits for it with the bytes of host memory, extended as the
load says, or with an uncorrectable data error; the line that a plain load fetched stands in the L1 then, its dirty bytes as they
were and the host's elsewhere. An `ld.d.ext` leaves no line. -/
def Clause.ResultArrives : Prop :=
  ∀ (s : State) (tag : Nat) (p : Pending) (l : LaneId) (ws vs : List Window) (x : Window), s.thread l ∈ s.threads →
    s.pendings.find? (fun q => q.ttag == tag && s.answerable q) = some p → p.lane = some l → p.packet.kind = 0 → p.own = 0 →
    (s.thread l).ctx = p.ctx → (s.thread l).wait ≠ .held → (s.thread l).windows = ws ++ x :: vs →
    x.tag = 2 * p.ttag + 1 → x.arrival = .waiting → (∀ w ∈ ws, w.tag ≠ 2 * p.ttag + 1) →
    let filled (a : Arrival) : Thread := { s.thread l with windows := ws ++ { x with arrival := a } :: vs }
    let base := p.packet.gpa / 128 * 128
    let line := s.line? p.core p.ctx (p.fva.toNat / 128)
    (s.hostBad p.packet.gpa p.bytes = false →
      (line.isSome = true ∨ (s.l1.filter fun y => y.core == p.core).length < l1Lines (s.coreAt p.core).split) →
      ∃ t, exec (.longLatencyResult tag true) s = .next t ∧
        t = { s with pendings := s.pendings.erase p, threads := t.threads, l1 := t.l1 } ∧ (∀ m, m ≠ l → t.thread m = s.thread m) ∧
        t.thread l = filled (.value (extendTo p.signed p.bytes (ofBytes (readMap 0 s.hostMem p.packet.gpa p.bytes)))) ∧
        ((p.ordered = true ∨ s.hostBad base 128 = true) → t.l1 = s.l1) ∧
        (p.ordered = false → s.hostBad base 128 = false → ∃ m, t.line? p.core p.ctx (p.fva.toNat / 128) = some m ∧
          m.valid = BitVec.allOnes 128 ∧ m.home = .host base ∧ m.dirty = (line.map (·.dirty)).getD 0 ∧
          ∀ j, j < 128 → lineByte m.data j = if m.dirty.getLsbD j then (line.map fun y => lineByte y.data j).getD 0
            else SMap.get 0 s.hostMem (base + j))) ∧
    ∃ t, exec (.longLatencyResult tag false) s = .next t ∧ t = { s with pendings := s.pendings.erase p, threads := t.threads } ∧
      (∀ m, m ≠ l → t.thread m = s.thread m) ∧ t.thread l = filled (.error 18 1 (BitVec.ofNat 64 p.agpa))

/-- R324, R325, R327: a buffer of a core that a context claims is zero where it has spilled none from there, and else holds what stands
at its place in the spill slot; what another context had in it is spilled, to its slot and for its return. A halted group that
loses its berth is kept with its threads, or its context is torn down where the spill does not translate. An image whose core has
left the partition becomes that of the core that adopts it, with the lanes that it names. -/
def Clause.SpilledRows : Prop :=
  (∀ (s : State) core ctx,
    let k := s.coreAt core
    let x := s.spillOf core ctx
    let base := s.slotBase core ctx
    let rows (t : State) (j : Core) : Prop := (t.coreAt core) = j ∧ t.threads = s.threads ∧ t.groups = s.groups ∧ t.tasks = s.tasks
    (k.rowA = some ctx → s.claimA core ctx = s) ∧ (k.rowW = some ctx → s.claimW core ctx = s) ∧ (k.rowC = some ctx → s.claimC core ctx = s) ∧
    (k.rowA = none → x.a = none → rows (s.claimA core ctx) { k with rowA := some ctx, abuf := [] }) ∧
    (k.rowW = none → x.w = none → rows (s.claimW core ctx) { k with rowW := some ctx, wbuf := [] }) ∧
    (k.rowC = none → x.c = none → rows (s.claimC core ctx) { k with rowC := some ctx, tiles := [], rowLive := 0xf }) ∧
    (∀ m bs q, k.rowA = none → x.a = some m → s.readBack core ctx base (65536 * x.split) = (.bytes bs, q) →
      bs.length = 65536 * x.split → (q.spillOf core ctx).a.isSome = true → q.coreAt core = k →
      let t := s.claimA core ctx
      (t.coreAt core).rowA = some ctx ∧ (t.spillOf core ctx).a = none ∧
      ∀ j, SMap.get 0 (t.coreAt core).abuf j = if j < 65536 * k.split then (bs[j]?).getD 0 else 0) ∧
    (∀ m bs q, k.rowW = none → x.w = some m → s.readBack core ctx (base + 0x60000) 262144 = (.bytes bs, q) →
      bs.length = 262144 → (q.spillOf core ctx).w.isSome = true → q.coreAt core = k →
      let t := s.claimW core ctx
      (t.coreAt core).rowW = some ctx ∧ (t.spillOf core ctx).w = none ∧ ∀ j, SMap.get 0 (t.coreAt core).wbuf j = (bs[j]?).getD 0) ∧
    (∀ c u, k.rowA = some c → c ≠ ctx → x.a = none → (∀ o ∈ (s.coreAt (leaderOf core)).matQ, o.ctx ≠ c) →
      s.spillBytes core c (s.spillBase core c) (readMap 0 k.abuf 0 (65536 * k.split)) = some u → u.coreAt core = k →
      u.spilled = s.spilled →
      let t := s.claimA core ctx
      (t.coreAt core).rowA = some ctx ∧ (t.coreAt core).abuf = [] ∧ (t.spillOf core c).a = some k.abuf ∧
      (t.spillOf core c).split = k.split ∧ t.mem = u.mem)) ∧
  (∀ (s : State) (g : Group), s.Unique → g ∈ s.groups → g.halted = true →
    let t := s.spillBerth g
    t.group? g.core g.berth = none ∧ (t.ctx? g.ctx = none ∨ (g, s.groupThreads g.core g.berth) ∈ (t.spillOf g.core g.ctx).groups)) ∧
  ∀ (s : State) (core : Nat) (x : Spilled), s.spilled = [x] → s.canAdopt core x = true → s.pairImage x = false →
    let t := s.adopt core (s.vfOf x.ctx)
    t.spilled = [x.moved x.core core] ∧ t.threads = s.threads ∧ t.groups = s.groups ∧
    t.tasks = s.tasks.map fun k => if k.ctx = x.ctx then k.moved x.core core else k

/-! ### Memory (spec/07, spec/12) -/

/-- R118, R120, R121, R252, R253, R140: a load whose checks pass returns the bytes of its core's L1 line where they are valid
there, else the home's bytes, where the home answers at once; of host memory and of other packages it asks for them and its window
waits. -/
def Clause.LoadsRead : Prop :=
  ∀ s i (d a : Reg) (o : BitVec 7) (k : BitVec 4) l, Issued s i .both [d, a] → i.lanes = [l] →
    let w := s.thread l
    let ea (n : Nat) : Word := w.rd a + o.signExtend 64 * BitVec.ofNat 64 n
    let loads (ins : Instr) (n : Nat) (ext : Nat → Word) : Prop :=
      ∀ q tr, s.batched.check l (ea n) n .load true = (.ok tr, q) →
        (∀ ln, q.line? l.core w.ctx ((ea n).toNat / 128) = some ln → q.struckLine ln = false →
          (∀ j, j < n → ln.valid.getLsbD ((ea n).toNat % 128 + j) = true) →
          ∃ t, exec ins s = .next t ∧ OnlyThread s t l ∧ t.l1 = s.l1 ∧ SameBytes s t ∧
            Result s t (i.pc + 4) l d k (ext (ofBytes (ln.bytesAt ((ea n).toNat % 128) n)))) ∧
        (∀ x, tr.target = .device x → q.Fresh l.core w.ctx (ea n).toNat x → q.bad x = false → q.slowAt x = false →
          ∃ t, exec ins s = .next t ∧ OnlyThread s t l ∧ SameBytes s t ∧
            Result s t (i.pc + 4) l d k (ext (ofBytes (q.viewBytes tr.vf tr.key x n)))) ∧
        ∀ kind dst gpa, ((tr.target = .host gpa ∧ kind = 0 ∧ dst = 0) ∨
            ∃ g, tr.target = .fabric dst g ∧ kind = 1 ∧ gpa = g / 128 * 128) →
          q.line? l.core w.ctx ((ea n).toNat / 128) = none → q.tagsFull tr = false →
          ∃ t p x, exec ins s = .next t ∧ OnlyThread s t l ∧ p ∈ t.pendings ∧ p.lane = some l ∧ p.packet.kind = kind ∧
            p.packet.dst = dst ∧ p.packet.gpa = gpa ∧ p.bytes = n ∧ x ∈ (t.thread l).windows ∧ x.arrival = .waiting ∧
            x.tag = 2 * p.ttag + 1 ∧ x.count = (if l.berth = quayBerth ∨ d = 0 ∨ k = 0 then 0 else k.toNat) ∧
            (t.thread l).pc = i.pc + 4 ∧ (t.thread l).wait = if x.count = 0 then .held else .ready
    loads (.ldB d a o k) 1 (BitVec.ofNat 64) ∧ loads (.ldH d a o k) 2 (BitVec.ofNat 64) ∧
    loads (.ldW d a o k) 4 (BitVec.ofNat 64) ∧ loads (.ldD d a o k) 8 (BitVec.ofNat 64) ∧
    loads (.ldBS d a o k) 1 (fun n => (BitVec.ofNat 8 n).signExtend 64) ∧
    loads (.ldHS d a o k) 2 (fun n => (BitVec.ofNat 16 n).signExtend 64) ∧
    loads (.ldWS d a o k) 4 (fun n => (BitVec.ofNat 32 n).signExtend 64)

/-- R123, R253: `ld.d.ext` outside sealed regions takes its line into the owned state with the home's bytes, and its window
owes the external edge; one that opens no window has applied it. Of a thread none of whose atomics and external loads is still to
act. -/
def Clause.ExternalLoad : Prop :=
  ∀ (s q : State) i (d a : Reg) (o : BitVec 7) (k : BitVec 4) l tr (x : Nat), Issued s i .both [d, a] → i.lanes = [l] →
    let w := s.thread l
    let ea : Word := w.rd a + o.signExtend 64 * 8
    s.batched.check l ea 8 .load true = (.ok tr, q) → tr.target = .device x → q.Fresh l.core w.ctx ea.toNat x → q.bad x = false →
    q.NoneBefore l w.ctx → q.slowAt x = false → s.sealedOn (dieOf l.core) w.ctx ea.toNat 8 = false →
    let v : Word := BitVec.ofNat 64 (ofBytes (q.viewBytes tr.vf tr.key x 8))
    ∃ t, exec (.ldDExt d a o k) s = .next t ∧ OnlyThread s t l ∧ SameBytes s t ∧
      if l.berth = quayBerth ∨ d = 0 ∨ k = 0 then
        Wrote w (t.thread l) (i.pc + 4) d v 0 ∧
          SMap.get 0 (t.coreAt l.core).epochs (s.vfOf w.ctx) = (s.vf (s.vfOf w.ctx)).epoch
      else
        (∃ ln, t.line? l.core w.ctx (ea.toNat / 128) = some ln ∧ ln.st = .owned ∧ ln.valid = BitVec.allOnes 128) ∧
          ∃ y, Opened w (t.thread l) (i.pc + 4) d k v 0 y ∧ y.closing.ext = true

/-- R124, R126, R252: a store whose checks pass and that has its growth puts its bytes into the L1 line, valid and dirty, and
changes no other byte of it, no other line and no byte at any home, unless its line needs the place of another. -/
def Obligations.StoresWrite : Prop :=
  ∀ s i (x a : Reg) (o : BitVec 7) l, Issued s i .both [x, a] → i.lanes = [l] →
    let w := s.thread l
    let ea (n : Nat) : Word := w.rd a + o.signExtend 64 * BitVec.ofNat 64 n
    let stores (ins : Instr) (n : Nat) : Prop :=
      ∀ q r tr, s.batched.check l (ea n) n .store true = (.ok tr, q) → q.growLane false l (ea n) tr = (false, .ok tr, r) →
        ∃ t ln, exec ins s = .next t ∧ OnlyThread s t l ∧ t.thread l = w.advance (i.pc + 4) [] ∧
          t.line? l.core w.ctx ((ea n).toNat / 128) = some ln ∧
          ln.bytesAt ((ea n).toNat % 128) n = toBytes (w.rd x).toNat n ∧
          (∀ j, j < n → ln.valid.getLsbD ((ea n).toNat % 128 + j) = true ∧ ln.dirty.getLsbD ((ea n).toNat % 128 + j) = true) ∧
          (∀ old, s.line? l.core w.ctx ((ea n).toNat / 128) = some old → old.OnlyBytes ln ((ea n).toNat % 128) n) ∧
          (s.line? l.core w.ctx ((ea n).toNat / 128) = none → ∀ j, j < 128 →
            (j < (ea n).toNat % 128 ∨ (ea n).toNat % 128 + n ≤ j) → ln.valid.getLsbD j = false) ∧
          (((s.line? l.core w.ctx ((ea n).toNat / 128)).isSome ∨
              (s.l1.filter fun y => y.core == l.core).length < l1Lines (s.coreAt l.core).split) →
            SameBytes s t ∧ ∀ c y z, (c, y, z) ≠ (l.core, w.ctx, (ea n).toNat / 128) → t.line? c y z = s.line? c y z)
    stores (.stB x a o) 1 ∧ stores (.stH x a o) 2 ∧ stores (.stW x a o) 4 ∧ stores (.stD x a o) 8

/-- R118, R120, R126, R211, R273: a load, a store or an atomic that is not aligned traps with its address; one that does not
translate, for another reason than a page of host memory that has to be asked for, parks its lane under a fault record; one that
writes to a sealed region or to what the device writes of a frame traps with the address; one whose growth is refused parks its
lane. -/
def Clause.AccessFaults : Prop :=
  ∀ s i (d a b : Reg) (o : BitVec 7) (k : BitVec 4) (op : AtomOp) (sq dbl : Bool) l g, Issued s i .both [d, a, b] → i.lanes = [l] →
    i.quay = false → l.core = i.core → s.group? i.core l.berth = some g →
    let w := s.thread l
    let ea (n : Nat) : Word := w.rd a + o.signExtend 64 * BitVec.ofNat 64 n
    let loads : List (Instr × Nat) := [(.ldB d a o k, 1), (.ldH d a o k, 2), (.ldW d a o k, 4), (.ldD d a o k, 8), (.ldBS d a o k, 1),
      (.ldHS d a o k, 2), (.ldWS d a o k, 4), (.ldDExt d a o k, 8)]
    let stores : List (Instr × Nat) := [(.stB d a o, 1), (.stH d a o, 2), (.stW d a o, 4), (.stD d a o, 8)]
    let atomics : List (Instr × Nat) := [(.atom op sq dbl d a b k, if dbl then 8 else 4), (.cas sq dbl d a b k, if dbl then 8 else 4),
      (.cas2 d a b k, 16)]
    let parked (t q : State) (cause sub : Nat) (fva gpa : Word) : Prop :=
      t.thread l = { w with wait := .faulted } ∧ OnlyThread s t l ∧ t.mem = s.mem ∧ t.l1 = s.l1 ∧
      ∃ r, (t.vf (s.vfOf g.ctx)).fqWaiting = (q.vf (s.vfOf g.ctx)).fqWaiting ++ [r] ∧ r.src = 0 ∧ r.cause = cause ∧ r.sub = sub ∧
        r.fva = fva ∧ r.ifa = i.pc ∧ r.gpa = gpa ∧ r.lanes = 1#64 <<< l.tid ∧ r.ctx = g.ctx ∧ r.core = i.core ∧ r.berth = l.berth ∧
        r.info = BitVec.ofNat 64 g.frame
    let faults (ins : Instr) (n : Nat) (at_ : Word) (acc : Acc) : Prop :=
      (at_.toNat % n ≠ 0 → exec ins s = .next (s.batched.takeTrap i.core l.berth [l] 2 at_ i.pc i.pc)) ∧
      (at_.toNat % n = 0 → (∀ f q, s.batched.translate l.core w.ctx at_.toNat acc = (.error f, q) → f.waits = false →
        ∃ t, exec ins s = .next t ∧ parked t q 16 f.sub at_ f.gpa) ∧
        ∀ tr q x, acc ≠ .load → s.batched.translate l.core w.ctx at_.toNat acc = (.ok tr, q) → tr.target = .device x →
          q.sealed l.core w.ctx at_.toNat n = true → exec ins s = .next (q.takeTrap i.core l.berth [l] 6 at_ i.pc i.pc))
    let refused (ins : Instr) (n : Nat) (at_ : Word) (acc : Acc) (hostOk : Bool) : Prop :=
      ∀ tr q r x, s.batched.check l at_ n acc hostOk = (.ok tr, q) → tr.target = .device x →
        q.growLane false l at_ tr = (true, .error (.fault 17 (x / 2 ^ 38) at_ (BitVec.ofNat 64 tr.gpa)), r) →
        ∃ t, exec ins s = .next t ∧ parked t q 17 (x / 2 ^ 38) at_ (BitVec.ofNat 64 tr.gpa)
    (∀ x ∈ loads, faults x.1 x.2 (ea x.2) .load) ∧ (∀ x ∈ stores, faults x.1 x.2 (ea x.2) .store) ∧
    (∀ x ∈ atomics, faults x.1 x.2 (w.rd a) .atomic) ∧ (∀ x ∈ stores, refused x.1 x.2 (ea x.2) .store true) ∧
    refused (.atom op sq dbl d a b k) (if dbl then 8 else 4) (w.rd a) .atomic (op == .add || op == .exch) ∧
    refused (.cas sq dbl d a b k) (if dbl then 8 else 4) (w.rd a) .atomic true ∧ refused (.cas2 d a b k) 16 (w.rd a) .atomic false

/-- R132, R133: accesses to the A-buffer and to C-buffer cells of a context whose rows they are. A read waits for copies and not
for the queue: before a queued conversion has written a byte it returns the old one (DEDUCED, log 39). -/
def Obligations.BufferAccesses : Prop :=
  ∀ s i (d a : Reg) (o : BitVec 7) (k : BitVec 4) l, i.lanes = [l] →
    let w := s.thread l
    let ea : Word := w.rd a + o.signExtend 64 * 8
    let core (c : Nat) : Core := s.coreAt c
    (Issued s i .both [d, a] → (core l.core).rowA = some w.ctx → ea.toNat % 8 = 0 → ea.toNat + 8 ≤ 65536 * (core l.core).split →
      s.behindCopy l.core w.ctx 1 ea.toNat 8 = false →
      (∃ t, exec (.lda d a o k) s = .next t ∧ OnlyThreads s t [l] ∧
        Result s t (i.pc + 4) l d k (BitVec.ofNat 64 (ofBytes (readMap 0 (core l.core).abuf ea.toNat 8)))) ∧
      (s.heldByQueue l.core ea.toNat 8 = false → ∃ t, exec (.sta d a o) s = .next t ∧ OnlyThread s t l ∧
        t.thread l = w.advance (i.pc + 4) [] ∧ t = { s.picked with threads := t.threads, cores := t.cores } ∧
        (∀ c, c ≠ l.core → t.coreAt c = { core c with ring := (t.coreAt c).ring }) ∧
        t.coreAt l.core = { core l.core with ring := (t.coreAt l.core).ring, abuf := (t.coreAt l.core).abuf } ∧
        readMap 0 (t.coreAt l.core).abuf ea.toNat 8 = toBytes (w.rd d).toNat 8 ∧
        ∀ j, (j < ea.toNat ∨ ea.toNat + 8 ≤ j) → SMap.get 0 (t.coreAt l.core).abuf j = SMap.get 0 (core l.core).abuf j)) ∧
    (Issued s i .thread [d, a] → ∀ h n, h < 2 → n < 65536 → ea.toNat = 2 ^ 19 * h + 8 * n →
      (h = 1 → (s.group? l.core l.berth).map (·.pair) = some true) → (core (l.core + h)).rowC = some w.ctx →
      s.tileBusy (l.core + h) (n / 16384) = false →
      (∃ t, exec (.ldc d a o k) s = .next t ∧ OnlyThreads s t [l] ∧
        (if d = 0 ∨ k = 0 then Wrote w (t.thread l) (i.pc + 4) d ((SMap.get 0 (core (l.core + h)).tiles n).setWidth 64) 0
         else ∃ y, Opened w (t.thread l) (i.pc + 4) d k ((SMap.get 0 (core (l.core + h)).tiles n).setWidth 64) 0 y)) ∧
      ∃ t, exec (.stc d a o) s = .next t ∧ OnlyThread s t l ∧ t.thread l = w.advance (i.pc + 4) [] ∧
        t = { s.picked with threads := t.threads, cores := t.cores } ∧
        SMap.get 0 (t.coreAt (l.core + h)).tiles n = (w.rd d).setWidth 56 ∧
        ∀ c j, (c ≠ l.core + h ∨ j ≠ n) → SMap.get 0 (t.coreAt c).tiles j = SMap.get 0 (core c).tiles j)

/-- R134: a prefetch never traps, faults or stalls; where there is room it fills its line, of which no other copy exists,
with the home's bytes. -/
def Clause.PrefetchFills : Prop :=
  ∀ s i (a : Reg) (sc : Bool), Issued s i .both [a] →
    (∃ t, exec (.pref sc a) s = .next t ∧ (∀ l ∈ i.lanes, t.thread l = (s.thread l).advance (i.pc + 8) []) ∧
      ∀ m, m ∉ i.lanes → t.thread m = s.thread m) ∧
    ∀ l q tr x, i.lanes = [l] → s.picked.translate l.core (s.thread l).ctx ((s.thread l).rd a).toNat .load = (.ok tr, q) →
      tr.target = .device x → q.Fresh l.core (s.thread l).ctx ((s.thread l).rd a).toNat x → q.bad x = false →
      ∃ t ln, exec (.pref false a) s = .next t ∧ SameBytes s t ∧
        t.line? l.core (s.thread l).ctx (((s.thread l).rd a).toNat / 128) = some ln ∧ ln.valid = BitVec.allOnes 128 ∧
        ln.bytesAt 0 128 = q.viewBytes tr.vf tr.key (x / 128 * 128) 128

/-- R135 to R139: an atomic takes its line into the owned state, returns the old value and leaves the new one there, or, for
a comparison that fails, the old one; of a line that the L1 alone holds and owns already, and of one of which there is no copy and
whose home answers at once. Of a thread none of whose atomics and external loads is still to act. -/
def Clause.AtomicsAct : Prop :=
  ∀ s i (d a b : Reg) (k : BitVec 4) (seq dbl : Bool) (op : AtomOp) l, Issued s i .both [d, a, b] → i.lanes = [l] →
    let w := s.thread l
    let ea : Word := w.rd a
    let acts (ins : Instr) (n : Nat) (hostOk : Bool) (new : Nat → Nat) (res : State → Nat → Prop) : Prop :=
      ∀ q r tr x, s.batched.check l ea n .atomic hostOk = (.ok tr, q) → q.growLane false l ea tr = (false, .ok tr, r) →
        tr.target = .device x → r.bad x = false → r.NoneBefore l w.ctx →
        (∀ ln, r.line? l.core w.ctx (ea.toNat / 128) = some ln → ln.st = .owned → ln.valid = BitVec.allOnes 128 →
          r.struckLine ln = false → (∀ y ∈ r.l1, y.home = .device (x / 128 * 128) → y.tag = (l.core, w.ctx, ea.toNat / 128)) →
          ∃ t m, exec ins s = .next t ∧ OnlyThread s t l ∧ SameBytes s t ∧ res t (ofBytes (ln.bytesAt (ea.toNat % 128) n)) ∧
            t.line? l.core w.ctx (ea.toNat / 128) = some m ∧ m.st = .owned ∧ m.valid = BitVec.allOnes 128 ∧
            ofBytes (m.bytesAt (ea.toNat % 128) n) = new (ofBytes (ln.bytesAt (ea.toNat % 128) n)) ∧
            ln.OnlyBytes m (ea.toNat % 128) n) ∧
        (r.Fresh l.core w.ctx ea.toNat x → r.slowAt x = false →
          ∃ t m, exec ins s = .next t ∧ OnlyThread s t l ∧ SameBytes s t ∧ res t (ofBytes (r.viewBytes tr.vf tr.key x n)) ∧
            t.line? l.core w.ctx (ea.toNat / 128) = some m ∧ m.st = .owned ∧
            ofBytes (m.bytesAt (ea.toNat % 128) n) = new (ofBytes (r.viewBytes tr.vf tr.key x n)))
    let n := if dbl then 8 else 4
    let one (t : State) (old : Nat) : Prop := Result s t (i.pc + 8) l d k (BitVec.ofNat 64 old)
    acts (.atom op seq dbl d a b k) n (op == .add || op == .exch)
      (fun old => atomApply op (8 * n) old ((w.rd b).toNat % 2 ^ (8 * n))) one ∧
    acts (.cas seq dbl d a b k) n true
      (fun old => if old = (w.rd d).toNat % 2 ^ (8 * n) then (w.rd b).toNat % 2 ^ (8 * n) else old) one ∧
    (i.quay = false → d.toNat % 2 = 0 → b.toNat % 2 = 0 →
      let pair (r : Reg) : Nat := if r = 0 then 0 else (w.rd r).toNat + 2 ^ 64 * (w.rd (r + 1)).toNat
      acts (.cas2 d a b k) 16 false (fun old => if old = pair d then pair b else old) fun t old =>
        let lo : Word := BitVec.ofNat 64 old
        let hi : Word := BitVec.ofNat 64 (old / 2 ^ 64)
        if d = 0 ∨ k = 0 then WrotePair w (t.thread l) (i.pc + 8) d lo hi 0
        else ∃ x y, x ∈ (t.thread l).windows ∧ y ∈ (t.thread l).windows ∧ (t.thread l).pc = i.pc + 8 ∧
          x.phys = w.phys d ∧ x.arrival = .value lo ∧ x.count = k.toNat ∧ x.cancelled = false ∧
          y.phys = w.phys (d + 1) ∧ y.arrival = .value hi ∧ y.count = k.toNat ∧ y.cancelled = false)

/-- R135: what the operations of an atomic compute, on words and doublewords. -/
def Clause.AtomicFunctions : Prop :=
  ∀ w, (w = 32 ∨ w = 64) →
    let f : Fmt := if w = 32 then fp32 else fp64
    let is (op : AtomOp) (g : BitVec w → BitVec w → BitVec w) : Prop :=
      ∀ o v : BitVec w, atomApply op w o.toNat v.toNat = (g o v).toNat
    is .add (· + ·) ∧ is .and (· &&& ·) ∧ is .or (· ||| ·) ∧ is .xor (· ^^^ ·) ∧ is .exch (fun _ v => v) ∧
    is .smin (fun o v => if o.sle v then o else v) ∧ is .smax (fun o v => if v.sle o then o else v) ∧
    is .umin (fun o v => if o.ule v then o else v) ∧ is .umax (fun o v => if v.ule o then o else v) ∧
    ∀ o v : Nat, o < 2 ^ w → v < 2 ^ w →
      atomApply .fadd w o v = (roundFmt (sumExt rne [decodeF f o, decodeF f v]).1 f rne false).1 ∧
      atomApply .fmax w o v = (maxNum f o v).1 ∧
      ((decodeF f o).isNan = true ∨ (decodeF f v).isNan = true → atomApply .famax w o v = f.canonNan) ∧
      ((decodeF f o).finite = true → (decodeF f v).finite = true →
        (decodeF f (atomApply .famax w o v)).rat = max |(decodeF f o).rat| |(decodeF f v).rat| ∧
          atomApply .famax w o v < 2 ^ (w - 1))

/-- R127 to R129, R259: `seal` publishes its region and installs an entry on every die of the partition, and waits while a
die has no room; `unseal` of a region that is not sealed completes, and of one that is drops every sealed copy and waits. -/
def Clause.SealsInstall : Prop :=
  ∀ (s p : State) i (a b : Reg) l (n : Nat), Issued s i .thread [a, b] → i.lanes = [l] → 12 ≤ n → n ≤ 30 →
    let w := s.thread l
    let base := (w.rd a).toNat
    let dies := s.partDies (s.partOf i.ctx)
    let entry (d : Nat) : SealEntry := { die := d, ctx := i.ctx, base := base, lg := n }
    (w.rd b).toNat = 2 ^ n → base % 2 ^ n = 0 → base < 2 ^ 48 →
    (p = s.picked.publishRegion i.core i.ctx (((s.group? i.core l.berth).map (·.frame)).getD 0) base n →
      p.unacked i.core i.ctx = false →
      ((∀ d ∈ dies, s.sealRoom d = true) → ∃ t, exec (.seal a b) s = .next t ∧ OnlyThread s t l ∧
        t.thread l = w.advance (i.pc + 8) [] ∧ (∀ d ∈ dies, entry d ∈ t.seals) ∧
        ∀ ln x, base ≤ ln * 128 → ln * 128 < base + 2 ^ n → t.line? i.core i.ctx ln = some x → x.dirty = 0) ∧
      ((∃ d ∈ dies, s.sealRoom d = false) → ∃ t, exec (.seal a b) s = .next t ∧ OnlyThread s t l ∧
        t.thread l = { w with wait := .engine } ∧ (∀ d ∈ dies, s.sealRoom d = true → entry d ∈ t.seals) ∧
        { ctx := i.ctx, base := base, lg := n, dies := dies.filter (fun d => !s.sealRoom d), lanes := [l] } ∈ t.sealWaits)) ∧
    ((∀ e ∈ s.seals, ¬(e.ctx = i.ctx ∧ e.base = base ∧ e.lg = n)) → ∃ t, exec (.unseal a b) s = .next t ∧ OnlyThreads s t [l] ∧
      t.thread l = w.advance (i.pc + 8) []) ∧
    ((∃ e ∈ s.seals, e.ctx = i.ctx ∧ e.base = base ∧ e.lg = n) → ∃ t, exec (.unseal a b) s = .next t ∧ OnlyThread s t l ∧
      t.thread l = { w with wait := .engine } ∧ { ctx := i.ctx, base := base, lg := n, lanes := [l] } ∈ t.unsealWaits ∧
      ∀ x ∈ t.l1, ¬(x.ctx = i.ctx ∧ x.sealed = true ∧ base ≤ x.line * 128 ∧ x.line * 128 < base + 2 ^ n))

/-- R128, R129, R259: the steps of the dies: a freed entry goes to the oldest seal that waits for it, a seal with its last
entry and an unseal with no copy left let their lanes go on, and a fill in a sealed region makes a sealed copy. -/
def Clause.SealSteps : Prop :=
  (∀ (s : State) (die : Nat) (w : SealWait) l, s.sealWaits.find? (fun w => has w.dies die) = some w → s.sealRoom die = true →
    w.lanes = [l] → (s.thread l).reissue = none → (∀ x ∈ (s.thread l).windows, 2 ≤ x.count) → (s.thread l).wait = .engine →
    ∃ t, exec (.sealEntryInstall die) s = .next t ∧ OnlyThread s t l ∧
      { die := die, ctx := w.ctx, base := w.base, lg := w.lg } ∈ t.seals ∧
      t.thread l = if ∀ d ∈ w.dies, d = die then { (s.thread l).advance ((s.thread l).pc + 8) [] with wait := .ready } else s.thread l) ∧
  (∀ (s p : State) (ctx base lg : Nat) (w : UnsealWait) l,
    s.unsealWaits.find? (fun w => w.ctx == ctx && w.base == base && 2 ^ w.lg == 2 ^ lg) = some w → p = s.dropSealed ctx base lg →
    (∀ e ∈ p.seals, e.ctx = ctx → e.base = base → e.lg = lg → e.copies = 0) →
    (∀ d, (p.seals.filter fun e => e.die == d && e.ctx == ctx && e.base == base && e.lg == lg).length ≤ 1) →
    w.lanes = [l] → (s.thread l).reissue = none → (∀ x ∈ (s.thread l).windows, 2 ≤ x.count) →
    ∃ t, exec (.unsealComplete ctx base (2 ^ lg)) s = .next t ∧ OnlyThread s t l ∧
      t.thread l = { (s.thread l).advance ((s.thread l).pc + 8) [] with wait := .ready } ∧ (∀ e ∈ t.seals, e ∈ p.seals) ∧
      ∀ e ∈ t.seals, ¬(e.die ∈ s.partDies (s.partOf ctx) ∧ e.ctx = ctx ∧ e.base = base ∧ e.lg = lg)) ∧
  ∀ (s q : State) (core ctx line a : Nat) (tr : Trans), s.lineHome core ctx line .load = (some (tr, a), q) →
    q.line? core ctx line = none → q.sealedOn (stackOf a) ctx (line * 128) 128 = true → q.bad a = false →
    (q.l1.filter fun l => l.core == core).length < l1Lines (q.coreAt core).split →
    ∃ t ln, exec (.sealedFill core ctx line) s = .next t ∧ t.threads = s.threads ∧ SameBytes s t ∧
      t.line? core ctx line = some ln ∧ ln.sealed = true ∧ ln.valid = BitVec.allOnes 128 ∧ ln.dirty = 0 ∧
      ln.bytesAt 0 128 = q.viewBytes tr.vf tr.key a 128

/-- R252, R253, R136: the requests for a line at its home. A load miss leaves no other owner and brings the home's bytes, with
what an owner has written back among them; an ownership request leaves no other copy, and the core's own dirty bytes stand
before the home's; a writeback cleans its line, whose dirty bytes the home then holds, and a clean line is dropped. -/
def Obligations.LinesReconcile : Prop :=
  ∀ (s q : State) (core ctx line a : Nat) (tr : Trans), (s.l1.map L1Line.tag).Nodup →
    (s.lineHome core ctx line .load = (some (tr, a), q) → a % 128 = 0 → s.line? core ctx line = none →
      (q.demote (core, ctx, line) a).bad a = false → (s.l1.filter fun l => l.core == core).length < l1Lines (s.coreAt core).split →
      q.sealedOn (stackOf a) ctx (line * 128) 128 = false →
      ∃ t ln, exec (.loadMiss core ctx line) s = .next t ∧ t.threads = s.threads ∧ t.line? core ctx line = some ln ∧
        ln.valid = BitVec.allOnes 128 ∧
        ln.bytesAt 0 128 = (q.demote (core, ctx, line) a).viewBytes tr.vf tr.key a 128 ∧
        ∀ x ∈ t.l1, x.home = .device a → x.tag ≠ (core, ctx, line) → x.st = .shared) ∧
    (s.lineHome core ctx line .atomic = (some (tr, a), q) → a % 128 = 0 →
      (q.invalidateOthers (core, ctx, line) a).bad a = false → (∀ ln, s.line? core ctx line = some ln → ln.st = .shared) →
      let r := ((q.invalidateOthers (core, ctx, line) a).lineFor core ctx (line * 128) tr).2.invalidateOthers (core, ctx, line) a
      ∃ t ln, exec (.ownershipRequest core ctx line) s = .next t ∧ t.threads = s.threads ∧ t.line? core ctx line = some ln ∧
        ln.st = .owned ∧ ln.valid = BitVec.allOnes 128 ∧
        (∀ j, j < 128 → ln.dirty.getLsbD j = false → lineByte ln.data j = r.viewByte tr.vf tr.key (a + j)) ∧
        (∀ old, s.line? core ctx line = some old → ln.dirty = old.dirty ∧
          ∀ j, j < 128 → old.dirty.getLsbD j = true → lineByte ln.data j = lineByte old.data j) ∧
        (s.line? core ctx line = none → ln.dirty = 0) ∧
        ∀ x ∈ t.l1, x.home = .device a → x.tag = (core, ctx, line)) ∧
    (∀ ln, s.line? core ctx line = some ln → ln.dirty = 0 →
      ∃ t, exec (.writeback core ctx line) s = .next t ∧ t.threads = s.threads ∧ t.line? core ctx line = none ∧ SameBytes s t) ∧
    ∀ ln, s.line? core ctx line = some ln → ln.dirty ≠ 0 → ln.home = .device a → a % 128 = 0 →
      s.struckLine ln = false →
      ∃ t, exec (.writeback core ctx line) s = .next t ∧ t.threads = s.threads ∧
        t.line? core ctx line = some { ln with dirty := 0 } ∧ (ctx, line) ∈ (t.coreAt core).pendingLines ∧
        ((∀ x ∈ s.l1, x.home = .device a → x.tag = (core, ctx, line)) →
          let f := (s.putLine { ln with dirty := 0 }).homeWrite
            { vf := ln.vf, gpa := ln.gpa, key := ln.key, ce := ln.ce,
              fund := .resv (.inl core) (!(s.putLine { ln with dirty := 0 }).keepsResv core (blockOf a)) }
            a ((maskBytes ln.dirty).map fun i => (a + i, lineByte ln.data i))
          f.1 = .done → ∀ j, ln.dirty.getLsbD j = true → t.homeByte ln.key (a + j) = lineByte ln.data j)

/-- R292: a write at a home that is performed leaves its bytes there and every other byte as the VF reads it; one that is refused or
lost changes no byte. A scrubbed block reads as zero before it is cleared and after (R301). -/
def Clause.HomeWritesAreExact : Prop :=
  (∀ (s q : State) (vf gpa len : Nat) (data : BitVec 1024) (tr : Trans) (a : Nat), 0 < len → gpa % 128 + len ≤ 128 →
    s.translateGpa vf gpa .store = (.ok tr, q) → tr.target = .device a → a % 128 = gpa % 128 →
    (∀ x ∈ s.l1, x.home ≠ .device (a / 128 * 128)) →
    ∃ t, exec (.homeWrite vf gpa len data) s = .next t ∧ t.threads = s.threads ∧ t.l1 = s.l1 ∧
      if (q.homeWrite { vf := vf, gpa := gpa, key := tr.key, ce := tr.ce } a (withAddrs a (toBytes data.toNat len))).1 = .done then
        t.homeBytes tr.key a len = toBytes data.toNat len ∧
        (∀ y, blockOf y = blockOf a → (y < a ∨ a + len ≤ y) → t.homeByte tr.key y = q.viewByte vf tr.key y) ∧
        ∀ slot y, blockOf y ≠ blockOf a → t.homeByte slot y = s.homeByte slot y
      else SameBytes s t) ∧
  ∀ (s : State) (block : Nat), (s.desc block).scrub = true →
    ∃ t, exec (.scrubClear block) s = .next t ∧ t = { s with descs := t.descs } ∧ SameBytes s t ∧
      (t.desc block).scrub = false ∧ (t.desc block).codec = 0 ∧ (t.desc block).count = 0 ∧ ∀ b, b ≠ block → t.desc b = s.desc b

/-! ### The matrix array (spec/08) -/

/-- R146 to R149, R151: a matrix operation on the leader, with operands on which the lanes agree, a legal word and panels
inside the buffers, takes the next entry of the array queue with the operands as issued and what it will read; every lane
goes on. The rows that it needs are its context's (R324). -/
def Clause.MatrixOperationsQueue : Prop :=
  ∀ s i (d f a b : Reg) (tile : BitVec 2) (m k : BitVec 4) l, Issued s i .thread [d, f, a, b] → i.lanes.head? = some l →
    isLeader i.core = true → (s.coreAt i.core).matQ.length < 8 → (s.coreAt i.core).rowA = some i.ctx →
    (∀ h ∈ halves2 i.core (s.pairOf i), (s.coreAt h).rowW = some i.ctx ∧ (s.coreAt h).rowC = some i.ctx) →
    (∀ x ∈ i.lanes, ((s.thread x).rd f).setWidth 32 = ((s.thread l).rd f).setWidth 32 ∧
      (s.thread x).rd a = (s.thread l).rd a ∧ (s.thread x).rd b = (s.thread l).rd b) →
    let w := s.thread l
    let word : BitVec 32 := (w.rd f).setWidth 32
    let fw := fmtWord word
    let ctl := ctlOf (w.rd b)
    let fitsA (x : Word) (n : Nat) : Prop := x.toNat % 128 = 0 ∧ x.toNat + n ≤ 65536 * (s.coreAt i.core).split
    let fitsW (x : Word) (n : Nat) : Prop := x.toNat % 128 = 0 ∧ x.toNat + n ≤ 262144
    let range (space : Nat) (x : Word) (n : Nat) : Range := { space := space, lo := x.toNat, hi := x.toNat + n }
    let queued (ins : Instr) (kind : MatKind) (reads : List Range) (dest : Option Reg) : Prop :=
      ∃ t, exec ins s = .next t ∧
        t = { s with issue := none, threads := t.threads, cores := t.cores, matSeq := s.matSeq + 1 } ∧
        (∀ c, t.coreAt c = { s.coreAt c with
          ring := (t.coreAt c).ring
          matQ := (s.coreAt c).matQ ++ if c = i.core then
            [{ seq := s.matSeq, kind := kind, ctx := i.ctx, pair := s.pairOf i, lanes := i.lanes, reads := reads }] else [] }) ∧
        (∀ x, x ∉ i.lanes → t.thread x = s.thread x) ∧
        ∀ x ∈ i.lanes, match dest with
          | none => t.thread x = (s.thread x).advance (i.pc + 4) []
          | some d => (t.thread x).pc = i.pc + 4 ∧ (t.thread x).regs = (s.thread x).regs ∧
            ∃ y ∈ (t.thread x).windows, y.arrival = .waiting ∧ y.tag = 2 * s.matSeq + 2 ∧ y.phys = destPhys (s.thread x) d ∧
              y.count = (if d = 0 then 0 else k.toNat) ∧ (t.thread x).wait = if d = 0 ∨ k = 0 then .held else .ready
    (fmtLegal .mm fw = true → tileOk .mm fw tile.toNat = true → fitsA (w.rd a) (panelA .mm fw) → fitsW (w.rd b) (panelB .mm fw) →
      queued (.mm tile f a b) (.mm tile.toNat word (w.rd a).toNat (w.rd b).toNat)
        [range 1 (w.rd a) (panelA .mm fw), range 2 (w.rd b) (panelB .mm fw)] none) ∧
    (fmtLegal .mms fw = true → fitsA (w.rd a) (panelA .mms fw) → fitsW (w.rd b) (panelB .mms fw) →
      queued (.mms tile f a b) (.mms tile.toNat word (w.rd a).toNat (w.rd b).toNat)
        [range 1 (w.rd a) (panelA .mms fw), range 2 (w.rd b) (panelB .mms fw)] none) ∧
    (fmtLegal .mmc fw = true → fitsA (w.rd a) 8192 → fitsW (w.rd b) 9216 →
      queued (.mmc f a b) (.mmc word (w.rd a).toNat (w.rd b).toNat) [range 1 (w.rd a) 8192, range 2 (w.rd b) 9216] none) ∧
    (∀ c, fmtLegal .mmconv fw = true → tileOk .mmconv fw tile.toNat = true →
      s.convRec? i.ctx ((w.rd a).toNat % 65536) = some c → c.etype = fw.fA → (w.rd a).toNat / 65536 % 256 < c.kh * c.kw →
      (∀ x ∈ convAddrs c (depth fw) (w.rd a), x + elBytes fw.fA ≤ 65536 * (s.coreAt i.core).split) →
      fitsW (w.rd b) (panelB .mmconv fw) →
      queued (.mmconv tile f a b) (.mmconv tile.toNat word (w.rd a) (w.rd b).toNat)
        ((convAddrs c (depth fw) (w.rd a)).map (fun x => { space := 1, lo := x, hi := x + elBytes fw.fA }) ++
          [range 2 (w.rd b) (panelB .mmconv fw)]) none) ∧
    queued (.mmz m) (.mmz m) [] none ∧
    (ctlAload ctl (s.pairOf i) tile.toNat = true → fitsA (w.rd a) (imgBytes ctl) →
      queued (.aload tile a b) (.aload tile.toNat (w.rd a).toNat (w.rd b)) [range 1 (w.rd a) (imgBytes ctl)] none) ∧
    (ctlAcvt ctl (s.pairOf i) = true → fitsA (w.rd a) (imgBytes ctl) →
      queued (.acvt d a b k) (.acvt (w.rd a).toNat (w.rd b)) [] (some d)) ∧
    (ctlAmax ctl (s.pairOf i) = true → queued (.amax d b k) (.amax (w.rd b)) [] (some d))

/-- R148, R164: a matrix-class instruction raises the trap of its first failed check, once for its lanes: on a follower core
cause 5 with the core's number; on lanes that disagree cause 3 with the operand; on an illegal format or control word cause 4 with the
word, or with the operand that names no layout record; on operands that are out of line or do not fit in their buffer cause 2 with
the lowest offending address. Of lanes in one berth. -/
def Clause.MatrixChecksTrap : Prop :=
  ∀ s i (d f a b : Reg) (tile : BitVec 2) (m k : BitVec 4) l, Issued s i .thread [d, f, a, b] → i.quay = false →
    i.lanes.head? = some l → (∀ x ∈ i.lanes, x.berth = l.berth) →
    let w := s.thread l
    let word : BitVec 32 := (w.rd f).setWidth 32
    let fw := fmtWord word
    let ctl := ctlOf (w.rd b)
    let same (x : LaneId) (r : Reg) : Prop := (s.thread x).rd r = w.rd r
    let sameF (x : LaneId) : Prop := ((s.thread x).rd f).setWidth 32 = word
    let sums : List Instr := [.mm tile f a b, .mms tile f a b, .mmc f a b, .mmconv tile f a b]
    let traps (ins : Instr) (cause : Nat) (fva : Word) : Prop :=
      exec ins s = .next (s.picked.takeTrap i.core l.berth i.lanes cause fva i.pc i.pc)
    let limA := 65536 * (s.coreAt i.core).split
    let off (lim x n al z : Nat) : Prop := (x % al ≠ 0 ∧ z = x) ∨ (x % al = 0 ∧ n ≠ 0 ∧ lim < x + n ∧ z = max x lim)
    let lowest (ins : Instr) (bad : Nat → Prop) : Prop := ∀ z, bad z → (∀ y, bad y → z ≤ y) → traps ins 2 (BitVec.ofNat 64 z)
    let offA (n z : Nat) : Prop := off limA (w.rd a).toNat n 128 z
    let offB (n z : Nat) : Prop := off 262144 (w.rd b).toNat n 128 z
    (isLeader i.core = false → ∀ ins ∈ sums ++ [.mmz m, .aload tile a b, .acvt d a b k, .amax d b k, .tmark m, .fvote f],
      traps ins 5 (BitVec.ofNat 64 (i.core % 32))) ∧
    (isLeader i.core = true →
      ((∃ x ∈ i.lanes, ¬sameF x) → ∀ ins ∈ .fvote f :: sums, traps ins 3 0) ∧
      ((∀ x ∈ i.lanes, sameF x) → (∃ x ∈ i.lanes, ¬same x a) → ∀ ins ∈ sums, traps ins 3 1) ∧
      ((∀ x ∈ i.lanes, sameF x ∧ same x a) → (∃ x ∈ i.lanes, ¬same x b) → ∀ ins ∈ sums, traps ins 3 2) ∧
      ((∃ x ∈ i.lanes, ¬same x a) → ∀ ins ∈ [.aload tile a b, .acvt d a b k], traps ins 3 1) ∧
      ((∀ x ∈ i.lanes, same x a) → (∃ x ∈ i.lanes, ¬same x b) → ∀ ins ∈ [.aload tile a b, .acvt d a b k], traps ins 3 2) ∧
      ((∃ x ∈ i.lanes, ¬same x b) → traps (.amax d b k) 3 2) ∧
      ((∀ x ∈ i.lanes, sameF x) → (∀ op, fmtLegal op fw = false) → traps (.fvote f) 4 (word.setWidth 64)) ∧
      ((∀ x ∈ i.lanes, sameF x ∧ same x a ∧ same x b) →
        ((fmtLegal .mm fw = false ∨ tileOk .mm fw tile.toNat = false) → traps (.mm tile f a b) 4 (word.setWidth 64)) ∧
        (fmtLegal .mms fw = false → traps (.mms tile f a b) 4 (word.setWidth 64)) ∧
        (fmtLegal .mmc fw = false → traps (.mmc f a b) 4 (word.setWidth 64)) ∧
        ((fmtLegal .mmconv fw = false ∨ tileOk .mmconv fw tile.toNat = false) → traps (.mmconv tile f a b) 4 (word.setWidth 64)) ∧
        (fmtLegal .mmconv fw = true → tileOk .mmconv fw tile.toNat = true →
          (s.convRec? i.ctx ((w.rd a).toNat % 65536) = none → traps (.mmconv tile f a b) 4 (w.rd a)) ∧
          ∀ c, s.convRec? i.ctx ((w.rd a).toNat % 65536) = some c →
            ((c.etype ≠ fw.fA ∨ c.kh * c.kw ≤ (w.rd a).toNat / 65536 % 256) → traps (.mmconv tile f a b) 4 (word.setWidth 64)) ∧
            (c.etype = fw.fA → (w.rd a).toNat / 65536 % 256 < c.kh * c.kw → lowest (.mmconv tile f a b) fun z =>
              (∃ x ∈ convAddrs c (depth fw) (w.rd a), off limA x (elBytes fw.fA) 1 z) ∨ offB (panelB .mmconv fw) z)) ∧
        (fmtLegal .mm fw = true → tileOk .mm fw tile.toNat = true →
          lowest (.mm tile f a b) fun z => offA (panelA .mm fw) z ∨ offB (panelB .mm fw) z) ∧
        (fmtLegal .mms fw = true → lowest (.mms tile f a b) fun z => offA (panelA .mms fw) z ∨ offB (panelB .mms fw) z) ∧
        (fmtLegal .mmc fw = true → lowest (.mmc f a b) fun z => offA (panelA .mmc fw) z ∨ offB (panelB .mmc fw) z)) ∧
      ((∀ x ∈ i.lanes, same x a ∧ same x b) →
        (ctlAload ctl (s.pairOf i) tile.toNat = false → traps (.aload tile a b) 4 (w.rd b)) ∧
        (ctlAcvt ctl (s.pairOf i) = false → traps (.acvt d a b k) 4 (w.rd b)) ∧
        (ctlAload ctl (s.pairOf i) tile.toNat = true → lowest (.aload tile a b) (offA (imgBytes ctl))) ∧
        (ctlAcvt ctl (s.pairOf i) = true → lowest (.acvt d a b k) (offA (imgBytes ctl)))) ∧
      ((∀ x ∈ i.lanes, same x b) → ctlAmax ctl (s.pairOf i) = false → traps (.amax d b k) 4 (w.rd b)))

/-- R159, R164: `tmark` sets the live-tile mask of the core, and of the follower of a pair task, for its context, from which on the
core works for it: what another context had marked stays with its cells (`Core.serves`); `fvote` whose word is legal for some
operation changes nothing. -/
def Clause.TileMarks : Prop :=
  ∀ s i (f : Reg) (m : BitVec 4) l, Issued s i .thread [f] → i.lanes.head? = some l → isLeader i.core = true →
    (∃ t, exec (.tmark m) s = .next t ∧ t = { s with issue := none, threads := t.threads, cores := t.cores } ∧
      (∀ c, t.coreAt c = if c ∈ halves2 i.core (s.pairOf i) then
          { (s.coreAt c).serves i.ctx with ring := (t.coreAt c).ring, liveMask := m }
        else { s.coreAt c with ring := (t.coreAt c).ring }) ∧
      (∀ c ∈ halves2 i.core (s.pairOf i), (t.coreAt c).maskOf i.ctx = m ∧
        ∀ x y, x ≠ i.ctx → (s.coreAt c).rowC = some x → (s.coreAt c).lastCtx = some y → (t.coreAt c).maskOf x = (s.coreAt c).maskOf x) ∧
      (∀ x, x ∉ i.lanes → t.thread x = s.thread x) ∧
      ∀ x ∈ i.lanes, t.thread x = (s.thread x).advance (i.pc + 4) []) ∧
    ((∀ x ∈ i.lanes, ((s.thread x).rd f).setWidth 32 = ((s.thread l).rd f).setWidth 32) →
      (∃ op, fmtLegal op (fmtWord (((s.thread l).rd f).setWidth 32)) = true) →
      Goes s i (.fvote f) (fun _ => i.pc + 4) id)

/-- R71, R149, R154 to R156: the queue's oldest operation executes: each cell of its tile, on both cores of a pair
operation, becomes the old value plus the products of row and column, rounded once; no other tile changes. The flags are
those that some cell raised. With no row of a context spilled, and no uncorrectable error in what it reads. That a signalling NaN among
the elements raises no nv, that an `mmconv` reads its layout as it stands now, and by whom a codebook slot counts as loaded, are
the model's choices (DESIGN CHOICE, logs 144 and 145; DEDUCED, log 146). -/
def Clause.AccumulationExecutes : Prop :=
  ∀ (s : State) core (o : MatOp) rest (op : AccOp) (tile a b : Nat) (f : BitVec 32) (pos : Word) (cv : Option Conv),
    s.spilled = [] → (s.coreAt core).matQ = o :: rest → o.executed = false → (∀ x ∈ rest, x.seq ≠ o.seq) →
    s.buffersBad core o = false →
    (o.kind = .mm tile f a b ∧ op = .mm ∧ cv = none ∧ pos = 0 ∨ o.kind = .mms tile f a b ∧ op = .mms ∧ cv = none ∧ pos = 0 ∨
      o.kind = .mmconv tile f pos b ∧ op = .mmconv ∧ a = 0 ∧ (∃ c, cv = some c ∧ s.convRec? o.ctx (pos.toNat % 65536) = some c)) →
    let w := fmtWord f
    let wide := w.acc == 1
    let cell (h r c : Nat) : Nat × Flags :=
      mmCell (if wide then a112 else a56) (accBits (s.coreAt h).tiles wide tile r c)
        ((s.aRow core o.ctx op w a pos cv r).map fun x => (x.1, (s.bCol h op w b c)[x.2]?.getD (.fin false 0 0)))
        (s.scaleExp core h op w a b r c)
    ∃ t fl, exec (.matrixOpExecute core) s = .next t ∧ t = { s with cores := t.cores } ∧
      (t.coreAt core).matQ = { o with executed := true, flags := fl, result := 0 } :: rest ∧
      (∀ n, n < 5 → (fl.getLsbD n = true ↔ ∃ h ∈ halves2 core o.pair, ∃ r c, r < 128 ∧ c < 128 ∧ (cell h r c).2.getLsbD n = true)) ∧
      (∀ h r c, r < 128 → c < 128 →
        (∀ n, (h ∉ halves2 core o.pair ∨ (n ≠ tile ∧ (wide = false ∨ n ≠ tile + 1))) →
          cellAt (t.coreAt h).tiles n r c = cellAt (s.coreAt h).tiles n r c) ∧
        (h ∈ halves2 core o.pair → cellAt (t.coreAt h).tiles tile r c = BitVec.ofNat 56 (cell h r c).1 ∧
          (wide = true → cellAt (t.coreAt h).tiles (tile + 1) r c = BitVec.ofNat 56 ((cell h r c).1 / 2 ^ 56)))) ∧
      ∀ h, (t.coreAt h).abuf = (s.coreAt h).abuf ∧ (t.coreAt h).wbuf = (s.coreAt h).wbuf

/-- R157, R158, R161, R162, R163, R380: what the other queued operations do when they execute: `mmz` zeroes the tiles of its mask,
`aload` fills tiles from the image, `acvt` writes the image and counts the overflows of an image of reals, `mmc` accumulates
complex products, `amax` finds the largest magnitude. With no row of a context spilled. One that meets an uncorrectable error in a
buffer or a tile stops its context with cause 18 and subcause 4 and changes no byte, no buffer and no cell. -/
def Clause.OtherArrayOperations : Prop :=
  ∀ (s : State) core (o : MatOp) rest, s.spilled = [] → (s.coreAt core).matQ = o :: rest → o.executed = false →
    (∀ x ∈ rest, x.seq ≠ o.seq) →
    (s.buffersBad core o = true → ∀ c, s.ctx? o.ctx = some c → c.stopped = none →
      ∃ t r, exec (.matrixOpExecute core) s = .next t ∧ SameBytes s t ∧ t.threads = s.threads ∧
        t.ctx? o.ctx = some { c with stopped := some { cause := 18, sub := 4 } } ∧
        (t.coreAt core).matQ = r :: rest ∧ r.executed = true ∧
        ∀ h, (t.coreAt h).abuf = (s.coreAt h).abuf ∧ (t.coreAt h).wbuf = (s.coreAt h).wbuf ∧ (t.coreAt h).tiles = (s.coreAt h).tiles) ∧
    (s.buffersBad core o = false → ∃ t p, exec (.matrixOpExecute core) s = .next t ∧ t = { s with cores := t.cores } ∧
      (t.coreAt core).matQ = p :: rest ∧ p.executed = true ∧ p.lanes = o.lanes ∧ p.seq = o.seq ∧
      (∀ m, o.kind = .mmz m → ∀ h n r c, r < 128 → c < 128 → cellAt (t.coreAt h).tiles n r c =
        if h ∈ halves2 core o.pair ∧ m.getLsbD n = true then 0 else cellAt (s.coreAt h).tiles n r c) ∧
      (∀ tile a ctl, o.kind = .aload tile a ctl → (ctlOf ctl).cx = false → ∀ h r c, h < (if (ctlOf ctl).both then 2 else 1) →
        r < 128 → c < 128 →
        let v := aloadCell (ctlOf ctl) (bufNat (s.coreAt core).abuf (a + imgOff (ctlOf ctl) r (128 * h + c)) (imgEl (ctlOf ctl)))
        cellAt (t.coreAt (core + h)).tiles tile r c = BitVec.ofNat 56 v ∧
          ((ctlOf ctl).wide = true → cellAt (t.coreAt (core + h)).tiles (tile + 1) r c = BitVec.ofNat 56 (v / 2 ^ 56))) ∧
      (∀ a ctl, o.kind = .acvt a ctl → (ctlOf ctl).cx = false →
        let c := ctlOf ctl
        let el (r j : Nat) : Nat × Flags := acvtEl c (accBits (s.coreAt (core + j / 128)).tiles c.wide c.tile r (j % 128))
        (∀ r j, r < 128 → j < imgCols c →
          readMap 0 (t.coreAt core).abuf (a + imgOff c r j) (imgEl c) = toBytes (el r j).1 (imgEl c)) ∧
        (∀ x, (x < a ∨ a + imgBytes c ≤ x) → SMap.get 0 (t.coreAt core).abuf x = SMap.get 0 (s.coreAt core).abuf x) ∧
        p.result = BitVec.ofNat 64 ((List.range (128 * imgCols c)).countP fun n =>
          (el (imgPos c n).1 (imgPos c n).2).2 &&& flagOf != 0)) ∧
      (∀ tile a ctl, o.kind = .aload tile a ctl → (ctlOf ctl).cx = true → ∀ h r c, h < (if (ctlOf ctl).both then 2 else 1) →
        r < 128 → c < 128 →
        let v (part : Nat) := aloadCell (ctlOf ctl)
          (bufNat (s.coreAt core).abuf (a + imgOff (ctlOf ctl) r (128 * h + c) + 8 * part) 8)
        ∀ part, part < 2 → cellAt (t.coreAt (core + h)).tiles (2 * part) r c = BitVec.ofNat 56 (v part) ∧
          cellAt (t.coreAt (core + h)).tiles (2 * part + 1) r c = BitVec.ofNat 56 (v part / 2 ^ 56)) ∧
      (∀ a ctl, o.kind = .acvt a ctl → (ctlOf ctl).cx = true → ∀ r j part, r < 128 → j < imgCols (ctlOf ctl) → part < 2 →
        readMap 0 (t.coreAt core).abuf (a + imgOff (ctlOf ctl) r j + 8 * part) 8 =
          toBytes (acvtEl (ctlOf ctl) (accBits (s.coreAt (core + j / 128)).tiles (ctlOf ctl).wide (2 * part) r (j % 128))).1 8) ∧
      (∀ f a b, o.kind = .mmc f a b → ∀ h ∈ halves2 core o.pair, ∀ r c, r < 128 → c < 128 →
        let w := fmtWord f
        let elA (k part : Nat) : Ext := truncPlanes 0 w.pA (decodeF fp64 (bufNat (s.coreAt core).abuf (a + 64 * r + 16 * k + 8 * part) 8))
        let elB (k part : Nat) : Ext := placedEl (s.coreAt h).wbuf (b + 4608 * part) 4 7 w.pB k c
        let v := mmcCell w (accBits (s.coreAt h).tiles true 0 r c) (accBits (s.coreAt h).tiles true 2 r c)
          ((List.range 4).map fun k => ((elA k 0, elA k 1), (elB k 0, elB k 1)))
        cellAt (t.coreAt h).tiles 0 r c = BitVec.ofNat 56 v.1.1 ∧ cellAt (t.coreAt h).tiles 1 r c = BitVec.ofNat 56 (v.1.1 / 2 ^ 56) ∧
        cellAt (t.coreAt h).tiles 2 r c = BitVec.ofNat 56 v.2.1 ∧
        cellAt (t.coreAt h).tiles 3 r c = BitVec.ofNat 56 (v.2.1 / 2 ^ 56)) ∧
      ∀ ctl, o.kind = .amax ctl →
        let c := ctlOf ctl
        let at' (h n : Nat) : Ext := decodeF (accFmt c.wide) (accBits (s.coreAt (core + h)).tiles c.wide c.tile (n / 128) (n % 128))
        let hs := if c.both then 2 else 1
        ((∃ h n, h < hs ∧ n < 16384 ∧ (at' h n).isNan = true) → p.result = 0x7ff8000000000000) ∧
        ((∀ h n, h < hs → n < 16384 → (at' h n).isNan = false) → ∃ m, p.result = BitVec.ofNat 64 (roundFmt m fp64 rup false).1 ∧
          (m = .fin false 0 0 ∨ ∃ h n, h < hs ∧ n < 16384 ∧ m = (at' h n).abs) ∧
          ∀ h n, h < hs → n < 16384 → m.lt (at' h n).abs = false))

/-- R37, R67, R149: the oldest operation retires: it leaves the queue, its lane gathers the flags, and the window that waits
for it holds the result. One lane, which does not stand at the close of the window. -/
def Clause.MatrixOperationRetires : Prop :=
  ∀ (s : State) core (o : MatOp) rest l (ws vs : List Window) x, s.Unique → (s.coreAt core).matQ = o :: rest → o.executed = true →
    o.lanes = [l] → s.thread l ∈ s.threads → (s.thread l).ctx = o.ctx → (s.thread l).wait ≠ .held →
    (s.thread l).windows = ws ++ x :: vs → x.tag = 2 * o.seq + 2 → x.arrival = .waiting → (∀ w ∈ ws, w.tag ≠ 2 * o.seq + 2) →
    ∃ t, exec (.matrixOpRetire core) s = .next t ∧ (t.coreAt core).matQ = rest ∧ t = { s with threads := t.threads, cores := t.cores } ∧
      t.thread l = { s.thread l with
        flags := (s.thread l).flags ||| o.flags
        windows := ws ++ { x with arrival := .value o.result } :: vs } ∧
      ∀ y, y ≠ l → t.thread y = s.thread y

/-! ### The quay processor (spec/09) -/

/-- R169, R170: `qkick` takes the core's next sequence number and puts its mailbox address into the queue, or hands it to the
quay thread that has waited longest; `qwaitk` takes the oldest kick of its context, or waits. What a thread takes up is an edge: the quay
processor's notice grows by the kick's (R236). Of a quay row that need not be claimed. -/
def Clause.KicksPass : Prop :=
  ∀ s i (d a : Reg) (k : BitVec 4) l, s.Unique → i.lanes.head? = some l →
    (Issued s i .thread [d, a] → (∀ x ∈ i.lanes, x.berth < 32 ∧ (s.thread x).rd a = (s.thread l).rd a) →
      s.quayOut i.core = false → (s.coreAt i.core).kicks.length < 32 → s.unacked i.core i.ctx = false → (s.coreAt i.core).rowA = some i.ctx →
      let x := (s.thread l).rd a
      x.toNat % 64 = 0 → x.toNat + 64 ≤ 65536 * (s.coreAt i.core).split →
      let kick : Kick := { ctx := i.ctx, mailbox := x, notice := ((s.taskOf? l.core l.berth).map (·.notice)).getD {} }
      let results (t : State) : Prop :=
        (t.coreAt i.core).kickCount = (s.coreAt i.core).kickCount + 1 ∧
        ∀ y ∈ i.lanes, Result s t (i.pc + 4) y d k (BitVec.ofNat 64 ((s.coreAt i.core).kickCount + 1))
      (s.firstWaiter i.core = none → ∃ t, exec (.qkick d a k) s = .next t ∧ results t ∧
        t = { s with issue := none, threads := t.threads, cores := t.cores } ∧
        (t.coreAt i.core).kicks = (s.coreAt i.core).kicks ++ [kick] ∧ ∀ y, y ∉ i.lanes → t.thread y = s.thread y) ∧
      ∀ u dest, s.firstWaiter i.core = some (u, dest) → (s.coreAt i.core).qctx = some i.ctx → u.id.berth = quayBerth →
        (∀ q ∈ (s.coreAt i.core).kicks, q.ctx ≠ i.ctx) →
        ∃ t, exec (.qkick d a k) s = .next t ∧ results t ∧ (t.coreAt i.core).kicks = (s.coreAt i.core).kicks ∧
          (t.coreAt i.core).qnotice = (s.coreAt i.core).qnotice.merge kick.notice ∧
          t.thread u.id = { u.setPhys dest x with pc := u.pc + 4, wait := .ready } ∧
          ∀ y, y ∉ i.lanes → y ≠ u.id → t.thread y = s.thread y) ∧
    (Issued s i .quay [d] → i.lanes = [l] →
      (∀ q rest, takeKick (s.thread l).ctx (s.coreAt l.core).kicks = some (q, rest) →
        ∃ t, exec (.qwaitk d) s = .next t ∧ OnlyThread s t l ∧ (t.coreAt l.core).kicks = rest ∧
          (t.coreAt l.core).qnotice = (s.coreAt l.core).qnotice.merge q.notice ∧
          Wrote (s.thread l) (t.thread l) (i.pc + 4) d q.mailbox 0) ∧
      (takeKick (s.thread l).ctx (s.coreAt l.core).kicks = none → i.quay = true →
        ∃ t, exec (.qwaitk d) s = .next t ∧ OnlyThread s t l ∧
          t.thread l = { s.thread l with wait := .qwaiting (s.coreAt l.core).qplace (destPhys (s.thread l) d) } ∧
          t.coreAt l.core = { s.coreAt l.core with qplace := (s.coreAt l.core).qplace + 1, ring := (t.coreAt l.core).ring }))

/-- R171, R173, R174, R175: a copy instruction or a `qstamp` whose checks pass takes the next number of its core's timeline,
which it returns; the copy is in flight with the descriptor, the stamp address and the ranges that it asks for, behind what the
core's accesses have still to perform, and what the quay threads have stored goes home before it (R236). A descriptor that is
out of line stops the quay thread with a record (R168). -/
def Clause.CopiesStart : Prop :=
  ∀ s i (d a b : Reg) (f : BitVec 4) l, s.Unique → Issued s i .quay [d, a, b] → i.quay = true → i.lanes = [l] → l.berth = quayBerth →
    (s.coreAt l.core).rowA = some (s.thread l).ctx → (∀ y ∈ (s.coreAt l.core).copies, y.num ≤ (s.coreAt l.core).timeline) →
    (s.coreAt l.core).rowW = some (s.thread l).ctx →
    let w := s.thread l
    let lim := 65536 * (s.coreAt l.core).split
    let desc : List Word := (List.range 8).map fun n => BitVec.ofNat 64 (bufNat (s.coreAt l.core).abuf ((w.rd a).toNat + 8 * n) 8)
    let num := (s.coreAt l.core).timeline + 1
    let begun (t : State) : Prop :=
      Wrote w (t.thread l) (i.pc + 4) d (BitVec.ofNat 64 num) 0 ∧ (t.coreAt l.core).timeline = num ∧
      (∀ ln ∈ s.wroteBy w.ctx (quayFrame l.core), ∀ y, t.line? l.core w.ctx ln = some y → y.dirty = 0) ∧
      (s.wroteBy w.ctx (quayFrame l.core) = [] →
        t = { s with issue := none, threads := t.threads, cores := t.cores, l1 := t.l1, code := t.code, pendings := t.pendings }) ∧
      ∀ m, m ≠ l → (∀ n, (s.thread m).wait ≠ .draining n) → t.thread m = s.thread m
    let starts (ins : Instr) (kind : CopyKind) (k : BitVec 4) (job : Except (Nat × Word) Job) : Prop :=
      ((w.rd a).toNat % 64 = 0 → (w.rd a).toNat + 64 ≤ lim → s.inFlight l.core < 64 →
        ∀ j, job = .ok j → copyAddrBad j.bufs lim (w.rd b) = none →
        (j.pair = true → isLeader l.core = true ∧ (s.coreAt (l.core + 1)).pairCtx = some w.ctx ∧
          (s.coreAt (l.core + 1)).rowA = some w.ctx ∧ (s.coreAt (l.core + 1)).rowW = some w.ctx) → ∃ t, exec ins s = .next t ∧ begun t ∧
          (j.total ≠ 0 → ∃ tags, (∀ n ∈ s.unperformed l.core w.ctx, n ∈ tags) ∧
            { num := num, kind := kind, ctx := w.ctx, quay := l.tid, k := k, desc := desc, record := j.record, stamp := w.rd b,
              dst := j.dst, dst2 := j.dst2, src := j.src, total := j.total, after := s.matSeq, behind := tags }
                ∈ (t.coreAt l.core).copies)) ∧
      ((w.rd a).toNat % 64 ≠ 0 → s.inFlight l.core < 64 → ∃ t r, exec ins s = .next t ∧ OnlyThread s t l ∧ t.cores = s.cores ∧
        t.thread l = { w with wait := .faulted } ∧
        (t.vf (s.vfOf i.ctx)).fqWaiting = (s.vf (s.vfOf i.ctx)).fqWaiting ++ [r] ∧ r.src = 3 ∧ r.cause = 2 ∧ r.fva = w.rd a ∧
        r.ifa = i.pc ∧ r.qt = l.tid ∧ r.core = l.core)
    starts (.qcopy f d a b) .qcopy f (s.picked.qcopyJob w.ctx (w.rd a) f desc) ∧
    starts (.qlin d a b) .qlin 0 (s.picked.otherJob l.core w.ctx (w.rd a) .qlin desc) ∧
    starts (.qgath d a b) .qgath 0 (s.picked.otherJob l.core w.ctx (w.rd a) .qgath desc) ∧
    starts (.qscat d a b) .qscat 0 (s.picked.otherJob l.core w.ctx (w.rd a) .qscat desc) ∧
    starts (.qfill d a b) .qfill 0 (s.picked.otherJob l.core w.ctx (w.rd a) .qfill desc) ∧
    starts (.qred d a b) .qred 0 (s.picked.otherJob l.core w.ctx (w.rd a) .qred desc) ∧
    starts (.qcbk d a b) .qcbk 0 (s.picked.otherJob l.core w.ctx (w.rd a) .qcbk desc) ∧
    ((w.rd b).toNat % 8 = 0 → (w.rd b).toNat < 2 ^ 48 → ∃ t, exec (.qstamp d b) s = .next t ∧ begun t ∧
      (w.rd b ≠ 0 → ∃ tags, { num := num, kind := .qstamp, ctx := w.ctx, quay := l.tid, stamp := w.rd b, after := s.matSeq,
                              behind := tags, retired := true } ∈ (t.coreAt l.core).copies))

/-- R174: the timeline is read, and drained. -/
def Clause.TimelineReads : Prop :=
  ∀ s i (d : Reg), Issued s i .quay [d] →
    Writes s i (.qtlIssued d) 4 d (fun t => BitVec.ofNat 64 (s.coreAt t.id.core).timeline) ∧
    Writes s i (.qtlDone d) 4 d (fun t => BitVec.ofNat 64 (s.coreAt t.id.core).stamped) ∧
    ∀ l, i.lanes = [l] → i.quay = true →
      let k := s.coreAt l.core
      (k.timeline ≤ k.stamped → ∃ t, exec .qdrain s = .next t ∧ OnlyThread s t l ∧ t.thread l = (s.thread l).advance (i.pc + 4) [] ∧
        SameBytes s t ∧ ∀ x ∈ t.l1, x.core = l.core → x.ctx = (s.thread l).ctx → x.sealed = false →
          (k.qnotice.all || k.qnotice.names x.line) = true → ∀ j, j < 128 → x.valid.getLsbD j = true → x.dirty.getLsbD j = true) ∧
      (k.stamped < k.timeline → ∃ t, exec .qdrain s = .next t ∧ OnlyThread s t l ∧ SameBytes s t ∧
        t.thread l = { s.thread l with wait := .draining k.timeline })

/-- R187: `qmoor` and `qunmoor` of a range that is no whole number of lines answer 4 and 0; of a legal one, `qmoor` moors its
lines against the VF's quota or answers why not, and `qunmoor` gives back the lines of the VF that it names. Where several
refusals apply, which comes first is the model's choice (DESIGN CHOICE, log 152), and so is the status where no way of the mask can take a
line (DESIGN CHOICE, log 68). -/
def Clause.Mooring : Prop :=
  ∀ (s q : State) i (d a b : Reg) l (hs : List (Option (Nat × Nat))), Issued s i .quay [d, a, b] → i.lanes = [l] →
    let w := s.thread l
    let base := (w.rd a).toNat
    let len := (w.rd b).toNat
    let v := s.vfOf w.ctx
    let legal := base % 128 = 0 ∧ len % 128 = 0 ∧ 128 ≤ len ∧ len ≤ 2 ^ 26
    let answers (ins : Instr) (n : Word) (p : State → Prop) : Prop :=
      ∃ t, exec ins s = .next t ∧ OnlyThread s t l ∧ SameBytes s t ∧ Wrote w (t.thread l) (i.pc + 4) d n 0 ∧ p t
    (¬legal → answers (.qmoor d a b) 4 (fun t => t.sc = s.sc ∧ t.vfs = s.vfs) ∧
      answers (.qunmoor d a b) 0 (fun t => t.sc = s.sc ∧ t.vfs = s.vfs)) ∧
    (legal → s.picked.moorLines l.core w.ctx base (len / 128) = (hs, q) →
      (q.sc.map fun x => (x.stack, x.slice, x.set, x.way)).Nodup → (q.sc.map fun x => (x.stack, x.off)).Nodup →
      let lines := (hs.filterMap fun o => o.map (·.1)).eraseDups
      let new := lines.filter fun x => !q.mooredBy v x
      let named := eachOnce (hs.filterMap id)
      let full := ∃ x ∈ new, 16 ≤ q.mooredIn new x + (new.filter (sameSet x)).length
      (none ∈ hs → answers (.qmoor d a b) 3 (fun t => t.sc = q.sc ∧ t.vfs = q.vfs)) ∧
      (none ∉ hs →
        ((s.vf v).mquota < (s.vf v).mused + new.length → answers (.qmoor d a b) 1 (fun t => t.sc = q.sc ∧ t.vfs = q.vfs)) ∧
        ((s.vf v).mused + new.length ≤ (s.vf v).mquota → full → answers (.qmoor d a b) 2 (fun t => t.sc = q.sc ∧ t.vfs = q.vfs)) ∧
        ((s.vf v).mused + new.length ≤ (s.vf v).mquota → ¬full → q.moorAll v w.ctx named = none →
          ∃ n ∈ [(1 : Word), 2], answers (.qmoor d a b) n (fun t => t.sc = q.sc ∧ t.vfs = q.vfs)) ∧
        ((s.vf v).mused + new.length ≤ (s.vf v).mquota → ¬full → (q.moorAll v w.ctx named).isSome →
          answers (.qmoor d a b) 0 (fun t => (t.vf v).mused = (s.vf v).mused + new.length ∧
            ∀ x, lines = [x] → t.mooredBy v x = true))) ∧
      let mine := lines.filter fun x => q.mooredBy v x
      answers (.qunmoor d a b) (BitVec.ofNat 64 mine.length) (fun t => (t.vf v).mused = (s.vf v).mused - mine.length ∧
        ∀ x ∈ lines, t.mooredBy v x = false))

/-- R167, R237, R324, R325: the quay processor turns, when it is free, to the context of the oldest kick among those whose context is on
the core: four quay threads start at the context's quay entry with registers of zero, and its notice names what the context's
copies had written here before. A quay processor that was spilled from the core comes back as it was. -/
def Clause.QuayContextStarts : Prop :=
  (∀ (s : State) core (ks : List Kick) (q : Kick) rest (c : Ctx), (∀ x ∈ s.spilled, x.core = core → x.quay = none) →
    let on (ctx : Nat) : Prop := (s.coreAt core).tenant = some (s.vfOf ctx) ∧ s.gangIn ctx = true
    (s.coreAt core).kicks = ks ++ q :: rest → (∀ o ∈ ks, ¬on o.ctx) → on q.ctx → s.ctx? q.ctx = some c →
    (s.coreAt core).qctx ≠ some q.ctx → s.quayFree core = true →
    ∃ t, exec (.qpContextStart core) s = .next t ∧ (t.coreAt core).qctx = some q.ctx ∧
      (t.coreAt core).qnotice = (s.coreAt core).noticeFor q.ctx ∧
      (∀ j, j < 4 → t.thread ⟨core, quayBerth, j⟩ = { id := ⟨core, quayBerth, j⟩, ctx := q.ctx, pc := c.qentry }) ∧
      ((∀ o, (s.coreAt core).qctx = some o → on o) →
        t = { s with threads := t.threads, cores := t.cores } ∧
        (∀ m, (m.core ≠ core ∨ m.berth ≠ quayBerth) → t.thread m = s.thread m) ∧ ∀ h, h ≠ core → t.coreAt h = s.coreAt h)) ∧
  ∀ (s : State) core (x : Spilled) (g : QpImage) (c : Ctx), s.spilled = [x] → x.core = core → x.quay = some g → s.ctx? x.ctx = some c →
    (s.coreAt core).tenant = some c.vf → s.gangIn x.ctx = true → (s.coreAt core).qctx = none →
    (g.threads.map (·.id)).Nodup → (∀ u ∈ g.threads, u.id.core = core ∧ u.id.berth = quayBerth ∧ u.wait ≠ .held) →
    ∃ t, exec (.qpContextStart core) s = .next t ∧ (t.coreAt core).qctx = some x.ctx ∧ (∀ u ∈ g.threads, t.thread u.id = u) ∧
      (t.coreAt core).kicks = g.kicks ++ (s.coreAt core).kicks ∧
      (t.coreAt core).qnotice = g.notice.merge ((s.coreAt core).noticeFor x.ctx) ∧ (t.spillOf core x.ctx).quay = none

/-- R172 to R174, R176, R181 to R186: what the steps of a copy do. A unit of a copy lands in its buffers, or at its home: the bytes of a
linear copy, a fill or a gather; those of a scatter in ascending address, of equal addresses the later entry last; the atomic
result of a reduction; the elements of a `qcopy`, in the buffer's layout, in the placed form, or in the tensor. A copy whose units are done
retires; its stamp is written after every earlier one; a codebook is in its slot, whole (DESIGN CHOICE, log 151), after the earlier
matrix operations, and who had loaded the slot before keeps it as loaded (DEDUCED, log 146). The units are performed in the order of
their numbers (DESIGN CHOICE, log 11), those of a pair's panels the leader's first (DESIGN CHOICE, log 173). Of device memory without a copy
of the line in an L1; with no row of a context spilled, and none moved. -/
def Clause.CopiesProceed : Prop :=
  ∀ (s : State) core num (c : Copy), s.Unique → s.spilled = [] → c.rows = none → s.copy? core num = some c →
    ((s.coreAt core).copies.map (·.num)).Nodup →
    let u := c.done
    let w (n : Nat) : Nat := dw c.desc n
    let plan := s.unitOf core c u
    let performed (p : State → Prop) : Prop :=
      ∃ t, exec (.copyUnit core num) s = .next t ∧ t.copy? core num = some { c with done := u + 1, fetched := [] } ∧
        (∀ m, t.thread m = s.thread m) ∧ p t
    let buf (x : State) (h sp : Nat) : SMap Byte := if sp = 1 then (x.coreAt h).abuf else (x.coreAt h).wbuf
    let bare (x : State) (a : Nat) : Prop := ∀ l ∈ x.l1, l.home ≠ .device (a / 128 * 128)
    let inBuffers (q : State) (sp : Nat) (cores : List Nat) (a : Nat) (bs : List Byte) : Prop :=
      s.heldUnit c plan bs.length = false → performed fun t => SameBytes q t ∧ (∀ h sp', (sp' ≠ sp ∨ h ∉ cores) → buf t h sp' = buf s h sp') ∧
        ∀ h ∈ cores, readMap 0 (buf t h sp) a bs.length = bs ∧
          ∀ x, (x < a ∨ a + bs.length ≤ x) → SMap.get 0 (buf t h sp) x = SMap.get 0 (buf s h sp) x
    let atHome (q : State) (a n : Nat) (acc : Acc) (new : List Byte → List Byte) (ws : Nat → List Byte → List (Nat × Byte)) : Prop :=
      ∀ tr r x, q.translate core c.ctx a acc = (.ok tr, r) → tr.target = .device x → x % 8 = a % 8 →
        r.sealedOn (dieOf core) c.ctx a n = false → bare r x → (acc = .atomic → r.bad x = false) →
        let old := r.viewBytes tr.vf tr.key x n
        (r.homeWrite { vf := tr.vf, gpa := tr.gpa, key := tr.key, ce := tr.ce, tc := 1, atomic := acc == .atomic } x (ws x old)).1 = .done →
        performed fun t => t.homeBytes tr.key x n = new old ∧
          (∀ y, blockOf y = blockOf x → (y < x ∨ x + n ≤ y) → t.homeByte tr.key y = r.viewByte tr.vf tr.key y) ∧
          ∀ slot y, blockOf y ≠ blockOf x → t.homeByte slot y = r.homeByte slot y
    let lands (q : State) (sp : Nat) (cores : List Nat) (a : Nat) (bs : List Byte) : Prop :=
      (sp ≠ 0 → inBuffers q sp cores a bs) ∧ (sp = 0 → atHome q a 8 .store (fun _ => bs) fun x _ => withAddrs x bs)
    let reads (sp a : Nat) (q : State) (bs : List Byte) : Prop :=
      (sp ≠ 0 ∧ q = s ∧ bs = readMap 0 (buf s core sp) a 8) ∨
      (sp = 0 ∧ a % 8 = 0 ∧ ∃ tr r x, s.translate core c.ctx a .load = (.ok tr, r) ∧ tr.target = .device x ∧ r.bad x = false ∧ bare r x ∧
        bs = r.viewBytes tr.vf tr.key x 8 ∧ q = (r.readAt tr.vf 1 tr.key x 8).2)
    (s.copyMoves core c = true →
      (c.kind = .qfill → w 0 % 4 ≤ 2 → lands s (w 0 % 4) (copyCores core (flag (w 0) 2)) (w 1 + 8 * u) (toBytes (w 3) 8)) ∧
      (c.kind = .qlin → w 0 < 32 → w 0 % 4 ≤ 2 → w 0 / 4 % 4 ≤ 2 → ∀ q bs, reads (w 0 % 4) (w 1 + 8 * u) q bs →
        lands q (w 0 / 4 % 4) (copyCores core (flag (w 0) 4)) (w 2 + 8 * u) bs) ∧
      (∀ k, k ≤ 4 → w 0 = k → let es := 8 * 2 ^ k
        let entry (i : Nat) : Nat := (w 1 + es * ofBytes (readMap 0 (s.coreAt core).abuf (w 2 + 4 * i) 4)) % 2 ^ 64
        (c.kind = .qgath → ∀ q bs, reads 0 ((entry (u / 2 ^ k) + 8 * (u % 2 ^ k)) % 2 ^ 64) q bs → lands q 1 [core] (w 4 + 8 * u) bs) ∧
        (c.kind = .qscat → ((s.scatOrder core c.desc).Perm ((List.range (w 3)).map fun i => (entry i, i))) ∧
          ((s.scatOrder core c.desc).Pairwise fun x y => x.1 < y.1 ∨ (x.1 = y.1 ∧ x.2 < y.2)) ∧
          ∀ a i, (s.scatOrder core c.desc)[u / 2 ^ k]? = some (a, i) → ∀ q bs, reads 1 (w 4 + es * i + 8 * (u % 2 ^ k)) q bs →
            lands q 0 [] ((a + 8 * (u % 2 ^ k)) % 2 ^ 64) bs)) ∧
      (c.kind = .qred → ∀ o ∈ [(0, AtomOp.add, 8), (1, .fadd, 8), (2, .fadd, 4), (3, .fmax, 8), (4, .famax, 8), (5, .umax, 8)], w 0 = o.1 →
        let n := o.2.2
        let v := ofBytes (readMap 0 (s.coreAt core).abuf (w 1 + n * u) n)
        atHome s (w 2 + n * u) n .atomic (fun old => toBytes (atomApply o.2.1 (8 * n) (ofBytes old) v) n)
          fun x old => withAddrs x (toBytes (atomApply o.2.1 (8 * n) (ofBytes old) v) n)) ∧
      (c.kind = .qcopy →
        let d := qdescOf c.k c.desc
        let r := tensorOf c.record
        let conj (x : Nat) : Nat := if d.conj then conjBits r.etype x else x
        (d.dir1 = true → ∀ un, (qoutUnits d r)[u]? = some un →
          let image (p : Nat) : Nat := if r.etype = 8 then bufNat (s.coreAt core).abuf (d.addr + p / 2) 1 / 16 ^ (p % 2) % 16
            else conj (bufNat (s.coreAt core).abuf (d.addr + p * elBytes r.etype) (elBytes r.etype))
          let half (i : Nat) : Option Nat := (((qoutHalves d r).filter fun h => h.1 == 16 * un + i).getLast?).map fun h =>
            image (h.2 / ebn r.etype) / 16 ^ (h.2 % ebn r.etype) % 16
          atHome s (8 * un) 8 .store (fun old => (List.range 8).map fun i =>
              BitVec.ofNat 8 ((half (2 * i)).getD (((nth? old i).getD 0).toNat % 16) + 16 * (half (2 * i + 1)).getD (((nth? old i).getD 0).toNat / 16)))
            fun x old => someAddrs x (blendBytes old (plan.make []))) ∧
        (d.dir1 = false → ∀ m q, s.copyReads core c plan [] plan.fuel = (.ok m, q) →
          let entry (e : Nat) : List Byte := [BitVec.ofNat 8 (8 + 16 * (e % 16)), BitVec.ofNat 8 (e / 16)]
          let scale (i : Nat) (e : Nat) : Prop :=
            let row : Int := (nth? d.org 1).getD 0 + (i : Nat)
            if 0 ≤ row ∧ row < (at_ r.size 1 : Nat) then
              0 ≤ (nth? d.org 0).getD 0 ∧ ds4Scan (fun j => m.get? ((r.sbase + r.sstride * row.toNat + j) % 2 ^ 64))
                (((nth? d.org 0).getD 0 / 32).toNat + 1) 0 255 true = .ok e
            else e = 127
          (d.planes = false →
            let half (h : Nat) : Nat := if r.count * ebn r.etype ≤ h then 0
              else conj (m.elem r (r.elem d.org (boxIndex d r (h / ebn r.etype)))) / 16 ^ (h % ebn r.etype) % 16
            let main := (qcopyBytes d r + 7) / 8
            let rows := if d.dsd then at_ r.box 1 else 0
            let which := if d.buf = 0 then mergeUnits d.addr main d.saddr rows u else if u < main then (false, u) else (true, u - main)
            (∀ v, which = (false, v) → inBuffers q (d.buf + 1) (copyCores core d.pair) (d.addr + 8 * v)
              ((List.range (min 8 (qcopyBytes d r - 8 * v))).map fun i => BitVec.ofNat 8 (half (16 * v + 2 * i) + 16 * half (16 * v + 2 * i + 1)))) ∧
            ∀ i e, which = (true, i) → scale i e → inBuffers q 1 (copyCores core d.pair) (d.saddr + 2 * i) (entry e)) ∧
          (d.planes = true →
            let kk := panelK d r
            let one := placedBytes r.etype kk
            let f := placedFmt r.etype
            let per := one * (if r.etype = 9 then 2 else 1) / 8
            let all := per + if d.dsd then 128 else 0
            let side := u / all
            let v := u % all
            let raw (im : Bool) (x : Nat) : Nat :=
              let col := x % 128 + 128 * side
              s.placedBits core c.ctx d r im (m.elem r (r.elem d.org (if d.t then [x / 128, col, 0, 0, 0] else [col, x / 128, 0, 0, 0])))
            let byte (o : Nat) : Nat :=
              let im := decide (one ≤ o)
              let b := if im then o - one else o
              if b < 256 * kk then (placeEl f (raw im (b / 2))).1 / 256 ^ (b % 2) % 256
              else (placeEl f (raw im ((b - 256 * kk) % (128 * kk)))).2 / 256 ^ (slices f - 1 - (b - 256 * kk) / (128 * kk)) % 256
            (v < per → inBuffers q 2 [core + side] (d.addr + 8 * v) ((List.range 8).map fun i => BitVec.ofNat 8 (byte (8 * v + i)))) ∧
            ∀ e, per ≤ v → scale (128 * side + (v - per)) e → inBuffers q 2 [core + side] (d.addr + 8 * per + 2 * (v - per)) (entry e))))) ∧
    (c.retired = false → c.parked = false → c.total ≤ c.done → s.copyAwaits core num = false →
      ∃ t, exec (.copyRetire core num) s = .next t ∧ (s.framesBehind core c = [] → SameBytes s t) ∧
        (c.stamp ≠ 0 → c.abandoned = false → t.copy? core num = some { c with retired := true }) ∧
        (c.stamp = 0 → firstCopy (s.coreAt core).copies = some c →
          t.copy? core num = none ∧ num ≤ (t.coreAt core).stamped)) ∧
    (firstCopy (s.coreAt core).copies = some c → c.retired = true → c.parked = false → c.stampSent = false →
      (c.held = false ∨ s.gangIn c.ctx = true) →
      ((c.stamp = 0 ∨ c.abandoned = true) → ∃ t, exec (.stampWrite core) s = .next t ∧ t.copy? core num = none ∧
        num ≤ (t.coreAt core).stamped ∧ SameBytes s t) ∧
      ∀ tr q a, c.stamp ≠ 0 → c.abandoned = false → s.translate core c.ctx c.stamp.toNat .store = (.ok tr, q) →
        tr.target = .device a → a % 8 = 0 → q.sealedOn (dieOf core) c.ctx c.stamp.toNat 8 = false →
        (q.writeAt { vf := tr.vf, gpa := tr.gpa, key := tr.key, ce := tr.ce, tc := 1, kind := .stamp c.ctx (q.stampNotice core c.ctx) }
          a (withAddrs a (toBytes num 8))).1 = .done →
        ∃ t, exec (.stampWrite core) s = .next t ∧ t.copy? core num = none ∧ num ≤ (t.coreAt core).stamped ∧
          t.homeBytes tr.key a 8 = toBytes num 8) ∧
    (c.kind = .qcbk → c.done = 1 → c.parked = false → c.retired = false →
      (∀ o ∈ (s.coreAt (leaderOf core)).matQ, c.after ≤ o.seq) →
      ∃ t, exec (.codebookSlotWrite core num) s = .next t ∧ t = { s with cores := t.cores } ∧
        t.copy? core num = some { c with done := 2 } ∧
        (∃ ids, SMap.get none (t.coreAt (leaderOf core)).codebook (w 0 % 32) = some (ids, c.record.setWidth 256) ∧
          ∀ x, x ∈ ids ↔ x = c.ctx ∨ ∃ old b, SMap.get none (s.coreAt (leaderOf core)).codebook (w 0 % 32) = some (old, b) ∧ x ∈ old) ∧
        ∀ n, n ≠ w 0 % 32 → SMap.get none (t.coreAt (leaderOf core)).codebook n = SMap.get none (s.coreAt (leaderOf core)).codebook n)

/-! ### Translation, faults and sectors (spec/15, spec/16) -/

/-- R117, R264 to R271: an access that a TLB entry serves ends where the entry says. The walk of another fails with the subcause of
its first failure: an address above 48 bits, at each of the four levels a table that cannot be read or an entry that is invalid or
malformed, a permission that is missing; a page or a block whose entries are all valid translates to the byte of its device
page, and enters the TLBs, and so does a page of a 64 KiB group of entries that agree, for the whole group. -/
def Obligations.TranslationWalks : Prop :=
  ∀ (s : State) core ctx va (acc : Acc) (c : Ctx),
    let serves (e : TlbEntry) : Prop := e.ctx = ctx ∧ (if e.llt then dieOf e.core = dieOf core else e.core = core) ∧
      e.base ≤ va ∧ va < e.base + e.size ∧ e.permits acc = true
    (2 ^ 48 ≤ va → s.translate core ctx va acc = (.error ⟨6, noGpa⟩, s)) ∧
    (∀ e, va < 2 ^ 48 → e ∈ s.tlb → serves e → (∀ x ∈ s.tlb, serves x → x = e) → ∀ D a, e.target = .device D →
      s.mapDevice (s.vfPart e.vf) (D + (va - e.base)) = some a → s.translate core ctx va acc =
        (.ok { target := .device a, gpa := e.gpa + (va - e.base), key := e.key, ce := e.ce, vf := e.vf }, s)) ∧
    (va < 2 ^ 48 → s.ctx? ctx = some c → (∀ e ∈ s.tlb, ¬serves e) → ∀ n tb p, n < 4 → s.TableAt c.vf va c.s1root.toNat n tb p →
      (∀ f q, p.walkRead c.vf (tb + 8 * walkIndex n va) = (.error f, q) →
        s.translate core ctx va acc = (.error ⟨8, BitVec.ofNat 64 (tb + 8 * walkIndex n va)⟩, q)) ∧
      ∀ x u, p.walkRead c.vf (tb + 8 * walkIndex n va) = (.ok x, u) →
        let entry (j : Nat) : Nat := u.readTable c.vf x.2 (x.1 / 128 * 128 + 8 * j)
        let e := u.readTable c.vf x.2 x.1
        let q := u.scAccess c.vf 3 0 x.1 (u.viewMark c.vf x.2 x.1)
        let single : Prop := n < 3 ∨ ∀ j, j < 16 → ¬(entry j % 2 = 1 ∧ e1Legal 3 (entry j) = true ∧ flag (entry j) 2 = true)
        let grouped : Prop := n = 3 ∧ e1Addr (entry 0) % 65536 = 0 ∧ ∀ j, j < 16 → entry j % 2 = 1 ∧ e1Legal 3 (entry j) = true ∧
          flag (entry j) 2 = true ∧ flag (entry j) 3 = flag (entry 0) 3 ∧ flag (entry j) 4 = flag (entry 0) 4 ∧
          e1Addr (entry j) = e1Addr (entry 0) + 4096 * j
        (single → e % 2 = 0 → s.translate core ctx va acc = (.error ⟨0, noGpa⟩, q)) ∧
        (single → e % 2 = 1 → e1Legal n e = false → s.translate core ctx va acc = (.error ⟨1, noGpa⟩, q)) ∧
        ((single ∨ grouped) → e % 2 = 1 → e1Legal n e = true → (n = 3 ∨ flag e 1 = false) →
          let span := 2 ^ (12 + 9 * (3 - n))
          let gpa := e1Addr e + va % span
          let allowed1 : Bool := match acc with
            | .load => true
            | .store => flag e 3
            | .atomic => flag e 3
            | .fetch => flag e 4
          (allowed1 = false → s.translate core ctx va acc = (.error ⟨2, noGpa⟩, q)) ∧
          (∀ sub r, allowed1 = true → q.stage2 c.vf gpa = (.error sub, r) →
            s.translate core ctx va acc = (.error ⟨sub, BitVec.ofNat 64 gpa⟩, r)) ∧
          ∀ d r a, allowed1 = true → q.stage2 c.vf gpa = (.ok d, r) → d.cls ≠ 3 →
            let allowed2 : Bool := match acc with
              | .load => d.r
              | .store => d.w
              | .atomic => d.r && d.w
              | .fetch => d.x
            (allowed2 = false → s.translate core ctx va acc = (.error ⟨5, BitVec.ofNat 64 gpa⟩, r)) ∧
            ∀ page : Nat, (single → page = span) → (grouped → page = 65536) →
              let size := min page d.size
              allowed2 = true → va % size ≤ d.addr → r.mapDevice (r.vfPart c.vf) d.addr = some a →
              ∃ t y, s.translate core ctx va acc =
                  (.ok { target := .device a, gpa := gpa, key := d.key, ce := d.ce, vf := c.vf }, t) ∧
                y ∈ t.tlb ∧ y.llt = false ∧ y.core = core ∧ y.ctx = ctx ∧ y.base = va - va % size ∧ y.size = size ∧
                y.target = .device (d.addr - va % size) ∧ t.mem = s.mem ∧ t.threads = s.threads))

/-- R275, R276: the oldest waiting record is written to its place in the VF's ring, in the layout of R276, and raises the
VF's interrupt; a replay pointer that passes the record of one lane reissues its instruction, or ends its thread, or stops its
context, as the disposition says; the copy of a record goes on at its unit, or is abandoned without its stamp; a quay thread's
instruction reissues. -/
def Clause.FaultRecordsPass : Prop :=
  (∀ (s : State) vf (r : FaultRec) rest, (s.vf vf).fqWaiting = r :: rest → (s.vf vf).fqEn = true →
    ((s.vf vf).fqWr - (s.vf vf).fqRp).toNat ≠ 2 ^ (s.vf vf).fqLg → (s.vf vf).fqLg ≤ 20 → r.cause < 256 → r.sub < 256 → r.width < 256 →
    r.src < 256 → r.core < 256 → r.berth < 32 → r.qt < 4 →
    let x := s.vf vf
    let base := x.fqbase.toNat + 64 * (x.fqWr.toNat % 2 ^ x.fqLg)
    ∃ t, exec (.faultRecordWrite vf) s = .next t ∧ (t.vf vf).fqWr = x.fqWr + 1 ∧ (t.vf vf).fqWaiting = rest ∧
      { r with index := x.fqWr.toNat } ∈ (t.vf vf).fqLive ∧ (s.presented vf = true → .msixVf (s.vfPort vf) vf ∈ t.out) ∧ t.threads = s.threads ∧ t.mem = s.mem ∧
      (let word (n : Nat) : Nat := ofBytes (readMap 0 t.hostMem (base + 8 * n) 8)
       word 0 = r.cause + 2 ^ 8 * r.sub + 2 ^ 16 * r.width + 2 ^ 32 * r.src ∧ word 1 = r.fva.toNat ∧ word 2 = r.ifa.toNat ∧
       word 3 = r.gpa.toNat ∧ word 4 = r.lanes.toNat ∧ word 5 = r.info.toNat ∧ word 6 = r.ctx % 2 ^ 64 ∧
       word 7 = r.core + 2 ^ 8 * r.berth + 2 ^ 16 * r.qt + 2 ^ 32 * x.fqWr.toNat) ∧
      ∀ a, (a < base ∨ base + 64 ≤ a) → SMap.get 0 t.hostMem a = SMap.get 0 s.hostMem a) ∧
  ∀ (s : State) vf (r : FaultRec) (v : BitVec 32), s.Unique → v = (s.vf vf).fqRp + 1 → (s.vf vf).fqWr ≠ (s.vf vf).fqRp →
    (s.vf vf).fqLive.find? (fun y => y.index == (s.vf vf).fqRp.toNat) = some r →
    let x := s.vf vf
    let disp := (SMap.get 0 s.hostMem (x.fqbase.toNat + 64 * (x.fqRp.toNat % 2 ^ x.fqLg) + 5)).toNat
    let stops (t : State) : Prop := t.threads = s.threads ∧ ∀ c, s.ctx? r.ctx = some c → c.stopped = none →
      (t.ctx? r.ctx).map (·.stopped) = some (some { cause := r.cause, sub := r.sub, value := r.fva })
    (∀ l, r.src ≤ 1 → r.laneIds = [l] → s.thread l ∈ s.threads → (s.thread l).ctx = r.ctx → (s.thread l).wait = .faulted →
      ∃ t, exec (.replayPointerWrite vf v) s = .next t ∧ (t.vf vf).fqRp = v ∧
        (disp = 0 → t.thread l = { s.thread l with wait := .ready, alone := true } ∧ OnlyThread s t l) ∧
        (∀ m, disp = 1 → m.core = r.core → m.berth = r.berth → (s.thread m).wait = .ready → s.thread m ∈ s.threads →
          (∀ b w, (s.thread b).wait = .atBarl w → b.core ≠ r.core ∨ b.berth ≠ r.berth) → (∀ y ∈ s.spilled, y.ctx ≠ r.ctx) →
          t.thread l = { s.thread l with wait := .exited, windows := [] } ∧ OnlyThread s t l) ∧
        (2 ≤ disp → stops t)) ∧
    (∀ k, r.src = 2 → s.copy? r.core r.info.toNat = some k → k.ctx = r.ctx → k.parked = true →
      ∃ t, exec (.replayPointerWrite vf v) s = .next t ∧ (t.vf vf).fqRp = v ∧ t.threads = s.threads ∧
        (disp = 0 → t.copy? r.core r.info.toNat =
          some { k with parked := false, stampSent := false, held := !s.gangIn k.ctx }) ∧
        (1 ≤ disp → t.copy? r.core r.info.toNat =
          some { k with parked := false, stampSent := false, abandoned := true, done := k.total }) ∧
        (2 ≤ disp → stops t)) ∧
    (∀ l : LaneId, r.src = 3 → l = ⟨r.core, quayBerth, r.qt⟩ → s.thread l ∈ s.threads → (s.thread l).ctx = r.ctx →
      (s.thread l).wait = .faulted →
      ∃ t, exec (.replayPointerWrite vf v) s = .next t ∧ (t.vf vf).fqRp = v ∧
        (disp = 0 → t.thread l = { s.thread l with wait := .ready, alone := true } ∧ OnlyThread s t l) ∧ (1 ≤ disp → stops t))

/-- R267, R272: a shoot-down of a page or of a VF removes every cached translation that it names and is busy until the copies
that held one have retired or parked, and its accesses under way are performed; then its register is free, or the lane that waits
for it goes on. -/
def Clause.ShootdownsFinish : Prop :=
  (∀ (s : State) vf gpa, vf < 1024 → (∀ d ∈ s.shootdowns, ¬(d.register = true ∧ d.vf = vf)) →
    (∃ t, exec (.stage2ShootdownGpa vf gpa) s = .next t ∧ (t.vf vf).sdbusy = true ∧ t.threads = s.threads ∧
      (∀ e ∈ t.tlb, e ∈ s.tlb ∧ ¬(e.vf = vf ∧ gpa / e.s2 = e.gpa / e.s2)) ∧
      (∀ e ∈ s.tlb, e.vf ≠ vf → e ∈ t.tlb) ∧ (∀ x ∈ t.l1, ¬(x.vf = vf ∧ x.gpa / 2 ^ 30 = gpa / 2 ^ 30)) ∧
      ∃ d ∈ t.shootdowns, d.register = true ∧ d.vf = vf) ∧
    ∃ t, exec (.stage2ShootdownVf vf) s = .next t ∧ (t.vf vf).sdbusy = true ∧ t.threads = s.threads ∧
      (∀ e ∈ t.tlb, e ∈ s.tlb ∧ e.vf ≠ vf) ∧ (∀ e ∈ s.tlb, e.vf ≠ vf → e ∈ t.tlb) ∧ (∀ x ∈ t.l1, x.vf ≠ vf) ∧
      ∃ d ∈ t.shootdowns, d.register = true ∧ d.vf = vf) ∧
  ∀ (s : State) (d : Shootdown), s.shootdowns.find? s.shootDone = some d →
    (d.register = true → ∃ t, exec .shootdownCompletion s = .next t ∧ (t.vf d.vf).sdbusy = false ∧
      t.shootdowns = s.shootdowns.erase d ∧ t.threads = s.threads) ∧
    ∀ l, d.register = false → d.erase = false → d.lanes = [l] → (s.thread l).reissue = none → (∀ w ∈ (s.thread l).windows, 2 ≤ w.count) →
      ∃ t, exec .shootdownCompletion s = .next t ∧ t.shootdowns = s.shootdowns.erase d ∧ OnlyThread s t l ∧
        t.thread l = { (s.thread l).advance ((s.thread l).pc + 4) [] with wait := .ready }

/-- R293, R294, R299, R301: the hypervisor's commands. Transfer and reclaim move sectors between a stack and a VF's pool and
keep the refill of R294; assign and assign raw take every block of a frame, release gives them back to be scrubbed; reading a
descriptor answers its doubleword. A refused command changes nothing but its result; after each, what waited for it goes on. That a
frame or an address outside the partition has result 5 is the model's reading (DEDUCED, log 86). -/
def Obligations.SectorCommands : Prop :=
  ∀ (s : State) vf stack count,
    let refused (ins : Instr) (n : Nat) : Prop :=
      ∃ t, exec ins s = .next t ∧ t = { s with vfs := t.vfs, agenda := s.deferred ++ s.agenda, deferred := [] } ∧ ∀ v, t.vf v = if v = vf then { s.vf v with cmdResult := n } else s.vf v
    let moved (t : State) (held : Nat) : Prop :=
      t = { s with vfs := t.vfs, free := t.free, agenda := s.deferred ++ s.agenda, deferred := [] } ∧ (t.vf vf).cmdResult = 0 ∧ (t.cnt vf stack).held = held ∧
      (t.cnt vf stack).used = (s.cnt vf stack).used ∧ (t.cnt vf stack).grant = (s.cnt vf stack).grant ∧
      ((t.cnt vf stack).rsv < (t.cnt vf stack).rtarget → (t.cnt vf stack).pool = 0)
    (s.ownStack vf stack = false → refused (.transfer vf stack count) 5 ∧ refused (.reclaim vf stack count) 5) ∧
    (s.ownStack vf stack = true →
      (s.freeAt stack < count → refused (.transfer vf stack count) 2) ∧
      (count ≤ s.freeAt stack → (s.cnt vf stack).burst < (s.cnt vf stack).held + count → refused (.transfer vf stack count) 3) ∧
      (count ≤ s.freeAt stack → (s.cnt vf stack).held + count ≤ (s.cnt vf stack).burst →
        ∃ t, exec (.transfer vf stack count) s = .next t ∧ moved t ((s.cnt vf stack).held + count) ∧
          t.freeAt stack + count = s.freeAt stack) ∧
      (((s.cnt vf stack).pool < count ∨ (s.cnt vf stack).held < (s.cnt vf stack).guar + count) → refused (.reclaim vf stack count) 3) ∧
      (count ≤ (s.cnt vf stack).pool → (s.cnt vf stack).guar + count ≤ (s.cnt vf stack).held →
        ∃ t, exec (.reclaim vf stack count) s = .next t ∧ moved t ((s.cnt vf stack).held - count) ∧
          t.freeAt stack = s.freeAt stack + count)) ∧
    (s.frameBlocks vf = none → refused (.assign vf) 5 ∧ refused (.assignRaw vf) 5 ∧ refused (.release vf) 5) ∧
    (∀ bs, s.frameBlocks vf = some bs → bs.Nodup →
      ((∃ b ∈ bs, (s.desc b).owned = true) → refused (.assign vf) 4 ∧ refused (.assignRaw vf) 4) ∧
      ((∃ b ∈ bs, ¬((s.desc b).owned = true ∧ (s.desc b).vf = vf)) → refused (.release vf) 4) ∧
      ((∀ b ∈ bs, (s.desc b).owned = false) → s.overFull (s.vfPart vf) = true → refused (.assign vf) 3 ∧ refused (.assignRaw vf) 3) ∧
      ((∀ b ∈ bs, (s.desc b).owned = false) → s.overFull (s.vfPart vf) = false →
        (∃ t, exec (.assign vf) s = .next t ∧
          t = { s with vfs := t.vfs, descs := t.descs, agenda := s.deferred ++ s.agenda, deferred := [] } ∧ (t.vf vf).cmdResult = 0 ∧
          (∀ b ∈ bs, t.desc b = { s.desc b with owned := true, vf := vf, spread := flag (s.vf vf).cmdAddr.toNat 43 }) ∧
          ∀ b, b ∉ bs → t.desc b = s.desc b) ∧
        let inStack (st : Nat) : Nat := (bs.filter fun b => blockStack b == st).length
        ((∃ st, inStack st ≠ 0 ∧ (s.cnt vf st).pool < 8 * inStack st) → refused (.assignRaw vf) 2) ∧
        ((∀ st, 8 * inStack st ≤ (s.cnt vf st).pool) → ∃ t, exec (.assignRaw vf) s = .next t ∧ (t.vf vf).cmdResult = 0 ∧
          t.mem = s.mem ∧ t.threads = s.threads ∧
          (∀ st, (t.cnt vf st).held = (s.cnt vf st).held ∧ (t.cnt vf st).used = (s.cnt vf st).used + 8 * inStack st) ∧
          (∀ b ∈ bs, (t.desc b).owned = true ∧ (t.desc b).vf = vf ∧ (t.desc b).zf = true ∧ (t.desc b).codec = 3 ∧ (t.desc b).count = 8 ∧
            ∀ slot a, blockOf a = b → t.homeByte slot a = 0) ∧
          ∀ b, b ∉ bs → t.desc b = s.desc b)) ∧
      ((∀ b ∈ bs, (s.desc b).owned = true ∧ (s.desc b).vf = vf) → ∃ t, exec (.release vf) s = .next t ∧
        (t.vf vf).cmdResult = 0 ∧ t.mem = s.mem ∧ t.threads = s.threads ∧
        (∀ b ∈ bs, (t.desc b).owned = false ∧ (t.desc b).scrub = true ∧ (t.desc b).count = 0 ∧ (t.desc b).zf = false ∧
          ∀ slot a, blockOf a = b → t.homeByte slot a = 0) ∧
        (∀ b, b ∉ bs → t.desc b = s.desc b) ∧
        ∀ st, t.freeAt st = s.freeAt st + ((bs.filter fun b => blockStack b == st).map fun b => (s.desc b).count).sum)) ∧
    (s.mapDevice (s.vfPart vf) (s.vf vf).cmdAddr.toNat = none → refused (.readDescriptor vf) 5) ∧
    ∀ a, s.mapDevice (s.vfPart vf) (s.vf vf).cmdAddr.toNat = some a →
      let d := s.desc (blockOf a)
      d.codec < 4 → d.count ≤ 8 → d.vf < 1024 →
      ∃ t, exec (.readDescriptor vf) s = .next t ∧ t = { s with vfs := t.vfs, agenda := s.deferred ++ s.agenda, deferred := [] } ∧ (t.vf vf).cmdResult = 0 ∧
        let w := (t.vf vf).cmdDesc.toNat
        w % 4 = d.codec ∧ w / 2 ^ 2 % 16 = d.count ∧ flag w 6 = d.scrub ∧ flag w 7 = d.fb ∧ w / 2 ^ 8 % 2 ^ 31 = d.run.toNat ∧
        w / 2 ^ 39 % 1024 = d.vf ∧ flag w 49 = d.owned ∧ flag w 50 = d.zf ∧ w / 2 ^ 51 = 0

/-- R300: a discard of no blocks is a bad operand; another takes its place behind the posted writes of the requester that started
it, and goes on once those before it are acknowledged: each block whose entry is writable and compressed is written as zeros,
and the walk stops where an entry does not allow it. Of its last block. That `dprog` counts no block of an entry with ce = 0 is the
model's reading (DEDUCED, log 85). -/
def Clause.DiscardWritesZeros : Prop :=
  ∀ (s q : State) vf (r : Requester),
    let x := s.vf vf
    (x.dcount = 0 → ∃ t, exec (.discard (r, vf)) s = .next t ∧ t = { s with vfs := t.vfs } ∧ (t.vf vf).dstat = 3 ∧ (t.vf vf).dprog = 0) ∧
    (x.dcount ≠ 0 → ∃ t p, exec (.discard (r, vf)) s = .next t ∧ t = { s with vfs := t.vfs, inWrites := s.inWrites + 1 } ∧
      (t.vf vf).dstat = 1 ∧ (t.vf vf).dprog = 0 ∧ (t.vf vf).inbound = x.inbound ++ [p] ∧ p.req = r ∧ p.write = s.inWrites ∧
      p.discard = some (x.dgpa.toNat, x.dcount.toNat)) ∧
    ∀ p idx gpa, nth? x.inbound idx = some p → p.discard = some (gpa, 1) → (∀ y ∈ x.inbound.erase p, y.discard = none) →
      (s.mayPerform vf p = false → exec (.inboundPacketAck vf idx) s = .next s) ∧
      (s.mayPerform vf p = true →
        let ended (t : State) (st : Nat) (n : BitVec 32) : Prop :=
          exec (.inboundPacketAck vf idx) s = .next t ∧ (t.vf vf).dstat = st ∧ (t.vf vf).dprog = x.dprog + n ∧ t.threads = s.threads
        (∀ sub, s.stage2 vf gpa = (.error sub, q) → ∃ t, ended t 2 0 ∧ SameBytes s t) ∧
        ∀ e a, s.stage2 vf gpa = (.ok e, q) →
          ((e.w = false ∨ e.cls = 3) → ∃ t, ended t 2 0 ∧ SameBytes s t) ∧
          (e.w = true → e.cls ≠ 3 → e.ce = false → ∃ t, ended t 0 0 ∧ SameBytes s t) ∧
          (e.w = true → e.cls ≠ 3 → e.ce = true → q.mapDevice (q.vfPart vf) e.addr = some a → a % 512 = 0 →
            (q.desc (a / 512)).owned = true → (∀ n, n < 4 → ∀ y ∈ q.l1, y.home ≠ .device (a + 128 * n)) →
            ∃ t, ended t 0 1 ∧ (∀ j, j < 512 → t.homeByte e.key (a + j) = 0) ∧
              ∀ slot y, y / 512 ≠ a / 512 → t.homeByte slot y = s.homeByte slot y))

/-! ### Launch queues and gangs (spec/18, spec/20) -/

/-- R315 to R318, R321, R365: what the dispatcher does with the record at the head of a queue whose ring lies in host memory:
a `nop` passes; a layout and a codebook are set for their context; a tear-down leaves nothing of its context and answers its
counts; a legal gang switch is accepted and its gangs are pending; a bad record stops the queue with its error, and clearing
the stop passes it. How many spawns a tear-down counts, that a set-codebook at the head holds its queue, and the slots that a clearing
passes are the model's choices (DESIGN CHOICE, log 95; DEDUCED, logs 96 and 90); so are the marks of a codebook slot (DEDUCED, log 146). -/
def Clause.RecordsAreTaken : Prop :=
  ∀ (s : State) (q : QueueId), s.ringInHost q = true →
    let x := s.queue q
    let at' (n : Nat) : Nat := x.base.toNat + 128 * ((x.head + BitVec.ofNat 32 n).toNat % 2 ^ x.lg)
    let bs := readMap 0 s.hostMem (at' 0) 128
    let word (n : Nat) : Nat := recWord bs n
    let kind := word 0 % 256
    let id := word 1
    let passed (t : State) (n : BitVec 32) : Prop := t.queue q = { x with head := x.head + n }
    s.hostBad (at' 0) 128 = false →
    (s.served q = true →
      (kind = 0 → ∃ t, exec (.nopRecord q) s = .next t ∧ passed t 1 ∧ t = { s with vfs := t.vfs, pfQueues := t.pfQueues }) ∧
      (6 < kind → ∃ t, exec (.nopRecord q) s = .next t ∧ t.queue q = { x with err := 1, stop := true } ∧
        t = { s with vfs := t.vfs, pfQueues := t.pfQueues }) ∧
      (kind = 6 → queueForeign q id = true → ∃ t, exec (.tearDown q) s = .next t ∧ t.queue q = { x with err := 2, stop := true } ∧
        t = { s with vfs := t.vfs, pfQueues := t.pfQueues }) ∧
      (kind = 6 → queueForeign q id = false → s.ctx? id = none → ∃ t, exec (.tearDown q) s = .next t ∧
        t.queue q = { x with err := 4, stop := true } ∧ t = { s with vfs := t.vfs, pfQueues := t.pfQueues }) ∧
      ∀ c, queueForeign q id = false → s.ctx? id = some c →
        (kind = 3 → 2 ≤ (x.tail - x.head).toNat → s.hostBad (at' 1) 128 = false → ∃ t, exec (.setLayout q) s = .next t ∧ passed t 2 ∧
          t = { s with vfs := t.vfs, pfQueues := t.pfQueues, ctxs := t.ctxs } ∧
          (t.ctx? id).map (fun d => { d with layouts := [] }) = some { c with layouts := [] } ∧
          (t.ctx? id).map (fun d => SMap.get 0 d.layouts (word 2 % 65536)) = some (layoutWith (readMap 0 s.hostMem (at' 1) 128) id)) ∧
        (kind = 4 →
          let since := (x.cbkSeq).getD s.matSeq
          let pairs := (s.partCores (s.partOf id)).filter isLeader
          ((∃ k ∈ pairs, ∃ o ∈ (s.coreAt k).matQ, o.seq < since) → ∃ t, exec (.setCodebook q) s = .next t ∧
            t.queue q = { x with cbkSeq := some since } ∧ t = { s with vfs := t.vfs, pfQueues := t.pfQueues }) ∧
          ((∀ k ∈ pairs, ∀ o ∈ (s.coreAt k).matQ, since ≤ o.seq) → ∃ t, exec (.setCodebook q) s = .next t ∧
            t.queue q = { x with cbkSeq := none, head := x.head + 1 } ∧
            t = { s with vfs := t.vfs, pfQueues := t.pfQueues, cores := t.cores } ∧
            ∀ k ∈ pairs, SMap.get none (t.coreAt k).codebook (word 2 % 32) =
              some (addOnce (((SMap.get none (s.coreAt k).codebook (word 2 % 32)).map (·.1)).getD []) id,
                BitVec.ofNat 256 (ofBytes ((bs.drop 32).take 32))))) ∧
        (kind = 6 → s.spilled = [] → (s.spawnHeld.filter fun p => s.gidOf id != 0 && p.gid == s.gidOf id) = [] →
          (∀ l ∈ s.launches, l.ctx = id → l.frames = []) →
          let n := s.spawnsDiscarded id
          n.1 ≤ (s.cores.filter fun k => s.spawnComes id k.1).length ∧ ∃ t, exec (.tearDown q) s = .next t ∧ t.ctx? id = none ∧
          (∀ g ∈ t.groups, g.ctx ≠ id) ∧ (∀ u ∈ t.threads, u.ctx ≠ id) ∧ (∀ k ∈ t.tasks, k.ctx ≠ id) ∧ (∀ l ∈ t.l1, l.ctx ≠ id) ∧
          (∀ l ∈ t.code, l.ctx ≠ id) ∧ (∀ p ∈ t.pendings, p.ctx ≠ id) ∧ (∀ y ∈ t.seals, y.ctx ≠ id) ∧
          (SMap.wf {} s.cores = true → ∀ k, (t.coreAt k).rowA ≠ some id ∧ (t.coreAt k).rowW ≠ some id ∧ (t.coreAt k).rowC ≠ some id) ∧
          (t.queue q).head = x.head + 1 ∧ readMap 0 t.hostMem (at' 0 + 0x20) 24 = toBytes n.1 8 ++
            toBytes (s.groups.filter fun g => g.ctx == id).length 8 ++ toBytes (s.waiting.filter fun w => w.1 == id).length 8)) ∧
    (s.served q = true → kind = 5 → s.switchLegal q bs = true → SMap.wf {} s.gangs = true →
      ∃ t w, exec (.gangSwitch q) s = .next t ∧ passed t 1 ∧ t.switches = s.switches ++ [w] ∧ w.t.toNat = word 1 ∧ w.gout = word 2 ∧
        w.gin = word 3 ∧ w.full = flag (word 0) 9 ∧ w.restore = flag (word 0) 10 ∧ w.irq = flag (word 0) 11 ∧ w.rpt.toNat = word 4 ∧
        w.acted = none ∧ ∀ g, (g = word 2 ∨ g = word 3) → g ≠ 0 → (t.gangEntry g).map (·.2.gstate) = some 2) ∧
    (queueReal q = true → x.stop = true → ∃ t, exec (.queueStopClear q) s = .next t ∧
      t = { s with vfs := t.vfs, pfQueues := t.pfQueues } ∧ t.queue q = { x with
        stop := false
        err := 0
        cbkSeq := none
        head := x.head + BitVec.ofNat 32 (min (if kind = 3 then 2 else 1) (x.tail - x.head).toNat) })

/-- R319, R320, R364: a legal launch record joins its context, or creates it with the fields of the record, and leaves the
frames of its root groups waiting; those of a timed launch wait for its release. With no record of the physical function
before it, from a ring in host memory. That the roots know what earlier launches of the context wrote is the model's reading (DEDUCED,
DEDUCED, log 162). -/
def Clause.LaunchesStart : Prop :=
  ∀ (s p r q' : State) (q : QueueId) (c : Ctx) (ds : List Byte) (d : TaskDesc), s.ringInHost q = true → s.served q = true → s.Unique →
    let x := s.queue q
    let slot := x.base.toNat + 128 * (x.head.toNat % 2 ^ x.lg)
    let bs := readMap 0 s.hostMem slot 128
    let word (n : Nat) : Nat := recWord bs n
    let dw' (n : Nat) : Word := BitVec.ofNat 64 (word n)
    let kind := word 0 % 256
    let n := word 4 % 2 ^ 32
    s.hostBad slot 128 = false → (kind = 1 ∨ (kind = 2 ∧ s.gangLegal (word 14) (word 1) = true)) → launchLegal bs q kind = true →
    s.behindPf q (bits (word 0) 9 8) = false →
    ((s.ctx? (word 1) = some c ∧ p = s) ∨
      (s.ctx? (word 1) = none ∧ newCtxLegal bs = true ∧ p = s.putCtx c ∧ c =
        { id := word 1, vf := word 1 / 2 ^ 16 % 2 ^ 10, priv := flag (word 0) 10, prio := bits (word 0) 9 8, hbase := dw' 5
          hsize := dw' 6, s1root := dw' 7, qentry := dw' 8, spill := dw' 9, ss := dw' 10, tvec := dw' 11, gang := word 14
          queue := some q })) →
    word 2 % 8 = 0 → p.peek noCore (word 1) (dw' 2 - 8).toNat 8 .load = (.bytes ds, q') → taskDesc (ofBytes ds) = some d →
    d.nreg = 16 * bits (word 4) 47 40 → d.width = 8 * 2 ^ bits (word 4) 33 32 →
    let size := frameSize d.width d.nreg c.ss
    let fs := (q'.allocFrames c n size).1
    n ≤ fits (granulesOf size) [(c.hbase.toNat / 256, c.hsize.toNat / 256)] → q'.heapHolds c n size = true → 0 < n → fs.Nodup →
    (∀ f ∈ fs, s.task? (word 1) f = none) →
    (q'.allocFrames c n size).2.reserveFrames noCore (word 1) d.width d.nreg fs = .ok r →
    ∃ t y, exec (if kind = 1 then .launch q else .timedLaunch q) s = .next t ∧ (t.queue q).head = x.head + 1 ∧
      (t.queue q).err = x.err ∧ t.threads = s.threads ∧ t.groups = s.groups ∧ t.ctx? (word 1) = some c ∧ fs.length = n ∧
      y ∈ t.launches ∧ y.queue = q ∧ y.ctx = word 1 ∧ y.remaining = n ∧ y.cpla = dw' 12 ∧ y.irq = flag (word 0) 11 ∧
      y.timed = (if kind = 1 then none else some (dw' 13, word 14)) ∧ y.frames = (if kind = 1 then [] else fs) ∧
      ∀ j f, fs[j]? = some f → (kind = 1 → (word 1, f) ∈ t.waiting) ∧ ∃ u, t.task? (word 1) f = some u ∧ u.phase = .queued ∧
        u.width = d.width ∧ u.nreg = d.nreg ∧ u.pair = d.pair ∧ u.entry = dw' 2 ∧ u.arg = dw' 3 ∧ u.tix = j ∧ u.nkid = n ∧
        u.parent = 0 ∧ u.prio = bits (word 0) 9 8 ∧ u.launch = some y.id ∧ u.notice = c.notice

/-- R358 to R360, R373: the tideline locks after 16 steady Syncs, slews by the offset of each, and holds over when a Sync is
far off or none comes; a beacon of the master is followed while no Sync is; the master sends one every 100 µs. What is near before
the first lock, and whose beacons are usable and whose are followed, are the model's readings (DEDUCED, log 112). -/
def Obligations.TidelineKeepsTime : Prop :=
  (∀ (s : State) (offset : Int), s.tide.en = true →
    let near := if s.tide.everLocked then offset.natAbs ≤ 1000 else (offset - s.tide.offset.toInt).natAbs ≤ 1000
    ∃ t, exec (.ptpSync offset) s = .next t ∧ t.threads = s.threads ∧ t.mem = s.mem ∧ t.tide.offset = BitVec.ofInt 64 offset ∧
      (s.tide.state = 1 → near → t.tide.state = 1 ∧ t.tide.slew = offset * 65536 ∧ t.tide.lastSync = s.tide.now) ∧
      (s.tide.state = 1 → ¬near → t.tide.state = 2 ∧ t.tide.good = 0 ∧ t.tide.lostAt = s.tide.now) ∧
      (s.tide.state ≠ 1 → ¬near → t.tide.state = s.tide.state ∧ t.tide.good = 0) ∧
      (s.tide.state ≠ 1 → near → s.tide.good + 1 < 16 → t.tide.state = s.tide.state ∧ t.tide.good = s.tide.good + 1) ∧
      (s.tide.state ≠ 1 → near → 16 ≤ s.tide.good + 1 → t.tide.state = 1 ∧ t.tide.everLocked = true ∧
        ((s.tide.everLocked = true ∨ offset ≤ 0) → t.tide.slew = offset * 65536 ∧ t.tide.now = s.tide.now) ∧
        (s.tide.everLocked = false → 0 < offset → t.tide.slew = 0 ∧ (t.tide.now : Int) = s.tide.now + offset * 65536))) ∧
  (∀ (s : State), s.tide.state = 1 → s.tide.lastSync + 2000000000 * 65536 ≤ s.tide.now →
    ∃ t, exec .lockLossTimeout s = .next t ∧ t.threads = s.threads ∧ t.tide = { s.tide with
      state := 2
      lostAt := s.tide.now
      good := 0
      slew := 0 }) ∧
  (∀ (s : State), s.tide.state = 2 → s.tide.lostAt + 10000000000 * 65536 ≤ s.tide.now →
    ∃ t, exec .holdoverExpiry s = .next t ∧ t.threads = s.threads ∧
      t.tide = { s.tide with state := if s.tide.beaconsCome then 3 else 4 }) ∧
  (∀ (s : State), (s.tide.state = 0 ∧ 1000000 * 65536 ≤ s.tide.now) ∨ s.tide.state = 3 → s.tide.beaconsCome = false →
    ∃ t, exec .beaconLossTimeout s = .next t ∧ t.threads = s.threads ∧ t.tide = { s.tide with state := 4 }) ∧
  (∀ (s : State) (p : Packet), s.deaf = false → p.kind = 9 → (p.opd1.toNat / 65536 % 8 = 1 ∨ p.opd1.toNat / 65536 % 8 = 2) →
    ∃ t, exec (.timeBeacon p) s = .next t ∧ t.threads = s.threads ∧ t.tide.lastBeacon = some s.tide.now ∧
      t.tide.state = (if s.tide.state = 4 then 3 else s.tide.state) ∧
      ∀ g, s.firstGang = some g → g.master = p.src → (s.tide.state = 3 ∨ s.tide.state = 4) → t.tide.slew =
        ((p.opd0.toNat * 65536 + p.opd1.toNat % 65536 + SMap.get 0 s.hm.latency p.src * 65536 : Nat) : Int) - s.tide.now) ∧
  ∀ (s : State) (n : Nat), (s.gang n).valid = true → (s.gang n).master = s.hm.pkgid → (s.gang n).beaconAt ≤ s.tide.now →
    ∃ t, exec (.beaconSend n) s = .next t ∧ t.threads = s.threads ∧ (t.gang n).beaconAt = s.tide.now + 100000 * 65536 ∧
      ∀ m, m < 512 → (s.gang n).members.getLsbD m = true → m ≠ s.hm.pkgid →
        let p : Packet := { dst := m, src := s.hm.pkgid, kind := 9, opd0 := BitVec.ofNat 64 (s.tide.now / 65536)
                            opd1 := BitVec.ofNat 64 (s.tide.now % 65536 + 65536 * s.tide.state) }
        Output.packet (framed p) ∈ t.out ∨ framed p ∈ t.heldPackets

/-- R363, R364, R366, R374: at its instant a timed launch's root groups join the dispatcher and its gang is in; a gang switch
halts the outgoing member's groups and exchanges the gangs. Of a switch that neither spills nor restores, where no core holds more
groups than R217 allows; which gang governs it is the model's reading (DEDUCED, log 111). -/
def Clause.TimedRecordsAct : Prop :=
  (∀ (s : State) id (l : Launch) T gid, s.spilled = [] → (∀ k, (s.coreAt k).splitTake = none) →
    (∀ k, fits217 (sizeOf3 (s.groups.filter fun g => g.core == k)) = true) → SMap.wf {} s.gangs = true → s.launches.find? (fun l => l.id == id && l.due s) = some l →
    l.timed = some (T, gid) → 0 < l.remaining →
    ∃ t, exec (.timedRelease id) s = .next t ∧ (∀ f ∈ l.frames, (l.ctx, f) ∈ t.waiting) ∧
      { l with timed := none, frames := [] } ∈ t.launches ∧ t.tasks = s.tasks ∧ t.mem = s.mem ∧
      (gid ≠ 0 → (s.gangEntry gid).isSome → (t.gangEntry gid).map (fun g => (g.2.isIn, g.2.lastT)) = some (true, T))) ∧
  ∀ (s : State) idx (w : Switch), s.spilled = [] → (∀ k, (s.coreAt k).splitTake = none) →
    (∀ k, fits217 (sizeOf3 (s.groups.filter fun g => g.core == k)) = true) → SMap.wf {} s.gangs = true → s.Unique → s.switches[idx]? = some w → w.acted = none →
    s.due (s.governs w) w.t = true → w.full = false → w.restore = false → w.timedOut = false →
    (w.gout ≠ 0 → (s.gangEntry w.gout).isSome) → (w.gin ≠ 0 → (s.gangEntry w.gin).isSome) → w.gout ≠ w.gin →
    ∃ t, exec (.gangSwitchInstant idx) s = .next t ∧ t.mem = s.mem ∧ t.tasks = s.tasks ∧ t.threads = s.threads ∧
      (t.switches[idx]?).map (·.acted) = some (some s.tlNow) ∧
      (w.gout ≠ 0 → (t.gangEntry w.gout).map (fun g => (g.2.isIn, g.2.lastT)) = some (false, w.t)) ∧
      (w.gin ≠ 0 → (t.gangEntry w.gin).map (fun g => (g.2.isIn, g.2.lastT)) = some (true, w.t)) ∧
      ∀ c, s.member w.gout = some c → s.ctx? c.id = some c → ∀ g ∈ t.groups, g.ctx = c.id → g.core < 256 →
        (s.coreAt g.core).tenant = some c.vf → g.halted = true

/-- R368 to R372, R374: a member that has come to rest reports to every other member; a report and a release are kept for
their switch; 20 µs after T the members that have not reported are stragglers, and what the switch did is written at rpt. Of a
switch without a full spill, or whose image is complete. That a release counts from the coordinator alone is the model's reading
(DEDUCED, log 111). -/
def Clause.SwitchesReport : Prop :=
  (∀ (s : State) idx (w : Switch), s.switches[idx]? = some w → s.reportDue w = true → (w.full = false ∨ w.sdone = true) →
    ∃ t, exec (.reportSend idx) s = .next t ∧ t.threads = s.threads ∧ t.switches[idx]? = some { w with reportSent := true } ∧
      ∀ m ∈ s.otherMembers w,
        let p : Packet := { dst := m, src := s.hm.pkgid, kind := 10, gid := w.gang, op := 1, opd0 := w.t
                            opd1 := BitVec.ofNat 64 (w.gout + 2 ^ 16 * w.gin + if w.late then 2 ^ 32 else 0) }
        Output.packet (framed p) ∈ t.out ∨ framed p ∈ t.heldPackets) ∧
  (∀ (s : State) (p : Packet), s.deaf = false → p.kind = 10 → p.op = 1 →
    ((∀ w ∈ s.switches, w.about p = false) → ∃ t, exec (.gangReport p) s = .next t ∧ t = { s with earlyReports := t.earlyReports } ∧
      p ∈ t.earlyReports) ∧
    ∀ i w, lastAbout p 0 s.switches = some i → s.switches[i]? = some w → p.src ∉ w.reports → w.timedOut = false → (w.full = false ∨ w.sdone = true) →
      ∃ t, exec (.gangReport p) s = .next t ∧ t.threads = s.threads ∧
        t.switches[i]? = some { w with reports := w.reports ++ [p.src] }) ∧
  (∀ (s : State) (p : Packet), s.deaf = false → p.kind = 10 → p.op = 2 → ∃ t, exec (.gangRelease p) s = .next t ∧ t = { s with releases := t.releases } ∧
    (p.src = s.coordOf p.gid → (p.gid, p.opd0) ∈ t.releases) ∧ (p.src ≠ s.coordOf p.gid → t = s)) ∧
  ∀ (s : State) idx (w : Switch), s.switches[idx]? = some w → w.timedOut = false → w.t.toNat + 20000 ≤ s.tlNow →
    SMap.wf {} s.gangs = true →
    ∃ t, exec (.stragglerTimeout idx) s = .next t ∧ t.threads = s.threads ∧
      t.switches[idx]? = some { w with timedOut := true, strag := !(s.outstanding w).isEmpty } ∧
      (∀ a, w.acted = some a → s.outstanding w = [] → w.rpt ≠ 0 →
        readMap 0 t.hostMem (w.rpt.toNat - 1) 16 = toBytes a 8 ++ toBytes (1 + bitIf (decide (w.t.toNat + 20000 < a)) 1 +
          bitIf w.barrier 3 + bitIf w.beacon 4 + 2 ^ 5 + bitIf w.sdone 6 + bitIf w.rdone 7) 8) ∧
      ∀ m r, s.outstanding w = m :: r → (s.gangEntry w.gang).isSome →
        (t.gangEntry w.gang).map (fun g => (g.2.sv, g.2.strag)) = some (true, m)

/-- R324, R367, R375, R376: a full spill's image is complete when the last member has reported, and holds the tasks of the context as
they stand then; where it does not translate, the context is torn down. A spare whose area holds no image stops; another takes
up the image's tasks, layouts and cores. What makes a member a spare, and when an image is complete, are the model's readings
(DEDUCED, log 159). -/
def Clause.FullSwitches : Prop :=
  (∀ (s : State) (p : Packet) i (w : Switch) (c : Ctx), s.deaf = false → p.kind = 10 → p.op = 1 → lastAbout p 0 s.switches = some i →
    s.switches[i]? = some w → p.src ∉ w.reports → w.full = true → w.sdone = false → w.reportSent = true →
    (∀ m ∈ s.otherMembers w, m ∈ w.reports ∨ m = p.src) → s.member w.gout = some c → s.gangIn c.id = false →
    ∃ t, exec (.gangReport p) s = .next t ∧ (t.ctx? c.id = none ∨
      ((t.switches[i]?).map (·.sdone) = some true ∧ ∃ x ∈ t.images, x.ctx = c.id ∧ x.gid = c.gang ∧ x.t = w.t ∧
        x.tasks = t.tasks.filter (fun k => k.ctx == c.id) ∧ x.waiting = t.waiting.filter (fun k => k.1 == c.id)))) ∧
  ∀ (s : State) (c : Ctx), s.ctx? c.id = some c →
    (∀ q, s.imageAt c = (none, q) → (s.restoreImage c).1 = false ∧
      ((s.restoreImage c).2.ctx? c.id).map (·.stopped.isSome) = some true) ∧
    ∀ x q, s.imageAt c = (some x, q) → (x.tasks = [] → (s.restoreImage c).1 = true) ∧
      ∀ t, s.restoreImage c = (true, t) → (t.ctx? c.id).map (·.layouts) = some x.layouts ∧
        (∀ k ∈ x.tasks, k.ctx = c.id → (t.task? c.id k.frame).isSome = true) ∧
        (∀ k ∈ x.waiting, k.1 = c.id → k ∈ t.waiting) ∧ ∀ y ∈ x.cores, ∃ z ∈ t.spilled, z.core = y.core ∧ z.ctx = c.id

/-! ### Partitions (spec/18) -/

/-- R310, R311, R326 to R328: the commands of a partition block. A merge takes in the other half and a split gives it back, each
in a step that begins it and one that ends it, where no queue is busy and no frame stands in the way; lending hands idle margin
pairs to an adjacent partition; a revocation halts what runs on them and returns them when their engines have finished. A command
that cannot be obeyed has status 5. A command that ends lets what waited for it go on. A core that a merge or a split hands
over takes the new block's split, within the lim of the partition that has it, when its engines are idle; lending changes no split.
That a command has two steps, which pairs stay lent and how long a revocation is busy, how returning cores are split, and that a
split which would part an assigned frame from its VF has status 5, are the model's readings (DEDUCED, logs 102, 101, 100 and 86). -/
def Obligations.PartitionsChange : Prop :=
  ∀ (s : State) (p : Nat),
    let a := s.part p
    let refused (ins : Instr) (n : Nat) : Prop :=
      ∃ t, exec ins s = .next t ∧ t = { s with parts := t.parts, agenda := s.deferred ++ s.agenda, deferred := [] } ∧
        (t.part p).status = n ∧ (t.part p).joining = none ∧ { t.part p with status := a.status, joining := a.joining, detail := a.detail } = a ∧
        ∀ x, x ≠ p → t.part x = s.part x
    let begun (ins : Instr) (merging : Bool) : Prop :=
      ∃ t, exec ins s = .next t ∧ t = { s with parts := t.parts } ∧ t.part p = { a with status := 1, joining := some merging } ∧
        ∀ x, x ≠ p → t.part x = s.part x
    let handed (t : State) (c dflt : Nat) : Prop :=
      (s.coreWorks c = false → (t.coreAt c).split = min dflt (t.limOf c)) ∧
      (s.coreWorks c = true → (t.coreAt c).split = (s.coreAt c).split ∧ (t.coreAt c).splitDue = true)
    (s.mergePart p = none → refused (.merge p) 5) ∧
    (∀ q, s.mergePart p = some q → a.joining ≠ some true → begun (.merge p) true) ∧
    (∀ q d, s.mergePart p = some q → a.joining = some true → s.firstBusy (s.vfsOf p ++ s.vfsOf q) = some d →
      refused (.merge p) 2 ∧ ∀ t, exec (.merge p) s = .next t → (t.part p).detail = d) ∧
    (∀ q, s.mergePart p = some q → a.joining = some true → s.firstBusy (s.vfsOf p ++ s.vfsOf q) = none →
      (s.spreadOn (s.partDies p ++ s.partDies q) = true → refused (.merge p) 3) ∧
      (s.spreadOn (s.partDies p ++ s.partDies q) = false → 256 < (s.sealKeys (s.vfsOf p ++ s.vfsOf q)).length → refused (.merge p) 4)) ∧
    (∀ q, s.mergePart p = some q → a.joining = some true → s.firstBusy (s.vfsOf p ++ s.vfsOf q) = none → s.spreadOn (s.partDies p ++ s.partDies q) = false →
      (s.sealKeys (s.vfsOf p ++ s.vfsOf q)).length ≤ 256 →
      ∃ t, exec (.merge p) s = .next t ∧ (t.part p).shape = a.shape + 1 ∧ (t.part p).status = 0 ∧ (t.part p).joining = none ∧ (t.part q).shape = 0 ∧
        (t.part p).margin = a.margin ||| (s.part q).margin ∧ t.threads = s.threads ∧ t.groups = s.groups ∧
        (∀ e ∈ t.tlb, e.vf ∉ s.vfsOf p ++ s.vfsOf q) ∧
        ∀ c, c < 256 → dieOf c ∈ shapeDies q (s.part q).shape → handed t c a.dflt) ∧
    (s.splitPart p = none → refused (.split p) 5) ∧
    (∀ q, s.splitPart p = some q → s.splitOk p q (a.shape - 1) = false → refused (.split p) 5) ∧
    (∀ q, s.splitPart p = some q → s.splitOk p q (a.shape - 1) = true → a.joining ≠ some false → begun (.split p) false) ∧
    (∀ q, s.splitPart p = some q → s.splitOk p q (a.shape - 1) = true → a.joining = some false → s.firstBusy (s.vfsOf p) = none →
      s.spreadOn (s.partDies p) = false →
      ∃ t, exec (.split p) s = .next t ∧ (t.part p).shape = a.shape - 1 ∧ (t.part q).shape = a.shape - 1 ∧ (t.part p).status = 0 ∧ (t.part p).joining = none ∧
        t.threads = s.threads ∧ t.groups = s.groups ∧ (∀ e ∈ t.tlb, e.vf ∉ s.vfsOf p) ∧
        ∀ c, c < 256 → dieOf c ∈ shapeDies q (a.shape - 1) → handed t c (s.part q).dflt) ∧
    (∀ tgt, a.shape ≠ 0 → ((s.part tgt).shape = 0 ∨ s.adjacent p tgt = false) → refused (.lend p tgt) 5) ∧
    (∀ tgt, a.shape ≠ 0 → (s.part tgt).shape ≠ 0 → s.adjacent p tgt = true →
      ∃ t, exec (.lend p tgt) s = .next t ∧ (t.part p).status = 0 ∧ t.threads = s.threads ∧ t.groups = s.groups ∧
        (∀ c, (t.coreAt c).split = (s.coreAt c).split) ∧ ∀ n, n < 128 →
          let goes : Bool := a.oper.getLsbD n && a.margin.getLsbD n && !a.lent.getLsbD n && s.pairIdle n
          (t.part p).lent.getLsbD n = (a.lent.getLsbD n || goes) ∧
          (t.part tgt).borrowed.getLsbD n = ((s.part tgt).borrowed.getLsbD n || goes) ∧
          (goes = true → (t.coreAt (2 * n)).tenant = none ∧ (t.coreAt (2 * n + 1)).tenant = none)) ∧
    (a.shape ≠ 0 → ∃ t, exec (.revoke p) s = .next t ∧
      (let mine := (a.taking).getD (a.oper &&& a.lent)
       let on (c : Nat) : Bool := decide (c < 256) && mine.getLsbD (c / 2)
       (∀ x, x < 4 → (t.part x).borrowed = (s.part x).borrowed &&& ~~~mine) ∧
       ((∃ c, on c = true ∧ s.coreBusy c = true) → (t.part p).status = 1 ∧ (t.part p).taking = some mine ∧ (t.part p).lent = a.lent ∧ t.threads = s.threads ∧
         ∀ g ∈ t.groups, on g.core = true → s.Unique → g.halted = true) ∧
       ((∀ c, on c = true → s.coreBusy c = false) → (t.part p).status = 0 ∧ (t.part p).taking = none ∧
         (t.part p).lent = a.lent &&& ~~~mine)))

/-- R386: a halt of the debugger is quiet when nothing of the context is in flight any more. -/
def Clause.HaltDrains : Prop :=
  ∀ (s : State) (ctx : Nat) (c : Ctx), s.ctx? ctx = some c → c.dbg = 1 → (∀ p ∈ s.pendings, p.ctx ≠ ctx) →
    (∀ l ∈ s.l1, l.ctx = ctx → l.owesFabric = false) → (∀ u ∈ s.threads, u.ctx = ctx → s.signalling u = false) →
    (∀ k, ∀ y ∈ (s.coreAt k).copies, y.ctx ≠ ctx) → (∀ k, ∀ o ∈ (s.coreAt k).matQ, o.ctx ≠ ctx) →
    SMap.wf Core.init s.cores = true →
    ∃ t, exec (.haltDrainComplete ctx) s = .next t ∧ t = { s with ctxs := t.ctxs } ∧ t.ctx? ctx = some { c with dbg := 2 } ∧
      ∀ d, d ≠ ctx → t.ctx? d = s.ctx? d

/-! ### The host link (spec/19, spec/21) -/

/-- R278, R335, R339, R340, R345, R346: a posted write of one line takes its place at its port's ordering point, behind a register
write that waits there; a packet that no earlier write of its requester holds up is performed at its home, is gone, and is named
in the VF's notice; a read and an atomic operation answer with the bytes at the home. Of device memory that no L1 holds. What a
VF that no port presents, or a payload above 4,096 bytes, meets is the model's choice (DEDUCED, log 158). -/
def Clause.InboundAccesses : Prop :=
  (∀ (s : State) (r : Requester) vf gpa (data : List Byte), data ≠ [] → gpa % 128 + data.length ≤ 128 →
    (s.presented vf = false → exec (.inboundPostedWrite r vf gpa data.length data) s = .next s) ∧
    (s.presented vf = true → s.portHeld (s.vfPort vf) = true → exec (.inboundPostedWrite r vf gpa data.length data) s =
      .next { s with deferred := s.deferred ++ [.inboundPostedWrite r vf gpa data.length data] }) ∧
    (s.presented vf = true → s.portHeld (s.vfPort vf) = false →
    ∃ t, exec (.inboundPostedWrite r vf gpa data.length data) s = .next t ∧ t = { s with vfs := t.vfs, inWrites := s.inWrites + 1 } ∧
      (t.vf vf).inbound = (s.vf vf).inbound ++ [{ req := r, line := gpa - gpa % 128, mask := byteMask (gpa % 128) data.length
                                                  data := BitVec.ofNat 1024 (ofBytes data * 2 ^ (8 * (gpa % 128)))
                                                  write := s.inWrites }])) ∧
  (∀ (s q : State) vf idx (p : InPacket) (tr : Trans) a, (s.vf vf).inbound[idx]? = some p →
    s.mayPerform vf p = true → p.discard = none → p.red = none → p.reply = none → p.mask ≠ 0 →
    s.translateGpa vf p.line .store = (.ok tr, q) → tr.target = .device a → a % 128 = 0 → (∀ x ∈ q.l1, x.home ≠ .device a) →
    (q.homeWrite { vf := vf, gpa := tr.gpa, key := tr.key, ce := tr.ce, tc := 2, kind := .inbound false } a
      (lineWrites a p.mask p.data)).1 = .done →
    ∃ t, exec (.inboundPacketAck vf idx) s = .next t ∧ t.threads = s.threads ∧ (t.vf vf).inbound = (s.vf vf).inbound.erase p ∧
      (∀ j, j < 128 → t.homeByte tr.key (a + j) = if p.mask.getLsbD j then lineByte p.data j else s.homeByte tr.key (a + j)) ∧
      ((t.vf vf).current.names (p.line / 128) = true ∨ (t.vf vf).previous.names (p.line / 128) = true)) ∧
  (∀ (s q : State) (r : Requester) vf gpa len, 
    let held : Bool := s.portHeld (s.vfPort vf) || s.behindWrites vf r
    (s.presented vf = false → exec (.inboundRead r vf gpa len) s = .next { s with out := s.out ++ [.completion 1 []] }) ∧
    (s.presented vf = true → len ≤ 4096 → held = true →
      exec (.inboundRead r vf gpa len) s = .next { s with deferred := s.deferred ++ [.inboundRead r vf gpa len] }) ∧
    (s.presented vf = true → held = false → 0 < len → gpa % 128 + len ≤ 128 → ∀ tr a, s.translateGpa vf gpa .load = (.ok tr, q) →
      tr.target = .device a → q.bad a = false → (∀ x ∈ q.l1, x.home ≠ .device (a / 128 * 128)) →
      ∃ t, exec (.inboundRead r vf gpa len) s = .next t ∧ t.threads = s.threads ∧ SameBytes s t ∧
        t.out = q.out ++ [.completion 0 (s.viewBytes vf tr.key a len)])) ∧
  ∀ (s q : State) (r : Requester) vf gpa (op : AtomOp) (isCas dbl : Bool) (v w : BitVec 64), s.presented vf = true →
    s.portHeld (s.vfPort vf) = false → s.behindWrites vf r = false →
    let n := if dbl then 8 else 4
    ((gpa % n ≠ 0 ∨ (isCas = false ∧ op ≠ .add ∧ op ≠ .exch)) →
      ∃ t, exec (.inboundAtomicop r vf gpa op isCas dbl v w) s = .next t ∧ t = { s with out := s.out ++ [.completion 1 []] }) ∧
    (gpa % n = 0 → (isCas = true ∨ op = .add ∨ op = .exch) → ∀ tr a, s.translateGpa vf gpa .atomic = (.ok tr, q) →
      tr.target = .device a → a % n = 0 → q.bad a = false → (∀ x ∈ q.l1, x.home ≠ .device (a / 128 * 128)) →
      let old := ofBytes (s.viewBytes vf tr.key a n)
      let new := if isCas then (if old = v.toNat % 2 ^ (8 * n) then w.toNat else old)
        else if op = .add then (old + v.toNat) % 2 ^ (8 * n) else v.toNat
      let r' := q.homeWrite { vf := vf, gpa := tr.gpa, key := tr.key, ce := tr.ce, tc := 2, atomic := true } a
        (withAddrs a (toBytes (new % 2 ^ (8 * n)) n))
      ((isCas = true → old = v.toNat % 2 ^ (8 * n)) → r'.1 = .done →
        ∃ t, exec (.inboundAtomicop r vf gpa op isCas dbl v w) s = .next t ∧ .completion 0 (toBytes old n) ∈ t.out ∧
          t.threads = s.threads ∧ t.homeBytes tr.key a n = toBytes new n) ∧
      (isCas = true → old ≠ v.toNat % 2 ^ (8 * n) →
        ∃ t, exec (.inboundAtomicop r vf gpa op isCas dbl v w) s = .next t ∧ .completion 0 (toBytes old n) ∈ t.out ∧
          t.threads = s.threads ∧ SameBytes s t))

/-- R341 to R344, R384, R385: key messages are accepted in RUN inside a secured session; setting fills an empty slot, erasing
empties one of the VF that no entry names; a reset of the function and a stop of its interface shoot its translations down, and
empty all of its slots when that has ended. A firmware image that verifies is stored. Answers carry code and status, and an unknown
message has status 7. A VF that no port presents receives nothing, and what came through its port before comes first. What a reset does, that
a stop leaves the interface unlocked, that either ends the session, that recovery mode serves no key message, and which status a chunk past the
total or shorter than its length has, are the model's choices (DEDUCED, logs 124, 125 and 126; PRESUMED, log 160; DESIGN CHOICE, log 130). -/
def Clause.KeysAndFirmware : Prop :=
  ∀ (s : State) (sec : Bool) vf (obj : List Byte),
    let answered (ins : Instr) (code status : Nat) : Prop := exec ins s = .next { s with out := s.out ++ [.doe (0x80 + code) status] }
    let code := doeField obj 0 1
    let slot := doeField obj 2 2
    let toVf (ins : Instr) : Prop := ins = .setKey sec vf obj ∨ ins = .eraseKey (sec, vf) obj ∨ ins = .functionLevelReset vf ∨
      ins = .tdispStop vf
    (s.presented vf = false → ∀ ins, toVf ins → exec ins s = .next s) ∧
    (s.presented vf = true → s.portHeld (s.vfPort vf) = true → ∀ ins, toVf ins →
      exec ins s = .next { s with deferred := s.deferred ++ [ins] }) ∧
    (s.presented vf = true → s.portHeld (s.vfPort vf) = false → (code = 0 ∨ 3 < code) → ∀ ins,
      (ins = .setKey sec vf obj ∨ ins = .eraseKey (sec, vf) obj) →
      exec ins s = .next { s with out := s.out ++ [.doe ((0x80 + code) % 256) 7] }) ∧
    (s.presented vf = true → s.portHeld (s.vfPort vf) = false → (sec = false ∨ (s.vf vf).tdisp ≠ .run ∨ (s.vf vf).session = false) →
      (code = 1 → answered (.setKey sec vf obj) 1 3) ∧ (code = 2 → answered (.eraseKey (sec, vf) obj) 2 3)) ∧
    (s.presented vf = true → s.portHeld (s.vfPort vf) = false → sec = true → (s.vf vf).tdisp = .run → (s.vf vf).session = true →
      (code = 1 →
        ((slot = 0 ∨ 4095 < slot) → answered (.setKey sec vf obj) 1 2) ∧
        (1 ≤ slot → slot ≤ 4095 → (s.key? slot).isSome → answered (.setKey sec vf obj) 1 1) ∧
        (1 ≤ slot → slot ≤ 4095 → s.key? slot = none → ∃ t k, exec (.setKey sec vf obj) s = .next t ∧
          t = { s with keys := t.keys, keyGens := t.keyGens, out := t.out } ∧ t.key? slot = some k ∧ k.owner = some vf ∧
          k.key = BitVec.ofNat 512 (doeField obj 8 64) ∧ .doe 0x81 0 ∈ t.out ∧ ∀ x, x ≠ slot → t.key? x = s.key? x)) ∧
      (code = 2 →
        ((∀ k, s.key? slot = some k → k.owner ≠ some vf) → answered (.eraseKey (sec, vf) obj) 2 1) ∧
        ∀ k, s.key? slot = some k → k.owner = some vf →
          (s.slotNamed slot = true → answered (.eraseKey (sec, vf) obj) 2 4) ∧
          (s.slotNamed slot = false → ∃ t, exec (.eraseKey (sec, vf) obj) s = .next t ∧ t.key? slot = none ∧ .doe 0x82 0 ∈ t.out ∧
            t.mem = s.mem ∧ t.threads = s.threads ∧ ∀ x, x ≠ slot → t.key? x = s.key? x))) ∧
    (vf < 1024 → s.presented vf = true → s.portHeld (s.vfPort vf) = false → ∀ ins, (ins = .functionLevelReset vf ∨ ins = .tdispStop vf) → ∃ t, exec ins s = .next t ∧ t.threads = s.threads ∧
      (t.vf vf).session = false ∧ (∀ e ∈ t.tlb, e.vf ≠ vf) ∧ (∀ l ∈ t.l1, l.vf ≠ vf) ∧
      (∃ d ∈ t.shootdowns, d.vf = vf ∧ d.erase = true) ∧ (ins = .tdispStop vf → (t.vf vf).tdisp = .unlocked)) ∧
    (∀ d, s.shootdowns.find? s.shootDone = some d → d.erase = true → d.register = false →
      ∃ t, exec .shootdownCompletion s = .next t ∧ t.shootdowns = s.shootdowns.erase d ∧ t.threads = s.threads ∧
        (SMap.wf none s.keys = true → ∀ x k, t.key? x = some k → k.owner ≠ some d.vf)) ∧
    (∀ head off total len rest,
      let ins : Instr := .fwWrite head off total len rest
      (s.hm.stopped = true → exec ins s = .next s) ∧
      (s.hm.stopped = false → s.portHeld 0 = true → exec ins s = .next { s with deferred := s.deferred ++ [ins] }) ∧
      (s.hm.stopped = false → s.portHeld 0 = false →
        ((head % 256 = 0 ∨ 3 < head % 256) → exec ins s = .next { s with out := s.out ++ [.doe ((0x80 + head % 256) % 256) 7] }) ∧
        (head % 256 = 3 → rest.length < len → exec ins s = .next { s with out := s.out ++ [.doe 0x83 6] }))) ∧
    (∀ head off total len rest, head % 256 = 3 → s.hm.stopped = false → s.portHeld 0 = false →
      let chunk := rest.take len
      let flags := head / 256 % 4
      let ends (status : Nat) (img : List Byte) : Prop := ∃ t, exec (.fwWrite head off total len rest) s = .next t ∧
        t.hm = { s.hm with fwPart := none, fwImage := img } ∧ t = { s with hm := t.hm, out := s.out ++ [.doe 0x83 status] }
      chunk.length = len → 1 ≤ chunk.length → chunk.length ≤ 4096 → chunk.length % 4 = 0 → total ≤ Config.imageStore →
      ((flags = 1 ∨ flags = 3) → total < off + chunk.length → ends 6 s.hm.fwImage) ∧
      (flags = 1 → off = 0 → chunk.length < total → ∃ t, exec (.fwWrite head off total len rest) s = .next t ∧
        t.hm = { s.hm with fwPart := some (total, chunk) } ∧ t = { s with hm := t.hm, out := s.out ++ [.doe 0x83 0] }) ∧
      (flags = 3 → off = 0 → chunk.length = total →
        (s.imageGood chunk = true → ends 0 chunk) ∧ (s.imageGood chunk = false → ends 5 s.hm.fwImage)) ∧
      ∀ got, flags = 2 → s.hm.fwPart = some (total, got) → off = got.length → off + chunk.length = total →
        (s.imageGood (got ++ chunk) = true → ends 0 (got ++ chunk)) ∧ (s.imageGood (got ++ chunk) = false → ends 5 s.hm.fwImage))

/-- R339, R341, R277: the interface's state and session, an ATS invalidation and a page response. Whether an invalidated page is
still there is open. -/
def Clause.InterfaceStates : Prop :=
  ∀ (s : State) vf addr (st : Tdisp),
    let page := (vf, addr / 4096)
    (∀ ins, (ins = .tdispStateChange vf st ∨ ins = .securedSpdmSession vf) → (s.presented vf = false → exec ins s = .next s) ∧
      (s.presented vf = true → s.portHeld (s.vfPort vf) = true → exec ins s = .next { s with deferred := s.deferred ++ [ins] })) ∧
    (s.presented vf = true → s.portHeld (s.vfPort vf) = false →
      ∃ t, exec (.tdispStateChange vf st) s = .next t ∧ t = { s with vfs := t.vfs } ∧ t.vf vf = { s.vf vf with tdisp := st } ∧
      ∀ v, v ≠ vf → t.vf v = s.vf v) ∧
    (s.presented vf = true → s.portHeld (s.vfPort vf) = false → ∃ t, exec (.securedSpdmSession vf) s = .next t ∧ t = { s with vfs := t.vfs } ∧ t.vf vf = { s.vf vf with session := true } ∧
      ∀ v, v ≠ vf → t.vf v = s.vf v) ∧
    (∃ t, exec (.atsInvalidationRequest vf addr) s = .next t ∧
      t = { s with ats := t.ats, hostMissing := t.hostMissing, freeCount := t.freeCount } ∧
      (∀ x, x ∈ t.ats ↔ x ∈ s.ats ∧ x ≠ page) ∧ ∀ x, x ∈ s.hostMissing ∨ x ∈ t.hostMissing → x ≠ page → x ∈ s.hostMissing ∧ x ∈ t.hostMissing) ∧
    (∃ t, exec (.priPageResponse vf addr true) s = .next t ∧
      t = { s with priRefused := t.priRefused, priAsked := t.priAsked, hostMissing := t.hostMissing, agenda := s.deferred ++ s.agenda, deferred := [] } ∧
      (∀ x, (x ∈ t.priRefused ↔ x ∈ s.priRefused ∧ x ≠ page) ∧ (x ∈ t.priAsked ↔ x ∈ s.priAsked ∧ x ≠ page) ∧
        (x ∈ t.hostMissing ↔ x ∈ s.hostMissing ∧ x ≠ page))) ∧
    ∃ t, exec (.priPageResponse vf addr false) s = .next t ∧
      t = { s with priRefused := t.priRefused, priAsked := t.priAsked, ats := t.ats, agenda := s.deferred ++ s.agenda, deferred := [] } ∧
      (∀ x, (x ∈ t.priRefused ↔ x ∈ s.priRefused ∨ x = page) ∧ (x ∈ t.priAsked ↔ x ∈ s.priAsked ∧ x ≠ page)) ∧ page ∉ t.ats ∧
      (∀ gpa a, a / 4096 = addr / 4096 → (t.reach vf gpa (.host a)).1 = .error ⟨9, BitVec.ofNat 64 gpa⟩)

/-! ### The fabric (spec/20) -/

/-- R349 to R353, R185: a request of another package under the tag of an enabled VF is carried out at the home and answered
with its transaction tag; a write takes its place at the ordering point; a tag that names none is answered with status 4. Of
device memory that no L1 holds. A package in recovery, or whose start has failed, serves none of them (R382, R385). That an answer
repeats the request's GPA, and that a request which has to wait is kept and tried again, are the model's readings (DEDUCED, logs 120 and 7). -/
def Clause.FabricRequests : Prop :=
  ∀ (s : State) (p : Packet),
    let sent (t : State) (x : Packet) : Prop := Output.packet (framed x) ∈ t.out ∨ framed x ∈ t.heldPackets
    let reply (kind status : Nat) : Packet :=
      { kind := kind, dst := p.src, src := s.hm.pkgid, ftag := p.ftag, ttag := p.ttag, gpa := p.gpa, status := status }
    (s.deaf = true → ∀ ins ∈ [.fabricRead p, .fabricAtomic p, .fabricWrite p, .reduceWrite p, .signalPacket p], exec ins s = .next s) ∧
    (s.deaf = false → s.vfByTag p.ftag = none →
      (∃ t, exec (.fabricRead p) s = .next t ∧ sent t (reply 2 4)) ∧ (∃ t, exec (.fabricAtomic p) s = .next t ∧ sent t (reply 6 4)) ∧
      ∀ ins ∈ [.fabricWrite p, .reduceWrite p, .signalPacket p], ∃ t, exec ins s = .next t ∧ sent t (reply 4 4) ∧ t.vfs = s.vfs) ∧
    ∀ v, s.deaf = false → s.vfByTag p.ftag = some v →
      (let posted (ins : Instr) (mask : BitVec 128) (data : BitVec 1024) (red : Option Nat) : Prop :=
        ∃ t, exec ins s = .next t ∧ t = { s with vfs := t.vfs, inWrites := s.inWrites + 1 } ∧ (t.vf v).inbound = (s.vf v).inbound ++
          [{ req := .fabric p.src p.ftag, line := p.gpa / 128 * 128, mask := mask, data := data, write := s.inWrites,
             red := red, reply := some p }]
       posted (.fabricWrite p) p.mask (p.data.setWidth 1024) none ∧
       posted (.reduceWrite p) p.mask (p.data.setWidth 1024) (some p.op) ∧
       posted (.signalPacket p) (byteMask (p.gpa % 128) 8) (BitVec.ofNat 1024 (p.opd0.toNat * 2 ^ (8 * (p.gpa % 128)))) none) ∧
      (s.behindWrites v (.fabric p.src p.ftag) = true →
        (∃ t, exec (.fabricRead p) s = .next t ∧ t = { s with deferred := s.deferred ++ [.fabricRead p] }) ∧
        ∃ t, exec (.fabricAtomic p) s = .next t ∧ t = { s with deferred := s.deferred ++ [.fabricAtomic p] }) ∧
      (s.behindWrites v (.fabric p.src p.ftag) = false →
        (∀ q tr a, s.translateGpa v (p.gpa / 128 * 128) .load = (.ok tr, q) → tr.target = .device a → a % 128 = 0 → q.bad a = false →
          (∀ x ∈ q.l1, x.home ≠ .device a) →
          ∃ t, exec (.fabricRead p) s = .next t ∧ t.threads = s.threads ∧ SameBytes s t ∧
            sent t { (reply 2 0) with data := BitVec.ofNat 1536 (ofBytes (s.viewBytes v tr.key a 128)) }) ∧
        ∀ q tr a, s.translateGpa v p.gpa .atomic = (.ok tr, q) → tr.target = .device a → a % 8 = 0 → q.bad a = false →
          (∀ x ∈ q.l1, x.home ≠ .device (a / 128 * 128)) → p.size = 1 → p.op = 0 →
          let old := ofBytes (s.viewBytes v tr.key a 8)
          let new := (old + p.opd0.toNat) % 2 ^ 64
          (q.homeWrite { vf := v, gpa := tr.gpa, key := tr.key, ce := tr.ce, tc := 2, atomic := true } a
            (withAddrs a (toBytes new 8))).1 = .done →
          ∃ t, exec (.fabricAtomic p) s = .next t ∧ t.threads = s.threads ∧ t.homeBytes tr.key a 8 = toBytes new 8 ∧
            sent t { (reply 6 0) with size := 1, opd0 := BitVec.ofNat 64 old })

/-- R348, R349, R352: an answer ends the transaction that its tag names: a read and an atomic response fill the window of
their lane with the value, or with the error of their status; an acknowledgement ends a write. A destination that stays
unreachable ends its reads and atomics, whose lanes have an uncorrectable data error, subcause 2. One lane, which is
not held for the window; a write that no stamp waits for. -/
def Clause.FabricAnswers : Prop :=
  (∀ (s : State) (p : Packet) (q : Pending) (l : LaneId) (ws vs : List Window) (x : Window), s.Unique → s.thread l ∈ s.threads →
    q.lane = some l → (s.thread l).ctx = q.ctx → (s.thread l).wait ≠ .held →
    (s.thread l).windows = ws ++ x :: vs → x.tag = 2 * q.ttag + 1 → x.arrival = .waiting → x.closing.ext = false →
    (∀ w ∈ ws ++ vs, w.tag ≠ 2 * q.ttag + 1) → s.spilled = [] →
    let filled (a : Arrival) : Thread := { s.thread l with windows := ws ++ { x with arrival := a } :: vs }
    (s.pendingFor p [1] = some q → q.own = 0 → q.off + q.bytes ≤ 128 →
      ((s.line? q.core q.ctx (lineOf q.fva.toNat)).isSome = true ∨
        (s.l1.filter fun y => y.core == q.core).length < l1Lines (s.coreAt q.core).split) →
      (p.status = 0 → ∃ t, exec (.fabricReadResponse p) s = .next t ∧ t.pendings = s.pendings.erase q ∧ SameBytes s t ∧
        t.thread l = filled (.value (extendTo q.signed q.bytes (p.data.toNat / 2 ^ (8 * q.off) % 2 ^ (8 * q.bytes))))) ∧
      (p.status ≠ 0 → ∃ t, exec (.fabricReadResponse p) s = .next t ∧ t.pendings = s.pendings.erase q ∧
        (∀ m, m ≠ l → t.thread m = s.thread m) ∧
        t.thread l = filled (.error (statusFault p.status).1 (statusFault p.status).2 (q.failGpa p.status q.off)))) ∧
    (s.pendingFor p [5] = some q → p.status = 0 → ∃ t, exec (.fabricAtomicResponse p) s = .next t ∧
      t = { s with pendings := s.pendings.erase q, threads := t.threads } ∧ (∀ m, m ≠ l → t.thread m = s.thread m) ∧
      t.thread l = filled (.value p.opd0))) ∧
  (∀ (s : State) (p : Packet) (q : Pending), s.pendingFor p [3, 7, 8] = some q →
    (∀ n c, q.copy = some n → s.copy? q.core n = some c → c.stampSent = false) →
    (p.status = 0 → exec (.fabricAcknowledgement p) s = .next { s with pendings := s.pendings.erase q }) ∧
    (p.status ≠ 0 → ∃ t, exec (.fabricAcknowledgement p) s = .next t ∧ t.threads = s.threads ∧ t.mem = s.mem ∧ t.pendings = s.pendings.erase q ∧
      t.hm.evwr = s.hm.evwr + 1)) ∧
  ∀ (s : State) dst, s.pendings.Nodup → (∀ q ∈ s.pendings, q.packet.dst = dst → q.lane.isSome ∨ q.copy.isSome) →
    ∃ t, exec (.fabricUnreachableTimeout dst) s = .next t ∧ t.mem = s.mem ∧
      (∀ q ∈ t.pendings, s.outstandingTo dst q = false) ∧ (∀ q ∈ s.pendings, s.outstandingTo dst q = true → q.packet ∉ t.heldPackets) ∧
      ∀ q l (ws vs : List Window) (x : Window), q ∈ s.pendings → s.outstandingTo dst q = true → q.lane = some l → s.Unique →
        (∀ r ∈ s.pendings, r.ttag = q.ttag → r = q) → s.thread l ∈ s.threads → (s.thread l).ctx = q.ctx → (s.thread l).wait ≠ .held →
        (s.thread l).windows = ws ++ x :: vs → x.tag = 2 * q.ttag + 1 → x.arrival = .waiting →
        (∀ w ∈ ws ++ vs, w.tag ≠ 2 * q.ttag + 1) →
        { x with arrival := .error 18 2 (BitVec.ofNat 64 q.agpa) } ∈ (t.thread l).windows

/-- R193, R199, R204, R369, R373: gang-control packets: an echo is answered with the tideline and measures the latency; a
pod-level arrival is counted at the coordinator, and its release lets the arrived groups go on; a spawn packet's child waits
in the dispatcher on a frame of its own, and a join counts its parent's children down, and brings an external edge. A package in
recovery, or whose start has failed, serves none of them (R382, R385). The child's priority, and what travels with arrivals and
releases, are the model's choices (DEDUCED, logs 114 and 47; DESIGN CHOICE, log 168). -/
def Obligations.GangPackets : Prop :=
  (∀ (s : State) (p : Packet), s.deaf = true → ∀ ins ∈ [.timeBeacon p, .echoRequest p, .echoReply p, .podBarrierArrival p,
    .podBarrierRelease p, .spawnPacket p, .joinPacket p, .gangReport p, .gangRelease p], exec ins s = .next s) ∧
  (∀ (s : State) (p : Packet), s.deaf = false → p.kind = 10 →
    let sent (t : State) (x : Packet) : Prop := Output.packet (framed x) ∈ t.out ∨ framed x ∈ t.heldPackets
    (p.op = 3 → ∃ t, exec (.echoRequest p) s = .next t ∧ t.threads = s.threads ∧
      sent t { dst := p.src, src := s.hm.pkgid, kind := 10, gid := p.gid, op := 4, opd0 := p.opd0, opd1 := BitVec.ofNat 64 s.tlNow }) ∧
    (p.op = 4 → ∃ t, exec (.echoReply p) s = .next t ∧ t = { s with hm := t.hm } ∧
      SMap.get 0 t.hm.latency p.src = (s.tlNow - p.opd0.toNat) / 2) ∧
    (let b := s.podBarrier p.gid (p.opd0.toNat / 8 % 16)
     p.opd0.toNat / 256 % 2 ^ 24 = b.generation % 2 ^ 24 →
     (p.op = 5 → ∃ t, exec (.podBarrierArrival p) s = .next t ∧ t = { s with barriers := t.barriers } ∧
       (p.src, p.opd1.toNat % 2 ^ 32, p.opd1.toNat / 2 ^ 32) ∈ (t.podBarrier p.gid (p.opd0.toNat / 8 % 16)).pods) ∧
     (p.op = 6 → s.spilled = [] → s.Unique → ∃ t, exec (.podBarrierRelease p) s = .next t ∧
       (t.podBarrier p.gid (p.opd0.toNat / 8 % 16)).generation = b.generation + 1 ∧
       (∀ g, g ∈ (t.podBarrier p.gid (p.opd0.toNat / 8 % 16)).arrived ↔ g ∈ b.arrived ∧ g ∉ b.freedBy p) ∧
       (p.opd1 = 0 → b.freedBy p = b.arrived) ∧
       ∀ u ∈ s.threads, ∀ w g, u.wait = .atBarl w → (u.id.core, u.id.berth) ∈ b.freedBy p → s.group? u.id.core u.id.berth = some g →
         g.ctx = b.ctx → u.ctx = b.ctx → t.thread u.id = { u with pc := u.pc + 4, wait := .ready, alone := false }))) ∧
  (∀ (s q r : State) (p : Packet) (c : Ctx) (bs : List Byte) (d : TaskDesc), s.deaf = false → p.kind = 10 → p.op = 7 → s.member p.gid = some c →
    s.ctx? c.id = some c → (s.gangIn c.id = true ∨ s.isSpare c = false) →
    s.peek noCore c.id (p.opd0 - 8).toNat 8 .load = (.bytes bs, q) → taskDesc (ofBytes bs) = some d →
    let size := frameSize d.width d.nreg c.ss
    let f := ((q.allocFrames c 1 size).1[0]?).getD 0
    q.heapHolds c 1 size = true →
    (q.allocFrames c 1 size).2.reserveFrames noCore c.id d.width d.nreg (q.allocFrames c 1 size).1 = .ok r →
    s.Unique → ∃ t u, exec (.spawnPacket p) s = .next t ∧ t.threads = s.threads ∧ (c.id, f) ∈ t.waiting ∧ t.task? c.id f = some u ∧
      u.phase = .queued ∧ u.width = d.width ∧ u.nreg = d.nreg ∧ u.entry = p.opd0 ∧ u.arg = p.opd1 ∧ u.prio = c.prio ∧
      u.parent = p.data.toNat % 2 ^ 48 ∧ u.parentPkg = (if p.src = s.hm.pkgid then 0 else 1 + p.src) ∧
      u.tix = p.data.toNat / 2 ^ 64 % 2 ^ 32 ∧ u.nkid = p.data.toNat / 2 ^ 96 % 2 ^ 24 ∧
      u.owesExt = decide (p.src ≠ s.hm.pkgid) ∧ u.owesFabric = decide (p.src ≠ s.hm.pkgid)) ∧
  ∀ (s : State) (p : Packet) (c : Ctx) (k : Task), s.deaf = false → p.kind = 10 → p.op = 8 → s.member p.gid = some c →
    s.task? c.id p.opd0.toNat = some k → k.waitAt = none → s.Unique →
    ∃ t u, exec (.joinPacket p) s = .next t ∧ t.threads = s.threads ∧ t.task? c.id p.opd0.toNat = some u ∧
      u.pending = k.pending - 1 ∧ u.owesExt = true ∧ u.owesFabric = true ∧ (k.phase = .waiting → k.agreed.map (·.kind) = some 1 → k.pending = 1 →
        u.phase = .queuedCont ∧ (c.id, p.opd0.toNat) ∈ t.waiting)

/-- R348: the eighth replay of a flit retrains its link, whose packets then wait, and leave in their order when it is done. -/
def Clause.LinksRetrain : Prop :=
  ∀ (s : State) (l : Nat),
    let link (t : State) : Link := SMap.get ({} : Link) t.links l
    (∃ t, exec (.flitReplay l) s = .next t ∧ t = { s with links := t.links } ∧
      link t = if 8 ≤ (link s).replays + 1 then { retraining := true, replays := 0 }
        else { link s with replays := (link s).replays + 1 }) ∧
    (∃ t, exec (.linkRetrain l) s = .next t ∧ t = { s with links := t.links } ∧ link t = { retraining := true, replays := 0 } ∧
      ∀ p, t.portOf p.dst = some l → (t.emit p).out = t.out ∧ framed p ∈ (t.emit p).heldPackets) ∧
    ∃ t, exec (.linkRetrainComplete l) s = .next t ∧ t.threads = s.threads ∧ (link t).retraining = false ∧
      let goes := s.heldPackets.filter fun p => decide (s.portOf p.dst = some l) && !s.mustHold (framed p)
      ∃ new, t.out = s.out ++ new ∧ List.Sublist (goes.map fun p => Output.packet (framed p)) new

/-! ### The harbourmaster (spec/23) -/

/-- R382, R383, R384, R385, R379: a start, cold or warm, always ends in a machine with no thread, task, context or cached line,
whose memory reads zero, and which keeps the repair counts, the identity and the retired pairs. One that succeeds has applied
the authorised row and column spares. An image that does not verify leads to recovery; a start that fails stops and shows status 6
with the failure count; after three failed warm starts a warm start is a cold one. An accepted image raises the minimum security
version to its own, also where its start fails later. The outcome of a start as an operand, the place of the failure count, status 6
after a cold start, and that memory reads zero after a start that failed before the scrub, are the model's choices (DESIGN CHOICE, log 127). -/
def Obligations.StartsBlank : Prop :=
  ∀ s : State,
    let fresh (t : State) : Prop :=
      t.threads = [] ∧ t.groups = [] ∧ t.tasks = [] ∧ t.ctxs = [] ∧ t.waiting = [] ∧ t.l1 = [] ∧ t.code = [] ∧ t.tlb = [] ∧ t.mem = [] ∧
      (∀ slot a, t.homeByte slot a = 0) ∧ t.hm.errors = s.hm.errors ∧ t.hm.retiredPairs = s.hm.retiredPairs ∧
      t.hm.pkgid = s.hm.pkgid ∧ t.hm.podid = s.hm.podid ∧ t.starts = s.starts + 1 ∧
      ∀ i ∈ s.hm.retiredPairs, (t.coreAt (2 * i)).retired = true ∧ (t.coreAt (2 * i + 1)).retired = true
    let raises (t : State) : Prop := t.hm.fused =
      if ((s.hm.fused).getD Config.fusedVersion0).toNat < (Config.imageVersion s.hm.fwImage).toNat then some (Config.imageVersion s.hm.fwImage)
      else s.hm.fused
    let up (t : State) : Prop := raises t ∧ t.hm.stopped = false ∧ t.hm.recovery = false ∧ t.hm.failedWarm = 0 ∧ t.hm.trained = true ∧
      t.hm.proposals = s.hm.proposals.map Proposal.applied
    let down (n : Nat) (t : State) : Prop := raises t ∧ t.hm.stopped = true ∧ t.hm.failedWarm = n ∧ t.hm.status = 6 ∧ ofBytes (readMap 0 t.hm.rsp 0 4) = n % 2 ^ 32 ∧
      t.hm.proposals = s.hm.proposals
    (∀ ok, (∃ t, exec (.coldStart ok) s = .next t ∧ fresh t) ∧ ∃ t, exec (.warmStart ok) s = .next t ∧ fresh t) ∧
    (s.imageGood s.hm.fwImage = false → ∀ ok, ∀ ins ∈ [Instr.coldStart ok, .warmStart ok],
      ∃ t, exec ins s = .next t ∧ t.hm.recovery = true ∧ t.hm.proposals = s.hm.proposals ∧ t.hm.fused = s.hm.fused) ∧
    (s.imageGood s.hm.fwImage = true →
      (∃ t, exec (.coldStart true) s = .next t ∧ up t) ∧
      (∃ t, exec (.coldStart false) s = .next t ∧ down s.hm.failedWarm t) ∧
      (s.hm.failedWarm < 3 →
        (∃ t, exec (.warmStart true) s = .next t ∧ if s.hm.trained then up t else down (s.hm.failedWarm + 1) t) ∧
        ∃ t, exec (.warmStart false) s = .next t ∧ down (s.hm.failedWarm + 1) t)) ∧
    (3 ≤ s.hm.failedWarm → ∀ ok, exec (.warmStart ok) s = exec (.coldStart ok) s)

/-- R388, R391: a mailbox command ends with its status, its response and one more in `seq`; each acts as its row says. The status of a
cap outside its bounds is the model's reading (DEDUCED, log 128), and so are those of operands out of range (DEDUCED, log 181). -/
def Obligations.MailboxAnswers : Prop :=
  ∀ s : State, s.hm.recovery = false →
    let answers (ins : Instr) (status : Nat) (rsp : List Byte) (f : State → Prop) : Prop :=
      ∃ t, exec ins s = .next t ∧ t.hm.status = status ∧ t.hm.seq = s.hm.seq + 1 ∧ t.hm.rsp = writeMap 0 [] 0 rsp ∧
        t.threads = s.threads ∧ SameBytes s t ∧ f t
    let same (t : State) : Prop := t.hm.cap = s.hm.cap ∧ t.hm.routes = s.hm.routes ∧ t.hm.pkgid = s.hm.pkgid ∧
      t.hm.proposals = s.hm.proposals
    (1 < s.req 0 1 → answers .restart 2 [] same) ∧
    (s.req 0 1 = 0 → ∃ t ok, exec .restart s = .next t ∧ exec (.coldStart ok) { s with freeCount := s.freeCount + 1 } = .next t) ∧
    (s.req 0 1 = 1 → ∃ t ok, exec .restart s = .next t ∧ exec (.warmStart ok) { s with freeCount := s.freeCount + 1 } = .next t) ∧
    (let l := (s.hm.proposals.filter fun p => decide (s.req 0 4 ≤ p.id)).take 8
     answers .listProposals 0 (toBytes l.length 8 ++ l.flatMap s.proposalBytes) same) ∧
    (if 800 ≤ s.req 0 4 ∧ s.req 0 4 ≤ 2600 then answers .setPowerCap 0 [] fun t => t.hm.cap = s.req 0 4
     else answers .setPowerCap 3 [] same) ∧
    (∃ bs, bs.length = 36 ∧ bs[2]? = some 0 ∧ bs[3]? = some 0 ∧ answers .readSensors 0 bs same) ∧
    (∃ bs, bs.take 8 = [0x4c, 0x58, 0x2d, 0x49, 0x58, 0x50, 0x38, 0x00] ∧ (bs.drop 32).take 8 = List.replicate 8 96 ∧
      ofBytes ((bs.drop 40).take 2) = s.hm.retiredPairs.length % 2 ^ 16 ∧ ofBytes ((bs.drop 48).take 2) = s.hm.pkgid % 2 ^ 16 ∧
      ofBytes ((bs.drop 50).take 2) = s.hm.podid % 2 ^ 16 ∧ bs.length = 52 ∧ answers .readIdentity 0 bs same) ∧
    (let n := s.req 8 2
     let f := s.req 6 2
     ((∃ g ∈ s.gangs, g.2.valid = true) → answers .setIdentityAndRoutes 3 [] same) ∧
     ((∀ g ∈ s.gangs, g.2.valid = false) → 240 < n ∨ 512 < f + n ∨ 511 < s.req 2 2 → answers .setIdentityAndRoutes 2 [] same) ∧
     ((∀ g ∈ s.gangs, g.2.valid = false) → n ≤ 240 → f + n ≤ 512 → s.req 2 2 ≤ 511 →
       answers .setIdentityAndRoutes 0 [] fun t =>
         (∀ j, j < n → SMap.get 0 t.hm.routes (f + j) = SMap.get 0 s.hm.req (0x10 + j)) ∧
         (∀ j, (j < f ∨ f + n ≤ j) → SMap.get 0 t.hm.routes j = SMap.get 0 s.hm.routes j) ∧
         (t.hm.pkgid, t.hm.podid) = if s.req 0 1 % 2 = 1 then (s.req 2 2, s.req 4 2) else (s.hm.pkgid, s.hm.podid))) ∧
    ((∀ p ∈ s.hm.proposals, p.id ≠ s.req 0 4) → answers .authoriseProposal 2 [] same) ∧
    ∀ p, (s.hm.proposals.find? fun p => p.id == s.req 0 4) = some p →
      let put (k : Nat) (t : State) : Prop := ∀ x ∈ t.hm.proposals, x.id = p.id → x = { p with state := k }
      let d := s.req 8 1
      (1 < d → answers .authoriseProposal 2 [] same) ∧
      (d ≤ 1 → (p.state ≠ 0 ∨ (d = 1 ∧ p.kind = 4)) → answers .authoriseProposal 3 [] same) ∧
      (d = 0 → p.state = 0 → answers .authoriseProposal 0 [] (put 2)) ∧
      (d = 1 → p.state = 0 → p.kind = 2 → answers .authoriseProposal 0 [] fun t => put 3 t ∧
        (SMap.get ({} : Link) t.links (p.unit.code.toNat % 256)).retraining = true) ∧
      (d = 1 → p.state = 0 → p.kind ≠ 2 → p.kind ≠ 4 → answers .authoriseProposal 0 [] (put 1))

/-- R377, R378, R379, R387, R333: the third corrected error of a unit within 24 hours raises a proposal, and no other does, and
no copy with dirty bytes goes; a pair of an authorised retirement is retired when it is idle, or has been revoked from those to
whom it is lent; the package steps an island's clock down above the cap and at 105 °C, and up
again where 95 % of the cap is not passed; the islands that draw most are lowered first; a hot row is marked until its refresh window
ends. That a retirement revokes a lent pair in its own step, the bounds and steps of the clock, and a lasting unit whose spare is missing, are
the model's choices (DEDUCED, logs 103 and 128; DESIGN CHOICE, log 127). -/
def Obligations.RepairsAndPower : Prop :=
  ∀ s : State,
    (∀ u, (if (s.errorTimes u).length = 2 then
        ∃ t p, exec (.correctedError u) s = .next t ∧ t.hm.proposals = s.hm.proposals ++ [p] ∧ p.id = s.hm.proposals.length ∧
          p.unit = u ∧ p.state = 0 ∧ p.count = 3 ∧ (p.kind = repairKind u ∨ p.kind = 4) ∧ t.threads = s.threads ∧ SameBytes s t
      else ∃ t, exec (.correctedError u) s = .next t ∧ t.hm = { s.hm with errors := t.hm.errors } ∧
        t.hm.errors.head? = some (u, s.tlNow) ∧ SameBytes s t ∧
        t = { s with hm := t.hm, l1 := t.l1, sc := t.sc, tlb := t.tlb, seals := t.seals, vfs := t.vfs, freeCount := t.freeCount } ∧
        (u.utype ≠ 2 → t.l1 = s.l1 ∧ t.sc = s.sc ∧ t.tlb = s.tlb ∧ t.seals = s.seals ∧ t.vfs = s.vfs ∧ t.freeCount = s.freeCount) ∧
        (∀ e ∈ t.tlb, e ∈ s.tlb) ∧ (∀ l ∈ t.l1, l ∈ s.l1) ∧ (∀ l ∈ t.sc, l ∈ s.sc) ∧
        ((s.l1.map L1Line.tag).Nodup → ∀ l ∈ s.l1, l.dirty ≠ 0 → l ∈ t.l1))) ∧
    (∀ i p, s.retirable i = some p → ∃ t, exec (.pairRetirement i) s = .next t ∧ i ∈ t.hm.retiredPairs ∧
      (s.lender i = none → t.threads = s.threads ∧ SameBytes s t) ∧
      (∀ q, s.lender i = some q → (t.part q).lent.getLsbD i = false) ∧
      (∀ c, (c = 2 * i ∨ c = 2 * i + 1) → (t.coreAt c).retired = true ∧ (t.coreAt c).tenant = none) ∧
      ∀ x ∈ t.hm.proposals, x.id = p.id → x.state = 3) ∧
    (let speed (t : State) (i : Nat) : Nat := SMap.get fullSpeed t.hm.islands i
     let moves (ins : Instr) (f : Nat → Nat) : Prop :=
       ∃ t, exec ins s = .next t ∧ (∀ i, speed t i = f i) ∧ t.threads = s.threads ∧ SameBytes s t
     let most (i : Nat) : Prop := ∀ j, j < 128 → 1200 < speed s j → Config.draw s.freeCount j ≤ Config.draw s.freeCount i
     (∀ i w, (w ≤ s.hm.cap ∨ most i) → moves (.powerCapStep i w) fun j => if j ≠ i then speed s j else if s.hm.cap < w then max 1200 (speed s i - 100)
       else if w * 100 ≤ s.hm.cap * 95 then min fullSpeed (speed s i + 100) else speed s i) ∧
     (∀ i w, s.hm.cap < w → ¬most i → exec (.powerCapStep i w) s = .next s) ∧
     ∀ d x, moves (.thermalStep d x) fun j =>
       if 1050 ≤ x ∧ 16 * d ≤ j ∧ j < 16 * d + 16 then max 1200 (speed s j - 100) else speed s j) ∧
    ∀ st b r, (∃ t, exec (.hotRowEvent st b r) s = .next t ∧ t = { s with hotRows := t.hotRows } ∧ (st, b, r) ∈ t.hotRows) ∧
      ∃ t, exec (.refreshManagementWindowEnd st b r) s = .next t ∧ t = { s with hotRows := t.hotRows } ∧ (st, b, r) ∉ t.hotRows

/-! ### Registers of the host (spec/15, spec/16, spec/18, spec/22, spec/23) -/

/-- R4, R5, R267, R299, R308, R335, R340, R385: a write of a register of the host touches no thread, task, context or memory of
the device, and nothing at all where there is no such register, in recovery mode, for a VF that no port presents, or, but for the mailbox, after a
start that failed; behind a write of its port that waits, it waits, and a replay pointer also behind the posted writes of its requester. A field that the host may write reads as it was written, a reserved bit as zero, a value outside a field's range as the
nearest bound. A write that starts a command makes its register read busy and puts its step next; while the register reads busy,
another waits. The physical function's BAR shows the blocks of every partition and VF. Where NumVFs stands is the model's choice
(PRESUMED, log 161), and so is that recovery mode serves no register (DESIGN CHOICE, log 130); that a write which has to wait is kept and
tried again is its reading (DEDUCED, log 7). -/
def Obligations.RegisterWritesAct : Prop :=
  ∀ (s : State) (r : Requester),
    (∀ sp off v, ∃ t, exec (.registerWrite (r, sp) off v) s = .next t ∧ t.threads = s.threads ∧ t.groups = s.groups ∧
      t.tasks = s.tasks ∧ t.ctxs = s.ctxs ∧ t.mem = s.mem ∧ t.l1 = s.l1 ∧
      ((s.hm.recovery = true ∨ RegSpace.real (resolve sp off).1 (resolve sp off).2 = false) → t = s) ∧
      ((s.hm.stopped = true ∧ ¬∃ port, (resolve sp off).1 = .pf port ∧ 0x8000 ≤ off ∧ off < 0x8300) → t = s) ∧
      (∀ vf, (resolve sp off).1 = .vfOwn vf → s.presented vf = false → t = s) ∧
      (s.hm.recovery = false → s.hm.stopped = false → RegSpace.real (resolve sp off).1 (resolve sp off).2 = true →
        (∀ vf, (resolve sp off).1 = .vfOwn vf → s.presented vf = true) →
        (s.portHeld (spacePort s sp) = true ∨ ∃ vf, sp = .vfOwn vf ∧ off = 0x218 ∧ s.behindWrites vf r = true) →
        t = { s with deferred := s.deferred ++ [.registerWrite (r, sp) off v] })) ∧
    (s.hm.recovery = false → ∀ port j v, port < 2 → j < 32 → s.portHeld port = false →
      ∃ t, exec (.registerWrite (r, .pf port) (0x8000 + 8 * j) v) s = .next t ∧ (t.readRegister (.pf port) (0x8000 + 8 * j)).1 = v) ∧
    (∀ port off, port < 2 → off < 0x1000 →
      (∀ p, p < 4 → (s.readRegister (.pf port) (0x20000 + 0x1000 * p + off)).1 = (s.readRegister (.partition p) off).1) ∧
      ∀ v, v < 1024 → (s.readRegister (.pf port) (0x1000000 + 0x1000 * v + off)).1 = (s.readRegister (.translation v) off).1) ∧
    (s.hm.recovery = false → s.hm.stopped = false →
      let reads (sp : RegSpace) (off : Nat) (v x : Word) : Prop := s.portHeld (spacePort s sp) = false →
        ∃ t, exec (.registerWrite (r, sp) off v) s = .next t ∧ (t.readRegister sp off).1 = x
      let starts (sp : RegSpace) (off : Nat) (v : Word) (busy : State) (i : Instr) : Prop := s.portHeld (spacePort s sp) = false →
        exec (.registerWrite (r, sp) off v) s = .next { busy with agenda := i :: s.agenda }
      let waits (sp : RegSpace) (off : Nat) (v : Word) : Prop := s.portHeld (spacePort s sp) = false →
        exec (.registerWrite (r, sp) off v) s = .next { s with deferred := s.deferred ++ [.registerWrite (r, sp) off v] }
      (∀ vf v, vf < 1024 → s.presented vf = true →
        reads (.vfOwn vf) 0x400 v (v &&& 0x3fffffffe00) ∧ reads (.vfOwn vf) 0x408 v (v &&& 0xffffffff) ∧
        reads (.vfOwn vf) 0x228 v (v &&& 0xffffffff) ∧
        ((s.vf vf).fqWr = (s.vf vf).fqRp → reads (.vfOwn vf) 0x200 v (v &&& 0xfffffffffffff000))) ∧
      (∀ vf v, vf < 1024 →
        reads (.translation vf) 0x100 v (v &&& 0xffffffff000) ∧ reads (.translation vf) 0x110 v (v &&& 0xfffffffffffff000) ∧
        reads (.translation vf) 0x128 v (v &&& 0xffffffff) ∧ reads (.translation vf) 0x608 v (v &&& 0xffffffffe00) ∧
        reads (.translation vf) 0x740 v (v &&& 0xfff) ∧
        reads (.translation vf) 0x108 v (BitVec.ofNat 64 (max 21 (min 42 (v.toNat % 64)))) ∧
        ∀ j, j < 4 → reads (.translation vf) (0x700 + 8 * j) v (v &&& 0x3fffff)) ∧
      (∀ p v, p < 4 → reads (.partition p) 0x48 v (BitVec.ofNat 64 (max 1 (v.toNat % 2 ^ 16))) ∧
        reads (.partition p) 0x40 v (BitVec.ofNat 64 (v.toNat / 16 % 16 * 16 + min 6 (v.toNat % 16)))) ∧
      (∀ port v, port < 2 → reads (.pf port) 0x8218 v (v &&& 0xffffffff)) ∧
      (∀ v, (v.toNat % 2 ^ 16 + s.numVfs.2 ≤ 1024 → reads (.config 0) 0x10 v (v &&& 0xffff)) ∧
        (s.numVfs.1 + v.toNat % 2 ^ 16 ≤ 1024 → reads (.config 1) 0x10 v (v &&& 0xffff))) ∧
      (∀ vf v, vf < 1024 → ((s.vf vf).cmdResult ≠ 1 →
          ∀ i, (v.toNat % 16, i) ∈ [(1, Instr.transfer vf (v.toNat / 2 ^ 16 % 8) (v.toNat / 2 ^ 32)),
            (2, .reclaim vf (v.toNat / 2 ^ 16 % 8) (v.toNat / 2 ^ 32)), (3, .assign vf), (4, .assignRaw vf), (5, .release vf),
            (6, .readDescriptor vf)] → starts (.translation vf) 0x600 v (s.modVf vf fun x => { x with cmdResult := 1 }) i) ∧
        ((s.vf vf).cmdResult = 1 → waits (.translation vf) 0x600 v) ∧
        ((s.vf vf).sdbusy = false → ∀ i, (v.toNat % 4, i) ∈ [(2, Instr.stage2ShootdownGpa vf (v.toNat / 4096 * 4096)),
            (3, .stage2ShootdownVf vf)] → starts (.translation vf) 0x138 v (s.modVf vf fun x => { x with sdbusy := true }) i) ∧
        ((s.vf vf).sdbusy = true → waits (.translation vf) 0x138 v)) ∧
      (∀ vf v, vf < 1024 → s.presented vf = true →
        (s.behindWrites vf r = false → starts (.vfOwn vf) 0x218 v s (.replayPointerWrite vf (v.setWidth 32))) ∧
        (v.toNat % 2 = 1 → starts (.vfOwn vf) 0x410 v s (.discard (r, vf))) ∧
        ∀ k, k < 16 → (s.queue (.vf vf k)).stop = true → v.toNat / 4 % 2 = 1 →
          starts (.vfOwn vf) (0x800 + 0x40 * k + 0x20) v s (.queueStopClear (.vf vf k))) ∧
      (∀ p v, p < 4 → (s.part p).shape ≠ 0 → ((s.part p).status ≠ 1 → ∀ i,
          (v.toNat % 16, i) ∈ [(1, Instr.merge p), (2, .split p), (3, .lend p (v.toNat / 16 % 16)), (4, .revoke p)] →
          starts (.partition p) 0x50 v (s.partStatus p 1) i) ∧
        ((s.part p).status = 1 → waits (.partition p) 0x50 v)) ∧
      ∀ port v, port < 2 → (s.hm.status ≠ 1 → ∀ i, (v.toNat % 256, i) ∈ [(1, Instr.restart), (2, .listProposals),
          (3, .authoriseProposal), (4, .setPowerCap), (5, .readSensors), (6, .setIdentityAndRoutes), (7, .readIdentity)] →
          starts (.pf port) 0x8200 v { s with hm := { s.hm with status := 1 } } i) ∧
        (s.hm.status = 1 → waits (.pf port) 0x8200 v))

/-! ### The machine as a whole -/

/-- R4, R11, R342, R358, R382: right after a start no instruction is pending, no thread, task, group or context is there, nothing
is cached or translated, device memory reads zero, the tideline stands at zero and holds no lock, no VF is enabled or on
the fabric, the package has number 0 in pod 0, and key slot 0 alone holds a key. The memory has its
canonical form, which every step keeps (`StepKeepsMemory`). -/
def Obligations.ResetLeaves : Prop :=
  State.reset.issue = none ∧ State.reset.threads = [] ∧ State.reset.tasks = [] ∧ State.reset.groups = [] ∧ State.reset.ctxs = [] ∧
  State.reset.l1 = [] ∧ State.reset.tlb = [] ∧ State.reset.seals = [] ∧ (∀ slot a, State.reset.homeByte slot a = 0) ∧
  State.reset.tlNow = 0 ∧ State.reset.tide.state = 0 ∧ (∀ v, (State.reset.vf v).en = false ∧ (State.reset.vf v).fen = false) ∧
  State.reset.hm.pkgid = 0 ∧ State.reset.hm.podid = 0 ∧ (∀ k, k ≠ 0 → State.reset.key? k = none) ∧
  (State.reset.key? 0).isSome = true ∧ State.reset.memOk

/-- The memory's canonical form, which every step keeps, so that equal memories are equal data. -/
def Obligations.StepKeepsMemory : Prop := ∀ s t : State, s.memOk → StepsTo s t → t.memOk

/-- R9, R12: a step faults where the pending issue names a core or a quay thread that does not exist, which no step of the machine
makes; from every other state the machine goes on, and no step refuses. -/
def Obligations.StepGoesOn : Prop :=
  ∀ s : State, ((∀ i, s.issue = some i → i.real = true) → ∃ t, StepsTo s t) ∧
    ∀ i, s.issue = some i → i.real = false → step s = .fault .noSuchEngine

/-- R358: the tideline never falls in a step, unless the package starts anew. -/
def Obligations.TidelineNeverFalls : Prop :=
  ∀ s t : State, StepsTo s t → s.tide.now ≤ t.tide.now ∨ t.starts ≠ s.starts

/-! ### Statements of several clauses -/

/-- R79 to R81: arithmetic, logic, shifts, products and quotients among registers. -/
def Obligations.RegisterIntegers : Prop := Clause.ArithmeticLogic ∧ Clause.Shifts ∧ Clause.MultiplyDivide

/-- R82 to R86: bit counts, comparisons, selection, addresses and bit fields. -/
def Obligations.BitsAndSelections : Prop := Clause.BitCounts ∧ Clause.CompareSelectAddress ∧ Clause.BitFields

/-- R87, R88: the immediate forms, short and long. -/
def Obligations.Immediates : Prop := Clause.ImmediateForms ∧ Clause.LongImmediates

/-- R89 to R92: branches, jumps, calls, returns and the moves of the register window. -/
def Obligations.ControlTransfers : Prop := Clause.Branches ∧ Clause.JumpsCallsReturns ∧ Clause.WindowMoves

/-- R32, R33, R229: a step fetches the bytes at the picked address and runs the instruction that they decode to. -/
def Obligations.FetchesAndRuns : Prop := Clause.StepRunsDecoded ∧ Clause.FetchBringsCode

/-- R34, R44, R46: the traps of bytes that are no instruction, of misaligned targets and of missing privilege. -/
def Obligations.RefusedForms : Prop := Clause.IllegalTraps ∧ Clause.MisalignedJumpTraps ∧ Clause.PrivilegeTraps

/-- R52 to R63, R71: every finite pattern is a value, and finite values are combined and compared exactly. -/
def Obligations.NumbersAreExact : Prop := Clause.PatternsAreExact ∧ Clause.ExactArithmetic

/-- R100 to R104: sums, products, fused forms, quotients and roots. -/
def Obligations.FloatOperations : Prop := Clause.FloatArithmetic ∧ Clause.FloatDivideRoot

/-- R101, R105 to R109: selections, comparisons, classes and conversions. -/
def Obligations.FloatChoices : Prop := Clause.FloatSelectCompare ∧ Clause.ClassIsOneBit ∧ Clause.FloatConvert

/-- R58, R110 to R116: complex and packed operations. -/
def Obligations.PackedOperations : Prop := Clause.ComplexProducts ∧ Clause.PackedArithmetic ∧ Clause.PackedReduceConvert

/-- R94, R95, R202, R208: instructions that wait, and what lets them go on. -/
def Obligations.Waiting : Prop := Clause.WaitingInstructions ∧ Clause.GroupReleases

/-- R96, R97, R209 to R212: taking a trap. -/
def Obligations.Traps : Prop := Clause.Breakpoints ∧ Clause.TrapEntry ∧ Clause.TrapStopsContext

/-- R214: returning from a trap, and the end of what it parked. -/
def Obligations.TrapReturns : Prop := Clause.ResumeReturns ∧ Clause.RestartAddress ∧ Clause.EretEnds ∧ Clause.KillEnds

/-- R23 to R26, R207, R213: reads and writes of the special and of the system registers. -/
def Obligations.SpecialAndSystemRegisters : Prop := Clause.SpecialRegisters ∧ Clause.WriteTmode ∧ Clause.SystemRegisters ∧ Clause.WriteSystemRegisters

/-- R215, R267, R272: invalidations and shoot-downs of translations. -/
def Obligations.Invalidations : Prop := Clause.TlbInvalidate ∧ Clause.ShootdownsFinish

/-- R216, R386: the debugger's halt of a context, and its end. -/
def Obligations.DebuggerHaltsAndDrains : Prop := Clause.DebuggerHalts ∧ Clause.HaltDrains

/-- R195 to R200, R218, R220: the end of threads, and of their task with the last of them. -/
def Obligations.EndsOfThreads : Prop := Clause.ThreadsEnd ∧ Clause.TasksEnd

/-- R199, R200, R223: successors, completions and placements. -/
def Obligations.TasksStart : Prop := Clause.SuccessorStarts ∧ Clause.TaskCompletes ∧ Clause.PlacementStarts

/-- R203, R204: registration, arrival and release. -/
def Obligations.BarriersAmongGroups : Prop := Clause.LevelBarriers ∧ Clause.BarrierReleases

/-- R166, R229, R322 to R325, R327: what a core picks, the change of its tenant, and what is spilled and comes back. -/
def Obligations.CoresAreShared : Prop := Clause.PickersPick ∧ Clause.SliceEndHalts ∧ Clause.SpilledRows

/-- R121 to R123, R134, R140: loads, external loads, prefetches and late results. -/
def Obligations.Loads : Prop := Clause.LoadsRead ∧ Clause.ExternalLoad ∧ Clause.PrefetchFills ∧ Clause.ResultArrives

/-- R120, R273 to R276: faulting accesses, their records and the replay. -/
def Obligations.Faults : Prop := Clause.AccessFaults ∧ Clause.FaultRecordsPass

/-- R135 to R139: atomics and what they compute. -/
def Obligations.Atomics : Prop := Clause.AtomicsAct ∧ Clause.AtomicFunctions

/-- R127 to R129, R259: seals and the steps of the dies. -/
def Obligations.Seals : Prop := Clause.SealsInstall ∧ Clause.SealSteps

/-- R292, R300, R301: writes, scrubbing and discards at the homes. -/
def Obligations.Homes : Prop := Clause.HomeWritesAreExact ∧ Clause.DiscardWritesZeros

/-- R146 to R149, R159, R164: matrix operations at their issue. -/
def Obligations.MatrixIssue : Prop := Clause.MatrixOperationsQueue ∧ Clause.MatrixChecksTrap ∧ Clause.TileMarks

/-- R149, R154 to R163: matrix operations at their execution and retirement. -/
def Obligations.MatrixQueue : Prop := Clause.AccumulationExecutes ∧ Clause.OtherArrayOperations ∧ Clause.MatrixOperationRetires

/-- R167 to R170, R174, R187: kicks, the start of the quay threads, the timeline, mooring. -/
def Obligations.QuayThreads : Prop := Clause.KicksPass ∧ Clause.QuayContextStarts ∧ Clause.TimelineReads ∧ Clause.Mooring

/-- R171 to R176: copies from their issue to their stamp. -/
def Obligations.Copies : Prop := Clause.CopiesStart ∧ Clause.CopiesProceed

/-- R315 to R321, R364, R365: the records of the queues. -/
def Obligations.Records : Prop := Clause.RecordsAreTaken ∧ Clause.LaunchesStart

/-- R324, R363 to R376: timed releases, switches, their reports and their images. -/
def Obligations.GangSwitches : Prop := Clause.TimedRecordsAct ∧ Clause.SwitchesReport ∧ Clause.FullSwitches

/-- R278, R345, R349 to R353: accesses of the host and of other packages. -/
def Obligations.Inbound : Prop := Clause.InboundAccesses ∧ Clause.FabricRequests

/-- R339 to R344, R384, R385: keys, firmware and the interface's states. -/
def Obligations.Interfaces : Prop := Clause.KeysAndFirmware ∧ Clause.InterfaceStates

/-- R348, R349, R352: what comes back over the fabric, and its links. -/
def Obligations.Links : Prop := Clause.FabricAnswers ∧ Clause.LinksRetrain
end

