-- ==== Sys2Proof/Laws/Decode.lean ====
section
/-! SUPPORT. What the decoder reads from a word's fields. -/

namespace Sys2Proof

open Sys2Proof.Machine

/-- A word's bytes give the word back. -/
theorem takeWord_bytesOf (w : BitVec 32) (rest : List Byte) : takeWord (bytesOf 4 w.toNat ++ rest) = some (w, rest) := by
  simp only [bytesOf, List.cons_append, List.nil_append, takeWord, Option.some.injEq, Prod.mk.injEq, and_true]
  apply BitVec.eq_of_toNat_eq
  have h := w.isLt
  simp only [BitVec.toNat_append, BitVec.toNat_ofNat, Nat.shiftLeft_eq]
  have h1 : w.toNat / 256 / 256 / 256 < 256 := by omega
  rw [← Nat.shiftLeft_eq, ← Nat.shiftLeft_eq, ← Nat.shiftLeft_eq]
  rw [← Nat.shiftLeft_add_eq_or_of_lt (by omega), ← Nat.shiftLeft_add_eq_or_of_lt (by omega),
    ← Nat.shiftLeft_add_eq_or_of_lt (by omega)]
  simp only [Nat.shiftLeft_eq]
  omega

theorem isCode_short {w : BitVec 32} {i : Instr} (h : isLong (opOf w) = false) (hd : decodeWords w 0 = .ok i) : IsCode [w] i := by
  intro rest
  simp only [List.flatMap_cons, List.flatMap_nil, List.append_nil]
  rw [decode, takeWord_bytesOf]
  dsimp only
  rw [h, if_neg (by simp), hd]
  rfl

theorem isNoCode_short {w : BitVec 32} {e : DecodeError} (h : isLong (opOf w) = false) (hd : decodeWords w 0 = .error e) :
    IsNoCode [w] := by
  intro rest
  refine ⟨e, ?_⟩
  simp only [List.flatMap_cons, List.flatMap_nil, List.append_nil]
  rw [decode, takeWord_bytesOf]
  dsimp only
  rw [h, if_neg (by simp), hd]
  rfl

theorem isCode_long {w w2 : BitVec 32} {i : Instr} (h : isLong (opOf w) = true) (hd : decodeWords w w2 = .ok i) :
    IsCode [w, w2] i := by
  intro rest
  simp only [List.flatMap_cons, List.flatMap_nil, List.append_nil, List.append_assoc]
  rw [decode, takeWord_bytesOf]
  simp only [h, if_true]
  rw [takeWord_bytesOf]
  simp [hd, Except.map]

theorem isNoCode_long {w w2 : BitVec 32} {e : DecodeError} (h : isLong (opOf w) = true) (hd : decodeWords w w2 = .error e) :
    IsNoCode [w, w2] := by
  intro rest
  refine ⟨e, ?_⟩
  simp only [List.flatMap_cons, List.flatMap_nil, List.append_nil, List.append_assoc]
  rw [decode, takeWord_bytesOf]
  simp only [h, if_true]
  rw [takeWord_bytesOf]
  simp [hd, Except.map]

/-! ### Fields of a word -/

variable (op : BitVec 7) (d a b : Reg) (k : BitVec 4) (i : BitVec 11) (o : BitVec 18) (v : BitVec 25)

theorem ext_bits {n : Nat} {x y : BitVec n} (h : ∀ j, j < n → x.getLsbD j = y.getLsbD j) : x = y :=
  BitVec.eq_of_getLsbD_eq h

@[simp] theorem opOf_wordT : opOf (wordT op d a b k) = op := by
  apply ext_bits; intro j hj
  simp only [opOf, wordT, BitVec.getLsbD_extractLsb', BitVec.getLsbD_append]
  simp [hj, show ¬ (25 + j < 4) by omega, show ¬ (25 + j - 4 < 7) by omega, show ¬ (25 + j - 4 - 7 < 7) by omega,
    show ¬ (25 + j - 4 - 7 - 7 < 7) by omega, show 25 + j - 4 - 7 - 7 - 7 = j by omega]

@[simp] theorem d_wordT : (wordT op d a b k).extractLsb' 18 7 = d := by
  apply ext_bits; intro j hj
  simp only [wordT, BitVec.getLsbD_extractLsb', BitVec.getLsbD_append]
  simp [hj, show ¬ (18 + j < 4) by omega, show ¬ (18 + j - 4 < 7) by omega, show ¬ (18 + j - 4 - 7 < 7) by omega,
    show 18 + j - 4 - 7 - 7 = j by omega]

@[simp] theorem a_wordT : (wordT op d a b k).extractLsb' 11 7 = a := by
  apply ext_bits; intro j hj
  simp only [wordT, BitVec.getLsbD_extractLsb', BitVec.getLsbD_append]
  simp [hj, show ¬ (11 + j < 4) by omega, show ¬ (11 + j - 4 < 7) by omega, show 11 + j - 4 - 7 = j by omega]

@[simp] theorem b_wordT : (wordT op d a b k).extractLsb' 4 7 = b := by
  apply ext_bits; intro j hj
  simp only [wordT, BitVec.getLsbD_extractLsb', BitVec.getLsbD_append]
  simp [hj, show ¬ (4 + j < 4) by omega, show 4 + j - 4 = j by omega]

@[simp] theorem k_wordT : (wordT op d a b k).extractLsb' 0 4 = k := by
  apply ext_bits; intro j hj
  simp only [wordT, BitVec.getLsbD_extractLsb', BitVec.getLsbD_append]
  simp [hj]

@[simp] theorem opOf_wordI : opOf (wordI op d a i) = op := by
  apply ext_bits; intro j hj
  simp only [opOf, wordI, BitVec.getLsbD_extractLsb', BitVec.getLsbD_append]
  simp [hj, show ¬ (25 + j < 11) by omega, show ¬ (25 + j - 11 < 7) by omega, show ¬ (25 + j - 11 - 7 < 7) by omega,
    show 25 + j - 11 - 7 - 7 = j by omega]

@[simp] theorem d_wordI : (wordI op d a i).extractLsb' 18 7 = d := by
  apply ext_bits; intro j hj
  simp only [wordI, BitVec.getLsbD_extractLsb', BitVec.getLsbD_append]
  simp [hj, show ¬ (18 + j < 11) by omega, show ¬ (18 + j - 11 < 7) by omega, show 18 + j - 11 - 7 = j by omega]

@[simp] theorem a_wordI : (wordI op d a i).extractLsb' 11 7 = a := by
  apply ext_bits; intro j hj
  simp only [wordI, BitVec.getLsbD_extractLsb', BitVec.getLsbD_append]
  simp [hj, show ¬ (11 + j < 11) by omega, show 11 + j - 11 = j by omega]

@[simp] theorem imm_wordI : imm11 (wordI op d a i) = i := by
  apply ext_bits; intro j hj
  simp only [imm11, wordI, BitVec.getLsbD_extractLsb', BitVec.getLsbD_append]
  simp [hj]

/-- The low bits of an immediate. -/
theorem low_wordI (n m : Nat) (h : n + m ≤ 11) : (wordI op d a i).extractLsb' n m = i.extractLsb' n m := by
  apply ext_bits; intro j hj
  simp only [wordI, BitVec.getLsbD_extractLsb', BitVec.getLsbD_append]
  simp [hj, show n + j < 11 by omega]

@[simp] theorem opOf_wordJ : opOf (op ++ d ++ o : BitVec 32) = op := by
  apply ext_bits; intro j hj
  simp only [opOf, BitVec.getLsbD_extractLsb', BitVec.getLsbD_append]
  simp [hj, show ¬ (25 + j < 18) by omega, show ¬ (25 + j - 18 < 7) by omega, show 25 + j - 18 - 7 = j by omega]

@[simp] theorem d_wordJ : (op ++ d ++ o : BitVec 32).extractLsb' 18 7 = d := by
  apply ext_bits; intro j hj
  simp only [BitVec.getLsbD_extractLsb', BitVec.getLsbD_append]
  simp [hj, show ¬ (18 + j < 18) by omega, show 18 + j - 18 = j by omega]

@[simp] theorem o_wordJ : (op ++ d ++ o : BitVec 32).extractLsb' 0 18 = o := by
  apply ext_bits; intro j hj
  simp only [BitVec.getLsbD_extractLsb', BitVec.getLsbD_append]
  simp [hj]

@[simp] theorem opOf_wordW : opOf (op ++ v : BitVec 32) = op := by
  apply ext_bits; intro j hj
  simp only [opOf, BitVec.getLsbD_extractLsb', BitVec.getLsbD_append]
  simp [hj, show ¬ (25 + j < 25) by omega, show 25 + j - 25 = j by omega]

@[simp] theorem o_wordW : (op ++ v : BitVec 32).extractLsb' 0 25 = v := by
  apply ext_bits; intro j hj
  simp only [BitVec.getLsbD_extractLsb', BitVec.getLsbD_append]
  simp [hj]

end Sys2Proof
end

