-- ==== Sys2Proof/Laws/SMap.lean ====
section
/-! SUPPORT. The sparse map: what a read answers after a write, and the canonical form. -/

namespace Sys2Proof

variable {α : Type}

theorem SMap.get_insert_same (d : α) (m : SMap α) (k : Nat) (v : α) : SMap.get d (SMap.insert m k v) k = v := by
  induction m with
  | nil => simp [SMap.insert, SMap.get]
  | cons p t ih =>
    obtain ⟨k', v'⟩ := p
    simp only [SMap.insert]
    split
    · simp [SMap.get]
    · split
      · simp [SMap.get]
      · simp [SMap.get, *]

theorem SMap.get_insert_ne (d : α) (m : SMap α) (k j : Nat) (v : α) (h : j ≠ k) :
    SMap.get d (SMap.insert m k v) j = SMap.get d m j := by
  induction m with
  | nil => simp [SMap.insert, SMap.get, h]
  | cons p t ih =>
    obtain ⟨k', v'⟩ := p
    simp only [SMap.insert]
    split
    · simp [SMap.get, h]
    · split
      · next h2 => subst h2; simp [SMap.get, h]
      · simp only [SMap.get, ih]

theorem SMap.get_erase_same (d : α) (m : SMap α) (k : Nat) : SMap.get d (SMap.erase m k) k = d := by
  induction m with
  | nil => rfl
  | cons p t ih =>
    obtain ⟨k', v'⟩ := p
    simp only [SMap.erase]
    split
    · exact ih
    · simp [SMap.get, *]

theorem SMap.get_erase_ne (d : α) (m : SMap α) (k j : Nat) (h : j ≠ k) : SMap.get d (SMap.erase m k) j = SMap.get d m j := by
  induction m with
  | nil => rfl
  | cons p t ih =>
    obtain ⟨k', v'⟩ := p
    simp only [SMap.erase]
    split
    · next h2 => subst h2; simp [SMap.get, ih, h]
    · simp only [SMap.get, ih]

variable [DecidableEq α]

@[simp] theorem SMap.get_set_same (d : α) (m : SMap α) (k : Nat) (v : α) : SMap.get d (SMap.set d m k v) k = v := by
  unfold SMap.set
  split
  · next h => rw [SMap.get_erase_same, h]
  · exact SMap.get_insert_same d m k v

theorem SMap.get_set_ne (d : α) (m : SMap α) (k j : Nat) (v : α) (h : j ≠ k) :
    SMap.get d (SMap.set d m k v) j = SMap.get d m j := by
  unfold SMap.set
  split
  · exact SMap.get_erase_ne d m k j h
  · exact SMap.get_insert_ne d m k j v h

theorem SMap.get_set (d : α) (m : SMap α) (k j : Nat) (v : α) :
    SMap.get d (SMap.set d m k v) j = if j = k then v else SMap.get d m j := by
  split
  · next h => subst h; exact SMap.get_set_same d m j v
  · next h => exact SMap.get_set_ne d m k j v h

/-! ### The canonical form -/

theorem SMap.above_weaken (d : α) (m : SMap α) (j k : Nat) (h : j ≤ k) : SMap.above d k m = true → SMap.above d j m = true := by
  cases m with
  | nil => simp [SMap.above]
  | cons p t => simp only [SMap.above, Bool.and_eq_true, decide_eq_true_eq]; rintro ⟨⟨h1, h2⟩, h3⟩; exact ⟨⟨by omega, h2⟩, h3⟩

theorem SMap.above_insert (d : α) (m : SMap α) (j k : Nat) (v : α) (hj : j < k) (hv : v ≠ d) :
    SMap.above d j m = true → SMap.above d j (SMap.insert m k v) = true := by
  induction m generalizing j with
  | nil => simp [SMap.insert, SMap.above, hj, hv]
  | cons p t ih =>
    obtain ⟨k', v'⟩ := p
    simp only [SMap.insert, SMap.above, Bool.and_eq_true, decide_eq_true_eq]
    rintro ⟨⟨h1, h2⟩, h3⟩
    split
    · simp [SMap.above, *]
    · split
      · next h4 => subst h4; simp [SMap.above, hj, hv, h3]
      · simp only [SMap.above, Bool.and_eq_true, decide_eq_true_eq]
        exact ⟨⟨h1, h2⟩, ih k' (by omega) h3⟩

theorem SMap.above_erase (d : α) (m : SMap α) (j k : Nat) : SMap.above d j m = true → SMap.above d j (SMap.erase m k) = true := by
  induction m generalizing j with
  | nil => simp [SMap.erase]
  | cons p t ih =>
    obtain ⟨k', v'⟩ := p
    simp only [SMap.erase, SMap.above, Bool.and_eq_true, decide_eq_true_eq]
    rintro ⟨⟨h1, h2⟩, h3⟩
    split
    · exact ih j (SMap.above_weaken d t j k' (by omega) h3)
    · simp only [SMap.above, Bool.and_eq_true, decide_eq_true_eq]
      exact ⟨⟨h1, h2⟩, ih k' h3⟩

theorem SMap.wf_of_above (d : α) (m : SMap α) (j : Nat) (h : SMap.above d j m = true) : SMap.wf d m = true := by
  cases m with
  | nil => rfl
  | cons p t =>
    simp only [SMap.above, SMap.wf, Bool.and_eq_true, decide_eq_true_eq] at *
    exact ⟨h.1.2, h.2⟩

theorem SMap.wf_insert (d : α) (m : SMap α) (k : Nat) (v : α) (hv : v ≠ d) (h : SMap.wf d m = true) :
    SMap.wf d (SMap.insert m k v) = true := by
  cases m with
  | nil => simp [SMap.insert, SMap.wf, SMap.above, hv]
  | cons p t =>
    obtain ⟨k', v'⟩ := p
    simp only [SMap.wf, Bool.and_eq_true, decide_eq_true_eq] at h
    simp only [SMap.insert]
    split
    · simp [SMap.wf, SMap.above, h.1, h.2, *]
    · split
      · next h4 => subst h4; simp [SMap.wf, hv, h.2]
      · simp only [SMap.wf, Bool.and_eq_true, decide_eq_true_eq]
        exact ⟨h.1, SMap.above_insert d t k' k v (by omega) hv h.2⟩

theorem SMap.wf_erase (d : α) (m : SMap α) (k : Nat) (h : SMap.wf d m = true) : SMap.wf d (SMap.erase m k) = true := by
  cases m with
  | nil => rfl
  | cons p t =>
    obtain ⟨k', v'⟩ := p
    simp only [SMap.wf, Bool.and_eq_true, decide_eq_true_eq] at h
    simp only [SMap.erase]
    split
    · exact SMap.wf_of_above d _ k' (SMap.above_erase d t k' k h.2)
    · simp only [SMap.wf, Bool.and_eq_true, decide_eq_true_eq]
      exact ⟨h.1, SMap.above_erase d t k' k h.2⟩

/-- A write keeps the canonical form. -/
theorem SMap.wf_set (d : α) (m : SMap α) (k : Nat) (v : α) (h : SMap.wf d m = true) : SMap.wf d (SMap.set d m k v) = true := by
  unfold SMap.set
  split
  · exact SMap.wf_erase d m k h
  · next hv => exact SMap.wf_insert d m k v hv h

namespace Machine

/-- A run of bytes keeps the canonical form. -/
theorem wf_writeMap (d : Byte) (m : SMap Byte) (a : Nat) (bs : List Byte) (h : SMap.wf d m = true) :
    SMap.wf d (writeMap d m a bs) = true := by
  induction bs generalizing m a with
  | nil => exact h
  | cons b t ih => exact ih _ _ (SMap.wf_set d m a b h)

/-- Bytes outside a written run read as before. -/
theorem get_writeMap_out (d : Byte) (m : SMap Byte) (a j : Nat) (bs : List Byte) (h : j < a ∨ a + bs.length ≤ j) :
    SMap.get d (writeMap d m a bs) j = SMap.get d m j := by
  induction bs generalizing m a with
  | nil => rfl
  | cons b t ih =>
    simp only [List.length_cons] at h
    rw [writeMap, ih _ _ (by omega), SMap.get_set_ne _ _ _ _ _ (by omega)]

/-- A byte inside a written run reads as it was written. -/
theorem get_writeMap_in (d : Byte) (m : SMap Byte) (a i : Nat) (bs : List Byte) (h : i < bs.length) :
    SMap.get d (writeMap d m a bs) (a + i) = bs[i] := by
  induction bs generalizing m a i with
  | nil => simp at h
  | cons b t ih =>
    cases i with
    | zero => rw [writeMap, get_writeMap_out _ _ _ _ _ (by omega)]; simp
    | succ n =>
      have := ih (SMap.set d m a b) (a + 1) n (by simpa using h)
      simpa [writeMap, Nat.add_assoc, Nat.add_comm 1 n] using this

/-- What was written is read back. -/
theorem readMap_writeMap (d : Byte) (m : SMap Byte) (a : Nat) (bs : List Byte) :
    readMap d (writeMap d m a bs) a bs.length = bs := by
  induction bs generalizing m a with
  | nil => rfl
  | cons b t ih =>
    simp only [writeMap, List.length_cons, readMap]
    rw [ih, get_writeMap_out _ _ _ _ _ (by omega)]
    simp

/-- A fold of single writes keeps the canonical form. -/
theorem wf_fold_set (d : Byte) (ws : List (Nat × Byte)) (m : SMap Byte) (h : SMap.wf d m = true) :
    SMap.wf d (ws.foldl (fun m w => SMap.set d m w.1 w.2) m) = true := by
  induction ws generalizing m with
  | nil => exact h
  | cons w t ih => exact ih _ (SMap.wf_set d m w.1 w.2 h)

end Machine

end Sys2Proof
end

