-- ==== Sys2Proof/Laws/State.lean ====
section
/-! SUPPORT. What an update of the state leaves alone, field by field, and what is read after it. -/

namespace Sys2Proof.Machine

/-! ### Updates by a function are updates by a value -/

@[simp] theorem State.modCore_eq (s : State) (c : Nat) (f : Core → Core) : s.modCore c f = s.setCore c (f (s.coreAt c)) := rfl
@[simp] theorem State.modVf_eq (s : State) (v : Nat) (f : Vf → Vf) : s.modVf v f = s.setVf v (f (s.vf v)) := rfl
@[simp] theorem State.modThread_eq (s : State) (l : LaneId) (f : Thread → Thread) :
    s.modThread l f = s.putThread { f (s.thread l) with id := l } := rfl
@[simp] theorem State.setCnt_eq (s : State) (v k : Nat) (c : Counters) :
    s.setCnt v k c = s.setVf v { s.vf v with counters := SMap.set Counters.init (s.vf v).counters k c } := rfl
@[simp] theorem State.msixPf_eq (s : State) (v : Nat) : s.msixPf v = s.output (.msixPf v) := rfl

/-! ### The fields that an update leaves alone -/

variable (s : State)

@[simp] theorem State.setCore_issue (c : Nat) (k : Core) : (s.setCore c k).issue = s.issue := rfl
@[simp] theorem State.setCore_agenda (c : Nat) (k : Core) : (s.setCore c k).agenda = s.agenda := rfl
@[simp] theorem State.setCore_freeCount (c : Nat) (k : Core) : (s.setCore c k).freeCount = s.freeCount := rfl
@[simp] theorem State.setCore_threads (c : Nat) (k : Core) : (s.setCore c k).threads = s.threads := rfl
@[simp] theorem State.setCore_groups (c : Nat) (k : Core) : (s.setCore c k).groups = s.groups := rfl
@[simp] theorem State.setCore_tasks (c : Nat) (k : Core) : (s.setCore c k).tasks = s.tasks := rfl
@[simp] theorem State.setCore_waiting (c : Nat) (k : Core) : (s.setCore c k).waiting = s.waiting := rfl
@[simp] theorem State.setCore_ctxs (c : Nat) (k : Core) : (s.setCore c k).ctxs = s.ctxs := rfl
@[simp] theorem State.setCore_spilled (c : Nat) (k : Core) : (s.setCore c k).spilled = s.spilled := rfl
@[simp] theorem State.setCore_l1 (c : Nat) (k : Core) : (s.setCore c k).l1 = s.l1 := rfl
@[simp] theorem State.setCore_tlb (c : Nat) (k : Core) : (s.setCore c k).tlb = s.tlb := rfl
@[simp] theorem State.setCore_mem (c : Nat) (k : Core) : (s.setCore c k).mem = s.mem := rfl
@[simp] theorem State.setCore_descs (c : Nat) (k : Core) : (s.setCore c k).descs = s.descs := rfl
@[simp] theorem State.setCore_blockKeys (c : Nat) (k : Core) : (s.setCore c k).blockKeys = s.blockKeys := rfl
@[simp] theorem State.setCore_keyGens (c : Nat) (k : Core) : (s.setCore c k).keyGens = s.keyGens := rfl
@[simp] theorem State.setCore_undecodable (c : Nat) (k : Core) : (s.setCore c k).undecodable = s.undecodable := rfl
@[simp] theorem State.setCore_lastWrites (c : Nat) (k : Core) : (s.setCore c k).lastWrites = s.lastWrites := rfl
@[simp] theorem State.setCore_resvs (c : Nat) (k : Core) : (s.setCore c k).resvs = s.resvs := rfl
@[simp] theorem State.setCore_free (c : Nat) (k : Core) : (s.setCore c k).free = s.free := rfl
@[simp] theorem State.setCore_seals (c : Nat) (k : Core) : (s.setCore c k).seals = s.seals := rfl
@[simp] theorem State.setCore_sealWaits (c : Nat) (k : Core) : (s.setCore c k).sealWaits = s.sealWaits := rfl
@[simp] theorem State.setCore_unsealWaits (c : Nat) (k : Core) : (s.setCore c k).unsealWaits = s.unsealWaits := rfl
@[simp] theorem State.setCore_barriers (c : Nat) (k : Core) : (s.setCore c k).barriers = s.barriers := rfl
@[simp] theorem State.setCore_launches (c : Nat) (k : Core) : (s.setCore c k).launches = s.launches := rfl
@[simp] theorem State.setCore_launchIds (c : Nat) (k : Core) : (s.setCore c k).launchIds = s.launchIds := rfl
@[simp] theorem State.setCore_vfs (c : Nat) (k : Core) : (s.setCore c k).vfs = s.vfs := rfl
@[simp] theorem State.setCore_pfQueues (c : Nat) (k : Core) : (s.setCore c k).pfQueues = s.pfQueues := rfl
@[simp] theorem State.setCore_parts (c : Nat) (k : Core) : (s.setCore c k).parts = s.parts := rfl
@[simp] theorem State.setCore_keys (c : Nat) (k : Core) : (s.setCore c k).keys = s.keys := rfl
@[simp] theorem State.setCore_numVfs (c : Nat) (k : Core) : (s.setCore c k).numVfs = s.numVfs := rfl
@[simp] theorem State.setCore_sc (c : Nat) (k : Core) : (s.setCore c k).sc = s.sc := rfl
@[simp] theorem State.setCore_scClock (c : Nat) (k : Core) : (s.setCore c k).scClock = s.scClock := rfl
@[simp] theorem State.setCore_tide (c : Nat) (k : Core) : (s.setCore c k).tide = s.tide := rfl
@[simp] theorem State.setCore_gangs (c : Nat) (k : Core) : (s.setCore c k).gangs = s.gangs := rfl
@[simp] theorem State.setCore_images (c : Nat) (k : Core) : (s.setCore c k).images = s.images := rfl
@[simp] theorem State.setCore_switches (c : Nat) (k : Core) : (s.setCore c k).switches = s.switches := rfl
@[simp] theorem State.setCore_releases (c : Nat) (k : Core) : (s.setCore c k).releases = s.releases := rfl
@[simp] theorem State.setCore_earlyReports (c : Nat) (k : Core) : (s.setCore c k).earlyReports = s.earlyReports := rfl
@[simp] theorem State.setCore_pendings (c : Nat) (k : Core) : (s.setCore c k).pendings = s.pendings := rfl
@[simp] theorem State.setCore_ttags (c : Nat) (k : Core) : (s.setCore c k).ttags = s.ttags := rfl
@[simp] theorem State.setCore_heldPackets (c : Nat) (k : Core) : (s.setCore c k).heldPackets = s.heldPackets := rfl
@[simp] theorem State.setCore_deferred (c : Nat) (k : Core) : (s.setCore c k).deferred = s.deferred := rfl
@[simp] theorem State.setCore_spawnHeld (c : Nat) (k : Core) : (s.setCore c k).spawnHeld = s.spawnHeld := rfl
@[simp] theorem State.setCore_links (c : Nat) (k : Core) : (s.setCore c k).links = s.links := rfl
@[simp] theorem State.setCore_hotRows (c : Nat) (k : Core) : (s.setCore c k).hotRows = s.hotRows := rfl
@[simp] theorem State.setCore_shootdowns (c : Nat) (k : Core) : (s.setCore c k).shootdowns = s.shootdowns := rfl
@[simp] theorem State.setCore_matSeq (c : Nat) (k : Core) : (s.setCore c k).matSeq = s.matSeq := rfl
@[simp] theorem State.setCore_seqOrder (c : Nat) (k : Core) : (s.setCore c k).seqOrder = s.seqOrder := rfl
@[simp] theorem State.setCore_hm (c : Nat) (k : Core) : (s.setCore c k).hm = s.hm := rfl
@[simp] theorem State.setCore_hostMem (c : Nat) (k : Core) : (s.setCore c k).hostMem = s.hostMem := rfl
@[simp] theorem State.setCore_hostWrites (c : Nat) (k : Core) : (s.setCore c k).hostWrites = s.hostWrites := rfl
@[simp] theorem State.setCore_ats (c : Nat) (k : Core) : (s.setCore c k).ats = s.ats := rfl
@[simp] theorem State.setCore_priRefused (c : Nat) (k : Core) : (s.setCore c k).priRefused = s.priRefused := rfl
@[simp] theorem State.setCore_starts (c : Nat) (k : Core) : (s.setCore c k).starts = s.starts := rfl
@[simp] theorem State.setCore_out (c : Nat) (k : Core) : (s.setCore c k).out = s.out := rfl
@[simp] theorem State.setCore_strikes (c : Nat) (k : Core) : (s.setCore c k).strikes = s.strikes := rfl
@[simp] theorem State.setCore_struck (c : Nat) (k : Core) : (s.setCore c k).struck = s.struck := rfl
@[simp] theorem State.setCore_slow (c : Nat) (k : Core) : (s.setCore c k).slow = s.slow := rfl
@[simp] theorem State.setCore_wrote (c : Nat) (k : Core) : (s.setCore c k).wrote = s.wrote := rfl
@[simp] theorem State.setCore_batch (c : Nat) (k : Core) : (s.setCore c k).batch = s.batch := rfl
@[simp] theorem State.setCore_lateSpills (c : Nat) (k : Core) : (s.setCore c k).lateSpills = s.lateSpills := rfl
@[simp] theorem State.setCore_holding (c : Nat) (k : Core) : (s.setCore c k).holding = s.holding := rfl
@[simp] theorem State.setCore_code (c : Nat) (k : Core) : (s.setCore c k).code = s.code := rfl
@[simp] theorem State.setCore_frameMap (c : Nat) (k : Core) : (s.setCore c k).frameMap = s.frameMap := rfl
@[simp] theorem State.setCore_moved (c : Nat) (k : Core) : (s.setCore c k).moved = s.moved := rfl
@[simp] theorem State.setCore_inWrites (c : Nat) (k : Core) : (s.setCore c k).inWrites = s.inWrites := rfl
@[simp] theorem State.setCore_hostMissing (c : Nat) (k : Core) : (s.setCore c k).hostMissing = s.hostMissing := rfl
@[simp] theorem State.setCore_priAsked (c : Nat) (k : Core) : (s.setCore c k).priAsked = s.priAsked := rfl
@[simp] theorem State.setCore_passes (c : Nat) (k : Core) : (s.setCore c k).passes = s.passes := rfl

@[simp] theorem State.setVf_issue (v : Nat) (x : Vf) : (s.setVf v x).issue = s.issue := rfl
@[simp] theorem State.setVf_agenda (v : Nat) (x : Vf) : (s.setVf v x).agenda = s.agenda := rfl
@[simp] theorem State.setVf_freeCount (v : Nat) (x : Vf) : (s.setVf v x).freeCount = s.freeCount := rfl
@[simp] theorem State.setVf_threads (v : Nat) (x : Vf) : (s.setVf v x).threads = s.threads := rfl
@[simp] theorem State.setVf_groups (v : Nat) (x : Vf) : (s.setVf v x).groups = s.groups := rfl
@[simp] theorem State.setVf_tasks (v : Nat) (x : Vf) : (s.setVf v x).tasks = s.tasks := rfl
@[simp] theorem State.setVf_waiting (v : Nat) (x : Vf) : (s.setVf v x).waiting = s.waiting := rfl
@[simp] theorem State.setVf_ctxs (v : Nat) (x : Vf) : (s.setVf v x).ctxs = s.ctxs := rfl
@[simp] theorem State.setVf_cores (v : Nat) (x : Vf) : (s.setVf v x).cores = s.cores := rfl
@[simp] theorem State.setVf_spilled (v : Nat) (x : Vf) : (s.setVf v x).spilled = s.spilled := rfl
@[simp] theorem State.setVf_l1 (v : Nat) (x : Vf) : (s.setVf v x).l1 = s.l1 := rfl
@[simp] theorem State.setVf_tlb (v : Nat) (x : Vf) : (s.setVf v x).tlb = s.tlb := rfl
@[simp] theorem State.setVf_mem (v : Nat) (x : Vf) : (s.setVf v x).mem = s.mem := rfl
@[simp] theorem State.setVf_descs (v : Nat) (x : Vf) : (s.setVf v x).descs = s.descs := rfl
@[simp] theorem State.setVf_blockKeys (v : Nat) (x : Vf) : (s.setVf v x).blockKeys = s.blockKeys := rfl
@[simp] theorem State.setVf_keyGens (v : Nat) (x : Vf) : (s.setVf v x).keyGens = s.keyGens := rfl
@[simp] theorem State.setVf_undecodable (v : Nat) (x : Vf) : (s.setVf v x).undecodable = s.undecodable := rfl
@[simp] theorem State.setVf_lastWrites (v : Nat) (x : Vf) : (s.setVf v x).lastWrites = s.lastWrites := rfl
@[simp] theorem State.setVf_resvs (v : Nat) (x : Vf) : (s.setVf v x).resvs = s.resvs := rfl
@[simp] theorem State.setVf_free (v : Nat) (x : Vf) : (s.setVf v x).free = s.free := rfl
@[simp] theorem State.setVf_seals (v : Nat) (x : Vf) : (s.setVf v x).seals = s.seals := rfl
@[simp] theorem State.setVf_sealWaits (v : Nat) (x : Vf) : (s.setVf v x).sealWaits = s.sealWaits := rfl
@[simp] theorem State.setVf_unsealWaits (v : Nat) (x : Vf) : (s.setVf v x).unsealWaits = s.unsealWaits := rfl
@[simp] theorem State.setVf_barriers (v : Nat) (x : Vf) : (s.setVf v x).barriers = s.barriers := rfl
@[simp] theorem State.setVf_launches (v : Nat) (x : Vf) : (s.setVf v x).launches = s.launches := rfl
@[simp] theorem State.setVf_launchIds (v : Nat) (x : Vf) : (s.setVf v x).launchIds = s.launchIds := rfl
@[simp] theorem State.setVf_pfQueues (v : Nat) (x : Vf) : (s.setVf v x).pfQueues = s.pfQueues := rfl
@[simp] theorem State.setVf_parts (v : Nat) (x : Vf) : (s.setVf v x).parts = s.parts := rfl
@[simp] theorem State.setVf_keys (v : Nat) (x : Vf) : (s.setVf v x).keys = s.keys := rfl
@[simp] theorem State.setVf_numVfs (v : Nat) (x : Vf) : (s.setVf v x).numVfs = s.numVfs := rfl
@[simp] theorem State.setVf_sc (v : Nat) (x : Vf) : (s.setVf v x).sc = s.sc := rfl
@[simp] theorem State.setVf_scClock (v : Nat) (x : Vf) : (s.setVf v x).scClock = s.scClock := rfl
@[simp] theorem State.setVf_tide (v : Nat) (x : Vf) : (s.setVf v x).tide = s.tide := rfl
@[simp] theorem State.setVf_gangs (v : Nat) (x : Vf) : (s.setVf v x).gangs = s.gangs := rfl
@[simp] theorem State.setVf_images (v : Nat) (x : Vf) : (s.setVf v x).images = s.images := rfl
@[simp] theorem State.setVf_switches (v : Nat) (x : Vf) : (s.setVf v x).switches = s.switches := rfl
@[simp] theorem State.setVf_releases (v : Nat) (x : Vf) : (s.setVf v x).releases = s.releases := rfl
@[simp] theorem State.setVf_earlyReports (v : Nat) (x : Vf) : (s.setVf v x).earlyReports = s.earlyReports := rfl
@[simp] theorem State.setVf_pendings (v : Nat) (x : Vf) : (s.setVf v x).pendings = s.pendings := rfl
@[simp] theorem State.setVf_ttags (v : Nat) (x : Vf) : (s.setVf v x).ttags = s.ttags := rfl
@[simp] theorem State.setVf_heldPackets (v : Nat) (x : Vf) : (s.setVf v x).heldPackets = s.heldPackets := rfl
@[simp] theorem State.setVf_deferred (v : Nat) (x : Vf) : (s.setVf v x).deferred = s.deferred := rfl
@[simp] theorem State.setVf_spawnHeld (v : Nat) (x : Vf) : (s.setVf v x).spawnHeld = s.spawnHeld := rfl
@[simp] theorem State.setVf_links (v : Nat) (x : Vf) : (s.setVf v x).links = s.links := rfl
@[simp] theorem State.setVf_hotRows (v : Nat) (x : Vf) : (s.setVf v x).hotRows = s.hotRows := rfl
@[simp] theorem State.setVf_shootdowns (v : Nat) (x : Vf) : (s.setVf v x).shootdowns = s.shootdowns := rfl
@[simp] theorem State.setVf_matSeq (v : Nat) (x : Vf) : (s.setVf v x).matSeq = s.matSeq := rfl
@[simp] theorem State.setVf_seqOrder (v : Nat) (x : Vf) : (s.setVf v x).seqOrder = s.seqOrder := rfl
@[simp] theorem State.setVf_hm (v : Nat) (x : Vf) : (s.setVf v x).hm = s.hm := rfl
@[simp] theorem State.setVf_hostMem (v : Nat) (x : Vf) : (s.setVf v x).hostMem = s.hostMem := rfl
@[simp] theorem State.setVf_hostWrites (v : Nat) (x : Vf) : (s.setVf v x).hostWrites = s.hostWrites := rfl
@[simp] theorem State.setVf_ats (v : Nat) (x : Vf) : (s.setVf v x).ats = s.ats := rfl
@[simp] theorem State.setVf_priRefused (v : Nat) (x : Vf) : (s.setVf v x).priRefused = s.priRefused := rfl
@[simp] theorem State.setVf_starts (v : Nat) (x : Vf) : (s.setVf v x).starts = s.starts := rfl
@[simp] theorem State.setVf_out (v : Nat) (x : Vf) : (s.setVf v x).out = s.out := rfl
@[simp] theorem State.setVf_strikes (v : Nat) (x : Vf) : (s.setVf v x).strikes = s.strikes := rfl
@[simp] theorem State.setVf_struck (v : Nat) (x : Vf) : (s.setVf v x).struck = s.struck := rfl
@[simp] theorem State.setVf_slow (v : Nat) (x : Vf) : (s.setVf v x).slow = s.slow := rfl
@[simp] theorem State.setVf_wrote (v : Nat) (x : Vf) : (s.setVf v x).wrote = s.wrote := rfl
@[simp] theorem State.setVf_batch (v : Nat) (x : Vf) : (s.setVf v x).batch = s.batch := rfl
@[simp] theorem State.setVf_lateSpills (v : Nat) (x : Vf) : (s.setVf v x).lateSpills = s.lateSpills := rfl
@[simp] theorem State.setVf_holding (v : Nat) (x : Vf) : (s.setVf v x).holding = s.holding := rfl
@[simp] theorem State.setVf_code (v : Nat) (x : Vf) : (s.setVf v x).code = s.code := rfl
@[simp] theorem State.setVf_frameMap (v : Nat) (x : Vf) : (s.setVf v x).frameMap = s.frameMap := rfl
@[simp] theorem State.setVf_moved (v : Nat) (x : Vf) : (s.setVf v x).moved = s.moved := rfl
@[simp] theorem State.setVf_inWrites (v : Nat) (x : Vf) : (s.setVf v x).inWrites = s.inWrites := rfl
@[simp] theorem State.setVf_hostMissing (v : Nat) (x : Vf) : (s.setVf v x).hostMissing = s.hostMissing := rfl
@[simp] theorem State.setVf_priAsked (v : Nat) (x : Vf) : (s.setVf v x).priAsked = s.priAsked := rfl
@[simp] theorem State.setVf_passes (v : Nat) (x : Vf) : (s.setVf v x).passes = s.passes := rfl

@[simp] theorem State.setPart_issue (p : Nat) (x : Partition) : (s.setPart p x).issue = s.issue := rfl
@[simp] theorem State.setPart_agenda (p : Nat) (x : Partition) : (s.setPart p x).agenda = s.agenda := rfl
@[simp] theorem State.setPart_freeCount (p : Nat) (x : Partition) : (s.setPart p x).freeCount = s.freeCount := rfl
@[simp] theorem State.setPart_threads (p : Nat) (x : Partition) : (s.setPart p x).threads = s.threads := rfl
@[simp] theorem State.setPart_groups (p : Nat) (x : Partition) : (s.setPart p x).groups = s.groups := rfl
@[simp] theorem State.setPart_tasks (p : Nat) (x : Partition) : (s.setPart p x).tasks = s.tasks := rfl
@[simp] theorem State.setPart_waiting (p : Nat) (x : Partition) : (s.setPart p x).waiting = s.waiting := rfl
@[simp] theorem State.setPart_ctxs (p : Nat) (x : Partition) : (s.setPart p x).ctxs = s.ctxs := rfl
@[simp] theorem State.setPart_cores (p : Nat) (x : Partition) : (s.setPart p x).cores = s.cores := rfl
@[simp] theorem State.setPart_spilled (p : Nat) (x : Partition) : (s.setPart p x).spilled = s.spilled := rfl
@[simp] theorem State.setPart_l1 (p : Nat) (x : Partition) : (s.setPart p x).l1 = s.l1 := rfl
@[simp] theorem State.setPart_tlb (p : Nat) (x : Partition) : (s.setPart p x).tlb = s.tlb := rfl
@[simp] theorem State.setPart_mem (p : Nat) (x : Partition) : (s.setPart p x).mem = s.mem := rfl
@[simp] theorem State.setPart_descs (p : Nat) (x : Partition) : (s.setPart p x).descs = s.descs := rfl
@[simp] theorem State.setPart_blockKeys (p : Nat) (x : Partition) : (s.setPart p x).blockKeys = s.blockKeys := rfl
@[simp] theorem State.setPart_keyGens (p : Nat) (x : Partition) : (s.setPart p x).keyGens = s.keyGens := rfl
@[simp] theorem State.setPart_undecodable (p : Nat) (x : Partition) : (s.setPart p x).undecodable = s.undecodable := rfl
@[simp] theorem State.setPart_lastWrites (p : Nat) (x : Partition) : (s.setPart p x).lastWrites = s.lastWrites := rfl
@[simp] theorem State.setPart_resvs (p : Nat) (x : Partition) : (s.setPart p x).resvs = s.resvs := rfl
@[simp] theorem State.setPart_free (p : Nat) (x : Partition) : (s.setPart p x).free = s.free := rfl
@[simp] theorem State.setPart_seals (p : Nat) (x : Partition) : (s.setPart p x).seals = s.seals := rfl
@[simp] theorem State.setPart_sealWaits (p : Nat) (x : Partition) : (s.setPart p x).sealWaits = s.sealWaits := rfl
@[simp] theorem State.setPart_unsealWaits (p : Nat) (x : Partition) : (s.setPart p x).unsealWaits = s.unsealWaits := rfl
@[simp] theorem State.setPart_barriers (p : Nat) (x : Partition) : (s.setPart p x).barriers = s.barriers := rfl
@[simp] theorem State.setPart_launches (p : Nat) (x : Partition) : (s.setPart p x).launches = s.launches := rfl
@[simp] theorem State.setPart_launchIds (p : Nat) (x : Partition) : (s.setPart p x).launchIds = s.launchIds := rfl
@[simp] theorem State.setPart_vfs (p : Nat) (x : Partition) : (s.setPart p x).vfs = s.vfs := rfl
@[simp] theorem State.setPart_pfQueues (p : Nat) (x : Partition) : (s.setPart p x).pfQueues = s.pfQueues := rfl
@[simp] theorem State.setPart_keys (p : Nat) (x : Partition) : (s.setPart p x).keys = s.keys := rfl
@[simp] theorem State.setPart_numVfs (p : Nat) (x : Partition) : (s.setPart p x).numVfs = s.numVfs := rfl
@[simp] theorem State.setPart_sc (p : Nat) (x : Partition) : (s.setPart p x).sc = s.sc := rfl
@[simp] theorem State.setPart_scClock (p : Nat) (x : Partition) : (s.setPart p x).scClock = s.scClock := rfl
@[simp] theorem State.setPart_tide (p : Nat) (x : Partition) : (s.setPart p x).tide = s.tide := rfl
@[simp] theorem State.setPart_gangs (p : Nat) (x : Partition) : (s.setPart p x).gangs = s.gangs := rfl
@[simp] theorem State.setPart_images (p : Nat) (x : Partition) : (s.setPart p x).images = s.images := rfl
@[simp] theorem State.setPart_switches (p : Nat) (x : Partition) : (s.setPart p x).switches = s.switches := rfl
@[simp] theorem State.setPart_releases (p : Nat) (x : Partition) : (s.setPart p x).releases = s.releases := rfl
@[simp] theorem State.setPart_earlyReports (p : Nat) (x : Partition) : (s.setPart p x).earlyReports = s.earlyReports := rfl
@[simp] theorem State.setPart_pendings (p : Nat) (x : Partition) : (s.setPart p x).pendings = s.pendings := rfl
@[simp] theorem State.setPart_ttags (p : Nat) (x : Partition) : (s.setPart p x).ttags = s.ttags := rfl
@[simp] theorem State.setPart_heldPackets (p : Nat) (x : Partition) : (s.setPart p x).heldPackets = s.heldPackets := rfl
@[simp] theorem State.setPart_deferred (p : Nat) (x : Partition) : (s.setPart p x).deferred = s.deferred := rfl
@[simp] theorem State.setPart_spawnHeld (p : Nat) (x : Partition) : (s.setPart p x).spawnHeld = s.spawnHeld := rfl
@[simp] theorem State.setPart_links (p : Nat) (x : Partition) : (s.setPart p x).links = s.links := rfl
@[simp] theorem State.setPart_hotRows (p : Nat) (x : Partition) : (s.setPart p x).hotRows = s.hotRows := rfl
@[simp] theorem State.setPart_shootdowns (p : Nat) (x : Partition) : (s.setPart p x).shootdowns = s.shootdowns := rfl
@[simp] theorem State.setPart_matSeq (p : Nat) (x : Partition) : (s.setPart p x).matSeq = s.matSeq := rfl
@[simp] theorem State.setPart_seqOrder (p : Nat) (x : Partition) : (s.setPart p x).seqOrder = s.seqOrder := rfl
@[simp] theorem State.setPart_hm (p : Nat) (x : Partition) : (s.setPart p x).hm = s.hm := rfl
@[simp] theorem State.setPart_hostMem (p : Nat) (x : Partition) : (s.setPart p x).hostMem = s.hostMem := rfl
@[simp] theorem State.setPart_hostWrites (p : Nat) (x : Partition) : (s.setPart p x).hostWrites = s.hostWrites := rfl
@[simp] theorem State.setPart_ats (p : Nat) (x : Partition) : (s.setPart p x).ats = s.ats := rfl
@[simp] theorem State.setPart_priRefused (p : Nat) (x : Partition) : (s.setPart p x).priRefused = s.priRefused := rfl
@[simp] theorem State.setPart_starts (p : Nat) (x : Partition) : (s.setPart p x).starts = s.starts := rfl
@[simp] theorem State.setPart_out (p : Nat) (x : Partition) : (s.setPart p x).out = s.out := rfl
@[simp] theorem State.setPart_strikes (p : Nat) (x : Partition) : (s.setPart p x).strikes = s.strikes := rfl
@[simp] theorem State.setPart_struck (p : Nat) (x : Partition) : (s.setPart p x).struck = s.struck := rfl
@[simp] theorem State.setPart_slow (p : Nat) (x : Partition) : (s.setPart p x).slow = s.slow := rfl
@[simp] theorem State.setPart_wrote (p : Nat) (x : Partition) : (s.setPart p x).wrote = s.wrote := rfl
@[simp] theorem State.setPart_batch (p : Nat) (x : Partition) : (s.setPart p x).batch = s.batch := rfl
@[simp] theorem State.setPart_lateSpills (p : Nat) (x : Partition) : (s.setPart p x).lateSpills = s.lateSpills := rfl
@[simp] theorem State.setPart_holding (p : Nat) (x : Partition) : (s.setPart p x).holding = s.holding := rfl
@[simp] theorem State.setPart_code (p : Nat) (x : Partition) : (s.setPart p x).code = s.code := rfl
@[simp] theorem State.setPart_frameMap (p : Nat) (x : Partition) : (s.setPart p x).frameMap = s.frameMap := rfl
@[simp] theorem State.setPart_moved (p : Nat) (x : Partition) : (s.setPart p x).moved = s.moved := rfl
@[simp] theorem State.setPart_inWrites (p : Nat) (x : Partition) : (s.setPart p x).inWrites = s.inWrites := rfl
@[simp] theorem State.setPart_hostMissing (p : Nat) (x : Partition) : (s.setPart p x).hostMissing = s.hostMissing := rfl
@[simp] theorem State.setPart_priAsked (p : Nat) (x : Partition) : (s.setPart p x).priAsked = s.priAsked := rfl
@[simp] theorem State.setPart_passes (p : Nat) (x : Partition) : (s.setPart p x).passes = s.passes := rfl

@[simp] theorem State.setDesc_issue (b : Nat) (d : Desc) : (s.setDesc b d).issue = s.issue := rfl
@[simp] theorem State.setDesc_agenda (b : Nat) (d : Desc) : (s.setDesc b d).agenda = s.agenda := rfl
@[simp] theorem State.setDesc_freeCount (b : Nat) (d : Desc) : (s.setDesc b d).freeCount = s.freeCount := rfl
@[simp] theorem State.setDesc_threads (b : Nat) (d : Desc) : (s.setDesc b d).threads = s.threads := rfl
@[simp] theorem State.setDesc_groups (b : Nat) (d : Desc) : (s.setDesc b d).groups = s.groups := rfl
@[simp] theorem State.setDesc_tasks (b : Nat) (d : Desc) : (s.setDesc b d).tasks = s.tasks := rfl
@[simp] theorem State.setDesc_waiting (b : Nat) (d : Desc) : (s.setDesc b d).waiting = s.waiting := rfl
@[simp] theorem State.setDesc_ctxs (b : Nat) (d : Desc) : (s.setDesc b d).ctxs = s.ctxs := rfl
@[simp] theorem State.setDesc_cores (b : Nat) (d : Desc) : (s.setDesc b d).cores = s.cores := rfl
@[simp] theorem State.setDesc_spilled (b : Nat) (d : Desc) : (s.setDesc b d).spilled = s.spilled := rfl
@[simp] theorem State.setDesc_l1 (b : Nat) (d : Desc) : (s.setDesc b d).l1 = s.l1 := rfl
@[simp] theorem State.setDesc_tlb (b : Nat) (d : Desc) : (s.setDesc b d).tlb = s.tlb := rfl
@[simp] theorem State.setDesc_mem (b : Nat) (d : Desc) : (s.setDesc b d).mem = s.mem := rfl
@[simp] theorem State.setDesc_blockKeys (b : Nat) (d : Desc) : (s.setDesc b d).blockKeys = s.blockKeys := rfl
@[simp] theorem State.setDesc_keyGens (b : Nat) (d : Desc) : (s.setDesc b d).keyGens = s.keyGens := rfl
@[simp] theorem State.setDesc_undecodable (b : Nat) (d : Desc) : (s.setDesc b d).undecodable = s.undecodable := rfl
@[simp] theorem State.setDesc_lastWrites (b : Nat) (d : Desc) : (s.setDesc b d).lastWrites = s.lastWrites := rfl
@[simp] theorem State.setDesc_resvs (b : Nat) (d : Desc) : (s.setDesc b d).resvs = s.resvs := rfl
@[simp] theorem State.setDesc_free (b : Nat) (d : Desc) : (s.setDesc b d).free = s.free := rfl
@[simp] theorem State.setDesc_seals (b : Nat) (d : Desc) : (s.setDesc b d).seals = s.seals := rfl
@[simp] theorem State.setDesc_sealWaits (b : Nat) (d : Desc) : (s.setDesc b d).sealWaits = s.sealWaits := rfl
@[simp] theorem State.setDesc_unsealWaits (b : Nat) (d : Desc) : (s.setDesc b d).unsealWaits = s.unsealWaits := rfl
@[simp] theorem State.setDesc_barriers (b : Nat) (d : Desc) : (s.setDesc b d).barriers = s.barriers := rfl
@[simp] theorem State.setDesc_launches (b : Nat) (d : Desc) : (s.setDesc b d).launches = s.launches := rfl
@[simp] theorem State.setDesc_launchIds (b : Nat) (d : Desc) : (s.setDesc b d).launchIds = s.launchIds := rfl
@[simp] theorem State.setDesc_vfs (b : Nat) (d : Desc) : (s.setDesc b d).vfs = s.vfs := rfl
@[simp] theorem State.setDesc_pfQueues (b : Nat) (d : Desc) : (s.setDesc b d).pfQueues = s.pfQueues := rfl
@[simp] theorem State.setDesc_parts (b : Nat) (d : Desc) : (s.setDesc b d).parts = s.parts := rfl
@[simp] theorem State.setDesc_keys (b : Nat) (d : Desc) : (s.setDesc b d).keys = s.keys := rfl
@[simp] theorem State.setDesc_numVfs (b : Nat) (d : Desc) : (s.setDesc b d).numVfs = s.numVfs := rfl
@[simp] theorem State.setDesc_sc (b : Nat) (d : Desc) : (s.setDesc b d).sc = s.sc := rfl
@[simp] theorem State.setDesc_scClock (b : Nat) (d : Desc) : (s.setDesc b d).scClock = s.scClock := rfl
@[simp] theorem State.setDesc_tide (b : Nat) (d : Desc) : (s.setDesc b d).tide = s.tide := rfl
@[simp] theorem State.setDesc_gangs (b : Nat) (d : Desc) : (s.setDesc b d).gangs = s.gangs := rfl
@[simp] theorem State.setDesc_images (b : Nat) (d : Desc) : (s.setDesc b d).images = s.images := rfl
@[simp] theorem State.setDesc_switches (b : Nat) (d : Desc) : (s.setDesc b d).switches = s.switches := rfl
@[simp] theorem State.setDesc_releases (b : Nat) (d : Desc) : (s.setDesc b d).releases = s.releases := rfl
@[simp] theorem State.setDesc_earlyReports (b : Nat) (d : Desc) : (s.setDesc b d).earlyReports = s.earlyReports := rfl
@[simp] theorem State.setDesc_pendings (b : Nat) (d : Desc) : (s.setDesc b d).pendings = s.pendings := rfl
@[simp] theorem State.setDesc_ttags (b : Nat) (d : Desc) : (s.setDesc b d).ttags = s.ttags := rfl
@[simp] theorem State.setDesc_heldPackets (b : Nat) (d : Desc) : (s.setDesc b d).heldPackets = s.heldPackets := rfl
@[simp] theorem State.setDesc_deferred (b : Nat) (d : Desc) : (s.setDesc b d).deferred = s.deferred := rfl
@[simp] theorem State.setDesc_spawnHeld (b : Nat) (d : Desc) : (s.setDesc b d).spawnHeld = s.spawnHeld := rfl
@[simp] theorem State.setDesc_links (b : Nat) (d : Desc) : (s.setDesc b d).links = s.links := rfl
@[simp] theorem State.setDesc_hotRows (b : Nat) (d : Desc) : (s.setDesc b d).hotRows = s.hotRows := rfl
@[simp] theorem State.setDesc_shootdowns (b : Nat) (d : Desc) : (s.setDesc b d).shootdowns = s.shootdowns := rfl
@[simp] theorem State.setDesc_matSeq (b : Nat) (d : Desc) : (s.setDesc b d).matSeq = s.matSeq := rfl
@[simp] theorem State.setDesc_seqOrder (b : Nat) (d : Desc) : (s.setDesc b d).seqOrder = s.seqOrder := rfl
@[simp] theorem State.setDesc_hm (b : Nat) (d : Desc) : (s.setDesc b d).hm = s.hm := rfl
@[simp] theorem State.setDesc_hostMem (b : Nat) (d : Desc) : (s.setDesc b d).hostMem = s.hostMem := rfl
@[simp] theorem State.setDesc_hostWrites (b : Nat) (d : Desc) : (s.setDesc b d).hostWrites = s.hostWrites := rfl
@[simp] theorem State.setDesc_ats (b : Nat) (d : Desc) : (s.setDesc b d).ats = s.ats := rfl
@[simp] theorem State.setDesc_priRefused (b : Nat) (d : Desc) : (s.setDesc b d).priRefused = s.priRefused := rfl
@[simp] theorem State.setDesc_starts (b : Nat) (d : Desc) : (s.setDesc b d).starts = s.starts := rfl
@[simp] theorem State.setDesc_out (b : Nat) (d : Desc) : (s.setDesc b d).out = s.out := rfl
@[simp] theorem State.setDesc_strikes (b : Nat) (d : Desc) : (s.setDesc b d).strikes = s.strikes := rfl
@[simp] theorem State.setDesc_struck (b : Nat) (d : Desc) : (s.setDesc b d).struck = s.struck := rfl
@[simp] theorem State.setDesc_slow (b : Nat) (d : Desc) : (s.setDesc b d).slow = s.slow := rfl
@[simp] theorem State.setDesc_wrote (b : Nat) (d : Desc) : (s.setDesc b d).wrote = s.wrote := rfl
@[simp] theorem State.setDesc_batch (b : Nat) (d : Desc) : (s.setDesc b d).batch = s.batch := rfl
@[simp] theorem State.setDesc_lateSpills (b : Nat) (d : Desc) : (s.setDesc b d).lateSpills = s.lateSpills := rfl
@[simp] theorem State.setDesc_holding (b : Nat) (d : Desc) : (s.setDesc b d).holding = s.holding := rfl
@[simp] theorem State.setDesc_code (b : Nat) (d : Desc) : (s.setDesc b d).code = s.code := rfl
@[simp] theorem State.setDesc_frameMap (b : Nat) (d : Desc) : (s.setDesc b d).frameMap = s.frameMap := rfl
@[simp] theorem State.setDesc_moved (b : Nat) (d : Desc) : (s.setDesc b d).moved = s.moved := rfl
@[simp] theorem State.setDesc_inWrites (b : Nat) (d : Desc) : (s.setDesc b d).inWrites = s.inWrites := rfl
@[simp] theorem State.setDesc_hostMissing (b : Nat) (d : Desc) : (s.setDesc b d).hostMissing = s.hostMissing := rfl
@[simp] theorem State.setDesc_priAsked (b : Nat) (d : Desc) : (s.setDesc b d).priAsked = s.priAsked := rfl
@[simp] theorem State.setDesc_passes (b : Nat) (d : Desc) : (s.setDesc b d).passes = s.passes := rfl

@[simp] theorem State.setFree_issue (k n : Nat) : (s.setFree k n).issue = s.issue := rfl
@[simp] theorem State.setFree_agenda (k n : Nat) : (s.setFree k n).agenda = s.agenda := rfl
@[simp] theorem State.setFree_freeCount (k n : Nat) : (s.setFree k n).freeCount = s.freeCount := rfl
@[simp] theorem State.setFree_threads (k n : Nat) : (s.setFree k n).threads = s.threads := rfl
@[simp] theorem State.setFree_groups (k n : Nat) : (s.setFree k n).groups = s.groups := rfl
@[simp] theorem State.setFree_tasks (k n : Nat) : (s.setFree k n).tasks = s.tasks := rfl
@[simp] theorem State.setFree_waiting (k n : Nat) : (s.setFree k n).waiting = s.waiting := rfl
@[simp] theorem State.setFree_ctxs (k n : Nat) : (s.setFree k n).ctxs = s.ctxs := rfl
@[simp] theorem State.setFree_cores (k n : Nat) : (s.setFree k n).cores = s.cores := rfl
@[simp] theorem State.setFree_spilled (k n : Nat) : (s.setFree k n).spilled = s.spilled := rfl
@[simp] theorem State.setFree_l1 (k n : Nat) : (s.setFree k n).l1 = s.l1 := rfl
@[simp] theorem State.setFree_tlb (k n : Nat) : (s.setFree k n).tlb = s.tlb := rfl
@[simp] theorem State.setFree_mem (k n : Nat) : (s.setFree k n).mem = s.mem := rfl
@[simp] theorem State.setFree_descs (k n : Nat) : (s.setFree k n).descs = s.descs := rfl
@[simp] theorem State.setFree_blockKeys (k n : Nat) : (s.setFree k n).blockKeys = s.blockKeys := rfl
@[simp] theorem State.setFree_keyGens (k n : Nat) : (s.setFree k n).keyGens = s.keyGens := rfl
@[simp] theorem State.setFree_undecodable (k n : Nat) : (s.setFree k n).undecodable = s.undecodable := rfl
@[simp] theorem State.setFree_lastWrites (k n : Nat) : (s.setFree k n).lastWrites = s.lastWrites := rfl
@[simp] theorem State.setFree_resvs (k n : Nat) : (s.setFree k n).resvs = s.resvs := rfl
@[simp] theorem State.setFree_seals (k n : Nat) : (s.setFree k n).seals = s.seals := rfl
@[simp] theorem State.setFree_sealWaits (k n : Nat) : (s.setFree k n).sealWaits = s.sealWaits := rfl
@[simp] theorem State.setFree_unsealWaits (k n : Nat) : (s.setFree k n).unsealWaits = s.unsealWaits := rfl
@[simp] theorem State.setFree_barriers (k n : Nat) : (s.setFree k n).barriers = s.barriers := rfl
@[simp] theorem State.setFree_launches (k n : Nat) : (s.setFree k n).launches = s.launches := rfl
@[simp] theorem State.setFree_launchIds (k n : Nat) : (s.setFree k n).launchIds = s.launchIds := rfl
@[simp] theorem State.setFree_vfs (k n : Nat) : (s.setFree k n).vfs = s.vfs := rfl
@[simp] theorem State.setFree_pfQueues (k n : Nat) : (s.setFree k n).pfQueues = s.pfQueues := rfl
@[simp] theorem State.setFree_parts (k n : Nat) : (s.setFree k n).parts = s.parts := rfl
@[simp] theorem State.setFree_keys (k n : Nat) : (s.setFree k n).keys = s.keys := rfl
@[simp] theorem State.setFree_numVfs (k n : Nat) : (s.setFree k n).numVfs = s.numVfs := rfl
@[simp] theorem State.setFree_sc (k n : Nat) : (s.setFree k n).sc = s.sc := rfl
@[simp] theorem State.setFree_scClock (k n : Nat) : (s.setFree k n).scClock = s.scClock := rfl
@[simp] theorem State.setFree_tide (k n : Nat) : (s.setFree k n).tide = s.tide := rfl
@[simp] theorem State.setFree_gangs (k n : Nat) : (s.setFree k n).gangs = s.gangs := rfl
@[simp] theorem State.setFree_images (k n : Nat) : (s.setFree k n).images = s.images := rfl
@[simp] theorem State.setFree_switches (k n : Nat) : (s.setFree k n).switches = s.switches := rfl
@[simp] theorem State.setFree_releases (k n : Nat) : (s.setFree k n).releases = s.releases := rfl
@[simp] theorem State.setFree_earlyReports (k n : Nat) : (s.setFree k n).earlyReports = s.earlyReports := rfl
@[simp] theorem State.setFree_pendings (k n : Nat) : (s.setFree k n).pendings = s.pendings := rfl
@[simp] theorem State.setFree_ttags (k n : Nat) : (s.setFree k n).ttags = s.ttags := rfl
@[simp] theorem State.setFree_heldPackets (k n : Nat) : (s.setFree k n).heldPackets = s.heldPackets := rfl
@[simp] theorem State.setFree_deferred (k n : Nat) : (s.setFree k n).deferred = s.deferred := rfl
@[simp] theorem State.setFree_spawnHeld (k n : Nat) : (s.setFree k n).spawnHeld = s.spawnHeld := rfl
@[simp] theorem State.setFree_links (k n : Nat) : (s.setFree k n).links = s.links := rfl
@[simp] theorem State.setFree_hotRows (k n : Nat) : (s.setFree k n).hotRows = s.hotRows := rfl
@[simp] theorem State.setFree_shootdowns (k n : Nat) : (s.setFree k n).shootdowns = s.shootdowns := rfl
@[simp] theorem State.setFree_matSeq (k n : Nat) : (s.setFree k n).matSeq = s.matSeq := rfl
@[simp] theorem State.setFree_seqOrder (k n : Nat) : (s.setFree k n).seqOrder = s.seqOrder := rfl
@[simp] theorem State.setFree_hm (k n : Nat) : (s.setFree k n).hm = s.hm := rfl
@[simp] theorem State.setFree_hostMem (k n : Nat) : (s.setFree k n).hostMem = s.hostMem := rfl
@[simp] theorem State.setFree_hostWrites (k n : Nat) : (s.setFree k n).hostWrites = s.hostWrites := rfl
@[simp] theorem State.setFree_ats (k n : Nat) : (s.setFree k n).ats = s.ats := rfl
@[simp] theorem State.setFree_priRefused (k n : Nat) : (s.setFree k n).priRefused = s.priRefused := rfl
@[simp] theorem State.setFree_starts (k n : Nat) : (s.setFree k n).starts = s.starts := rfl
@[simp] theorem State.setFree_out (k n : Nat) : (s.setFree k n).out = s.out := rfl
@[simp] theorem State.setFree_strikes (k n : Nat) : (s.setFree k n).strikes = s.strikes := rfl
@[simp] theorem State.setFree_struck (k n : Nat) : (s.setFree k n).struck = s.struck := rfl
@[simp] theorem State.setFree_slow (k n : Nat) : (s.setFree k n).slow = s.slow := rfl
@[simp] theorem State.setFree_wrote (k n : Nat) : (s.setFree k n).wrote = s.wrote := rfl
@[simp] theorem State.setFree_batch (k n : Nat) : (s.setFree k n).batch = s.batch := rfl
@[simp] theorem State.setFree_lateSpills (k n : Nat) : (s.setFree k n).lateSpills = s.lateSpills := rfl
@[simp] theorem State.setFree_holding (k n : Nat) : (s.setFree k n).holding = s.holding := rfl
@[simp] theorem State.setFree_code (k n : Nat) : (s.setFree k n).code = s.code := rfl
@[simp] theorem State.setFree_frameMap (k n : Nat) : (s.setFree k n).frameMap = s.frameMap := rfl
@[simp] theorem State.setFree_moved (k n : Nat) : (s.setFree k n).moved = s.moved := rfl
@[simp] theorem State.setFree_inWrites (k n : Nat) : (s.setFree k n).inWrites = s.inWrites := rfl
@[simp] theorem State.setFree_hostMissing (k n : Nat) : (s.setFree k n).hostMissing = s.hostMissing := rfl
@[simp] theorem State.setFree_priAsked (k n : Nat) : (s.setFree k n).priAsked = s.priAsked := rfl
@[simp] theorem State.setFree_passes (k n : Nat) : (s.setFree k n).passes = s.passes := rfl

@[simp] theorem State.putThread_issue (t : Thread) : (s.putThread t).issue = s.issue := rfl
@[simp] theorem State.putThread_agenda (t : Thread) : (s.putThread t).agenda = s.agenda := rfl
@[simp] theorem State.putThread_freeCount (t : Thread) : (s.putThread t).freeCount = s.freeCount := rfl
@[simp] theorem State.putThread_groups (t : Thread) : (s.putThread t).groups = s.groups := rfl
@[simp] theorem State.putThread_tasks (t : Thread) : (s.putThread t).tasks = s.tasks := rfl
@[simp] theorem State.putThread_waiting (t : Thread) : (s.putThread t).waiting = s.waiting := rfl
@[simp] theorem State.putThread_ctxs (t : Thread) : (s.putThread t).ctxs = s.ctxs := rfl
@[simp] theorem State.putThread_cores (t : Thread) : (s.putThread t).cores = s.cores := rfl
@[simp] theorem State.putThread_spilled (t : Thread) : (s.putThread t).spilled = s.spilled := rfl
@[simp] theorem State.putThread_l1 (t : Thread) : (s.putThread t).l1 = s.l1 := rfl
@[simp] theorem State.putThread_tlb (t : Thread) : (s.putThread t).tlb = s.tlb := rfl
@[simp] theorem State.putThread_mem (t : Thread) : (s.putThread t).mem = s.mem := rfl
@[simp] theorem State.putThread_descs (t : Thread) : (s.putThread t).descs = s.descs := rfl
@[simp] theorem State.putThread_blockKeys (t : Thread) : (s.putThread t).blockKeys = s.blockKeys := rfl
@[simp] theorem State.putThread_keyGens (t : Thread) : (s.putThread t).keyGens = s.keyGens := rfl
@[simp] theorem State.putThread_undecodable (t : Thread) : (s.putThread t).undecodable = s.undecodable := rfl
@[simp] theorem State.putThread_lastWrites (t : Thread) : (s.putThread t).lastWrites = s.lastWrites := rfl
@[simp] theorem State.putThread_resvs (t : Thread) : (s.putThread t).resvs = s.resvs := rfl
@[simp] theorem State.putThread_free (t : Thread) : (s.putThread t).free = s.free := rfl
@[simp] theorem State.putThread_seals (t : Thread) : (s.putThread t).seals = s.seals := rfl
@[simp] theorem State.putThread_sealWaits (t : Thread) : (s.putThread t).sealWaits = s.sealWaits := rfl
@[simp] theorem State.putThread_unsealWaits (t : Thread) : (s.putThread t).unsealWaits = s.unsealWaits := rfl
@[simp] theorem State.putThread_barriers (t : Thread) : (s.putThread t).barriers = s.barriers := rfl
@[simp] theorem State.putThread_launches (t : Thread) : (s.putThread t).launches = s.launches := rfl
@[simp] theorem State.putThread_launchIds (t : Thread) : (s.putThread t).launchIds = s.launchIds := rfl
@[simp] theorem State.putThread_vfs (t : Thread) : (s.putThread t).vfs = s.vfs := rfl
@[simp] theorem State.putThread_pfQueues (t : Thread) : (s.putThread t).pfQueues = s.pfQueues := rfl
@[simp] theorem State.putThread_parts (t : Thread) : (s.putThread t).parts = s.parts := rfl
@[simp] theorem State.putThread_keys (t : Thread) : (s.putThread t).keys = s.keys := rfl
@[simp] theorem State.putThread_numVfs (t : Thread) : (s.putThread t).numVfs = s.numVfs := rfl
@[simp] theorem State.putThread_sc (t : Thread) : (s.putThread t).sc = s.sc := rfl
@[simp] theorem State.putThread_scClock (t : Thread) : (s.putThread t).scClock = s.scClock := rfl
@[simp] theorem State.putThread_tide (t : Thread) : (s.putThread t).tide = s.tide := rfl
@[simp] theorem State.putThread_gangs (t : Thread) : (s.putThread t).gangs = s.gangs := rfl
@[simp] theorem State.putThread_images (t : Thread) : (s.putThread t).images = s.images := rfl
@[simp] theorem State.putThread_switches (t : Thread) : (s.putThread t).switches = s.switches := rfl
@[simp] theorem State.putThread_releases (t : Thread) : (s.putThread t).releases = s.releases := rfl
@[simp] theorem State.putThread_earlyReports (t : Thread) : (s.putThread t).earlyReports = s.earlyReports := rfl
@[simp] theorem State.putThread_pendings (t : Thread) : (s.putThread t).pendings = s.pendings := rfl
@[simp] theorem State.putThread_ttags (t : Thread) : (s.putThread t).ttags = s.ttags := rfl
@[simp] theorem State.putThread_heldPackets (t : Thread) : (s.putThread t).heldPackets = s.heldPackets := rfl
@[simp] theorem State.putThread_deferred (t : Thread) : (s.putThread t).deferred = s.deferred := rfl
@[simp] theorem State.putThread_spawnHeld (t : Thread) : (s.putThread t).spawnHeld = s.spawnHeld := rfl
@[simp] theorem State.putThread_links (t : Thread) : (s.putThread t).links = s.links := rfl
@[simp] theorem State.putThread_hotRows (t : Thread) : (s.putThread t).hotRows = s.hotRows := rfl
@[simp] theorem State.putThread_shootdowns (t : Thread) : (s.putThread t).shootdowns = s.shootdowns := rfl
@[simp] theorem State.putThread_matSeq (t : Thread) : (s.putThread t).matSeq = s.matSeq := rfl
@[simp] theorem State.putThread_seqOrder (t : Thread) : (s.putThread t).seqOrder = s.seqOrder := rfl
@[simp] theorem State.putThread_hm (t : Thread) : (s.putThread t).hm = s.hm := rfl
@[simp] theorem State.putThread_hostMem (t : Thread) : (s.putThread t).hostMem = s.hostMem := rfl
@[simp] theorem State.putThread_hostWrites (t : Thread) : (s.putThread t).hostWrites = s.hostWrites := rfl
@[simp] theorem State.putThread_ats (t : Thread) : (s.putThread t).ats = s.ats := rfl
@[simp] theorem State.putThread_priRefused (t : Thread) : (s.putThread t).priRefused = s.priRefused := rfl
@[simp] theorem State.putThread_starts (t : Thread) : (s.putThread t).starts = s.starts := rfl
@[simp] theorem State.putThread_out (t : Thread) : (s.putThread t).out = s.out := rfl
@[simp] theorem State.putThread_strikes (t : Thread) : (s.putThread t).strikes = s.strikes := rfl
@[simp] theorem State.putThread_struck (t : Thread) : (s.putThread t).struck = s.struck := rfl
@[simp] theorem State.putThread_slow (t : Thread) : (s.putThread t).slow = s.slow := rfl
@[simp] theorem State.putThread_wrote (t : Thread) : (s.putThread t).wrote = s.wrote := rfl
@[simp] theorem State.putThread_batch (t : Thread) : (s.putThread t).batch = s.batch := rfl
@[simp] theorem State.putThread_lateSpills (t : Thread) : (s.putThread t).lateSpills = s.lateSpills := rfl
@[simp] theorem State.putThread_holding (t : Thread) : (s.putThread t).holding = s.holding := rfl
@[simp] theorem State.putThread_code (t : Thread) : (s.putThread t).code = s.code := rfl
@[simp] theorem State.putThread_frameMap (t : Thread) : (s.putThread t).frameMap = s.frameMap := rfl
@[simp] theorem State.putThread_moved (t : Thread) : (s.putThread t).moved = s.moved := rfl
@[simp] theorem State.putThread_inWrites (t : Thread) : (s.putThread t).inWrites = s.inWrites := rfl
@[simp] theorem State.putThread_hostMissing (t : Thread) : (s.putThread t).hostMissing = s.hostMissing := rfl
@[simp] theorem State.putThread_priAsked (t : Thread) : (s.putThread t).priAsked = s.priAsked := rfl
@[simp] theorem State.putThread_passes (t : Thread) : (s.putThread t).passes = s.passes := rfl

@[simp] theorem State.putGroup_issue (g : Group) : (s.putGroup g).issue = s.issue := rfl
@[simp] theorem State.putGroup_agenda (g : Group) : (s.putGroup g).agenda = s.agenda := rfl
@[simp] theorem State.putGroup_freeCount (g : Group) : (s.putGroup g).freeCount = s.freeCount := rfl
@[simp] theorem State.putGroup_threads (g : Group) : (s.putGroup g).threads = s.threads := rfl
@[simp] theorem State.putGroup_tasks (g : Group) : (s.putGroup g).tasks = s.tasks := rfl
@[simp] theorem State.putGroup_waiting (g : Group) : (s.putGroup g).waiting = s.waiting := rfl
@[simp] theorem State.putGroup_ctxs (g : Group) : (s.putGroup g).ctxs = s.ctxs := rfl
@[simp] theorem State.putGroup_cores (g : Group) : (s.putGroup g).cores = s.cores := rfl
@[simp] theorem State.putGroup_spilled (g : Group) : (s.putGroup g).spilled = s.spilled := rfl
@[simp] theorem State.putGroup_l1 (g : Group) : (s.putGroup g).l1 = s.l1 := rfl
@[simp] theorem State.putGroup_tlb (g : Group) : (s.putGroup g).tlb = s.tlb := rfl
@[simp] theorem State.putGroup_mem (g : Group) : (s.putGroup g).mem = s.mem := rfl
@[simp] theorem State.putGroup_descs (g : Group) : (s.putGroup g).descs = s.descs := rfl
@[simp] theorem State.putGroup_blockKeys (g : Group) : (s.putGroup g).blockKeys = s.blockKeys := rfl
@[simp] theorem State.putGroup_keyGens (g : Group) : (s.putGroup g).keyGens = s.keyGens := rfl
@[simp] theorem State.putGroup_undecodable (g : Group) : (s.putGroup g).undecodable = s.undecodable := rfl
@[simp] theorem State.putGroup_lastWrites (g : Group) : (s.putGroup g).lastWrites = s.lastWrites := rfl
@[simp] theorem State.putGroup_resvs (g : Group) : (s.putGroup g).resvs = s.resvs := rfl
@[simp] theorem State.putGroup_free (g : Group) : (s.putGroup g).free = s.free := rfl
@[simp] theorem State.putGroup_seals (g : Group) : (s.putGroup g).seals = s.seals := rfl
@[simp] theorem State.putGroup_sealWaits (g : Group) : (s.putGroup g).sealWaits = s.sealWaits := rfl
@[simp] theorem State.putGroup_unsealWaits (g : Group) : (s.putGroup g).unsealWaits = s.unsealWaits := rfl
@[simp] theorem State.putGroup_barriers (g : Group) : (s.putGroup g).barriers = s.barriers := rfl
@[simp] theorem State.putGroup_launches (g : Group) : (s.putGroup g).launches = s.launches := rfl
@[simp] theorem State.putGroup_launchIds (g : Group) : (s.putGroup g).launchIds = s.launchIds := rfl
@[simp] theorem State.putGroup_vfs (g : Group) : (s.putGroup g).vfs = s.vfs := rfl
@[simp] theorem State.putGroup_pfQueues (g : Group) : (s.putGroup g).pfQueues = s.pfQueues := rfl
@[simp] theorem State.putGroup_parts (g : Group) : (s.putGroup g).parts = s.parts := rfl
@[simp] theorem State.putGroup_keys (g : Group) : (s.putGroup g).keys = s.keys := rfl
@[simp] theorem State.putGroup_numVfs (g : Group) : (s.putGroup g).numVfs = s.numVfs := rfl
@[simp] theorem State.putGroup_sc (g : Group) : (s.putGroup g).sc = s.sc := rfl
@[simp] theorem State.putGroup_scClock (g : Group) : (s.putGroup g).scClock = s.scClock := rfl
@[simp] theorem State.putGroup_tide (g : Group) : (s.putGroup g).tide = s.tide := rfl
@[simp] theorem State.putGroup_gangs (g : Group) : (s.putGroup g).gangs = s.gangs := rfl
@[simp] theorem State.putGroup_images (g : Group) : (s.putGroup g).images = s.images := rfl
@[simp] theorem State.putGroup_switches (g : Group) : (s.putGroup g).switches = s.switches := rfl
@[simp] theorem State.putGroup_releases (g : Group) : (s.putGroup g).releases = s.releases := rfl
@[simp] theorem State.putGroup_earlyReports (g : Group) : (s.putGroup g).earlyReports = s.earlyReports := rfl
@[simp] theorem State.putGroup_pendings (g : Group) : (s.putGroup g).pendings = s.pendings := rfl
@[simp] theorem State.putGroup_ttags (g : Group) : (s.putGroup g).ttags = s.ttags := rfl
@[simp] theorem State.putGroup_heldPackets (g : Group) : (s.putGroup g).heldPackets = s.heldPackets := rfl
@[simp] theorem State.putGroup_deferred (g : Group) : (s.putGroup g).deferred = s.deferred := rfl
@[simp] theorem State.putGroup_spawnHeld (g : Group) : (s.putGroup g).spawnHeld = s.spawnHeld := rfl
@[simp] theorem State.putGroup_links (g : Group) : (s.putGroup g).links = s.links := rfl
@[simp] theorem State.putGroup_hotRows (g : Group) : (s.putGroup g).hotRows = s.hotRows := rfl
@[simp] theorem State.putGroup_shootdowns (g : Group) : (s.putGroup g).shootdowns = s.shootdowns := rfl
@[simp] theorem State.putGroup_matSeq (g : Group) : (s.putGroup g).matSeq = s.matSeq := rfl
@[simp] theorem State.putGroup_seqOrder (g : Group) : (s.putGroup g).seqOrder = s.seqOrder := rfl
@[simp] theorem State.putGroup_hm (g : Group) : (s.putGroup g).hm = s.hm := rfl
@[simp] theorem State.putGroup_hostMem (g : Group) : (s.putGroup g).hostMem = s.hostMem := rfl
@[simp] theorem State.putGroup_hostWrites (g : Group) : (s.putGroup g).hostWrites = s.hostWrites := rfl
@[simp] theorem State.putGroup_ats (g : Group) : (s.putGroup g).ats = s.ats := rfl
@[simp] theorem State.putGroup_priRefused (g : Group) : (s.putGroup g).priRefused = s.priRefused := rfl
@[simp] theorem State.putGroup_starts (g : Group) : (s.putGroup g).starts = s.starts := rfl
@[simp] theorem State.putGroup_out (g : Group) : (s.putGroup g).out = s.out := rfl
@[simp] theorem State.putGroup_strikes (g : Group) : (s.putGroup g).strikes = s.strikes := rfl
@[simp] theorem State.putGroup_struck (g : Group) : (s.putGroup g).struck = s.struck := rfl
@[simp] theorem State.putGroup_slow (g : Group) : (s.putGroup g).slow = s.slow := rfl
@[simp] theorem State.putGroup_wrote (g : Group) : (s.putGroup g).wrote = s.wrote := rfl
@[simp] theorem State.putGroup_batch (g : Group) : (s.putGroup g).batch = s.batch := rfl
@[simp] theorem State.putGroup_lateSpills (g : Group) : (s.putGroup g).lateSpills = s.lateSpills := rfl
@[simp] theorem State.putGroup_holding (g : Group) : (s.putGroup g).holding = s.holding := rfl
@[simp] theorem State.putGroup_code (g : Group) : (s.putGroup g).code = s.code := rfl
@[simp] theorem State.putGroup_frameMap (g : Group) : (s.putGroup g).frameMap = s.frameMap := rfl
@[simp] theorem State.putGroup_moved (g : Group) : (s.putGroup g).moved = s.moved := rfl
@[simp] theorem State.putGroup_inWrites (g : Group) : (s.putGroup g).inWrites = s.inWrites := rfl
@[simp] theorem State.putGroup_hostMissing (g : Group) : (s.putGroup g).hostMissing = s.hostMissing := rfl
@[simp] theorem State.putGroup_priAsked (g : Group) : (s.putGroup g).priAsked = s.priAsked := rfl
@[simp] theorem State.putGroup_passes (g : Group) : (s.putGroup g).passes = s.passes := rfl

@[simp] theorem State.putTask_issue (t : Task) : (s.putTask t).issue = s.issue := rfl
@[simp] theorem State.putTask_agenda (t : Task) : (s.putTask t).agenda = s.agenda := rfl
@[simp] theorem State.putTask_freeCount (t : Task) : (s.putTask t).freeCount = s.freeCount := rfl
@[simp] theorem State.putTask_threads (t : Task) : (s.putTask t).threads = s.threads := rfl
@[simp] theorem State.putTask_groups (t : Task) : (s.putTask t).groups = s.groups := rfl
@[simp] theorem State.putTask_waiting (t : Task) : (s.putTask t).waiting = s.waiting := rfl
@[simp] theorem State.putTask_ctxs (t : Task) : (s.putTask t).ctxs = s.ctxs := rfl
@[simp] theorem State.putTask_cores (t : Task) : (s.putTask t).cores = s.cores := rfl
@[simp] theorem State.putTask_spilled (t : Task) : (s.putTask t).spilled = s.spilled := rfl
@[simp] theorem State.putTask_l1 (t : Task) : (s.putTask t).l1 = s.l1 := rfl
@[simp] theorem State.putTask_tlb (t : Task) : (s.putTask t).tlb = s.tlb := rfl
@[simp] theorem State.putTask_mem (t : Task) : (s.putTask t).mem = s.mem := rfl
@[simp] theorem State.putTask_descs (t : Task) : (s.putTask t).descs = s.descs := rfl
@[simp] theorem State.putTask_blockKeys (t : Task) : (s.putTask t).blockKeys = s.blockKeys := rfl
@[simp] theorem State.putTask_keyGens (t : Task) : (s.putTask t).keyGens = s.keyGens := rfl
@[simp] theorem State.putTask_undecodable (t : Task) : (s.putTask t).undecodable = s.undecodable := rfl
@[simp] theorem State.putTask_lastWrites (t : Task) : (s.putTask t).lastWrites = s.lastWrites := rfl
@[simp] theorem State.putTask_resvs (t : Task) : (s.putTask t).resvs = s.resvs := rfl
@[simp] theorem State.putTask_free (t : Task) : (s.putTask t).free = s.free := rfl
@[simp] theorem State.putTask_seals (t : Task) : (s.putTask t).seals = s.seals := rfl
@[simp] theorem State.putTask_sealWaits (t : Task) : (s.putTask t).sealWaits = s.sealWaits := rfl
@[simp] theorem State.putTask_unsealWaits (t : Task) : (s.putTask t).unsealWaits = s.unsealWaits := rfl
@[simp] theorem State.putTask_barriers (t : Task) : (s.putTask t).barriers = s.barriers := rfl
@[simp] theorem State.putTask_launches (t : Task) : (s.putTask t).launches = s.launches := rfl
@[simp] theorem State.putTask_launchIds (t : Task) : (s.putTask t).launchIds = s.launchIds := rfl
@[simp] theorem State.putTask_vfs (t : Task) : (s.putTask t).vfs = s.vfs := rfl
@[simp] theorem State.putTask_pfQueues (t : Task) : (s.putTask t).pfQueues = s.pfQueues := rfl
@[simp] theorem State.putTask_parts (t : Task) : (s.putTask t).parts = s.parts := rfl
@[simp] theorem State.putTask_keys (t : Task) : (s.putTask t).keys = s.keys := rfl
@[simp] theorem State.putTask_numVfs (t : Task) : (s.putTask t).numVfs = s.numVfs := rfl
@[simp] theorem State.putTask_sc (t : Task) : (s.putTask t).sc = s.sc := rfl
@[simp] theorem State.putTask_scClock (t : Task) : (s.putTask t).scClock = s.scClock := rfl
@[simp] theorem State.putTask_tide (t : Task) : (s.putTask t).tide = s.tide := rfl
@[simp] theorem State.putTask_gangs (t : Task) : (s.putTask t).gangs = s.gangs := rfl
@[simp] theorem State.putTask_images (t : Task) : (s.putTask t).images = s.images := rfl
@[simp] theorem State.putTask_switches (t : Task) : (s.putTask t).switches = s.switches := rfl
@[simp] theorem State.putTask_releases (t : Task) : (s.putTask t).releases = s.releases := rfl
@[simp] theorem State.putTask_earlyReports (t : Task) : (s.putTask t).earlyReports = s.earlyReports := rfl
@[simp] theorem State.putTask_pendings (t : Task) : (s.putTask t).pendings = s.pendings := rfl
@[simp] theorem State.putTask_ttags (t : Task) : (s.putTask t).ttags = s.ttags := rfl
@[simp] theorem State.putTask_heldPackets (t : Task) : (s.putTask t).heldPackets = s.heldPackets := rfl
@[simp] theorem State.putTask_deferred (t : Task) : (s.putTask t).deferred = s.deferred := rfl
@[simp] theorem State.putTask_spawnHeld (t : Task) : (s.putTask t).spawnHeld = s.spawnHeld := rfl
@[simp] theorem State.putTask_links (t : Task) : (s.putTask t).links = s.links := rfl
@[simp] theorem State.putTask_hotRows (t : Task) : (s.putTask t).hotRows = s.hotRows := rfl
@[simp] theorem State.putTask_shootdowns (t : Task) : (s.putTask t).shootdowns = s.shootdowns := rfl
@[simp] theorem State.putTask_matSeq (t : Task) : (s.putTask t).matSeq = s.matSeq := rfl
@[simp] theorem State.putTask_seqOrder (t : Task) : (s.putTask t).seqOrder = s.seqOrder := rfl
@[simp] theorem State.putTask_hm (t : Task) : (s.putTask t).hm = s.hm := rfl
@[simp] theorem State.putTask_hostMem (t : Task) : (s.putTask t).hostMem = s.hostMem := rfl
@[simp] theorem State.putTask_hostWrites (t : Task) : (s.putTask t).hostWrites = s.hostWrites := rfl
@[simp] theorem State.putTask_ats (t : Task) : (s.putTask t).ats = s.ats := rfl
@[simp] theorem State.putTask_priRefused (t : Task) : (s.putTask t).priRefused = s.priRefused := rfl
@[simp] theorem State.putTask_starts (t : Task) : (s.putTask t).starts = s.starts := rfl
@[simp] theorem State.putTask_out (t : Task) : (s.putTask t).out = s.out := rfl
@[simp] theorem State.putTask_strikes (t : Task) : (s.putTask t).strikes = s.strikes := rfl
@[simp] theorem State.putTask_struck (t : Task) : (s.putTask t).struck = s.struck := rfl
@[simp] theorem State.putTask_slow (t : Task) : (s.putTask t).slow = s.slow := rfl
@[simp] theorem State.putTask_wrote (t : Task) : (s.putTask t).wrote = s.wrote := rfl
@[simp] theorem State.putTask_batch (t : Task) : (s.putTask t).batch = s.batch := rfl
@[simp] theorem State.putTask_lateSpills (t : Task) : (s.putTask t).lateSpills = s.lateSpills := rfl
@[simp] theorem State.putTask_holding (t : Task) : (s.putTask t).holding = s.holding := rfl
@[simp] theorem State.putTask_code (t : Task) : (s.putTask t).code = s.code := rfl
@[simp] theorem State.putTask_frameMap (t : Task) : (s.putTask t).frameMap = s.frameMap := rfl
@[simp] theorem State.putTask_moved (t : Task) : (s.putTask t).moved = s.moved := rfl
@[simp] theorem State.putTask_inWrites (t : Task) : (s.putTask t).inWrites = s.inWrites := rfl
@[simp] theorem State.putTask_hostMissing (t : Task) : (s.putTask t).hostMissing = s.hostMissing := rfl
@[simp] theorem State.putTask_priAsked (t : Task) : (s.putTask t).priAsked = s.priAsked := rfl
@[simp] theorem State.putTask_passes (t : Task) : (s.putTask t).passes = s.passes := rfl

@[simp] theorem State.putCtx_issue (c : Ctx) : (s.putCtx c).issue = s.issue := rfl
@[simp] theorem State.putCtx_agenda (c : Ctx) : (s.putCtx c).agenda = s.agenda := rfl
@[simp] theorem State.putCtx_freeCount (c : Ctx) : (s.putCtx c).freeCount = s.freeCount := rfl
@[simp] theorem State.putCtx_threads (c : Ctx) : (s.putCtx c).threads = s.threads := rfl
@[simp] theorem State.putCtx_groups (c : Ctx) : (s.putCtx c).groups = s.groups := rfl
@[simp] theorem State.putCtx_tasks (c : Ctx) : (s.putCtx c).tasks = s.tasks := rfl
@[simp] theorem State.putCtx_waiting (c : Ctx) : (s.putCtx c).waiting = s.waiting := rfl
@[simp] theorem State.putCtx_cores (c : Ctx) : (s.putCtx c).cores = s.cores := rfl
@[simp] theorem State.putCtx_spilled (c : Ctx) : (s.putCtx c).spilled = s.spilled := rfl
@[simp] theorem State.putCtx_l1 (c : Ctx) : (s.putCtx c).l1 = s.l1 := rfl
@[simp] theorem State.putCtx_tlb (c : Ctx) : (s.putCtx c).tlb = s.tlb := rfl
@[simp] theorem State.putCtx_mem (c : Ctx) : (s.putCtx c).mem = s.mem := rfl
@[simp] theorem State.putCtx_descs (c : Ctx) : (s.putCtx c).descs = s.descs := rfl
@[simp] theorem State.putCtx_blockKeys (c : Ctx) : (s.putCtx c).blockKeys = s.blockKeys := rfl
@[simp] theorem State.putCtx_keyGens (c : Ctx) : (s.putCtx c).keyGens = s.keyGens := rfl
@[simp] theorem State.putCtx_undecodable (c : Ctx) : (s.putCtx c).undecodable = s.undecodable := rfl
@[simp] theorem State.putCtx_lastWrites (c : Ctx) : (s.putCtx c).lastWrites = s.lastWrites := rfl
@[simp] theorem State.putCtx_resvs (c : Ctx) : (s.putCtx c).resvs = s.resvs := rfl
@[simp] theorem State.putCtx_free (c : Ctx) : (s.putCtx c).free = s.free := rfl
@[simp] theorem State.putCtx_seals (c : Ctx) : (s.putCtx c).seals = s.seals := rfl
@[simp] theorem State.putCtx_sealWaits (c : Ctx) : (s.putCtx c).sealWaits = s.sealWaits := rfl
@[simp] theorem State.putCtx_unsealWaits (c : Ctx) : (s.putCtx c).unsealWaits = s.unsealWaits := rfl
@[simp] theorem State.putCtx_barriers (c : Ctx) : (s.putCtx c).barriers = s.barriers := rfl
@[simp] theorem State.putCtx_launches (c : Ctx) : (s.putCtx c).launches = s.launches := rfl
@[simp] theorem State.putCtx_launchIds (c : Ctx) : (s.putCtx c).launchIds = s.launchIds := rfl
@[simp] theorem State.putCtx_vfs (c : Ctx) : (s.putCtx c).vfs = s.vfs := rfl
@[simp] theorem State.putCtx_pfQueues (c : Ctx) : (s.putCtx c).pfQueues = s.pfQueues := rfl
@[simp] theorem State.putCtx_parts (c : Ctx) : (s.putCtx c).parts = s.parts := rfl
@[simp] theorem State.putCtx_keys (c : Ctx) : (s.putCtx c).keys = s.keys := rfl
@[simp] theorem State.putCtx_numVfs (c : Ctx) : (s.putCtx c).numVfs = s.numVfs := rfl
@[simp] theorem State.putCtx_sc (c : Ctx) : (s.putCtx c).sc = s.sc := rfl
@[simp] theorem State.putCtx_scClock (c : Ctx) : (s.putCtx c).scClock = s.scClock := rfl
@[simp] theorem State.putCtx_tide (c : Ctx) : (s.putCtx c).tide = s.tide := rfl
@[simp] theorem State.putCtx_gangs (c : Ctx) : (s.putCtx c).gangs = s.gangs := rfl
@[simp] theorem State.putCtx_images (c : Ctx) : (s.putCtx c).images = s.images := rfl
@[simp] theorem State.putCtx_switches (c : Ctx) : (s.putCtx c).switches = s.switches := rfl
@[simp] theorem State.putCtx_releases (c : Ctx) : (s.putCtx c).releases = s.releases := rfl
@[simp] theorem State.putCtx_earlyReports (c : Ctx) : (s.putCtx c).earlyReports = s.earlyReports := rfl
@[simp] theorem State.putCtx_pendings (c : Ctx) : (s.putCtx c).pendings = s.pendings := rfl
@[simp] theorem State.putCtx_ttags (c : Ctx) : (s.putCtx c).ttags = s.ttags := rfl
@[simp] theorem State.putCtx_heldPackets (c : Ctx) : (s.putCtx c).heldPackets = s.heldPackets := rfl
@[simp] theorem State.putCtx_deferred (c : Ctx) : (s.putCtx c).deferred = s.deferred := rfl
@[simp] theorem State.putCtx_spawnHeld (c : Ctx) : (s.putCtx c).spawnHeld = s.spawnHeld := rfl
@[simp] theorem State.putCtx_links (c : Ctx) : (s.putCtx c).links = s.links := rfl
@[simp] theorem State.putCtx_hotRows (c : Ctx) : (s.putCtx c).hotRows = s.hotRows := rfl
@[simp] theorem State.putCtx_shootdowns (c : Ctx) : (s.putCtx c).shootdowns = s.shootdowns := rfl
@[simp] theorem State.putCtx_matSeq (c : Ctx) : (s.putCtx c).matSeq = s.matSeq := rfl
@[simp] theorem State.putCtx_seqOrder (c : Ctx) : (s.putCtx c).seqOrder = s.seqOrder := rfl
@[simp] theorem State.putCtx_hm (c : Ctx) : (s.putCtx c).hm = s.hm := rfl
@[simp] theorem State.putCtx_hostMem (c : Ctx) : (s.putCtx c).hostMem = s.hostMem := rfl
@[simp] theorem State.putCtx_hostWrites (c : Ctx) : (s.putCtx c).hostWrites = s.hostWrites := rfl
@[simp] theorem State.putCtx_ats (c : Ctx) : (s.putCtx c).ats = s.ats := rfl
@[simp] theorem State.putCtx_priRefused (c : Ctx) : (s.putCtx c).priRefused = s.priRefused := rfl
@[simp] theorem State.putCtx_starts (c : Ctx) : (s.putCtx c).starts = s.starts := rfl
@[simp] theorem State.putCtx_out (c : Ctx) : (s.putCtx c).out = s.out := rfl
@[simp] theorem State.putCtx_strikes (c : Ctx) : (s.putCtx c).strikes = s.strikes := rfl
@[simp] theorem State.putCtx_struck (c : Ctx) : (s.putCtx c).struck = s.struck := rfl
@[simp] theorem State.putCtx_slow (c : Ctx) : (s.putCtx c).slow = s.slow := rfl
@[simp] theorem State.putCtx_wrote (c : Ctx) : (s.putCtx c).wrote = s.wrote := rfl
@[simp] theorem State.putCtx_batch (c : Ctx) : (s.putCtx c).batch = s.batch := rfl
@[simp] theorem State.putCtx_lateSpills (c : Ctx) : (s.putCtx c).lateSpills = s.lateSpills := rfl
@[simp] theorem State.putCtx_holding (c : Ctx) : (s.putCtx c).holding = s.holding := rfl
@[simp] theorem State.putCtx_code (c : Ctx) : (s.putCtx c).code = s.code := rfl
@[simp] theorem State.putCtx_frameMap (c : Ctx) : (s.putCtx c).frameMap = s.frameMap := rfl
@[simp] theorem State.putCtx_moved (c : Ctx) : (s.putCtx c).moved = s.moved := rfl
@[simp] theorem State.putCtx_inWrites (c : Ctx) : (s.putCtx c).inWrites = s.inWrites := rfl
@[simp] theorem State.putCtx_hostMissing (c : Ctx) : (s.putCtx c).hostMissing = s.hostMissing := rfl
@[simp] theorem State.putCtx_priAsked (c : Ctx) : (s.putCtx c).priAsked = s.priAsked := rfl
@[simp] theorem State.putCtx_passes (c : Ctx) : (s.putCtx c).passes = s.passes := rfl

@[simp] theorem State.output_issue (o : Output) : (s.output o).issue = s.issue := rfl
@[simp] theorem State.output_agenda (o : Output) : (s.output o).agenda = s.agenda := rfl
@[simp] theorem State.output_freeCount (o : Output) : (s.output o).freeCount = s.freeCount := rfl
@[simp] theorem State.output_threads (o : Output) : (s.output o).threads = s.threads := rfl
@[simp] theorem State.output_groups (o : Output) : (s.output o).groups = s.groups := rfl
@[simp] theorem State.output_tasks (o : Output) : (s.output o).tasks = s.tasks := rfl
@[simp] theorem State.output_waiting (o : Output) : (s.output o).waiting = s.waiting := rfl
@[simp] theorem State.output_ctxs (o : Output) : (s.output o).ctxs = s.ctxs := rfl
@[simp] theorem State.output_cores (o : Output) : (s.output o).cores = s.cores := rfl
@[simp] theorem State.output_spilled (o : Output) : (s.output o).spilled = s.spilled := rfl
@[simp] theorem State.output_l1 (o : Output) : (s.output o).l1 = s.l1 := rfl
@[simp] theorem State.output_tlb (o : Output) : (s.output o).tlb = s.tlb := rfl
@[simp] theorem State.output_mem (o : Output) : (s.output o).mem = s.mem := rfl
@[simp] theorem State.output_descs (o : Output) : (s.output o).descs = s.descs := rfl
@[simp] theorem State.output_blockKeys (o : Output) : (s.output o).blockKeys = s.blockKeys := rfl
@[simp] theorem State.output_keyGens (o : Output) : (s.output o).keyGens = s.keyGens := rfl
@[simp] theorem State.output_undecodable (o : Output) : (s.output o).undecodable = s.undecodable := rfl
@[simp] theorem State.output_lastWrites (o : Output) : (s.output o).lastWrites = s.lastWrites := rfl
@[simp] theorem State.output_resvs (o : Output) : (s.output o).resvs = s.resvs := rfl
@[simp] theorem State.output_free (o : Output) : (s.output o).free = s.free := rfl
@[simp] theorem State.output_seals (o : Output) : (s.output o).seals = s.seals := rfl
@[simp] theorem State.output_sealWaits (o : Output) : (s.output o).sealWaits = s.sealWaits := rfl
@[simp] theorem State.output_unsealWaits (o : Output) : (s.output o).unsealWaits = s.unsealWaits := rfl
@[simp] theorem State.output_barriers (o : Output) : (s.output o).barriers = s.barriers := rfl
@[simp] theorem State.output_launches (o : Output) : (s.output o).launches = s.launches := rfl
@[simp] theorem State.output_launchIds (o : Output) : (s.output o).launchIds = s.launchIds := rfl
@[simp] theorem State.output_vfs (o : Output) : (s.output o).vfs = s.vfs := rfl
@[simp] theorem State.output_pfQueues (o : Output) : (s.output o).pfQueues = s.pfQueues := rfl
@[simp] theorem State.output_parts (o : Output) : (s.output o).parts = s.parts := rfl
@[simp] theorem State.output_keys (o : Output) : (s.output o).keys = s.keys := rfl
@[simp] theorem State.output_numVfs (o : Output) : (s.output o).numVfs = s.numVfs := rfl
@[simp] theorem State.output_sc (o : Output) : (s.output o).sc = s.sc := rfl
@[simp] theorem State.output_scClock (o : Output) : (s.output o).scClock = s.scClock := rfl
@[simp] theorem State.output_tide (o : Output) : (s.output o).tide = s.tide := rfl
@[simp] theorem State.output_gangs (o : Output) : (s.output o).gangs = s.gangs := rfl
@[simp] theorem State.output_images (o : Output) : (s.output o).images = s.images := rfl
@[simp] theorem State.output_switches (o : Output) : (s.output o).switches = s.switches := rfl
@[simp] theorem State.output_releases (o : Output) : (s.output o).releases = s.releases := rfl
@[simp] theorem State.output_earlyReports (o : Output) : (s.output o).earlyReports = s.earlyReports := rfl
@[simp] theorem State.output_pendings (o : Output) : (s.output o).pendings = s.pendings := rfl
@[simp] theorem State.output_ttags (o : Output) : (s.output o).ttags = s.ttags := rfl
@[simp] theorem State.output_heldPackets (o : Output) : (s.output o).heldPackets = s.heldPackets := rfl
@[simp] theorem State.output_deferred (o : Output) : (s.output o).deferred = s.deferred := rfl
@[simp] theorem State.output_spawnHeld (o : Output) : (s.output o).spawnHeld = s.spawnHeld := rfl
@[simp] theorem State.output_links (o : Output) : (s.output o).links = s.links := rfl
@[simp] theorem State.output_hotRows (o : Output) : (s.output o).hotRows = s.hotRows := rfl
@[simp] theorem State.output_shootdowns (o : Output) : (s.output o).shootdowns = s.shootdowns := rfl
@[simp] theorem State.output_matSeq (o : Output) : (s.output o).matSeq = s.matSeq := rfl
@[simp] theorem State.output_seqOrder (o : Output) : (s.output o).seqOrder = s.seqOrder := rfl
@[simp] theorem State.output_hm (o : Output) : (s.output o).hm = s.hm := rfl
@[simp] theorem State.output_hostMem (o : Output) : (s.output o).hostMem = s.hostMem := rfl
@[simp] theorem State.output_hostWrites (o : Output) : (s.output o).hostWrites = s.hostWrites := rfl
@[simp] theorem State.output_ats (o : Output) : (s.output o).ats = s.ats := rfl
@[simp] theorem State.output_priRefused (o : Output) : (s.output o).priRefused = s.priRefused := rfl
@[simp] theorem State.output_starts (o : Output) : (s.output o).starts = s.starts := rfl
@[simp] theorem State.output_strikes (o : Output) : (s.output o).strikes = s.strikes := rfl
@[simp] theorem State.output_struck (o : Output) : (s.output o).struck = s.struck := rfl
@[simp] theorem State.output_slow (o : Output) : (s.output o).slow = s.slow := rfl
@[simp] theorem State.output_wrote (o : Output) : (s.output o).wrote = s.wrote := rfl
@[simp] theorem State.output_batch (o : Output) : (s.output o).batch = s.batch := rfl
@[simp] theorem State.output_lateSpills (o : Output) : (s.output o).lateSpills = s.lateSpills := rfl
@[simp] theorem State.output_holding (o : Output) : (s.output o).holding = s.holding := rfl
@[simp] theorem State.output_code (o : Output) : (s.output o).code = s.code := rfl
@[simp] theorem State.output_frameMap (o : Output) : (s.output o).frameMap = s.frameMap := rfl
@[simp] theorem State.output_moved (o : Output) : (s.output o).moved = s.moved := rfl
@[simp] theorem State.output_inWrites (o : Output) : (s.output o).inWrites = s.inWrites := rfl
@[simp] theorem State.output_hostMissing (o : Output) : (s.output o).hostMissing = s.hostMissing := rfl
@[simp] theorem State.output_priAsked (o : Output) : (s.output o).priAsked = s.priAsked := rfl
@[simp] theorem State.output_passes (o : Output) : (s.output o).passes = s.passes := rfl

@[simp] theorem State.post_issue (a : Nat) (bs : List Byte) : (s.post a bs).issue = s.issue := rfl
@[simp] theorem State.post_agenda (a : Nat) (bs : List Byte) : (s.post a bs).agenda = s.agenda := rfl
@[simp] theorem State.post_freeCount (a : Nat) (bs : List Byte) : (s.post a bs).freeCount = s.freeCount := rfl
@[simp] theorem State.post_threads (a : Nat) (bs : List Byte) : (s.post a bs).threads = s.threads := rfl
@[simp] theorem State.post_groups (a : Nat) (bs : List Byte) : (s.post a bs).groups = s.groups := rfl
@[simp] theorem State.post_tasks (a : Nat) (bs : List Byte) : (s.post a bs).tasks = s.tasks := rfl
@[simp] theorem State.post_waiting (a : Nat) (bs : List Byte) : (s.post a bs).waiting = s.waiting := rfl
@[simp] theorem State.post_ctxs (a : Nat) (bs : List Byte) : (s.post a bs).ctxs = s.ctxs := rfl
@[simp] theorem State.post_cores (a : Nat) (bs : List Byte) : (s.post a bs).cores = s.cores := rfl
@[simp] theorem State.post_spilled (a : Nat) (bs : List Byte) : (s.post a bs).spilled = s.spilled := rfl
@[simp] theorem State.post_l1 (a : Nat) (bs : List Byte) : (s.post a bs).l1 = s.l1 := rfl
@[simp] theorem State.post_tlb (a : Nat) (bs : List Byte) : (s.post a bs).tlb = s.tlb := rfl
@[simp] theorem State.post_mem (a : Nat) (bs : List Byte) : (s.post a bs).mem = s.mem := rfl
@[simp] theorem State.post_descs (a : Nat) (bs : List Byte) : (s.post a bs).descs = s.descs := rfl
@[simp] theorem State.post_blockKeys (a : Nat) (bs : List Byte) : (s.post a bs).blockKeys = s.blockKeys := rfl
@[simp] theorem State.post_keyGens (a : Nat) (bs : List Byte) : (s.post a bs).keyGens = s.keyGens := rfl
@[simp] theorem State.post_undecodable (a : Nat) (bs : List Byte) : (s.post a bs).undecodable = s.undecodable := rfl
@[simp] theorem State.post_lastWrites (a : Nat) (bs : List Byte) : (s.post a bs).lastWrites = s.lastWrites := rfl
@[simp] theorem State.post_resvs (a : Nat) (bs : List Byte) : (s.post a bs).resvs = s.resvs := rfl
@[simp] theorem State.post_free (a : Nat) (bs : List Byte) : (s.post a bs).free = s.free := rfl
@[simp] theorem State.post_seals (a : Nat) (bs : List Byte) : (s.post a bs).seals = s.seals := rfl
@[simp] theorem State.post_sealWaits (a : Nat) (bs : List Byte) : (s.post a bs).sealWaits = s.sealWaits := rfl
@[simp] theorem State.post_unsealWaits (a : Nat) (bs : List Byte) : (s.post a bs).unsealWaits = s.unsealWaits := rfl
@[simp] theorem State.post_barriers (a : Nat) (bs : List Byte) : (s.post a bs).barriers = s.barriers := rfl
@[simp] theorem State.post_launches (a : Nat) (bs : List Byte) : (s.post a bs).launches = s.launches := rfl
@[simp] theorem State.post_launchIds (a : Nat) (bs : List Byte) : (s.post a bs).launchIds = s.launchIds := rfl
@[simp] theorem State.post_vfs (a : Nat) (bs : List Byte) : (s.post a bs).vfs = s.vfs := rfl
@[simp] theorem State.post_pfQueues (a : Nat) (bs : List Byte) : (s.post a bs).pfQueues = s.pfQueues := rfl
@[simp] theorem State.post_parts (a : Nat) (bs : List Byte) : (s.post a bs).parts = s.parts := rfl
@[simp] theorem State.post_keys (a : Nat) (bs : List Byte) : (s.post a bs).keys = s.keys := rfl
@[simp] theorem State.post_numVfs (a : Nat) (bs : List Byte) : (s.post a bs).numVfs = s.numVfs := rfl
@[simp] theorem State.post_sc (a : Nat) (bs : List Byte) : (s.post a bs).sc = s.sc := rfl
@[simp] theorem State.post_scClock (a : Nat) (bs : List Byte) : (s.post a bs).scClock = s.scClock := rfl
@[simp] theorem State.post_tide (a : Nat) (bs : List Byte) : (s.post a bs).tide = s.tide := rfl
@[simp] theorem State.post_gangs (a : Nat) (bs : List Byte) : (s.post a bs).gangs = s.gangs := rfl
@[simp] theorem State.post_images (a : Nat) (bs : List Byte) : (s.post a bs).images = s.images := rfl
@[simp] theorem State.post_switches (a : Nat) (bs : List Byte) : (s.post a bs).switches = s.switches := rfl
@[simp] theorem State.post_releases (a : Nat) (bs : List Byte) : (s.post a bs).releases = s.releases := rfl
@[simp] theorem State.post_earlyReports (a : Nat) (bs : List Byte) : (s.post a bs).earlyReports = s.earlyReports := rfl
@[simp] theorem State.post_pendings (a : Nat) (bs : List Byte) : (s.post a bs).pendings = s.pendings := rfl
@[simp] theorem State.post_ttags (a : Nat) (bs : List Byte) : (s.post a bs).ttags = s.ttags := rfl
@[simp] theorem State.post_heldPackets (a : Nat) (bs : List Byte) : (s.post a bs).heldPackets = s.heldPackets := rfl
@[simp] theorem State.post_deferred (a : Nat) (bs : List Byte) : (s.post a bs).deferred = s.deferred := rfl
@[simp] theorem State.post_spawnHeld (a : Nat) (bs : List Byte) : (s.post a bs).spawnHeld = s.spawnHeld := rfl
@[simp] theorem State.post_links (a : Nat) (bs : List Byte) : (s.post a bs).links = s.links := rfl
@[simp] theorem State.post_hotRows (a : Nat) (bs : List Byte) : (s.post a bs).hotRows = s.hotRows := rfl
@[simp] theorem State.post_shootdowns (a : Nat) (bs : List Byte) : (s.post a bs).shootdowns = s.shootdowns := rfl
@[simp] theorem State.post_matSeq (a : Nat) (bs : List Byte) : (s.post a bs).matSeq = s.matSeq := rfl
@[simp] theorem State.post_seqOrder (a : Nat) (bs : List Byte) : (s.post a bs).seqOrder = s.seqOrder := rfl
@[simp] theorem State.post_hm (a : Nat) (bs : List Byte) : (s.post a bs).hm = s.hm := rfl
@[simp] theorem State.post_hostWrites (a : Nat) (bs : List Byte) : (s.post a bs).hostWrites = s.hostWrites := rfl
@[simp] theorem State.post_ats (a : Nat) (bs : List Byte) : (s.post a bs).ats = s.ats := rfl
@[simp] theorem State.post_priRefused (a : Nat) (bs : List Byte) : (s.post a bs).priRefused = s.priRefused := rfl
@[simp] theorem State.post_starts (a : Nat) (bs : List Byte) : (s.post a bs).starts = s.starts := rfl
@[simp] theorem State.post_strikes (a : Nat) (bs : List Byte) : (s.post a bs).strikes = s.strikes := rfl
@[simp] theorem State.post_struck (a : Nat) (bs : List Byte) : (s.post a bs).struck = soundHost a bs.length s.struck := rfl
@[simp] theorem State.post_slow (a : Nat) (bs : List Byte) : (s.post a bs).slow = s.slow := rfl
@[simp] theorem State.post_wrote (a : Nat) (bs : List Byte) : (s.post a bs).wrote = s.wrote := rfl
@[simp] theorem State.post_batch (a : Nat) (bs : List Byte) : (s.post a bs).batch = s.batch := rfl
@[simp] theorem State.post_lateSpills (a : Nat) (bs : List Byte) : (s.post a bs).lateSpills = s.lateSpills := rfl
@[simp] theorem State.post_holding (a : Nat) (bs : List Byte) : (s.post a bs).holding = s.holding := rfl
@[simp] theorem State.post_code (a : Nat) (bs : List Byte) : (s.post a bs).code = s.code := rfl
@[simp] theorem State.post_frameMap (a : Nat) (bs : List Byte) : (s.post a bs).frameMap = s.frameMap := rfl
@[simp] theorem State.post_moved (a : Nat) (bs : List Byte) : (s.post a bs).moved = s.moved := rfl
@[simp] theorem State.post_inWrites (a : Nat) (bs : List Byte) : (s.post a bs).inWrites = s.inWrites := rfl
@[simp] theorem State.post_hostMissing (a : Nat) (bs : List Byte) : (s.post a bs).hostMissing = s.hostMissing := rfl
@[simp] theorem State.post_priAsked (a : Nat) (bs : List Byte) : (s.post a bs).priAsked = s.priAsked := rfl
@[simp] theorem State.post_passes (a : Nat) (bs : List Byte) : (s.post a bs).passes = s.passes := rfl

@[simp] theorem State.dropGroup_issue (c b : Nat) : (s.dropGroup c b).issue = s.issue := rfl
@[simp] theorem State.dropGroup_agenda (c b : Nat) : (s.dropGroup c b).agenda = s.agenda := rfl
@[simp] theorem State.dropGroup_freeCount (c b : Nat) : (s.dropGroup c b).freeCount = s.freeCount := rfl
@[simp] theorem State.dropGroup_tasks (c b : Nat) : (s.dropGroup c b).tasks = s.tasks := rfl
@[simp] theorem State.dropGroup_waiting (c b : Nat) : (s.dropGroup c b).waiting = s.waiting := rfl
@[simp] theorem State.dropGroup_ctxs (c b : Nat) : (s.dropGroup c b).ctxs = s.ctxs := rfl
@[simp] theorem State.dropGroup_cores (c b : Nat) : (s.dropGroup c b).cores = s.cores := rfl
@[simp] theorem State.dropGroup_spilled (c b : Nat) : (s.dropGroup c b).spilled = s.spilled := rfl
@[simp] theorem State.dropGroup_l1 (c b : Nat) : (s.dropGroup c b).l1 = s.l1 := rfl
@[simp] theorem State.dropGroup_tlb (c b : Nat) : (s.dropGroup c b).tlb = s.tlb := rfl
@[simp] theorem State.dropGroup_mem (c b : Nat) : (s.dropGroup c b).mem = s.mem := rfl
@[simp] theorem State.dropGroup_descs (c b : Nat) : (s.dropGroup c b).descs = s.descs := rfl
@[simp] theorem State.dropGroup_blockKeys (c b : Nat) : (s.dropGroup c b).blockKeys = s.blockKeys := rfl
@[simp] theorem State.dropGroup_keyGens (c b : Nat) : (s.dropGroup c b).keyGens = s.keyGens := rfl
@[simp] theorem State.dropGroup_undecodable (c b : Nat) : (s.dropGroup c b).undecodable = s.undecodable := rfl
@[simp] theorem State.dropGroup_lastWrites (c b : Nat) : (s.dropGroup c b).lastWrites = s.lastWrites := rfl
@[simp] theorem State.dropGroup_resvs (c b : Nat) : (s.dropGroup c b).resvs = s.resvs := rfl
@[simp] theorem State.dropGroup_free (c b : Nat) : (s.dropGroup c b).free = s.free := rfl
@[simp] theorem State.dropGroup_seals (c b : Nat) : (s.dropGroup c b).seals = s.seals := rfl
@[simp] theorem State.dropGroup_sealWaits (c b : Nat) : (s.dropGroup c b).sealWaits = s.sealWaits := rfl
@[simp] theorem State.dropGroup_unsealWaits (c b : Nat) : (s.dropGroup c b).unsealWaits = s.unsealWaits := rfl
@[simp] theorem State.dropGroup_barriers (c b : Nat) : (s.dropGroup c b).barriers = s.barriers := rfl
@[simp] theorem State.dropGroup_launches (c b : Nat) : (s.dropGroup c b).launches = s.launches := rfl
@[simp] theorem State.dropGroup_launchIds (c b : Nat) : (s.dropGroup c b).launchIds = s.launchIds := rfl
@[simp] theorem State.dropGroup_vfs (c b : Nat) : (s.dropGroup c b).vfs = s.vfs := rfl
@[simp] theorem State.dropGroup_pfQueues (c b : Nat) : (s.dropGroup c b).pfQueues = s.pfQueues := rfl
@[simp] theorem State.dropGroup_parts (c b : Nat) : (s.dropGroup c b).parts = s.parts := rfl
@[simp] theorem State.dropGroup_keys (c b : Nat) : (s.dropGroup c b).keys = s.keys := rfl
@[simp] theorem State.dropGroup_numVfs (c b : Nat) : (s.dropGroup c b).numVfs = s.numVfs := rfl
@[simp] theorem State.dropGroup_sc (c b : Nat) : (s.dropGroup c b).sc = s.sc := rfl
@[simp] theorem State.dropGroup_scClock (c b : Nat) : (s.dropGroup c b).scClock = s.scClock := rfl
@[simp] theorem State.dropGroup_tide (c b : Nat) : (s.dropGroup c b).tide = s.tide := rfl
@[simp] theorem State.dropGroup_gangs (c b : Nat) : (s.dropGroup c b).gangs = s.gangs := rfl
@[simp] theorem State.dropGroup_images (c b : Nat) : (s.dropGroup c b).images = s.images := rfl
@[simp] theorem State.dropGroup_switches (c b : Nat) : (s.dropGroup c b).switches = s.switches := rfl
@[simp] theorem State.dropGroup_releases (c b : Nat) : (s.dropGroup c b).releases = s.releases := rfl
@[simp] theorem State.dropGroup_earlyReports (c b : Nat) : (s.dropGroup c b).earlyReports = s.earlyReports := rfl
@[simp] theorem State.dropGroup_pendings (c b : Nat) : (s.dropGroup c b).pendings = s.pendings := rfl
@[simp] theorem State.dropGroup_ttags (c b : Nat) : (s.dropGroup c b).ttags = s.ttags := rfl
@[simp] theorem State.dropGroup_heldPackets (c b : Nat) : (s.dropGroup c b).heldPackets = s.heldPackets := rfl
@[simp] theorem State.dropGroup_deferred (c b : Nat) : (s.dropGroup c b).deferred = s.deferred := rfl
@[simp] theorem State.dropGroup_spawnHeld (c b : Nat) : (s.dropGroup c b).spawnHeld = s.spawnHeld := rfl
@[simp] theorem State.dropGroup_links (c b : Nat) : (s.dropGroup c b).links = s.links := rfl
@[simp] theorem State.dropGroup_hotRows (c b : Nat) : (s.dropGroup c b).hotRows = s.hotRows := rfl
@[simp] theorem State.dropGroup_shootdowns (c b : Nat) : (s.dropGroup c b).shootdowns = s.shootdowns := rfl
@[simp] theorem State.dropGroup_matSeq (c b : Nat) : (s.dropGroup c b).matSeq = s.matSeq := rfl
@[simp] theorem State.dropGroup_seqOrder (c b : Nat) : (s.dropGroup c b).seqOrder = s.seqOrder := rfl
@[simp] theorem State.dropGroup_hm (c b : Nat) : (s.dropGroup c b).hm = s.hm := rfl
@[simp] theorem State.dropGroup_hostMem (c b : Nat) : (s.dropGroup c b).hostMem = s.hostMem := rfl
@[simp] theorem State.dropGroup_hostWrites (c b : Nat) : (s.dropGroup c b).hostWrites = s.hostWrites := rfl
@[simp] theorem State.dropGroup_ats (c b : Nat) : (s.dropGroup c b).ats = s.ats := rfl
@[simp] theorem State.dropGroup_priRefused (c b : Nat) : (s.dropGroup c b).priRefused = s.priRefused := rfl
@[simp] theorem State.dropGroup_starts (c b : Nat) : (s.dropGroup c b).starts = s.starts := rfl
@[simp] theorem State.dropGroup_out (c b : Nat) : (s.dropGroup c b).out = s.out := rfl
@[simp] theorem State.dropGroup_strikes (c b : Nat) : (s.dropGroup c b).strikes = s.strikes := rfl
@[simp] theorem State.dropGroup_struck (c b : Nat) : (s.dropGroup c b).struck = s.struck := rfl
@[simp] theorem State.dropGroup_slow (c b : Nat) : (s.dropGroup c b).slow = s.slow := rfl
@[simp] theorem State.dropGroup_wrote (c b : Nat) : (s.dropGroup c b).wrote = s.wrote := rfl
@[simp] theorem State.dropGroup_batch (c b : Nat) : (s.dropGroup c b).batch = s.batch := rfl
@[simp] theorem State.dropGroup_lateSpills (c b : Nat) : (s.dropGroup c b).lateSpills = s.lateSpills := rfl
@[simp] theorem State.dropGroup_holding (c b : Nat) : (s.dropGroup c b).holding = s.holding := rfl
@[simp] theorem State.dropGroup_code (c b : Nat) : (s.dropGroup c b).code = s.code := rfl
@[simp] theorem State.dropGroup_frameMap (c b : Nat) : (s.dropGroup c b).frameMap = s.frameMap := rfl
@[simp] theorem State.dropGroup_moved (c b : Nat) : (s.dropGroup c b).moved = s.moved := rfl
@[simp] theorem State.dropGroup_inWrites (c b : Nat) : (s.dropGroup c b).inWrites = s.inWrites := rfl
@[simp] theorem State.dropGroup_hostMissing (c b : Nat) : (s.dropGroup c b).hostMissing = s.hostMissing := rfl
@[simp] theorem State.dropGroup_priAsked (c b : Nat) : (s.dropGroup c b).priAsked = s.priAsked := rfl
@[simp] theorem State.dropGroup_passes (c b : Nat) : (s.dropGroup c b).passes = s.passes := rfl

@[simp] theorem State.dropTask_issue (c f : Nat) : (s.dropTask c f).issue = s.issue := rfl
@[simp] theorem State.dropTask_agenda (c f : Nat) : (s.dropTask c f).agenda = s.agenda := rfl
@[simp] theorem State.dropTask_freeCount (c f : Nat) : (s.dropTask c f).freeCount = s.freeCount := rfl
@[simp] theorem State.dropTask_threads (c f : Nat) : (s.dropTask c f).threads = s.threads := rfl
@[simp] theorem State.dropTask_groups (c f : Nat) : (s.dropTask c f).groups = s.groups := rfl
@[simp] theorem State.dropTask_waiting (c f : Nat) : (s.dropTask c f).waiting = s.waiting := rfl
@[simp] theorem State.dropTask_ctxs (c f : Nat) : (s.dropTask c f).ctxs = s.ctxs := rfl
@[simp] theorem State.dropTask_cores (c f : Nat) : (s.dropTask c f).cores = s.cores := rfl
@[simp] theorem State.dropTask_spilled (c f : Nat) : (s.dropTask c f).spilled = s.spilled := rfl
@[simp] theorem State.dropTask_l1 (c f : Nat) : (s.dropTask c f).l1 = s.l1 := rfl
@[simp] theorem State.dropTask_tlb (c f : Nat) : (s.dropTask c f).tlb = s.tlb := rfl
@[simp] theorem State.dropTask_mem (c f : Nat) : (s.dropTask c f).mem = s.mem := rfl
@[simp] theorem State.dropTask_descs (c f : Nat) : (s.dropTask c f).descs = s.descs := rfl
@[simp] theorem State.dropTask_blockKeys (c f : Nat) : (s.dropTask c f).blockKeys = s.blockKeys := rfl
@[simp] theorem State.dropTask_keyGens (c f : Nat) : (s.dropTask c f).keyGens = s.keyGens := rfl
@[simp] theorem State.dropTask_undecodable (c f : Nat) : (s.dropTask c f).undecodable = s.undecodable := rfl
@[simp] theorem State.dropTask_lastWrites (c f : Nat) : (s.dropTask c f).lastWrites = s.lastWrites := rfl
@[simp] theorem State.dropTask_resvs (c f : Nat) : (s.dropTask c f).resvs = s.resvs := rfl
@[simp] theorem State.dropTask_free (c f : Nat) : (s.dropTask c f).free = s.free := rfl
@[simp] theorem State.dropTask_seals (c f : Nat) : (s.dropTask c f).seals = s.seals := rfl
@[simp] theorem State.dropTask_sealWaits (c f : Nat) : (s.dropTask c f).sealWaits = s.sealWaits := rfl
@[simp] theorem State.dropTask_unsealWaits (c f : Nat) : (s.dropTask c f).unsealWaits = s.unsealWaits := rfl
@[simp] theorem State.dropTask_barriers (c f : Nat) : (s.dropTask c f).barriers = s.barriers := rfl
@[simp] theorem State.dropTask_launches (c f : Nat) : (s.dropTask c f).launches = s.launches := rfl
@[simp] theorem State.dropTask_launchIds (c f : Nat) : (s.dropTask c f).launchIds = s.launchIds := rfl
@[simp] theorem State.dropTask_vfs (c f : Nat) : (s.dropTask c f).vfs = s.vfs := rfl
@[simp] theorem State.dropTask_pfQueues (c f : Nat) : (s.dropTask c f).pfQueues = s.pfQueues := rfl
@[simp] theorem State.dropTask_parts (c f : Nat) : (s.dropTask c f).parts = s.parts := rfl
@[simp] theorem State.dropTask_keys (c f : Nat) : (s.dropTask c f).keys = s.keys := rfl
@[simp] theorem State.dropTask_numVfs (c f : Nat) : (s.dropTask c f).numVfs = s.numVfs := rfl
@[simp] theorem State.dropTask_sc (c f : Nat) : (s.dropTask c f).sc = s.sc := rfl
@[simp] theorem State.dropTask_scClock (c f : Nat) : (s.dropTask c f).scClock = s.scClock := rfl
@[simp] theorem State.dropTask_tide (c f : Nat) : (s.dropTask c f).tide = s.tide := rfl
@[simp] theorem State.dropTask_gangs (c f : Nat) : (s.dropTask c f).gangs = s.gangs := rfl
@[simp] theorem State.dropTask_images (c f : Nat) : (s.dropTask c f).images = s.images := rfl
@[simp] theorem State.dropTask_switches (c f : Nat) : (s.dropTask c f).switches = s.switches := rfl
@[simp] theorem State.dropTask_releases (c f : Nat) : (s.dropTask c f).releases = s.releases := rfl
@[simp] theorem State.dropTask_earlyReports (c f : Nat) : (s.dropTask c f).earlyReports = s.earlyReports := rfl
@[simp] theorem State.dropTask_pendings (c f : Nat) : (s.dropTask c f).pendings = s.pendings := rfl
@[simp] theorem State.dropTask_ttags (c f : Nat) : (s.dropTask c f).ttags = s.ttags := rfl
@[simp] theorem State.dropTask_heldPackets (c f : Nat) : (s.dropTask c f).heldPackets = s.heldPackets := rfl
@[simp] theorem State.dropTask_deferred (c f : Nat) : (s.dropTask c f).deferred = s.deferred := rfl
@[simp] theorem State.dropTask_spawnHeld (c f : Nat) : (s.dropTask c f).spawnHeld = s.spawnHeld := rfl
@[simp] theorem State.dropTask_links (c f : Nat) : (s.dropTask c f).links = s.links := rfl
@[simp] theorem State.dropTask_hotRows (c f : Nat) : (s.dropTask c f).hotRows = s.hotRows := rfl
@[simp] theorem State.dropTask_shootdowns (c f : Nat) : (s.dropTask c f).shootdowns = s.shootdowns := rfl
@[simp] theorem State.dropTask_matSeq (c f : Nat) : (s.dropTask c f).matSeq = s.matSeq := rfl
@[simp] theorem State.dropTask_seqOrder (c f : Nat) : (s.dropTask c f).seqOrder = s.seqOrder := rfl
@[simp] theorem State.dropTask_hm (c f : Nat) : (s.dropTask c f).hm = s.hm := rfl
@[simp] theorem State.dropTask_hostMem (c f : Nat) : (s.dropTask c f).hostMem = s.hostMem := rfl
@[simp] theorem State.dropTask_hostWrites (c f : Nat) : (s.dropTask c f).hostWrites = s.hostWrites := rfl
@[simp] theorem State.dropTask_ats (c f : Nat) : (s.dropTask c f).ats = s.ats := rfl
@[simp] theorem State.dropTask_priRefused (c f : Nat) : (s.dropTask c f).priRefused = s.priRefused := rfl
@[simp] theorem State.dropTask_starts (c f : Nat) : (s.dropTask c f).starts = s.starts := rfl
@[simp] theorem State.dropTask_out (c f : Nat) : (s.dropTask c f).out = s.out := rfl
@[simp] theorem State.dropTask_strikes (c f : Nat) : (s.dropTask c f).strikes = s.strikes := rfl
@[simp] theorem State.dropTask_struck (c f : Nat) : (s.dropTask c f).struck = s.struck := rfl
@[simp] theorem State.dropTask_slow (c f : Nat) : (s.dropTask c f).slow = s.slow := rfl
@[simp] theorem State.dropTask_wrote (c f : Nat) : (s.dropTask c f).wrote = s.wrote := rfl
@[simp] theorem State.dropTask_batch (c f : Nat) : (s.dropTask c f).batch = s.batch := rfl
@[simp] theorem State.dropTask_lateSpills (c f : Nat) : (s.dropTask c f).lateSpills = s.lateSpills := rfl
@[simp] theorem State.dropTask_holding (c f : Nat) : (s.dropTask c f).holding = s.holding := rfl
@[simp] theorem State.dropTask_code (c f : Nat) : (s.dropTask c f).code = s.code := rfl
@[simp] theorem State.dropTask_frameMap (c f : Nat) : (s.dropTask c f).frameMap = s.frameMap := rfl
@[simp] theorem State.dropTask_moved (c f : Nat) : (s.dropTask c f).moved = s.moved := rfl
@[simp] theorem State.dropTask_inWrites (c f : Nat) : (s.dropTask c f).inWrites = s.inWrites := rfl
@[simp] theorem State.dropTask_hostMissing (c f : Nat) : (s.dropTask c f).hostMissing = s.hostMissing := rfl
@[simp] theorem State.dropTask_priAsked (c f : Nat) : (s.dropTask c f).priAsked = s.priAsked := rfl
@[simp] theorem State.dropTask_passes (c f : Nat) : (s.dropTask c f).passes = s.passes := rfl

/-- An interrupt of a VF changes only what has left the package. -/
theorem State.msixVf_only (v : Nat) : s.msixVf v = { s with out := (s.msixVf v).out } := by
  unfold State.msixVf; split <;> rfl

@[simp] theorem State.msixVf_mem (v : Nat) : (s.msixVf v).mem = s.mem := by rw [s.msixVf_only v]
@[simp] theorem State.msixVf_threads (v : Nat) : (s.msixVf v).threads = s.threads := by rw [s.msixVf_only v]
@[simp] theorem State.msixVf_cores (v : Nat) : (s.msixVf v).cores = s.cores := by rw [s.msixVf_only v]
@[simp] theorem State.msixVf_vfs (v : Nat) : (s.msixVf v).vfs = s.vfs := by rw [s.msixVf_only v]

/-! ### What is read after an update -/

theorem State.coreAt_setCore (c j : Nat) (k : Core) : (s.setCore c k).coreAt j = if j = c then k else s.coreAt j :=
  SMap.get_set _ _ _ _ _

@[simp] theorem State.coreAt_setCore_same (c : Nat) (k : Core) : (s.setCore c k).coreAt c = k := SMap.get_set_same _ _ _ _

theorem State.vf_setVf (v j : Nat) (x : Vf) : (s.setVf v x).vf j = if j = v then x else s.vf j := SMap.get_set _ _ _ _ _

@[simp] theorem State.vf_setVf_same (v : Nat) (x : Vf) : (s.setVf v x).vf v = x := SMap.get_set_same _ _ _ _

theorem State.desc_setDesc (b j : Nat) (d : Desc) : (s.setDesc b d).desc j = if j = b then d else s.desc j := SMap.get_set _ _ _ _ _

@[simp] theorem State.desc_setDesc_same (b : Nat) (d : Desc) : (s.setDesc b d).desc b = d := SMap.get_set_same _ _ _ _

theorem find?_upsert_same {α : Type} (p : α → Bool) (a : α) (l : List α) (h : p a = true) : (upsert p a l).find? p = some a := by
  induction l with
  | nil => simp [upsert, h]
  | cons b t ih =>
    unfold upsert
    split
    · simp [h]
    · next hb => simp [List.find?, hb, ih]

theorem find?_upsert_ne {α : Type} (p q : α → Bool) (a : α) (l : List α) (hq : q a = false)
    (h : ∀ b, p b = true → q b = false) : (upsert p a l).find? q = l.find? q := by
  induction l with
  | nil => simp [upsert, hq]
  | cons b t ih =>
    unfold upsert
    split
    · next hb => simp [List.find?, hq, h b hb]
    · simp only [List.find?, ih]

theorem State.thread_id (l : LaneId) : (s.thread l).id = l := by
  unfold State.thread
  cases h : s.threads.find? fun t => decide (t.id = l) with
  | none => rfl
  | some t => simpa using List.find?_some h

@[simp] theorem State.thread_putThread_same (t : Thread) : (s.putThread t).thread t.id = t := by
  simp [State.thread, State.putThread, find?_upsert_same]

theorem State.thread_putThread_ne (t : Thread) (l : LaneId) (h : l ≠ t.id) : (s.putThread t).thread l = s.thread l := by
  simp only [State.thread, State.putThread]
  rw [find?_upsert_ne]
  · simpa using fun e => h e.symm
  · intro b hb
    simp only [decide_eq_true_eq] at hb
    simp only [decide_eq_false_iff_not, hb]
    exact fun e => h e.symm

theorem State.thread_putThread (t : Thread) (l : LaneId) : (s.putThread t).thread l = if l = t.id then t else s.thread l := by
  split
  · next h => subst h; exact s.thread_putThread_same t
  · next h => exact s.thread_putThread_ne t l h

/-- A lookup of a thread sees only the threads. -/
theorem State.thread_congr (s t : State) (l : LaneId) (h : t.threads = s.threads) : t.thread l = s.thread l := by
  simp only [State.thread, h]

@[simp] theorem State.thread_setCore (c : Nat) (k : Core) (l : LaneId) : (s.setCore c k).thread l = s.thread l := rfl
@[simp] theorem State.thread_setVf (v : Nat) (x : Vf) (l : LaneId) : (s.setVf v x).thread l = s.thread l := rfl
@[simp] theorem State.thread_putTask (t : Task) (l : LaneId) : (s.putTask t).thread l = s.thread l := rfl
@[simp] theorem State.thread_putGroup (g : Group) (l : LaneId) : (s.putGroup g).thread l = s.thread l := rfl
@[simp] theorem State.thread_putCtx (c : Ctx) (l : LaneId) : (s.putCtx c).thread l = s.thread l := rfl
@[simp] theorem State.thread_output (o : Output) (l : LaneId) : (s.output o).thread l = s.thread l := rfl
@[simp] theorem State.coreAt_putThread (t : Thread) (c : Nat) : (s.putThread t).coreAt c = s.coreAt c := rfl
@[simp] theorem State.vf_putThread (t : Thread) (v : Nat) : (s.putThread t).vf v = s.vf v := rfl
@[simp] theorem State.vf_setCore (c : Nat) (k : Core) (v : Nat) : (s.setCore c k).vf v = s.vf v := rfl

/-! ### Registers (R17, R18) -/

@[simp] theorem Thread.rd_zero (t : Thread) : t.rd 0 = 0 := rfl

/-- A write to x0 is discarded. -/
@[simp] theorem Thread.wr_zero (t : Thread) (v : Word) : t.wr 0 v = t := rfl

@[simp] theorem Thread.wr_id (t : Thread) (r : Reg) (v : Word) : (t.wr r v).id = t.id := by
  unfold Thread.wr Thread.setPhys Thread.cancel; split <;> [rfl; (split <;> rfl)]

@[simp] theorem Thread.wr_pc (t : Thread) (r : Reg) (v : Word) : (t.wr r v).pc = t.pc := by
  unfold Thread.wr Thread.setPhys Thread.cancel; split <;> [rfl; (split <;> rfl)]

@[simp] theorem Thread.wr_wb (t : Thread) (r : Reg) (v : Word) : (t.wr r v).wb = t.wb := by
  unfold Thread.wr Thread.setPhys Thread.cancel; split <;> [rfl; (split <;> rfl)]

@[simp] theorem Thread.wr_wait (t : Thread) (r : Reg) (v : Word) : (t.wr r v).wait = t.wait := by
  unfold Thread.wr Thread.setPhys Thread.cancel; split <;> [rfl; (split <;> rfl)]

@[simp] theorem Thread.wr_flags (t : Thread) (r : Reg) (v : Word) : (t.wr r v).flags = t.flags := by
  unfold Thread.wr Thread.setPhys Thread.cancel; split <;> [rfl; (split <;> rfl)]

@[simp] theorem Thread.wr_rm (t : Thread) (r : Reg) (v : Word) : (t.wr r v).rm = t.rm := by
  unfold Thread.wr Thread.setPhys Thread.cancel; split <;> [rfl; (split <;> rfl)]

@[simp] theorem Thread.wr_ctx (t : Thread) (r : Reg) (v : Word) : (t.wr r v).ctx = t.ctx := by
  unfold Thread.wr Thread.setPhys Thread.cancel; split <;> [rfl; (split <;> rfl)]

@[simp] theorem Thread.wr_reissue (t : Thread) (r : Reg) (v : Word) : (t.wr r v).reissue = t.reissue := by
  unfold Thread.wr Thread.setPhys Thread.cancel; split <;> [rfl; (split <;> rfl)]

/-- A write cancels the results bound to its register and changes no window otherwise. -/
theorem Thread.wr_windows (t : Thread) (r : Reg) (v : Word) :
    (t.wr r v).windows = if r = 0 then t.windows else (t.cancel (t.phys r)).windows := by
  unfold Thread.wr Thread.setPhys
  split <;> [rfl; (split <;> rfl)]

theorem Thread.phys_pos (t : Thread) (r : Reg) (h : r ≠ 0) (hb : 16 ≤ t.wb) : t.phys r ≠ 0 := by
  have h0 : r.toNat ≠ 0 := fun e => h (BitVec.eq_of_toNat_eq (by simpa using e))
  unfold Thread.phys
  split <;> omega

theorem Thread.wr_regs (t : Thread) (r : Reg) (v : Word) (h : r ≠ 0) (hb : 16 ≤ t.wb) :
    (t.wr r v).regs = SMap.set 0 t.regs (t.phys r) v := by
  unfold Thread.wr Thread.setPhys
  rw [if_neg h, if_neg (t.phys_pos r h hb)]
  rfl

/-- A register reads as it was last written. -/
theorem Thread.rd_wr_same (t : Thread) (r : Reg) (v : Word) (h : r ≠ 0) (hb : 16 ≤ t.wb) : (t.wr r v).rd r = v := by
  have hw : (t.wr r v).phys r = t.phys r := by simp [Thread.phys]
  unfold Thread.rd Thread.physAt
  rw [if_neg h, hw, t.wr_regs r v h hb, SMap.get_set_same]

/-- Two register numbers of one window base name two registers. -/
theorem Thread.phys_inj (t : Thread) (q r : Reg) (hb : 16 ≤ t.wb) (h : t.phys q = t.phys r) : q = r := by
  apply BitVec.eq_of_toNat_eq
  unfold Thread.phys at h
  split at h <;> split at h <;> omega

/-- A write leaves every other register as it was. -/
theorem Thread.rd_wr_ne (t : Thread) (q r : Reg) (v : Word) (h : q ≠ r) (hb : 16 ≤ t.wb) : (t.wr r v).rd q = t.rd q := by
  by_cases hr : r = 0
  · subst hr; rfl
  · by_cases hq : q = 0
    · subst hq; rfl
    · have hn : t.phys q ≠ t.phys r := fun e => h (t.phys_inj q r hb e)
      have hw : (t.wr r v).phys q = t.phys q := by simp [Thread.phys]
      unfold Thread.rd Thread.physAt
      rw [if_neg hq, if_neg hq, hw, t.wr_regs r v hr hb, SMap.get_set_ne _ _ _ _ _ hn]

end Sys2Proof.Machine
end

