-- ==== Sys2Proof/Laws/Issue.lean ====
section
/-! SUPPORT. What the issue of an instruction for calm lanes does, once for all instructions that change only the
threads' own state. -/

namespace Sys2Proof.Machine

/-! ### Changes of threads and of the picker's order alone -/

/-- Between the states only threads of `ids` and the rings of the cores differ. -/
structure Local (s t : State) (ids : List LaneId) : Prop where
  rest : t = { s with threads := t.threads, cores := t.cores }
  others : ∀ l, l ∉ ids → t.thread l = s.thread l
  cores : ∀ c, t.coreAt c = { s.coreAt c with ring := (t.coreAt c).ring }

theorem Local.refl (s : State) (ids : List LaneId) : Local s s ids := ⟨rfl, fun _ _ => rfl, fun _ => rfl⟩

theorem Local.trans {s t u : State} {ids : List LaneId} (h : Local s t ids) (k : Local t u ids) : Local s u ids where
  rest := by rw [k.rest, h.rest]
  others l hl := (k.others l hl).trans (h.others l hl)
  cores c := by rw [k.cores c, h.cores c]

theorem Local.mono {s t : State} {ids js : List LaneId} (h : Local s t ids) (hs : ∀ l ∈ ids, l ∈ js) : Local s t js where
  rest := h.rest
  others l hl := h.others l fun e => hl (hs l e)
  cores := h.cores

theorem Local.one {s t : State} {l : LaneId} {ids : List LaneId} (h : Local s t [l]) (hl : l ∈ ids) : Local s t ids :=
  h.mono fun x hx => by simp only [List.mem_singleton] at hx; exact hx ▸ hl

theorem Local.putThread (s : State) (t : Thread) : Local s (s.putThread t) [t.id] where
  rest := rfl
  others l hl := s.thread_putThread_ne t l (by simpa using hl)
  cores _ := rfl

theorem Local.setRing (s : State) (c : Nat) (k : Core) (ids : List LaneId) (hk : k = { s.coreAt c with ring := k.ring }) :
    Local s (s.setCore c k) ids where
  rest := rfl
  others _ _ := rfl
  cores j := by
    rw [State.coreAt_setCore]
    split
    · next h => rw [h]; exact hk
    · rfl

theorem Local.join (s : State) (id : LaneId) (ids : List LaneId) : Local s (s.join id) ids := by
  unfold State.join
  dsimp only
  split
  · exact Local.setRing s _ _ ids rfl
  · exact Local.refl s ids

@[simp] theorem State.thread_join (s : State) (id l : LaneId) : (s.join id).thread l = s.thread l := by
  unfold State.join
  dsimp only
  split <;> rfl

theorem Local.ready (s : State) (id : LaneId) : Local s (s.ready id) [id] := by
  unfold State.ready
  exact (Local.putThread s _).trans (Local.join _ id _)

theorem State.thread_ready_same (s : State) (id : LaneId) :
    (s.ready id).thread id = { s.thread id with wait := .ready } := by
  unfold State.ready State.modThread
  rw [State.thread_join]
  refine (State.thread_putThread_same _ _).trans ?_
  simp only [s.thread_id id]

theorem Local.toOnly {s t : State} {ids : List LaneId} (h : Local { s with issue := none } t ids) : OnlyThreads s t ids where
  rest := h.rest
  others := h.others
  cores := h.cores
  memory slot a := by rw [h.rest]; rfl

/-! ### Completion of a calm lane -/

/-- Windows that stay open are not delivered. -/
theorem State.deliver_open (s : State) (id : LaneId) (ws : List Window) (h : ∀ w ∈ ws, w.count ≠ 0) : s.deliver id ws = s := by
  induction ws generalizing s with
  | nil => rfl
  | cons w r ih =>
    unfold State.deliver
    dsimp only
    rw [if_pos (h w (by simp))]
    exact ih s fun x hx => h x (by simp [hx])

/-- What stands behind windows that stay open is delivered as if they were not there. -/
theorem State.deliver_append (s : State) (id : LaneId) (ws vs : List Window) (h : ∀ w ∈ ws, w.count ≠ 0) :
    s.deliver id (ws ++ vs) = s.deliver id vs := by
  induction ws generalizing s with
  | nil => rfl
  | cons w r ih =>
    show s.deliver id (w :: (r ++ vs)) = _
    rw [State.deliver.eq_def]
    dsimp only
    rw [if_pos (h w (by simp))]
    exact ih s fun x hx => h x (by simp [hx])

theorem advance_counts (t : Thread) (h : ∀ w ∈ t.windows, 2 ≤ w.count) :
    ∀ w ∈ t.windows.map (fun w => { w with count := w.count - 1 }), w.count ≠ 0 := by
  intro w hw
  simp only [List.mem_map] at hw
  obtain ⟨x, hx, rfl⟩ := hw
  have := h x hx
  show x.count - 1 ≠ 0
  omega

theorem State.put_advance (s : State) (id : LaneId) (pc : Word) (ws : List Window) :
    Local s (s.putThread ((s.thread id).advance pc ws)) [id] ∧
    (s.putThread ((s.thread id).advance pc ws)).thread id = (s.thread id).advance pc ws := by
  have e : ((s.thread id).advance pc ws).id = id := s.thread_id id
  have h1 := Local.putThread s ((s.thread id).advance pc ws)
  have h2 := s.thread_putThread_same ((s.thread id).advance pc ws)
  rw [e] at h1 h2
  exact ⟨h1, h2⟩

/-- A thread whose windows all stay open goes on. -/
theorem State.proceed_open (s : State) (id : LaneId) (hw : (s.thread id).wait = .ready)
    (hc : ∀ w ∈ (s.thread id).windows, w.count ≠ 0) :
    Local s (s.proceed id) [id] ∧ (s.proceed id).thread id = s.thread id := by
  unfold State.proceed
  dsimp only
  rw [State.deliver_open _ _ _ hc, if_neg (by rw [hw]; decide), if_neg (by
    simp only [List.any_eq_true, not_exists, not_and]
    intro w h; simpa using hc w h)]
  refine ⟨Local.ready s id, ?_⟩
  rw [State.thread_ready_same]
  conv => rhs; rw [show s.thread id = { s.thread id with wait := (s.thread id).wait } from rfl, hw]

/-- A lane that completes with no window to open. -/
theorem State.complete_calm (s : State) (id : LaneId) (pc pc' : Word) (h : (s.thread id).Calm pc') :
    Local s (s.complete id pc []) [id] ∧ (s.complete id pc []).thread id = (s.thread id).advance pc [] := by
  have hid := s.thread_id id
  unfold State.complete
  dsimp only
  split
  swap
  · next r e => rw [h.reissue] at e; exact absurd e (by simp)
  by_cases hw : (s.thread id).windows = []
  · rw [if_pos (by simp [hw])]
    have e : ({ s.thread id with pc := pc, alone := false } : Thread).id = id := hid
    have h1 := Local.putThread s { s.thread id with pc := pc, alone := false }
    have h2 := s.thread_putThread_same { s.thread id with pc := pc, alone := false }
    rw [e] at h1 h2
    refine ⟨h1.trans (Local.ready _ id), ?_⟩
    rw [State.thread_ready_same, h2]
    simp only [Thread.advance, hw, List.map_nil, List.nil_append, ← h.ready]
  · rw [if_neg (by simp [hw])]
    have k := s.put_advance id pc []
    have p := State.proceed_open (s.putThread ((s.thread id).advance pc [])) id (by rw [k.2]; exact h.ready) (by
      rw [k.2]
      simp only [Thread.advance, List.append_nil]
      exact advance_counts _ h.windows)
    exact ⟨k.1.trans p.1, by rw [p.2, k.2]⟩

/-- What a lane's thread becomes that opens one window: it stays open, or gives its value at once (R37). -/
def Thread.opened (t : Thread) (pc : Word) (w : Window) (v : Word) : Thread :=
  if w.count ≠ 0 then t.advance pc [w]
  else
    let u := { t.advance pc [] with flags := t.flags ||| w.closing.flags }
    if w.cancelled then u else u.setPhys w.phys v

theorem Thread.setPhys_id (t : Thread) (p : Nat) (v : Word) : (t.setPhys p v).id = t.id := by
  unfold Thread.setPhys; split <;> rfl

theorem Thread.setPhys_wait (t : Thread) (p : Nat) (v : Word) : (t.setPhys p v).wait = t.wait := by
  unfold Thread.setPhys; split <;> rfl

theorem Thread.setPhys_windows (t : Thread) (p : Nat) (v : Word) : (t.setPhys p v).windows = t.windows := by
  unfold Thread.setPhys; split <;> rfl

theorem erase_append_last (l : List Window) (w : Window) (h : ∀ x ∈ l, x.count ≠ 0) (hw : w.count = 0) :
    (l ++ [w]).erase w = l := by
  rw [List.erase_append, if_neg (fun m => h w m hw)]
  simp

/-- A lane that completes and opens one window whose value has come. -/
theorem State.complete_window (s : State) (id : LaneId) (pc pc' : Word) (w : Window) (v : Word) (h : (s.thread id).Calm pc')
    (ha : w.arrival = .value v) (hx : w.closing.ext = false) (hf : w.closing.fabric = false) :
    Local s (s.complete id pc [w]) [id] ∧ (s.complete id pc [w]).thread id = (s.thread id).opened pc w v := by
  have hid := s.thread_id id
  unfold State.complete
  dsimp only
  split
  swap
  · next r e => rw [h.reissue] at e; exact absurd e (by simp)
  rw [if_neg (by simp)]
  have k := s.put_advance id pc [w]
  have hold : ∀ x ∈ (s.thread id).windows.map (fun w => { w with count := w.count - 1 }), x.count ≠ 0 :=
    advance_counts _ h.windows
  by_cases hc : w.count = 0
  · unfold State.proceed
    dsimp only
    have ew : ((s.thread id).advance pc [w]).windows =
      (s.thread id).windows.map (fun w => { w with count := w.count - 1 }) ++ [w] := rfl
    rw [k.2, ew, State.deliver_append _ _ _ _ hold]
    unfold State.deliver
    dsimp only
    rw [if_neg (show ¬ (w.count ≠ 0) by simp [hc]), ha]
    dsimp only
    rw [k.2, hx, hf]
    simp only [Bool.false_eq_true, if_false]
    unfold State.deliver
    have eo : (if w.cancelled = true then
          ({ (s.thread id).advance pc [w] with windows := ((s.thread id).advance pc [w]).windows.erase w, flags := ((s.thread id).advance pc [w]).flags ||| w.closing.flags } : Thread)
        else ({ (s.thread id).advance pc [w] with windows := ((s.thread id).advance pc [w]).windows.erase w, flags := ((s.thread id).advance pc [w]).flags ||| w.closing.flags } : Thread).setPhys w.phys v) =
        (s.thread id).opened pc w v := by
      unfold Thread.opened
      rw [if_neg (show ¬ (w.count ≠ 0) by simp [hc]), ew, erase_append_last _ _ hold hc]
      simp only [Thread.advance, List.append_nil]
    rw [eo]
    have oid : ((s.thread id).opened pc w v).id = id := by
      rw [← eo]; split
      · exact hid
      · rw [Thread.setPhys_id]; exact hid
    have owt : ((s.thread id).opened pc w v).wait = .ready := by
      rw [← eo]; split
      · exact h.ready
      · rw [Thread.setPhys_wait]; exact h.ready
    have oww : ((s.thread id).opened pc w v).windows = (s.thread id).windows.map (fun w => { w with count := w.count - 1 }) := by
      rw [← eo]; split
      · exact erase_append_last _ _ hold hc
      · rw [Thread.setPhys_windows]; exact erase_append_last _ _ hold hc
    have h1 := Local.putThread (s.putThread ((s.thread id).advance pc [w])) ((s.thread id).opened pc w v)
    have h2 := (s.putThread ((s.thread id).advance pc [w])).thread_putThread_same ((s.thread id).opened pc w v)
    rw [oid] at h1 h2
    rw [h2, owt, oww, if_neg (by decide), if_neg (by
      simp only [List.any_eq_true, not_exists, not_and]
      intro x m; simpa using hold x m)]
    refine ⟨(k.1.trans h1).trans (Local.ready _ id), ?_⟩
    rw [State.thread_ready_same, h2, ← owt]
  · have p := State.proceed_open (s.putThread ((s.thread id).advance pc [w])) id (by rw [k.2]; exact h.ready) (by
      rw [k.2]
      intro x m
      have m : x ∈ (s.thread id).windows.map (fun w => { w with count := w.count - 1 }) ++ [w] := m
      rw [List.mem_append, List.mem_singleton] at m
      obtain m | rfl := m
      · exact hold x m
      · exact hc)
    refine ⟨k.1.trans p.1, ?_⟩
    rw [p.2, k.2]
    unfold Thread.opened
    rw [if_pos hc]

/-! ### An instruction that each lane executes for itself -/

/-- How a lane's result settles when nothing traps. -/
structure Settles (ifa : Word) (len : Nat) (r : LaneRes) (l : LaneId) (t u : Thread) : Prop where
  noTrap : ∀ c f, r ≠ .trap c f
  noFault : ∀ c b f g, r ≠ .fault c b f g
  ends : ∀ s : State, s.thread l = t → Local s (s.settleLane ifa len (l, r)) [l] ∧ (s.settleLane ifa len (l, r)).thread l = u

theorem Settles.done (ifa : Word) (len : Nat) (l : LaneId) (t : Thread) (pc' : Word) (h : t.Calm pc') :
    Settles ifa len (.done []) l t (t.advance (ifa + BitVec.ofNat 64 len) []) where
  noTrap _ _ := by simp
  noFault _ _ _ _ := by simp
  ends s hs := by subst hs; exact s.complete_calm l _ pc' h

theorem Settles.jump (ifa : Word) (len : Nat) (l : LaneId) (t : Thread) (pc pc' : Word) (h : t.Calm pc') :
    Settles ifa len (.jump pc) l t (t.advance pc []) where
  noTrap _ _ := by simp
  noFault _ _ _ _ := by simp
  ends s hs := by subst hs; exact s.complete_calm l _ pc' h

theorem Settles.window (ifa : Word) (len : Nat) (l : LaneId) (t : Thread) (pc' : Word) (h : t.Calm pc') (w : Window) (v : Word)
    (ha : w.arrival = .value v) (hx : w.closing.ext = false) (hf : w.closing.fabric = false) :
    Settles ifa len (.done [w]) l t (t.opened (ifa + BitVec.ofNat 64 len) w v) where
  noTrap _ _ := by simp
  noFault _ _ _ _ := by simp
  ends s hs := by subst hs; exact s.complete_window l _ pc' w v h ha hx hf

/-- The lanes in turn, then their settling in turn. -/
theorem eachLane_local (f : State → LaneId → State × LaneRes) (ids : List LaneId) (s0 : State) (ifa : Word) (len : Nat)
    (mid fin : LaneId → Thread)
    (hf : ∀ s l, l ∈ ids → Local s0 s ids → s.thread l = s0.thread l →
      Local s (f s l).1 [l] ∧ (f s l).1.thread l = mid l ∧ Settles ifa len (f s l).2 l (mid l) (fin l)) :
    ∀ (ls : List LaneId), ls.Nodup → (∀ l ∈ ls, l ∈ ids) → ∀ s, Local s0 s ids → (∀ l ∈ ls, s.thread l = s0.thread l) →
      Local s (eachLane s f ls).1 ls ∧ (∀ l ∈ ls, (eachLane s f ls).1.thread l = mid l) ∧
      (eachLane s f ls).2.map (·.1) = ls ∧
      ∀ p ∈ (eachLane s f ls).2, Settles ifa len p.2 p.1 (mid p.1) (fin p.1) := by
  intro ls
  induction ls with
  | nil => intro _ _ s _ _; exact ⟨Local.refl s [], by simp, rfl, by simp [eachLane]⟩
  | cons l r ih =>
    intro hn hm s hs ht
    have hl := hf s l (hm l (by simp)) hs (ht l (by simp))
    have hn' := List.nodup_cons.mp hn
    have k := ih hn'.2 (fun x hx => hm x (by simp [hx])) (f s l).1 (hs.trans (hl.1.one (hm l (by simp)))) (fun x hx => by
      rw [hl.1.others x (by simp only [List.mem_singleton]; intro e; exact hn'.1 (e ▸ hx))]
      exact ht x (by simp [hx]))
    have e1 : (eachLane s f (l :: r)).1 = (eachLane (f s l).1 f r).1 := rfl
    have e2 : (eachLane s f (l :: r)).2 = (l, (f s l).2) :: (eachLane (f s l).1 f r).2 := rfl
    rw [e1, e2]
    refine ⟨(hl.1.one (by simp)).trans (k.1.mono fun x hx => by simp [hx]), ?_, by simp [k.2.2.1], ?_⟩
    · intro x hx
      rcases List.mem_cons.mp hx with rfl | hx
      · rw [k.1.others x hn'.1]; exact hl.2.1
      · exact k.2.1 x hx
    · intro p hp
      rcases List.mem_cons.mp hp with rfl | hp
      · exact hl.2.2
      · exact k.2.2.2 p hp

theorem settle_local (ifa : Word) (len : Nat) (mid fin : LaneId → Thread) (g : State → LaneId × LaneRes → State)
    (hg : ∀ s p, (∀ c f, p.2 ≠ .trap c f) → (∀ c b f g, p.2 ≠ .fault c b f g) → g s p = s.settleLane ifa len p) :
    ∀ (rs : List (LaneId × LaneRes)), (rs.map (·.1)).Nodup → (∀ p ∈ rs, Settles ifa len p.2 p.1 (mid p.1) (fin p.1)) →
      ∀ s : State, (∀ p ∈ rs, s.thread p.1 = mid p.1) →
        Local s (rs.foldl g s) (rs.map (·.1)) ∧ ∀ p ∈ rs, (rs.foldl g s).thread p.1 = fin p.1 := by
  intro rs
  induction rs with
  | nil => intro _ _ s _; exact ⟨Local.refl s _, by simp⟩
  | cons p r ih =>
    intro hn hp s hs
    have hn' := List.nodup_cons.mp (by simpa only [List.map_cons] using hn)
    have h := hp p (by simp)
    have e := h.ends s (hs p (by simp))
    have k := ih hn'.2 (fun q hq => hp q (by simp [hq])) (s.settleLane ifa len p) (fun q hq => by
      rw [e.1.others q.1 (by
        simp only [List.mem_singleton]; intro x
        exact hn'.1 (x ▸ List.mem_map_of_mem (f := (·.1)) hq))]
      exact hs q (by simp [hq]))
    rw [List.foldl_cons, hg s p h.noTrap h.noFault]
    refine ⟨(e.1.one (by simp)).trans (k.1.mono fun x hx => by simp only [List.map_cons, List.mem_cons]; exact Or.inr hx), ?_⟩
    intro q hq
    rcases List.mem_cons.mp hq with rfl | hq
    · rw [k.1.others q.1 hn'.1]; exact e.2
    · exact k.2 q hq

/-- Lanes that neither trap nor fault settle one after another. -/
theorem State.conclude_local (s : State) (i : Issue) (len : Nat) (mid fin : LaneId → Thread) (rs : List (LaneId × LaneRes))
    (hn : (rs.map (·.1)).Nodup) (hp : ∀ p ∈ rs, Settles i.pc len p.2 p.1 (mid p.1) (fin p.1))
    (hs : ∀ p ∈ rs, s.thread p.1 = mid p.1) :
    Local s (s.conclude i len rs) (rs.map (·.1)) ∧ ∀ p ∈ rs, (s.conclude i len rs).thread p.1 = fin p.1 := by
  unfold State.conclude
  split
  · refine settle_local i.pc len mid fin _ ?_ rs hn hp s hs
    intro s p h1 h2
    unfold State.settleQuay
    split
    · next c f e => exact absurd e (h1 c f)
    · next c b f g e => exact absurd e (h2 c b f g)
    · rfl
  · have ht : ∀ g : LaneId × LaneRes → Option (LaneId × Nat × Word), (∀ p ∈ rs, g p = none) → rs.filterMap g = [] :=
      fun g h => List.filterMap_eq_nil_iff.mpr h
    have hf : ∀ g : LaneId × LaneRes → Option (LaneId × Nat × Nat × Word × Word), (∀ p ∈ rs, g p = none) →
        rs.filterMap g = [] := fun g h => List.filterMap_eq_nil_iff.mpr h
    dsimp only
    rw [ht _ fun p m => by
        split
        · next c f e => exact absurd e ((hp p m).noTrap c f)
        · rfl,
      hf _ fun p m => by
        split
        · next c u f g e => exact absurd e ((hp p m).noFault c u f g)
        · rfl]
    simp only [List.isEmpty_nil, if_true]
    exact settle_local i.pc len mid fin _ (fun _ _ _ _ => rfl) rs hn hp s hs

/-- An instruction that each of the calm lanes executes for itself, none of them trapping: it completes, and nothing but
their threads and the picker's order has changed. -/
theorem perLane_local {s : State} {i : Issue} {e : Engine} {rs : List Reg} {len : Nat} {f : State → LaneId → State × LaneRes}
    (h : Issued s i e rs) (mid fin : LaneId → Thread)
    (hf : ∀ s' l, l ∈ i.lanes → Local { s with issue := none } s' i.lanes → s'.thread l = s.thread l →
      Local s' (f s' l).1 [l] ∧ (f s' l).1.thread l = mid l ∧ Settles i.pc len (f s' l).2 l (mid l) (fin l)) :
    ∃ t, perLane s e rs len f = .next t ∧ OnlyThreads s t i.lanes ∧ ∀ l ∈ i.lanes, t.thread l = fin l := by
  have k := eachLane_local f i.lanes { s with issue := none } i.pc len mid fin (fun s' l m a b => hf s' l m a b) i.lanes h.lanes
    (fun l m => m) { s with issue := none } (Local.refl _ _) (fun _ _ => rfl)
  have hm : ∀ p ∈ (eachLane { s with issue := none } f i.lanes).2, p.1 ∈ i.lanes := fun p m => by
    rw [← k.2.2.1]; exact List.mem_map_of_mem (f := (·.1)) m
  have c := State.conclude_local (eachLane { s with issue := none } f i.lanes).1 i len mid fin
    (eachLane { s with issue := none } f i.lanes).2 (by rw [k.2.2.1]; exact h.lanes) k.2.2.2
    (fun p m => k.2.1 p.1 (hm p m))
  refine ⟨_, ?_, ((k.1.trans (by rw [k.2.2.1] at c; exact c.1)).toOnly), ?_⟩
  · unfold perLane issue
    rw [h.issue]
    dsimp only
    rw [h.engine]
    simp only [Bool.not_true, Bool.false_eq_true, if_false, Bool.false_and]
  · intro l m
    rw [← k.2.2.1] at m
    obtain ⟨p, hp, rfl⟩ := List.mem_map.mp m
    exact c.2 p hp

/-- An instruction that changes only the thread's registers and flags. -/
theorem regOp_local {s : State} {i : Issue} {e : Engine} {rs : List Reg} {len : Nat} {f : Thread → Thread}
    (h : Issued s i e rs) (hid : ∀ t, (f t).id = t.id) (hc : ∀ t pc, t.Calm pc → (f t).Calm pc) :
    ∃ t, regOp s e rs len f = .next t ∧ OnlyThreads s t i.lanes ∧
      ∀ l ∈ i.lanes, t.thread l = (f (s.thread l)).advance (i.pc + BitVec.ofNat 64 len) [] := by
  refine perLane_local h (fun l => f (s.thread l)) _ ?_
  intro s' l m _ e
  have hi : (f (s.thread l)).id = l := (hid _).trans (s.thread_id l)
  have h1 := Local.putThread s' (f (s.thread l))
  have h2 := s'.thread_putThread_same (f (s.thread l))
  rw [hi] at h1 h2
  rw [e]
  exact ⟨h1, h2, Settles.done _ _ _ _ i.pc (hc _ _ (h.calm l m))⟩

/-! ### One register written -/

theorem Thread.Calm.cancel {t : Thread} {pc : Word} (h : t.Calm pc) (p : Nat) : (t.cancel p).Calm pc where
  at_pc := h.at_pc
  ready := h.ready
  reissue := h.reissue
  base := h.base
  windows w m := by
    simp only [Thread.cancel, List.mem_map] at m
    obtain ⟨x, hx, rfl⟩ := m
    have := h.windows x hx
    split <;> exact this

theorem Thread.Calm.wr {t : Thread} {pc : Word} (h : t.Calm pc) (d : Reg) (v : Word) : (t.wr d v).Calm pc where
  at_pc := by rw [Thread.wr_pc]; exact h.at_pc
  ready := by rw [Thread.wr_wait]; exact h.ready
  reissue := by rw [Thread.wr_reissue]; exact h.reissue
  base := by rw [Thread.wr_wb]; exact h.base
  windows w m := by
    rw [Thread.wr_windows] at m
    split at m
    · exact h.windows w m
    · exact (h.cancel _).windows w m

theorem Thread.Calm.raise {t : Thread} {pc : Word} (h : t.Calm pc) (f : Flags) : (t.raise f).Calm pc :=
  ⟨h.at_pc, h.ready, h.reissue, h.base, h.windows⟩

/-- A register written and flags raised, as a claim says it. -/
theorem Wrote.of_wr {t : Thread} {pc pc' : Word} (h : t.Calm pc') (d : Reg) (v : Word) (f : Flags) :
    Wrote t (((t.raise f).wr d v).advance pc []) pc d v f := by
  by_cases hd : d = 0
  · subst hd
    refine ⟨rfl, fun _ _ => rfl, ?_, rfl⟩
    show t.windows.map _ ++ [] = _
    simp
  · have hb : 16 ≤ (t.raise f).wb := h.base
    have hr := (t.raise f).wr_regs d v hd hb
    have hph : (t.raise f).phys d = t.phys d := rfl
    have hp := (t.raise f).phys_pos d hd hb
    refine ⟨?_, ?_, ?_, ?_⟩
    · rw [if_neg hd]
      exact (t.raise f).rd_wr_same d v hd hb
    · intro p hx
      rcases hx with hx | hx
      · exact absurd hx hd
      · show SMap.get 0 ((t.raise f).wr d v).regs p = _
        rw [hr, hph, SMap.get_set_ne _ _ _ _ _ hx]
        rfl
    · show ((t.raise f).wr d v).windows.map _ ++ [] = _
      rw [Thread.wr_windows, if_neg hd, List.append_nil]
      show List.map _ (List.map _ t.windows) = _
      rw [List.map_map]
      apply List.map_congr_left
      intro w _
      simp only [Function.comp, hph]
      have hd' : decide (d ≠ 0) = true := by simpa using hd
      by_cases hq : w.phys = t.phys d
      · rw [if_pos hq, hd', decide_eq_true hq]; simp
      · rw [if_neg hq, decide_eq_false hq]; simp
    · show _ = ({ t with pc := pc, alone := false, regs := _, windows := _, flags := _ } : Thread)
      simp only [Thread.wr, if_neg hd, Thread.setPhys, if_neg hp]
      rfl

/-- An instruction that writes one register and raises flags. -/
theorem writes_regOp {s : State} {i : Issue} {e : Engine} {rs : List Reg} {len : Nat} {d : Reg} (v : Thread → Word) (fl : Thread → Flags)
    (h : Issued s i e rs) (ins : Instr)
    (hx : exec ins s = regOp s e rs len fun t => (t.raise (fl t)).wr d (v t)) : WritesF s i ins len d v fl := by
  obtain ⟨t, h1, h2, h3⟩ := regOp_local (len := len) (f := fun t => (t.raise (fl t)).wr d (v t)) h
    (fun t => by rw [Thread.wr_id]; rfl) (fun t pc c => (c.raise _).wr _ _)
  exact ⟨t, hx.trans h1, h2, fun l m => by rw [h3 l m]; exact Wrote.of_wr (h.calm l m) d _ _⟩

theorem Thread.raise_zero (t : Thread) : t.raise 0 = t := by
  show ({ t with flags := t.flags ||| 0 } : Thread) = t
  rw [show t.flags ||| 0 = t.flags from BitVec.or_zero]

/-- An instruction that writes one register and raises no flag. -/
theorem writes_plain {s : State} {i : Issue} {e : Engine} {rs : List Reg} {len : Nat} {d : Reg} (v : Thread → Word)
    (h : Issued s i e rs) (ins : Instr) (hx : exec ins s = regOp s e rs len fun t => t.wr d (v t)) : Writes s i ins len d v :=
  writes_regOp v (fun _ => 0) h ins (by simp only [Thread.raise_zero]; exact hx)

end Sys2Proof.Machine
end

