-- ==== Sys2Proof/Laws/Memory.lean ====
section
/-! SUPPORT. Device memory keeps its canonical form: at reset, where an instruction is placed, and in every write at a home. -/

namespace Sys2Proof.Machine

theorem memOk_reset : State.reset.memOk := by rfl

theorem memOk_of_mem {s t : State} (h : s.memOk) (hm : t.mem = s.mem) : t.memOk := by
  unfold State.memOk; rw [hm]; exact h

theorem memOk_write {s t : State} (h : s.memOk) (a : Nat) (bs : List Byte) (hm : t.mem = writeMap memDefault s.mem a bs) : t.memOk := by
  unfold State.memOk Memory.wf; rw [hm]; exact wf_writeMap _ _ _ _ h

theorem memOk_set {s t : State} (h : s.memOk) (ws : List (Nat × Byte))
    (hm : t.mem = ws.foldl (fun m w => SMap.set memDefault m w.1 w.2) s.mem) : t.memOk := by
  unfold State.memOk Memory.wf; rw [hm]; exact wf_fold_set _ _ _ h

theorem memOk_withFetchWord {s : State} (h : s.memOk) (n w : Nat) : (s.withFetchWord n w).memOk :=
  memOk_write h 0x1000 (toBytes w 8) (by simp [State.withFetchWord])

/-! ### What a write at a home leaves of memory (R292) -/

variable (s : State)

theorem foldl_mem {α : Type} (f : State → α → State) (h : ∀ s a, (f s a).mem = s.mem) : ∀ (l : List α) (s : State), (l.foldl f s).mem = s.mem
  | [], _ => rfl
  | a :: r, s => by rw [List.foldl_cons, foldl_mem f h r, h]

@[simp] theorem State.evalWaits_mem (us : List Nat) (k : WriteKind) : (s.evalWaits us k).mem = s.mem := by
  unfold State.evalWaits
  refine foldl_mem _ (fun s t => ?_) _ _
  split
  · cases k <;> simp [State.releaseWait]
  · rfl

@[simp] theorem State.noteWrites_mem (us : List Nat) (k : WriteKind) : (s.noteWrites us k).mem = s.mem := rfl

@[simp] theorem State.event_mem (k a b : Nat) : (s.event k a b).mem = s.mem := by simp [State.event]

@[simp] theorem State.reserveLow_mem (v st : Nat) : (s.reserveLow v st).mem = s.mem := by simp [State.reserveLow]

@[simp] theorem State.adjust_mem (v st : Nat) (f : Counters → Counters) : (s.adjust v st f).mem = s.mem := by
  unfold State.adjust
  simp only
  split <;> split <;> simp

@[simp] theorem State.endResv_mem (b : Nat) (h : Holder) : (s.endResv b h).mem = s.mem := by
  unfold State.endResv; split <;> simp

@[simp] theorem State.endOf_mem (b : Nat) (f : Fund) : (s.endOf b f).mem = s.mem := by
  unfold State.endOf; split <;> simp

@[simp] theorem State.trim_mem (b e : Nat) : (s.trim b e).mem = s.mem := by
  unfold State.trim
  simp only
  split <;> simp

@[simp] theorem State.logDirty_mem (v g : Nat) : (s.logDirty v g).mem = s.mem := by
  unfold State.logDirty
  simp only
  split
  · rfl
  · split <;> simp

@[simp] theorem State.useGrant_mem (b : Nat) (h : Holder) (o g : Nat) : (s.useGrant b h o g).mem = s.mem := by
  unfold State.useGrant; split <;> simp

@[simp] theorem State.unmoor_mem (l : ScLine) : (s.unmoor l).mem = s.mem := by unfold State.unmoor; split <;> simp

@[simp] theorem State.scAccess_mem (v tc k a : Nat) (m : KeyMark) : (s.scAccess v tc k a m).mem = s.mem := by
  unfold State.scAccess
  simp only
  repeat' split
  all_goals simp

@[simp] theorem State.takeSectors_mem (f : Fund) (v o b g : Nat) : (s.takeSectors f v o b g).mem = s.mem := by
  unfold State.takeSectors; split <;> simp

@[simp] theorem State.pickNat_mem (n : Nat) : (s.pickNat n).2.mem = s.mem := by unfold State.pickNat; split <;> rfl

@[simp] theorem State.places_mem (lo hi g : Nat) (ivs : List (Nat × Nat)) (n : Nat) : (s.places lo hi g ivs n).2.mem = s.mem := by
  induction n generalizing s ivs with
  | zero => rfl
  | succ n ih => simp [State.places, ih]

@[simp] theorem State.freshRun_mem (b n : Nat) : (s.freshRun b n).2.mem = s.mem := by simp [State.freshRun]

@[simp] theorem State.holdLines_mem (v b : Nat) : (s.holdLines v b).mem = s.mem := rfl

@[simp] theorem State.growDesc_mem (b g : Nat) (d : Desc) (e : Encoding) : (s.growDesc b g d e).mem = s.mem := by
  unfold State.growDesc
  simp only
  split <;> simp

@[simp] theorem State.handWait_mem (us : List Nat) (t : Task) : (s.handWait us t).mem = s.mem := by
  unfold State.handWait
  dsimp only
  split
  · rfl
  · split
    · rfl
    · split <;> rfl

@[simp] theorem State.handOver_mem (us : List Nat) : (s.handOver us).mem = s.mem := by
  unfold State.handOver
  exact foldl_mem _ (fun s t => s.handWait_mem us t) _ _

@[simp] theorem State.afterWrite_mem (q : HomeReq) (f : Fund) (a n : Nat) (ws : List (Nat × Byte)) :
    (s.afterWrite q f a n ws).mem = s.mem := by simp [State.afterWrite]

theorem memOk_putBytes {s : State} (h : s.memOk) (vf key b : Nat) (whole : Bool) (new : List Byte) (ws : List (Nat × Byte)) :
    (s.putBytes vf key b whole new ws).memOk := by
  cases whole
  · exact memOk_set h ws rfl
  · exact memOk_write h (b * 512) new rfl

/-- A write at a home keeps the form, whatever comes of it. -/
theorem memOk_homeWrite {s : State} (h : s.memOk) (q : HomeReq) (a : Nat) (ws : List (Nat × Byte)) : (s.homeWrite q a ws).2.memOk := by
  unfold State.homeWrite
  extract_lets b d st fund old new enc d0 g q8 short poor whole rich
  repeat' split
  · exact memOk_of_mem h (by simp)
  · exact memOk_of_mem h (by simp)
  · exact h
  · exact memOk_of_mem h (by simp [poor])
  · have hr : rich.memOk := memOk_of_mem h (by simp [rich])
    exact memOk_of_mem (memOk_putBytes hr q.vf q.key b whole new ws) (by simp)

end Sys2Proof.Machine
end

