-- ==== Sys2Proof/Tests/Slice0.lean ====
section
/-! SUPPORT. The author's own tests: ill-formed terms, words written out from the encoding tables of the spec, a state that
meets the hypotheses of each statement, and single steps on small states. Expected results come from the spec. -/

namespace Sys2Proof.Tests

set_option Elab.async false

open Sys2Proof.Machine

/-! ### Ill-formed terms: one for each check -/

theorem test_ill_lea : ¬(Instr.lea 20 21 22 5).WellFormed := by decide
theorem test_ill_fcvt : ¬(Instr.fcvt .s .s 20 21).WellFormed := by decide
theorem test_ill_cmul : ¬(Instr.cmul true 21 20 22).WellFormed := by decide
theorem test_ill_cma : ¬(Instr.cma false 20 20 23).WellFormed := by decide
theorem test_ill_cas2 : ¬(Instr.cas2 20 21 23 0).WellFormed := by decide
theorem test_ill_pcvt_same : ¬(Instr.pcvt .h4 .h4 false false 20 22 0).WellFormed := by decide
theorem test_ill_pcvt_sat : ¬(Instr.pcvt .h4 .bf16x4 true false 20 22 0).WellFormed := by decide
theorem test_ill_pcvt_scale : ¬(Instr.pcvt .h4 .bf16x4 false false 20 22 24).WellFormed := by decide
theorem test_ill_pcvt_wide : ¬(Instr.pcvt .h4 .e4x8 false false 21 22 0).WellFormed := by decide
theorem test_ill_gred : ¬(Instr.gred .exch 20 21).WellFormed := by decide
theorem test_ill_rds : ¬(Instr.rds 20 13 0).WellFormed := by decide
theorem test_ill_rds_k : ¬(Instr.rds 20 10 1).WellFormed := by decide
theorem test_ill_wrs : ¬(Instr.wrs 11 20).WellFormed := by decide
theorem test_ill_rdsy : ¬(Instr.rdsy 20 8).WellFormed := by decide
theorem test_ill_wrsy : ¬(Instr.wrsy 8 20).WellFormed := by decide

/-! ### Words, field by field from the encodings of the spec -/

/-- The bytes of words, least significant first (R32). -/
def bytesIn (ws : List (BitVec 32)) : List Byte := ws.flatMap fun w => bytesOf 4 w.toNat

/-- Words decode to an instruction, and nothing is left. -/
def reads (ws : List (BitVec 32)) (i : Instr) : Bool := match decode (bytesIn ws) with
  | .ok p => decide (p = (i, []))
  | .error _ => false

def refused (ws : List (BitVec 32)) : Bool := match decode (bytesIn ws) with
  | .ok _ => false
  | .error _ => true

/-- "Encodings" of spec/02 and "Worked encodings" of spec/05. -/
theorem test_words_integer :
    reads [0x0058a000] (.add 22 20 0) ∧ reads [0x0e50a963] (.lea 20 21 22 3) ∧ reads [0x2064cfff] (.addi 25 25 0x7ff) ∧
    reads [0x2850a803] (.shli 20 21 3) ∧ reads [0xe0500000, 0x00009033] (.limm 20 0x9033) ∧
    reads [0xe0400000, 0x00041000] (.limm 16 0x41000) ∧ reads [0] (.add 0 0 0) ∧ refused [0x2850a843] := by decide

theorem test_words_control :
    reads [0x8e000040] (.call 64) ∧ reads [0x9000a000] (.callr 20) ∧ reads [0x90000001] .ret ∧ reads [0x9000a002] (.jr 20) ∧
    reads [0x90000003] .recWait ∧ reads [0x90000024] (.win 2) ∧ reads [0x900007e4] (.win 0x7e) ∧
    reads [0x8217fff4] (.bnez 5 0x3fff4) ∧ refused [0x90000007] := by decide

/-- "Worked encodings" of spec/06. -/
theorem test_words_float :
    reads [0x4050a960] (.fadd .d 20 21 22) ∧ reads [0x4260c9a5] (.fma .s 24 25 26) ∧ reads [0x4850a801] (.fcvt .s .d 20 21) ∧
    reads [0x5450a800] (.pamax .bf16x4 20 21 0) ∧ reads [0xe450a962, 0] (.fdiv .d 20 21 22 2) ∧
    reads [0xe850b180, 0xd0] (.pcvt .e4x8 .bf16x4 true true 20 22 24) ∧ refused [0xe854b000, 0x0a] ∧ refused [0x4850a800] := by decide

/-- "Worked encodings" of spec/07, and its words that are refused. -/
theorem test_words_memory :
    reads [0x6650a823] (.ldD 20 21 2 3) ∧ reads [0x6a50aff1] (.ldHS 20 21 0x7f 1) ∧ reads [0x6e50a800] (.ldDExt 20 21 0 0) ∧
    reads [0x7650a810] (.stD 20 21 1) ∧ reads [0x78244001] (.lda 9 8 0 1) ∧ reads [0x7c50a812] (.ldc 20 21 1 2) ∧
    reads [0xea50a960, 0x10] (.atom .add true false 20 21 22 0) ∧ reads [0xea50a961, 0x2b] (.atom .famax false true 20 21 22 1) ∧
    reads [0xec50a961, 0x20] (.cas false true 20 21 22 1) ∧ reads [0xee50a960, 0] (.cas2 20 21 22 0) ∧
    reads [0xf000a800, 1] (.pref true 21) ∧ reads [0xf200a150, 0] (.seal 20 21) ∧ refused [0x7650a811] ∧
    refused [0xee54a960, 0] ∧ refused [0xea50a960, 0x0c] ∧ refused [0xee50a960, 0x10] := by decide

/-- "Worked encodings" of spec/08, and its words that are refused. -/
theorem test_words_matrix :
    reads [0xa050a960] (.mm 0 20 21 22) ∧ reads [0xa250a962] (.mms 2 20 21 22) ∧ reads [0xa450a960] (.mmc 20 21 22) ∧
    reads [0xa8000003] (.mmz 3) ∧ reads [0xaa50a963] (.acvt 20 21 22 3) ∧ reads [0xac00a961] (.aload 1 21 22) ∧
    reads [0xae500161] (.amax 20 22 1) ∧ reads [0xb0000003] (.tmark 3) ∧ reads [0xb2500000] (.fvote 20) ∧
    refused [0xa050a964] ∧ refused [0xb4000000] ∧ refused [0xa450a961] := by decide

/-- "Worked encodings" of spec/09, and its words that are refused. -/
theorem test_words_quay :
    reads [0xc040f000] (.qkick 16 30 0) ∧ reads [0xc2200000] (.qwaitk 8) ∧ reads [0xc42c48a0] (.qcopy 0 11 9 10) ∧
    reads [0xc42c48a3] (.qcopy 3 11 9 10) ∧ reads [0xd23000d0] (.qstamp 12 13) ∧ reads [0xd43068e0] (.qmoor 12 13 14) ∧
    reads [0xd8300001] (.qtlDone 12) ∧ reads [0xda000000] .qdrain ∧ refused [0xdc000000] ∧ refused [0xc62c48a1] ∧
    refused [0xd8300002] ∧ refused [0xc2204000] := by decide

/-- "Worked encodings" of spec/10, and its words that are refused. -/
theorem test_words_task :
    reads [0x9250a960] (.spawn .any 20 21 22) ∧ reads [0x9250a962] (.spawn .q 20 21 22) ∧ reads [0x9400b800] (.await 23) ∧
    reads [0x94000001] (.exit 0) ∧ reads [0x9400a001] (.exit 20) ∧ reads [0x9468d9c2] (.waitge 26 27 28) ∧
    reads [0x9600a150] (.signal 20 21) ∧ reads [0x9600a002] (.barl 20) ∧ reads [0x98400000] (.elect 16) ∧
    reads [0x9850a967] (.shflLead 20 21 22) ∧ reads [0x9a50a80b] (.gred .famax 20 21) ∧ refused [0x9250a966] ∧
    refused [0x94000003] ∧ refused [0x9a50a808] := by decide

theorem test_words_system :
    reads [0x9c5000b2] (.rds 20 11 2) ∧ reads [0x9e00a0c0] (.wrs 12 20) ∧ reads [0x9e500021] (.rdsy 20 2) ∧
    reads [0x9e000006] .eret ∧ refused [0x9c500031] := by decide

/-! ### Small states -/

/-- The thread that the tests look at: thread 0 of berth 0 of core 0, or quay thread 0 there. -/
def me (q : Bool) : LaneId := ⟨0, if q then quayBerth else 0, 0⟩

def alone (q : Bool) : Issue := { core := 0, quay := q, ctx := 0, pc := 0x1000, lanes := [me q] }

/-- One thread at 0x1000 with these registers has been picked. -/
def lone (q : Bool) (regs : SMap Word) : State :=
  { State.reset with issue := some (alone q), threads := [{ id := me q, ctx := 0, pc := 0x1000, regs := regs }] }

theorem lone_thread (q : Bool) (regs : SMap Word) : (lone q regs).thread (me q) = { id := me q, ctx := 0, pc := 0x1000, regs := regs } := by
  simp [lone, State.thread]

/-- Nothing holds up an issue whose only lane is calm. -/
theorem issued_one {s : State} {i : Issue} {l : LaneId} {e : Engine} {rs : List Reg} (hi : s.issue = some i) (hl : i.lanes = [l])
    (hc : (s.thread l).Calm i.pc) (he : engineOk e rs i.quay = true) : Issued s i e rs :=
  ⟨hi, by simp [hl], by simpa [hl] using hc, he⟩

theorem lone_issued {q : Bool} {regs : SMap Word} {e : Engine} {rs : List Reg} (h : engineOk e rs q = true) :
    Issued (lone q regs) (alone q) e rs :=
  issued_one rfl rfl (by rw [lone_thread]; exact ⟨rfl, rfl, rfl, Nat.le_refl 16, by simp⟩) h

/-- What a single step makes of the thread. -/
def after (i : Instr) (q : Bool) (regs : SMap Word) : Thread := match exec i (lone q regs) with
  | .next t => t.thread (me q)
  | _ => noThread (me q)

/-- The value that the instruction leaves in x20, from values in x21 and x22. -/
def gives (i : Instr) (a b : Word) : Word := (after i false [(21, a), (22, b)]).rd 20

/-- A privileged context runs one thread of a task on core 0, whose code lies at 0x1000 (the state of `withFetchWord`). -/
def world (w : Nat) : State := State.reset.withFetchWord 64 w

/-- A pair with its first part known. -/
theorem pair_eq {α σ : Type} {r : α × σ} {a : α} (h : r.1 = a) : r = (a, r.2) := by rw [← h]

/-- What a successful result holds. -/
def got {ε α : Type} [Inhabited α] : Except ε α → α
  | .ok a => a
  | .error _ => default

def fine {ε α : Type} : Except ε α → Bool
  | .ok _ => true
  | .error _ => false

theorem ok_eq {ε α σ : Type} [Inhabited α] {r : Except ε α × σ} (h : fine r.1 = true) : r = (.ok (got r.1), r.2) := by
  obtain ⟨_ | a, s⟩ := r
  · simp [fine] at h
  · rfl

def codeBytes : Code → List Byte
  | .ok b _ => b
  | _ => []

def codeState : Code → State
  | .ok _ s => s
  | .fault _ _ _ _ s => s
  | .later _ s => s

theorem code_eq {r : Code} (h : codeBytes r ≠ []) : r = .ok (codeBytes r) (codeState r) := by
  cases r <;> first | rfl | exact absurd rfl h

/-! ### Hypotheses that are met: spec/02 and spec/05 -/

theorem witness_decode_encode : (Instr.lea 127 0 64 4).WellFormed ∧ encode (.lea 127 0 64 4) ≠ [] := by decide
theorem witness_encode_decode : ∃ i, decode [0xff, 0xcf, 0x64, 0x20, 0x07] = .ok (i, [0x07]) := ⟨.addi 25 25 0x7ff, by decide⟩

theorem witness_step_runs : ∃ t, (world 0x2064cfff).issue = some (alone false) ∧ (alone false).real = true ∧
    (Instr.addi 25 25 0x7ff).WellFormed ∧ encode (.addi 25 25 0x7ff) ≠ [] ∧
    fetchCode (world 0x2064cfff) (alone false) = .ok (encodeBytes (.addi 25 25 0x7ff)) t := by
  have h : codeBytes (fetchCode (world 0x2064cfff) (alone false)) = encodeBytes (.addi 25 25 0x7ff) := by decide +kernel
  exact ⟨_, rfl, by decide, by decide, by decide, h ▸ code_eq (by rw [h]; decide +kernel)⟩

/-- A word, and the two words of a class 111 opcode. -/
theorem witness_fetch (w : Nat) (hw : w = 0 ∨ w = 0xe0400000) : ∃ p q t u,
    (world w).peek 0 0 0x1000 4 .fetch = (.bytes p, t) ∧ p.length = 4 ∧ t.peek 0 0 0x1004 4 .fetch = (.bytes q, u) ∧ q.length = 4 ∧
    isLong (opOf (BitVec.ofNat 32 (ofBytes p))) = decide (w ≠ 0) := by
  obtain rfl | rfl := hw
  · exact ⟨[0, 0, 0, 0], [0, 0, 0, 0], _, _, pair_eq (by decide +kernel), rfl, pair_eq (by decide +kernel), rfl, by decide⟩
  · exact ⟨[0, 0, 0x40, 0xe0], [0, 0, 0, 0], _, _, pair_eq (by decide +kernel), rfl, pair_eq (by decide +kernel), rfl, by decide⟩

theorem witness_illegal : ∃ t, (world 0x90000007).issue = some (alone false) ∧ (alone false).real = true ∧
    fetchCode (world 0x90000007) (alone false) = .ok [7, 0, 0, 0x90] t ∧ decode [7, 0, 0, 0x90] = .error .function := by
  have h : codeBytes (fetchCode (world 0x90000007) (alone false)) = [7, 0, 0, 0x90] := by decide +kernel
  exact ⟨_, rfl, by decide, h ▸ code_eq (by rw [h]; decide), by decide +kernel⟩

/-- The register operations, on a thread core and on a quay processor, with x0 and with the last registers as operands. -/
theorem witness_register_operations :
    Issued (lone false []) (alone false) .both [0, 127, 127] ∧ Issued (lone true []) (alone true) .both [0, 63, 63] ∧
    Issued (lone false []) (alone false) .both [127, 0] ∧ Issued (lone false []) (alone false) .both [127] ∧
    Issued (lone false []) (alone false) .both [] :=
  ⟨lone_issued (by decide), lone_issued (by decide), lone_issued (by decide), lone_issued (by decide), lone_issued (by decide)⟩

theorem witness_jumps :
    (∀ l ∈ (alone false).lanes, ((lone false [(2, 0x2000), (20, 0xfffffffffffffffc)]).thread l).rd 2 % 4 = 0) ∧
    ∀ l ∈ (alone false).lanes, ((lone false [(2, 0x2000), (20, 0xfffffffffffffffc)]).thread l).rd 20 % 4 = 0 := by decide

theorem witness_misaligned_jump : Issued (lone false [(20, 3)]) (alone false) .both [20] ∧ (alone false).lanes = me false :: [] ∧
    (∀ m ∈ (alone false).lanes, m.berth = (me false).berth ∧ ((lone false [(20, 3)]).thread m).rd 20 % 4 ≠ 0) ∧
    (∀ m ∈ (alone false).lanes, m.berth = (me false).berth ∧ ((lone false [(2, 6)]).thread m).rd 2 % 4 ≠ 0) ∧
    Issued (lone true [(20, 3), (2, 6)]) (alone true) .both [20] ∧ (alone true).lanes = [me true] ∧
    me true = ⟨(alone true).core, quayBerth, (me true).tid⟩ ∧ ((lone true [(20, 3), (2, 6)]).thread (me true)).rd 20 % 4 ≠ 0 ∧
    ((lone true [(20, 3), (2, 6)]).thread (me true)).rd 2 % 4 ≠ 0 :=
  ⟨lone_issued (by decide), by decide, by decide, by decide, lone_issued (by decide), by decide, by decide, by decide, by decide⟩

/-- A move to the last base, and one past it. -/
theorem witness_window_moves : Issued (lone false []) (alone false) .thread [] ∧
    (let nreg (t : Thread) : Nat := (((lone false []).group? t.id.core t.id.berth).map (·.nreg)).getD 128
     let new (n : BitVec 7) (t : Thread) : Int := t.wb + 16 * n.toInt
     (∀ l ∈ (alone false).lanes, 16 ≤ new 0 ((lone false []).thread l) ∧
       new 0 ((lone false []).thread l) ≤ nreg ((lone false []).thread l) - 112) ∧
     ∀ m ∈ (alone false).lanes, m.berth = (me false).berth ∧
       (new 1 ((lone false []).thread m) < 16 ∨ nreg ((lone false []).thread m) - 112 < new 1 ((lone false []).thread m))) :=
  ⟨lone_issued (by decide), by decide⟩

/-! ### Single steps: spec/05 -/

theorem test_add_wraps : gives (.add 20 21 22) (-1) 2 = 1 := by decide
theorem test_sub : gives (.sub 20 21 22) 3 5 = -2 := by decide
theorem test_logic : gives (.and 20 21 22) 12 10 = 8 ∧ gives (.or 20 21 22) 12 10 = 14 ∧ gives (.xor 20 21 22) 12 10 = 6 ∧
    gives (.andn 20 21 22) 12 10 = 4 ∧ gives (.orn 20 21 22) 0 (-2) = 1 := by decide
theorem test_min_max : gives (.min 20 21 22) (-1) 1 = -1 ∧ gives (.max 20 21 22) (-1) 1 = 1 ∧ gives (.minu 20 21 22) (-1) 1 = 1 ∧
    gives (.maxu 20 21 22) (-1) 1 = -1 := by decide
theorem test_shift_by_64 : gives (.shl 20 21 22) 3 65 = 6 ∧ gives (.shr 20 21 22) 3 64 = 3 ∧ gives (.sra 20 21 22) (-8) 1 = -4 ∧
    gives (.rot 20 21 22) 1 1 = 0x8000000000000000 := by decide
theorem test_mul_high : gives (.mul 20 21 22) (-1) (-1) = 1 ∧ gives (.mulh 20 21 22) (-1) (-1) = 0 ∧
    gives (.mulhu 20 21 22) (-1) (-1) = -2 := by decide
theorem test_div_corners : gives (.div 20 21 22) 0x8000000000000000 (-1) = 0x8000000000000000 ∧ gives (.div 20 21 22) 5 0 = -1 ∧
    gives (.divu 20 21 22) 5 0 = -1 ∧ gives (.rem 20 21 22) 0x8000000000000000 (-1) = 0 ∧ gives (.rem 20 21 22) 5 0 = 5 ∧
    gives (.rem 20 21 22) (-7) 2 = -1 ∧ gives (.remu 20 21 22) 7 0 = 7 := by decide
theorem test_bit_counts : gives (.clz 20 21) 0 0 = 64 ∧ gives (.ctz 20 21) 0 0 = 64 ∧ gives (.popc 20 21) (-1) 0 = 64 ∧
    gives (.brev 20 21) 1 0 = 0x8000000000000000 := by decide
theorem test_compare : gives (.cmpLt 20 21 22) (-1) 0 = 1 ∧ gives (.cmpLtu 20 21 22) (-1) 0 = 0 ∧ gives (.cmpEq 20 21 22) 1 1 = 1 ∧
    gives (.cmpNe 20 21 22) 1 1 = 0 ∧ gives (.cmpGe 20 21 22) 0 (-1) = 1 ∧ gives (.cmpGeu 20 21 22) 0 (-1) = 0 := by decide
theorem test_sel_lea : gives (.sel 20 21 22) 1 2 = 2 ∧ gives (.lea 20 21 22 3) 1 2 = 17 := by decide
theorem test_bit_field : gives (.bfx 20 21 22) 0xabcd (0x204 : Word) = 0xbc ∧ gives (.bfxS 20 21 22) 0xabcd (0x204 : Word) = -0x44 ∧
    gives (.bfi 20 21 22) 0xfff (0x204 : Word) = 0xff0 := by decide
theorem test_immediates : gives (.addi 20 21 0x7ff) 0 0 = -1 ∧ gives (.andi 20 21 0x7fe) 3 0 = 2 ∧ gives (.ori 20 21 0x400) 0 0 = -0x400 ∧
    gives (.xori 20 21 0x7ff) 0 0 = -1 ∧ gives (.srai 20 21 63) (-1) 0 = -1 ∧ gives (.shri 20 21 63) (-1) 0 = 1 ∧
    gives (.shli 20 21 63) 3 0 = 0x8000000000000000 := by decide
theorem test_compare_immediate : gives (.cmpiLt 20 21 0x7ff) (-2) 0 = 1 ∧ gives (.cmpiLtu 20 21 0x7ff) (-1) 0 = 0 ∧
    gives (.cmpiEq 20 21 0x7ff) (-1) 0 = 1 ∧ gives (.cmpiNe 20 21 0) 0 0 = 0 ∧ gives (.cmpiGe 20 21 0) 0 0 = 1 ∧
    gives (.cmpiGeu 20 21 0x7ff) (-1) 0 = 1 := by decide
theorem test_long_immediates : gives (.limm 20 0x80000000) 0 0 = 0xffffffff80000000 ∧
    (after (.lhi 20 7) false [(20, 5)]).rd 20 = 0x700000005 := by decide
theorem test_branches : (after (.beqz 20 0x3ffff) false []).pc = 0xffc ∧ (after (.bnez 20 8) false []).pc = 0x1004 ∧
    (after (.bltz 20 8) false [(20, -1)]).pc = 0x1020 ∧ (after (.bgez 20 8) false []).pc = 0x1020 ∧
    (after (.blez 20 8) false []).pc = 0x1020 ∧ (after (.bgtz 20 8) false []).pc = 0x1004 := by decide
theorem test_calls : (after (.call 64) false []).pc = 0x1100 ∧ (after (.call 64) false []).rd 2 = 0x1004 ∧
    (after (.callr 2) false [(2, 0x3000)]).pc = 0x3000 ∧ (after (.callr 2) false [(2, 0x3000)]).rd 2 = 0x1004 ∧
    (after .ret false [(2, 0x3000)]).pc = 0x3000 ∧ (after (.jr 20) true [(36, 0)]).pc = 0 ∧ (after (.jmp 0x1ffffff) false []).pc = 0xffc := by decide
theorem test_zero_register : (after (.addi 0 21 1) false []).rd 0 = 0 ∧ (after (.addi 0 21 1) false []).regs = [] := by decide

/-! ### Hypotheses that are met: spec/03 and spec/06 -/

theorem witness_patterns : fp16 ∈ [fp64, fp32, fp16, bf16, e4m3, e5m2, a56, a112] ∧ 0x7bff < 2 ^ fp16.bits ∧
    (decodeF fp16 0x7bff).finite = true := by decide +kernel

theorem witness_rounding : a112 ∈ [fp64, fp32, fp16, bf16, e4m3, e5m2, a56, a112] ∧
    (roundFmt (.fin true 5 (-7)) a112 rdn false).2 &&& flagOf = 0 ∧
    (roundFmt (.fin false (2 ^ 53 + 1) 0) fp64 rne false).2 &&& flagOf = 0 := by decide +kernel

theorem witness_exact : (Ext.fin true 3 (-2)).finite = true ∧ (∀ x ∈ [Ext.fin true 3 (-2), .fin false 0 5], x.finite = true) := by
  decide

theorem witness_quotient : bf16 ∈ [fp64, fp32, fp16, bf16] ∧ 0x3f80 < 2 ^ bf16.bits ∧ 0x4040 < 2 ^ bf16.bits ∧
    (decodeF bf16 0x3f80).finite = true ∧ (decodeF bf16 0x4040).finite = true ∧ (decodeF bf16 0x4040).rat ≠ 0 ∧
    (roundFmt ((decodeF bf16 0x3f80).div (decodeF bf16 0x4040)).1 bf16 rne false).2 &&& flagOf = 0 ∧
    0 ≤ (decodeF bf16 0x3f80).rat := by
  refine ⟨by decide, by decide, by decide, by decide +kernel, by decide +kernel, ?_, by decide +kernel, ?_⟩
  · rw [show decodeF bf16 0x4040 = .fin false 192 (-6) by decide +kernel]; norm_num [Ext.rat]
  · rw [show decodeF bf16 0x3f80 = .fin false 128 (-7) by decide +kernel]; norm_num [Ext.rat]

theorem witness_thread_operations : Issued (lone false []) (alone false) .thread [0, 127, 126] ∧
    Issued (lone false []) (alone false) .thread [127, 0] ∧ (Instr.cmul true 126 0 124).WellFormed ∧
    Issued (lone false []) (alone false) .thread [126, 0, 124] ∧ (Instr.pcvt .e4x8 .bf16x4 true true 20 22 24).WellFormed ∧
    PTy.fmt .i8x8 = none ∧ PTy.fmt .h4 ≠ none :=
  ⟨lone_issued (by decide), lone_issued (by decide), by decide, lone_issued (by decide), by decide, by decide, by decide⟩

/-- A thread whose window closes with the next instruction. -/
def closing (a : Arrival) : State :=
  { lone false [] with
    threads := [{ id := me false, ctx := 0, pc := 0x1000,
                  windows := [{ phys := 20, count := 1, arrival := a, closing := { flags := 1 } }] }]
    groups := [{ core := 0, berth := 0, ctx := 0, frame := 0x10000, width := 8, nreg := 128 }] }

/-- A result, none yet, and a data error. -/
theorem witness_window_close (a : Arrival) : (closing a).issue = some (alone false) ∧ (alone false).lanes = [me false] ∧
    (alone false).quay = false ∧ (me false).berth ≠ quayBerth ∧ ((closing a).thread (me false)).pc = 0x1000 ∧
    ((closing a).thread (me false)).wait = .ready ∧ ((closing a).thread (me false)).reissue = none ∧
    (∃ w, ((closing a).thread (me false)).windows = [w] ∧ w.count = 1 ∧ w.closing.ext = false ∧ w.closing.fabric = false ∧
      w.arrival = a) ∧ ∃ gr, (closing a).group? 0 0 = some gr :=
  ⟨rfl, rfl, rfl, by decide, rfl, rfl, rfl, ⟨_, rfl, rfl, rfl, rfl, rfl⟩, ⟨_, rfl⟩⟩

/-! ### Single steps: spec/06 -/

theorem test_fadd : gives (.fadd .d 20 21 22) 0x3ff0000000000000 0x3ff0000000000000 = 0x4000000000000000 ∧
    gives (.fsub .s 20 21 22) 0x3f800000 0x3f800000 = 0 ∧ gives (.fmul .h 20 21 22) 0x4000 0x4000 = 0x4400 := by decide +kernel
theorem test_fma : (after (.fma .s 20 21 22) false [(20, 0x3f800000), (21, 0x40000000), (22, 0x40000000)]).rd 20 = 0x40a00000 ∧
    (after (.fms .s 20 21 22) false [(20, 0x3f800000), (21, 0x40000000), (22, 0x40000000)]).rd 20 = 0x40400000 ∧
    (after (.fnma .s 20 21 22) false [(20, 0x3f800000), (21, 0x40000000), (22, 0x40000000)]).rd 20 = 0xc0400000 := by decide +kernel
theorem test_fmin_zero : gives (.fmin .s 20 21 22) 0 0x80000000 = 0x80000000 ∧ gives (.fmax .s 20 21 22) 0x80000000 0 = 0 ∧
    gives (.fmin .s 20 21 22) 0x7fc00000 0x3f800000 = 0x3f800000 := by decide +kernel
theorem test_sign_and_class : gives (.fabs .s 20 21) 0xbf800000 0 = 0x3f800000 ∧ gives (.fneg .s 20 21) 0 0 = 0x80000000 := by decide +kernel
theorem test_fcmp_nan : gives (.fcmpEq .s 20 21 22) 0x7fc00000 0x7fc00000 = 0 ∧ gives (.fcmpUn .s 20 21 22) 0x7fc00000 0 = 1 ∧
    (after (.fcmpLt .s 20 21 22) false [(21, 0x7fc00000)]).flags = flagNv ∧ gives (.fcmpLe .s 20 21 22) 0 0x80000000 = 1 ∧
    (after (.fcmpEq .s 20 21 22) false [(21, 0x7fc00000)]).flags = 0 := by decide +kernel
theorem test_convert : gives (.fcvt .s .d 20 21) 0x3ff8000000000000 0 = 0x3fc00000 ∧ gives (.icvtSf .d 20 21) (-1) 0 = 0xbff0000000000000 ∧
    gives (.icvtUf .s 20 21) 3 0 = 0x40400000 ∧ gives (.icvtFs .s 20 21) 0xc0400000 0 = -3 ∧ gives (.icvtFu .s 20 21) 0xc0400000 0 = -1 ∧
    gives (.frnd .s 20 21) 0x40200000 0 = 0x40000000 := by decide +kernel
theorem test_fdiv_zero : (after (.fdiv .s 20 21 22 0) false [(21, 0x3f800000)]).rd 20 = 0x7f800000 ∧
    (after (.fdiv .s 20 21 22 0) false [(21, 0x3f800000)]).flags = flagDz ∧
    (after (.fsqrt .s 20 21 0) false [(21, 0x40800000)]).rd 20 = 0x40000000 := by decide +kernel
theorem test_window_opens : ((after (.fdiv .s 20 21 22 2) false [(21, 0x3f800000), (22, 0x3f800000)]).windows.map (·.count)) = [2] ∧
    (after (.fdiv .s 20 21 22 2) false [(21, 0x3f800000), (22, 0x3f800000)]).rd 20 = 0 := by decide +kernel
/-- (1 + 2i)(3 + 4i) = -5 + 10i. -/
theorem test_cmul : (after (.cmul true 20 22 24) false [(22, 0x3f800000), (23, 0x40000000), (24, 0x40400000), (25, 0x40800000)]).rd 20 = 0xc0a00000 ∧
    (after (.cmul true 20 22 24) false [(22, 0x3f800000), (23, 0x40000000), (24, 0x40400000), (25, 0x40800000)]).rd 21 = 0x41200000 := by decide +kernel
theorem test_packed : gives (.padd .i8x8 20 21 22) 0x7f 0x01 = 0x80 ∧ gives (.psub .i8x8 20 21 22) 0 1 = 0xff ∧
    gives (.padd .bf16x4 20 21 22) 0x3f80 0x3f80 = 0x4000 ∧ gives (.pmul .h4 20 21 22) 0x4000 0x4000 = 0x4400 ∧
    gives (.pmax .i8x8 20 21 22) 0xff 0x01 = 0x01 ∧ gives (.pmin .i8x8 20 21 22) 0xff 0x01 = 0xff := by decide +kernel
theorem test_packed_sums : (after (.pdot .i8x8 20 21 22) false [(20, 1), (21, 0xff02), (22, 0x0203)]).rd 20 = 5 ∧
    gives (.pamax .bf16x4 20 21 22) 0xc000 0x3f80 = 0x4000000000000000 ∧ gives (.punpkLo .bf16x4 20 21) 0x3f80 0 = 0x3f800000 ∧
    gives (.punpkHi .bf16x4 20 21) 0x3f8000000000 0 = 0x3f800000 := by decide +kernel

/-! ### Hypotheses that are met: waiting, traps and returns (spec/05, spec/10, spec/11) -/

/-- The only lane of the issue of a small state is calm. -/
theorem calm_of {t : Thread} {pc : Word} (h : (decide (t.pc = pc) && decide (t.wait = .ready) && t.reissue.isNone &&
    decide (16 ≤ t.wb) && t.windows.isEmpty) = true) : t.Calm pc := by
  simp only [Bool.and_eq_true, decide_eq_true_eq, List.isEmpty_iff, Option.isNone_iff_eq_none] at h
  obtain ⟨⟨⟨⟨h1, h2⟩, h3⟩, h4⟩, h5⟩ := h
  exact ⟨h1, h2, h3, h4, by simp [h5]⟩

theorem unique_of {s : State} (h : (decide (s.threads.map (·.id)).Nodup && decide (s.tasks.map fun t => (t.ctx, t.frame)).Nodup &&
    decide (s.groups.map fun g => (g.core, g.berth)).Nodup) = true) : s.Unique := by
  simp only [Bool.and_eq_true, decide_eq_true_eq] at h
  exact ⟨h.1.1, h.1.2, h.2⟩

/-- Nobody waits at `barl`. -/
theorem no_barl {s : State} (h : (s.threads.all fun t => match t.wait with | .atBarl _ => false | _ => true) = true) (b : LaneId) (w : Word) :
    (s.thread b).wait ≠ .atBarl w := by
  intro hb
  unfold State.thread at hb
  cases hf : s.threads.find? fun t => decide (t.id = b) with
  | none => simp [hf, noThread] at hb
  | some t =>
    have := List.all_eq_true.mp h t (List.mem_of_find?_eq_some hf)
    simp [hf] at hb
    simp [hb] at this

/-- A thread of a group of context 0. -/
def thr (berth tid : Nat) (w : Wait) (pc : Word) (regs : SMap Word := []) : Thread :=
  { id := ⟨0, berth, tid⟩, ctx := 0, pc := pc, wait := w, regs := regs }

/-- The world with other threads. -/
def worldWith (ts : List Thread) : State := { world 0 with threads := ts }

/-- Eight bytes of device memory in a block of VF 0. -/
def mem8 (s : State) (a v : Nat) : State :=
  { s with descs := SMap.set {} s.descs (a / 512) { owned := true, vf := 0, count := 8, codec := 3 }
           mem := writeMap 0 s.mem a (toBytes v 8) }

theorem world_issued {w : Nat} {e : Engine} {rs : List Reg} (hq : quayOnly w = false) (he : engineOk e rs false = true) :
    Issued (world w) (alone false) e rs :=
  issued_one (l := me false) (by simp [world, State.withFetchWord, hq, alone, me]) rfl
    (by
      have : (world w).thread (me false) = { id := me false, ctx := 0, pc := 0x1000 } := by
        simp [world, State.withFetchWord, hq, State.thread, State.putThread, State.putTask, State.putGroup, State.putCtx, State.modCore,
          State.setCore, State.setDesc, State.reset, upsert, me]
      rw [this]; exact ⟨rfl, rfl, rfl, Nat.le_refl 16, by simp⟩) he

theorem witness_waiting : Issued (world 0) (alone false) .thread [] ∧ NoWindows (world 0) (alone false) ∧
    ((world 0).picked.publishGroups 0 0 [me false]).unacked 0 0 = false ∧
    (∀ l ∈ (alone false).lanes, (world 0).isReady ((world 0).thread l) = true) ∧ (alone false).lanes ≠ [] := by
  refine ⟨world_issued (by decide) (by decide), ?_, by decide +kernel, by decide +kernel, by decide⟩
  unfold NoWindows; decide +kernel

/-- All at `rec`, at two addresses, and all at `bar`. -/
theorem witness_releases :
    (let s := worldWith [thr 0 0 .atRec 0x1000, thr 0 1 .atRec 0x1008, thr 0 2 .exited 0]
     s.Unique ∧ s.releasable 0 0 = true ∧ s.counted 0 0 ≠ [] ∧ ∀ u ∈ s.counted 0 0, u.wait = .atRec) ∧
    (let s := worldWith [thr 0 0 .atBar 0x1000, thr 0 1 .atBar 0x1008]
     s.Unique ∧ s.releasable 0 0 = true ∧ s.counted 0 0 ≠ [] ∧ ∀ u ∈ s.counted 0 0, u.wait = .atBar) :=
  ⟨⟨unique_of (by decide +kernel), by decide +kernel, by decide +kernel, by decide +kernel⟩,
    ⟨unique_of (by decide +kernel), by decide +kernel, by decide +kernel, by decide +kernel⟩⟩

theorem witness_breakpoints : Issued (world 0) (alone false) .thread [] ∧ NoWindows (world 0) (alone false) ∧
    (∀ m ∈ (alone false).lanes, m.berth = (me false).berth) ∧ (lone true []).issue = some (alone true) ∧
    (alone true).lanes = [me true] ∧ me true = ⟨(alone true).core, quayBerth, (me true).tid⟩ :=
  ⟨witness_waiting.1, witness_waiting.2.1, by decide, rfl, rfl, rfl⟩

/-- The context has a trap handler, whose descriptor asks for width 8, and room for just its frame. -/
def trapWorld (tvec : Word) : State :=
  mem8 { world 0 with ctxs := [{ id := 0, vf := 0, hbase := 0x10000, hsize := 0x4300, tvec := tvec }] } 0x2000 0x800

def reserved : Except FrameFail State → Bool
  | .ok _ => true
  | .error _ => false

theorem reserved_ok {r : Except FrameFail State} (h : reserved r = true) : ∃ s, r = .ok s := by
  cases r <;> simp_all [reserved]

theorem witness_trap_entry : ∃ p q r g c k, (trapWorld 0x2008).group? 0 0 = some g ∧ (trapWorld 0x2008).ctx? g.ctx = some c ∧
    (trapWorld 0x2008).task? g.ctx g.frame = some k ∧ c.tvec ≠ 0 ∧ k.trap = none ∧ (trapWorld 0x2008).Unique ∧
    p = (trapWorld 0x2008).publish 0 g.ctx g.frame ∧ p.unacked 0 g.ctx = false ∧
    p.peek 0 g.ctx (c.tvec - 8).toNat 8 .load = (.bytes [0, 8, 0, 0, 0, 0, 0, 0], q) ∧
    taskDesc (ofBytes [0, 8, 0, 0, 0, 0, 0, 0]) = some ⟨8, 128, false, 0x800⟩ ∧
    q.heapHolds c 1 (frameSize 8 128 c.ss + 64) = true ∧ (q.allocFrames c 1 (frameSize 8 128 c.ss + 64)).1 = [0x12100] ∧
    (q.allocFrames c 1 (frameSize 8 128 c.ss + 64)).2.reserveFrame 0 g.ctx 0x12100 8 128 (some (0x12100 + frameSize 8 128 c.ss)) = .ok r := by
  obtain ⟨r, hr⟩ := reserved_ok (r := ((((trapWorld 0x2008).publish 0 0 0x10000).peek 0 0 0x2000 8 .load).2.allocFrames
    { id := 0, vf := 0, hbase := 0x10000, hsize := 0x4300, tvec := 0x2008 } 1 (frameSize 8 128 0 + 64)).2.reserveFrame 0 0 0x12100 8 128
      (some (0x12100 + frameSize 8 128 0))) (by decide +kernel)
  refine ⟨_, _, r, { core := 0, berth := 0, ctx := 0, frame := 0x10000, width := 8, nreg := 128 },
    { id := 0, vf := 0, hbase := 0x10000, hsize := 0x4300, tvec := 0x2008 },
    { ctx := 0, frame := 0x10000, width := 8, nreg := 128, phase := .running 0 0, granules := 33 }, by decide +kernel, by decide +kernel,
    by decide +kernel, by decide, rfl, unique_of (by decide +kernel), rfl, by decide +kernel,
    pair_eq (by decide +kernel), by decide +kernel, by decide +kernel, by decide +kernel, hr⟩

theorem witness_trap_stops : ∃ g c k, (trapWorld 0).group? 0 0 = some g ∧ (trapWorld 0).ctx? g.ctx = some c ∧
    (trapWorld 0).task? g.ctx g.frame = some k ∧ (c.tvec = 0 ∨ k.trap.isSome = true) ∧ c.stopped = none ∧
    ((trapWorld 0).publish 0 g.ctx g.frame).unacked 0 g.ctx = false :=
  ⟨{ core := 0, berth := 0, ctx := 0, frame := 0x10000, width := 8, nreg := 128 },
    { id := 0, vf := 0, hbase := 0x10000, hsize := 0x4300 },
    { ctx := 0, frame := 0x10000, width := 8, nreg := 128, phase := .running 0 0, granules := 33 }, by decide +kernel, by decide +kernel,
    by decide +kernel, .inl rfl, rfl, by decide +kernel⟩

/-- Berth 0 holds a group of which thread 0 is trapped; the trap task runs in berth 1. -/
def trapInfo : TrapInfo := { cause := 1, fva := 0, ifa := 0x1000, epc := 0x1004, trec := 0x16200, parked := 1, core := 0, berth := 0, frame := 0x10000 }

def trapTask : Task :=
  { ctx := 0, frame := 0x14000, width := 8, nreg := 128, phase := .running 0 1, trap := some trapInfo, granules := 35 }

def handler : LaneId := ⟨0, 1, 0⟩

def handling (regs : SMap Word) : State :=
  { worldWith [thr 0 0 (.trapped 0x14000) 0x1000 [(20, 7)], thr 0 1 .ready 0x1000, thr 1 0 .ready 0x1000 regs, thr 1 1 .ready 0x1000] with
    groups := [{ core := 0, berth := 0, ctx := 0, frame := 0x10000, width := 8, nreg := 128 },
               { core := 0, berth := 1, ctx := 0, frame := 0x14000, width := 8, nreg := 128 }]
    tasks := [{ ctx := 0, frame := 0x10000, width := 8, nreg := 128, phase := .running 0 0, granules := 33 }, trapTask]
    issue := some { alone false with lanes := [handler] } }

theorem handling_issued {regs : SMap Word} {rs : List Reg} (h : engineOk .thread rs false = true)
    (hc : ((handling regs).thread handler).Calm 0x1000) : Issued (handling regs) { alone false with lanes := [handler] } .thread rs :=
  issued_one (l := handler) rfl rfl hc h

/-- A mask that names the parked thread, for `resume`, `eret` and `kill`. -/
theorem witness_trap_returns : (handling [(20, 1)]).Unique ∧ Issued (handling [(20, 1)]) { alone false with lanes := [handler] } .thread [20] ∧
    (handling [(20, 1)]).laneTask? handler = some trapTask ∧ trapTask.trap = some trapInfo ∧
    ((handling [(20, 1)]).picked.publishGroups 0 0 [handler]).unacked 0 0 = false ∧
    (⟨0, 0, 0⟩ ∈ (handling [(20, 1)]).parkedBy 0 trapInfo 0x14000) ∧ handler ∉ (handling [(20, 1)]).parkedBy 0 trapInfo 0x14000 ∧
    (∀ b w, ((handling [(20, 1)]).thread b).wait ≠ .atBarl w) ∧
    ((⟨0, 1, 1⟩ : LaneId) ≠ handler ∧ ((handling [(20, 1)]).thread ⟨0, 1, 1⟩).wait ≠ .exited ∧
      (handling [(20, 1)]).thread ⟨0, 1, 1⟩ ∈ (handling [(20, 1)]).threads ∧ (⟨0, 1, 1⟩ : LaneId) ∉ (handling [(20, 1)]).parkedBy 0 trapInfo 0x14000) ∧
    (((handling [(20, 1)]).thread ⟨0, 0, 1⟩).wait = .ready ∧ (handling [(20, 1)]).thread ⟨0, 0, 1⟩ ∈ (handling [(20, 1)]).threads ∧
      handler.berth ≠ trapInfo.berth) :=
  ⟨unique_of (by decide +kernel), handling_issued (by decide) (calm_of (by decide +kernel)), by decide +kernel, rfl, by decide +kernel,
    by decide +kernel, by decide +kernel, no_barl (by decide +kernel), by decide +kernel, by decide +kernel⟩

theorem witness_restart : (thr 0 0 .ready 0).reissue = none ∧ ({ thr 0 0 .ready 0x40 with reissue := some { back := 0x48 } }).reissue ≠ none ∧
    (0x40 : Word) = (thr 0 0 .ready 0x40).pc := by decide

/-- For the special and system registers: of the group of a privileged context, of a trap task, of a quay thread. -/
theorem witness_registers : Issued (world 0) (alone false) .both [127] ∧ Issued (lone true []) (alone true) .both [63] ∧
    (∀ l ∈ (alone false).lanes, l.berth = quayBerth ∨ (world 0).matrixBusy l = false) ∧
    (∀ l ∈ (alone false).lanes, ((world 0).ctx? ((world 0).thread l).ctx).map (·.priv) = some true) ∧
    (∀ l ∈ ({ alone false with lanes := [handler] } : Issue).lanes, ((handling []).taskOf? l.core l.berth).bind (·.trap) = some trapInfo) :=
  ⟨world_issued (by decide) (by decide), lone_issued (by decide), by decide +kernel, by decide +kernel, by decide +kernel⟩

/-- The split of the core is 2. -/
def withRegs (s : State) (regs : SMap Word) : State := { s with threads := [{ id := me false, ctx := 0, pc := 0x1000, regs := regs }] }

theorem withRegs_issued {s : State} {regs : SMap Word} {e : Engine} {rs : List Reg} (hs : s.issue = some (alone false))
    (he : engineOk e rs false = true) : Issued (withRegs s regs) (alone false) e rs :=
  issued_one (l := me false) hs rfl (by
    have : (withRegs s regs).thread (me false) = { id := me false, ctx := 0, pc := 0x1000, regs := regs } := by
      simp [withRegs, State.thread]
    rw [this]; exact ⟨rfl, rfl, rfl, Nat.le_refl 16, by simp⟩) he

theorem witness_write_tmode : Issued (withRegs (world 0) [(20, 0x27f)]) (alone false) .thread [20] ∧
    ∀ l ∈ (alone false).lanes, (withRegs (world 0) [(20, 0x27f)]).matrixBusy l = false ∧
      bits (((withRegs (world 0) [(20, 0x27f)]).thread l).rd 20).toNat 11 8 = ((withRegs (world 0) [(20, 0x27f)]).coreAt l.core).split :=
  ⟨withRegs_issued rfl (by decide), by decide +kernel⟩

/-- An aligned and a misaligned `sy.epc`, in a privileged context. -/
theorem witness_write_system (v : Word) (hv : v = 0x2000 ∨ v = 0x2002) : ∃ c k, Issued (withRegs (world 0) [(20, v)]) (alone false) .thread [20] ∧
    (withRegs (world 0) [(20, v)]).ctx? ((withRegs (world 0) [(20, v)]).thread (me false)).ctx = some c ∧
    (withRegs (world 0) [(20, v)]).taskOf? 0 0 = some k ∧ c.priv = true ∧
    (((withRegs (world 0) [(20, v)]).thread (me false)).rd 20 % 4 = 0 ↔ v = 0x2000) := by
  refine ⟨{ id := 0, vf := 0, priv := true, hbase := 0x10000, hsize := 0x10000 },
    { ctx := 0, frame := 0x10000, width := 8, nreg := 128, phase := .running 0 0, granules := 33 }, withRegs_issued rfl (by decide), ?_, ?_, rfl, ?_⟩
  all_goals obtain rfl | rfl := hv <;> decide +kernel

/-- Not privileged, and no trap task. -/
theorem witness_privilege : Issued (trapWorld 0) (alone false) .thread [] ∧
    (((trapWorld 0).ctx? ((trapWorld 0).thread (me false)).ctx).map (·.priv)).getD false = false ∧
    (((trapWorld 0).taskOf? 0 0).bind (·.trap)) = none ∧ (7 : Reg).toNat ≤ 7 ∧ NoWindows (trapWorld 0) (alone false) :=
  ⟨issued_one (l := me false) rfl rfl (calm_of (by decide +kernel)) (by decide), by decide +kernel, by decide +kernel, by decide,
    by unfold NoWindows; decide +kernel⟩

/-- The four kinds of an invalidation. -/
theorem witness_tlbi (k : Word) (hk : k ∈ [(0 : Word), 1, 2, 3]) : Issued (withRegs (world 0) [(20, k)]) (alone false) .thread [20, 21, 22] ∧
    (((withRegs (world 0) [(20, k)]).ctx? ((withRegs (world 0) [(20, k)]).thread (me false)).ctx).map (·.priv)).getD false = true ∧
    (((withRegs (world 0) [(20, k)]).thread (me false)).rd 20).toNat ≤ 3 ∧
    ((withRegs (world 0) [(20, k)]).picked.shootNow (((withRegs (world 0) [(20, k)]).thread (me false)).rd 20).toNat
      (((withRegs (world 0) [(20, k)]).thread (me false)).rd 21).toNat (((withRegs (world 0) [(20, k)]).thread (me false)).rd 22).toNat).shootCopies
      (((withRegs (world 0) [(20, k)]).thread (me false)).rd 20).toNat (((withRegs (world 0) [(20, k)]).thread (me false)).rd 22).toNat = [] := by
  refine ⟨withRegs_issued rfl (by decide), ?_, ?_, ?_⟩
  all_goals
    simp only [List.mem_cons, List.not_mem_nil, or_false] at hk
    obtain rfl | rfl | rfl | rfl := hk <;> decide +kernel

/-- A second context of the partition, and an identifier of none. -/
def twoContexts : State := { world 0 with ctxs := [{ id := 0, vf := 0, priv := true, hbase := 0x10000, hsize := 0x10000 }, { id := 9, vf := 0 }] }

theorem witness_halt (v : Word) : Issued (withRegs twoContexts [(20, v), (21, 1)]) (alone false) .thread [20, 22] ∧
    (withRegs twoContexts [(20, v), (21, 1)]).ctx? 0 = some { id := 0, vf := 0, priv := true, hbase := 0x10000, hsize := 0x10000 } ∧
    twoContexts.ctx? 9 = some { id := 9, vf := 0 } ∧ twoContexts.partOf 9 = twoContexts.partOf 0 ∧ twoContexts.ctx? 8 = none :=
  ⟨withRegs_issued rfl (by decide), rfl, by decide +kernel, by decide +kernel, by decide +kernel⟩

/-! ### Single steps: waiting, traps and returns -/

def nextOf (i : Instr) (s : State) : State := match exec i s with
  | .next t => t
  | _ => s

theorem test_rec_bar : ((nextOf .recWait (world 0)).thread (me false)).wait = .atRec ∧ ((nextOf .bar (world 0)).thread (me false)).wait = .atBar ∧
    ((nextOf .yield (world 0)).coreAt 0).ring = [{ ctx := 0, pc := 0x1004, lanes := [me false], isOpen := false }] := by decide +kernel

/-- Of two threads at `rec` the lower one goes on. -/
theorem test_rec_release :
    let t := nextOf (.recRelease 0 0) (worldWith [thr 0 0 .atRec 0x1008, thr 0 1 .atRec 0x1000, thr 0 2 .exited 0])
    (t.thread ⟨0, 0, 0⟩).wait = .atRec ∧ (t.thread ⟨0, 0, 1⟩).wait = .ready ∧ (t.thread ⟨0, 0, 1⟩).pc = 0x1004 := by decide +kernel

theorem test_bar_release :
    let t := nextOf (.barRelease 0 0) (worldWith [thr 0 0 .atBar 0x1000, thr 0 1 .atBar 0x1008])
    (t.thread ⟨0, 0, 0⟩).pc = 0x1004 ∧ (t.thread ⟨0, 0, 1⟩).pc = 0x100c ∧ (t.thread ⟨0, 0, 1⟩).wait = .ready := by decide +kernel

/-- `brk` queues a trap task behind the instruction, with the code as the fault address. -/
theorem test_brk :
    let t := nextOf (.brk 5) (trapWorld 0x2008)
    (t.thread (me false)).wait = .trapped 0x12100 ∧ t.waiting = [(0, 0x12100)] ∧
    (t.task? 0 0x12100).map (fun u => (u.entry, u.nkid, u.arg, u.phase)) = some (0x2008, 1, 0x14200, .queued) ∧
    ((t.task? 0 0x12100).bind (·.trap)).map (fun x => (x.cause, x.fva, x.epc, x.parked)) = some (9, 5, 0x1004, 1) := by decide +kernel

/-- Without a handler the context stops. -/
theorem test_trap_without_handler :
    let t := nextOf (.brk 5) (trapWorld 0)
    (t.ctx? 0).bind (·.stopped) = some { cause := 9, value := 5 } := by decide +kernel

theorem test_resume : let t := nextOf (.resume 20) (handling [(20, 1)])
    (t.thread ⟨0, 0, 0⟩).wait = .ready ∧ (t.thread ⟨0, 0, 0⟩).pc = 0x1004 ∧ (t.thread ⟨0, 0, 0⟩).rd 20 = 7 ∧
    (t.thread handler).pc = 0x1004 := by decide +kernel

theorem test_kill : let t := nextOf (.kill 20) (handling [(20, 1)])
    (t.thread ⟨0, 0, 0⟩).wait = .exited ∧ (t.thread ⟨0, 0, 1⟩).wait = .ready := by decide +kernel

theorem test_eret : let t := nextOf .eret (handling [])
    (t.thread ⟨0, 0, 0⟩).wait = .ready ∧ (t.thread handler).wait = .exited ∧ (t.thread ⟨0, 1, 1⟩).wait = .ready := by decide +kernel

theorem test_rds : (after (.rds 20 0 0) true []).rd 20 = 0 ∧ (after (.rds 20 1 0) true []).rd 20 = 4 ∧
    ((nextOf (.rds 20 1 0) (world 0)).thread (me false)).rd 20 = 8 ∧ ((nextOf (.rds 20 12 0) (world 0)).thread (me false)).rd 20 = 0x200 := by
  decide +kernel

theorem test_wrs : let t := (nextOf (.wrs 12 20) (withRegs (world 0) [(20, 0x27f)])).thread (me false)
    t.flags = 0x1f ∧ t.rm = 3 ∧ t.pc = 0x1004 := by decide +kernel

/-- `sy.tvec` and back; `sy.cause` in the trap task; `sy.info` of a task without privilege. -/
theorem test_system_registers : (nextOf (.wrsy 0 20) (withRegs (world 0) [(20, 0x2008)])).ctxs.map (·.tvec) = [0x2008] ∧
    ((nextOf (.rdsy 20 2) (handling [])).thread handler).rd 20 = 1 ∧ ((nextOf (.rdsy 20 1) (handling [])).thread handler).rd 20 = 0x1004 ∧
    ((nextOf (.rdsy 20 6) (trapWorld 0)).thread (me false)).rd 20 = 0 ∧ ((nextOf (.rdsy 20 6) (world 0)).thread (me false)).rd 20 = 1 := by
  decide +kernel

/-- Without privilege `tlbi`, `halt` and `wrsy` trap. -/
theorem test_privilege : ((nextOf (.tlbi 20 21 22) (trapWorld 0)).ctx? 0).bind (·.stopped) = some { cause := 1 } ∧
    ((nextOf (.halt 20 21) (trapWorld 0)).ctx? 0).bind (·.stopped) = some { cause := 1 } ∧
    ((nextOf (.wrsy 0 20) (trapWorld 0)).ctx? 0).bind (·.stopped) = some { cause := 1 } := by decide +kernel

/-- A shoot-down of the context's translations. -/
theorem test_tlbi : (world 0).tlb ≠ [] ∧ (nextOf (.tlbi 20 21 22) (withRegs (world 0) [(20, 1)])).tlb = [] ∧
    (nextOf (.tlbi 20 21 22) (withRegs (world 0) [(20, 1), (22, 5)])).tlb = (world 0).tlb := by decide +kernel

theorem test_halt : let t := nextOf (.halt 20 0) (withRegs twoContexts [(20, 9)])
    (t.ctx? 9).map (·.dbg) = some 1 ∧ (t.ctx? 0).bind (·.haltTarget) = some 9 := by decide +kernel

/-- The target check of R34 on a quay thread, whose record R168 describes. -/
theorem test_quay_ret_misaligned : (let t := nextOf .ret (lone true [(2, 6)])
    ((t.vf 0).fqWaiting.map (fun r => (r.src, r.cause, r.fva, r.ifa)), (t.thread (me true)).wait, (t.thread (me true)).pc)) =
    ([(3, 2, 6, 0x1000)], .faulted, 0x1000) := by decide +kernel


/-! ### Hypotheses that are met: groups and tasks (spec/10, spec/11) -/

/-- Two lanes of one group. -/
def pair2 : State :=
  { worldWith [thr 0 0 .ready 0x1000 [(21, 5), (22, 1)], thr 0 1 .ready 0x1000 [(21, -3), (22, 1)]] with
    issue := some { alone false with lanes := [⟨0, 0, 0⟩, ⟨0, 0, 1⟩] } }

theorem witness_group : Issued pair2 { alone false with lanes := [⟨0, 0, 0⟩, ⟨0, 0, 1⟩] } .thread [20, 21, 22] ∧
    ([⟨0, 0, 0⟩, ⟨0, 0, 1⟩] : List LaneId).Pairwise (fun x y => laneLe x y = true) ∧ ∀ l ∈ ([⟨0, 0, 0⟩, ⟨0, 0, 1⟩] : List LaneId), l.core = 0 := by
  refine ⟨⟨rfl, by decide, ?_, by decide⟩, by decide, by decide⟩
  intro l hl
  simp only [List.mem_cons, List.not_mem_nil, or_false] at hl
  obtain rfl | rfl := hl <;> exact calm_of (by decide +kernel)

/-- The heap has room for just one frame of width 8 beside the task's; the descriptor of 0x2008 asks for it. -/
def spawnWorld (regs : SMap Word) : State :=
  withRegs (mem8 { world 0 with ctxs := [{ id := 0, vf := 0, hbase := 0x10000, hsize := 0x4200 }] } 0x2000 0x800) regs

theorem witness_spawn : ∃ p q r gr c k, Issued (spawnWorld [(20, 0x2008), (21, 1)]) (alone false) .thread [20, 21, 22] ∧
    NoWindows (spawnWorld [(20, 0x2008), (21, 1)]) (alone false) ∧ (spawnWorld [(20, 0x2008), (21, 1)]).gidOf 0 = 0 ∧
    (spawnWorld [(20, 0x2008), (21, 1)]).group? 0 0 = some gr ∧ gr.ctx = 0 ∧ (spawnWorld [(20, 0x2008), (21, 1)]).ctx? 0 = some c ∧
    (spawnWorld [(20, 0x2008), (21, 1)]).task? 0 gr.frame = some k ∧ (spawnWorld [(20, 0x2008), (21, 1)]).Unique ∧ k.pending + 1 < 2 ^ 32 ∧
    (spawnWorld [(20, 0x2008), (21, 1)]).picked.peek 0 0 0x2000 8 .load = (.bytes [0, 8, 0, 0, 0, 0, 0, 0], q) ∧
    taskDesc (ofBytes [0, 8, 0, 0, 0, 0, 0, 0]) = some ⟨8, 128, false, 0x800⟩ ∧ q.heapHolds c 1 (frameSize 8 128 c.ss) = true ∧
    (q.allocFrames c 1 (frameSize 8 128 c.ss)).1 = [0x12100] ∧ (spawnWorld [(20, 0x2008), (21, 1)]).task? 0 0x12100 = none ∧
    (q.allocFrames c 1 (frameSize 8 128 c.ss)).2.reserveFrames 0 0 8 128 [0x12100] = .ok r ∧ p = r.publish 0 0 gr.frame ∧
    p.unacked 0 0 = false := by
  have hu : (match (((spawnWorld [(20, 0x2008), (21, 1)]).picked.peek 0 0 0x2000 8 .load).2.allocFrames
      { id := 0, vf := 0, hbase := 0x10000, hsize := 0x4200 } 1 (frameSize 8 128 0)).2.reserveFrames 0 0 8 128 [0x12100] with
    | .ok r => (r.publish 0 0 0x10000).unacked 0 0
    | .error _ => true) = false := by decide +kernel
  cases hr : (((spawnWorld [(20, 0x2008), (21, 1)]).picked.peek 0 0 0x2000 8 .load).2.allocFrames
      { id := 0, vf := 0, hbase := 0x10000, hsize := 0x4200 } 1 (frameSize 8 128 0)).2.reserveFrames 0 0 8 128 [0x12100] with
  | error e => rw [hr] at hu; cases hu
  | ok r =>
    rw [hr] at hu
    exact ⟨_, _, r, { core := 0, berth := 0, ctx := 0, frame := 0x10000, width := 8, nreg := 128 },
      { id := 0, vf := 0, hbase := 0x10000, hsize := 0x4200 },
      { ctx := 0, frame := 0x10000, width := 8, nreg := 128, phase := .running 0 0, granules := 33 },
      withRegs_issued rfl (by decide), by unfold NoWindows; decide +kernel, by decide +kernel, by decide +kernel, rfl, by decide +kernel,
      by decide +kernel, unique_of (by decide +kernel), by decide, pair_eq (by decide +kernel), by decide +kernel, by decide +kernel,
      by decide +kernel, by decide +kernel, hr, rfl, hu⟩

theorem witness_frames : 0 < 1 ∧ (spawnWorld []).heapHolds { id := 0, vf := 0, hbase := 0x10000, hsize := 0x4200 } 33 1 = true ∧
    ∀ t ∈ (spawnWorld []).tasks, t.frame / 256 + t.granules ≤ (0x10000 + 0x4200) / 256 := by decide +kernel

/-- One of two threads ends: x20 holds an address of code, x21 one of data. -/
def ending (other : Wait) : State :=
  { worldWith [thr 0 0 .ready 0x1000 [(20, 0x2000), (21, 0x3000)], thr 0 1 other 0x1000] with issue := some (alone false) }

def plainTask : Task := { ctx := 0, frame := 0x10000, width := 8, nreg := 128, phase := .running 0 0, granules := 33 }

theorem witness_threads_end : (ending .ready).Unique ∧ Issued (ending .ready) (alone false) .thread [21, 22, 20] ∧
    NoWindows (ending .ready) (alone false) ∧ (ending .ready).taskOf? 0 0 = some plainTask ∧ plainTask.phase = .running 0 0 ∧
    plainTask.agreed = none ∧ (⟨0, 0, 1⟩ : LaneId) ≠ me false ∧ ((ending .ready).thread ⟨0, 0, 1⟩).wait ≠ .exited ∧
    (ending .ready).thread ⟨0, 0, 1⟩ ∈ (ending .ready).threads ∧ (∀ b w, ((ending .ready).thread b).wait ≠ .atBarl w) ∧
    (20 : Reg) ≠ 0 ∧ ((ending .ready).thread (me false)).rd 20 % 4 = 0 ∧ (((ending .ready).thread (me false)).rd 21).toNat % 8 = 0 ∧
    (ending .ready).matrixBusy (me false) = false ∧
    ∃ tr q, (ending .ready).picked.translate 0 0 0x3000 .load = (.ok tr, q) ∧ tr.target = .device 0x3000 := by
  have : Inhabited Trans := ⟨⟨.device 0, 0, 0, false, 0⟩⟩
  exact ⟨unique_of (by decide +kernel), issued_one (l := me false) rfl rfl (calm_of (by decide +kernel)) (by decide),
    by unfold NoWindows; decide +kernel, by decide +kernel, rfl, rfl, by decide, by decide +kernel, by decide +kernel, no_barl (by decide +kernel),
    by decide, by decide +kernel, by decide +kernel, by decide +kernel,
    ⟨.device 0x3000, 0x3000, 0, false, 0⟩, _, pair_eq rfl, rfl⟩

theorem witness_task_ends : (ending .exited).Unique ∧ Issued (ending .exited) (alone false) .thread [20] ∧
    NoWindows (ending .exited) (alone false) ∧ (ending .exited).taskOf? 0 0 = some plainTask ∧
    (ending .exited).thread (me false) ∈ (ending .exited).threads ∧
    (∀ o, o ≠ me false → o.core = 0 → o.berth = 0 → ((ending .exited).thread o).wait = .exited) ∧ plainTask.trap = none ∧ plainTask.waitAt = none := by
  refine ⟨unique_of (by decide +kernel), issued_one (l := me false) rfl rfl (calm_of (by decide +kernel)) (by decide),
    by unfold NoWindows; decide +kernel, by decide +kernel, by decide +kernel, ?_, rfl, rfl⟩
  intro o ho hc hb
  obtain ⟨c, b, t⟩ := o
  simp only at hc hb
  subst hc hb
  by_cases h1 : t = 1
  · subst h1; rfl
  · by_cases h0 : t = 0
    · subst h0; exact absurd rfl ho
    · have e1 : ¬(1 = t) := fun h => h1 h.symm
      have e0 : ¬(0 = t) := fun h => h0 h.symm
      simp [ending, worldWith, State.thread, thr, noThread, e1, e0]

/-- The task has named a successor at 0x2008. -/
def succeeding : State :=
  { mem8 (worldWith [thr 0 0 .exited 0x1000]) 0x2000 0x800 with
    tasks := [{ plainTask with agreed := some { kind := 3, cont := 0x2008, wb := 16, wt := 0 }, endRm := [(0, 2)] }] }

/-- The same, and with a write that another package has still to acknowledge. -/
def succeedingWith (late : Bool) : State := { succeeding with pendings := if late then [{ ttag := 1, packet := { kind := 3 } }] else [] }

theorem witness_successor (late : Bool) : ∃ q g k a d, (succeedingWith late).group? 0 0 = some g ∧
    (succeedingWith late).task? g.ctx g.frame = some k ∧ k.agreed = some a ∧ a.kind = 3 ∧ k.ctx = g.ctx ∧ k.frame = g.frame ∧
    (succeedingWith late).Unique ∧ (succeedingWith late).successorDesc 0 k a.cont = (.suits d, q) ∧
    (q.endEdge 0 0 k).unacked 0 g.ctx = late := by
  refine ⟨_, { core := 0, berth := 0, ctx := 0, frame := 0x10000, width := 8, nreg := 128 },
    { plainTask with agreed := some { kind := 3, cont := 0x2008, wb := 16, wt := 0 }, endRm := [(0, 2)] }, _,
    ⟨8, 128, false, 0x800⟩, ?_, ?_, rfl, rfl, rfl, rfl, unique_of ?_, pair_eq ?_, ?_⟩
  all_goals cases late <;> decide +kernel

def plainTrans (a : Nat) (ce : Bool := false) : Trans := ⟨.device a, a, 0, ce, 0⟩

/-- A stamp to an aligned doubleword of a block of the VF: of a raw block, or of a compressed one that has no sector. -/
def signalling (ce : Bool) : State :=
  let s := withRegs (mem8 (world 0) 0x3000 0) [(20, 0x3000), (21, 0xabcd)]
  if ce then
    { s with
      tlb := s.tlb.map fun e : TlbEntry => { e with ce := true }
      descs := SMap.set {} s.descs 24 { owned := true, vf := 0, zf := true } }
  else s

theorem witness_signal (ce : Bool) : ∃ q p, Issued (signalling ce) (alone false) .thread [20, 21] ∧ NoWindows (signalling ce) (alone false) ∧
    (signalling ce).picked.check (me false) 0x3000 8 .store true = (.ok (plainTrans 0x3000 ce), q) ∧ p = q.publishGroups 0 0 [me false] ∧
    p.unacked 0 0 = false ∧ (let k : WriteKind := .signal 0 (((p.taskOf? 0 0).map (·.notice)).getD {})
      (p.sendAhead 0 0 0x3000).writeAt { vf := 0, gpa := 0x3000, key := 0, ce := ce, kind := k } 0x3000 (withAddrs 0x3000 (toBytes 0xabcd 8))).1 =
      if ce then .refused else .done := by
  refine ⟨_, _, ?_, ?_, pair_eq (by cases ce <;> rfl), rfl, ?_, ?_⟩
  · cases ce <;> exact issued_one (l := me false) rfl rfl (calm_of (by decide +kernel)) (by decide)
  · unfold NoWindows; cases ce <;> decide +kernel
  all_goals cases ce <;> decide +kernel

/-- A quad barrier, slot 0, with this group registered, and another thread that does not wait or waits too. -/
def barlWord : Word := 2

def atBarrier (o : Wait) : State :=
  { worldWith [thr 0 0 .ready 0x1000 [(20, barlWord)], thr 0 1 o 0x1000] with
    issue := some (alone false), barriers := [{ level := 2, inst := 0, ctx := 0, slot := 0, registered := [(0, 0)] }] }

theorem witness_barriers (o : Wait) (ho : o = .ready ∨ o = .atBarl barlWord) : (atBarrier o).Unique ∧
    Issued (atBarrier o) (alone false) .thread [20] ∧ ((atBarrier o).group? 0 0).map (·.ctx) = some 0 ∧
    (atBarrier o).barLegal 0 barlWord = true ∧ NoWindows (atBarrier o) (alone false) ∧
    (0, 0) ∈ ((atBarrier o).barrier 0 0 barlWord).registered ∧ ((atBarrier o).picked.publishGroups 0 0 [me false]).unacked 0 0 = false ∧
    ((atBarrier o).thread (me false)).rd 20 = barlWord ∧ (∀ t ∈ (atBarrier o).threads, t.id ≠ me false → t.wait = o) := by
  refine ⟨?_, issued_one (l := me false) rfl rfl (calm_of ?_) (by decide), ?_, ?_, ?_, ?_, ?_, ?_, ?_⟩
  all_goals obtain rfl | rfl := ho
  all_goals first | exact unique_of (by decide +kernel) | (unfold NoWindows; decide +kernel) | decide +kernel

theorem witness_barrier_release : ∃ b, (worldWith [thr 0 0 (.atBarl barlWord) 0x1000]).Unique ∧
    ({ worldWith [thr 0 0 (.atBarl barlWord) 0x1000] with
      barriers := [{ level := 2, inst := 0, ctx := 0, slot := 0, registered := [(0, 0)], arrived := [(0, 0)] }] } : State).barriers.find?
        (isBarrier 2 0 0 0) = some b ∧ b.complete = true ∧ (worldWith [thr 0 0 (.atBarl barlWord) 0x1000]).spilled = [] :=
  ⟨{ level := 2, inst := 0, ctx := 0, slot := 0, registered := [(0, 0)], arrived := [(0, 0)] }, unique_of (by decide +kernel), by decide +kernel, by decide, rfl⟩

/-- A child whose parent awaits it, and the root of a launch. -/
def completing (k : Task) : State :=
  { world 0 with
    tasks := [k, { plainTask with phase := .waiting, pending := 1, agreed := some { kind := 1, cont := 0x1000, wb := 16, wt := 0 } }]
    launches := [{ id := 4, queue := .vf 0 0, ctx := 0, remaining := 1 }] }

def doneTask : Task := { ctx := 0, frame := 0x14000, width := 8, nreg := 128, phase := .ending, granules := 33 }

theorem witness_completes : (∀ k ∈ [{ doneTask with parent := 0x10000 }, { doneTask with launch := some 4 }],
      (completing k).Unique ∧ (completing k).task? 0 0x14000 = some k ∧ (completing k).complete? k = true ∧ k.parentPkg = 0 ∧
        ((completing k).finishEdge k).2.unacked k.origin 0 = false ∧ (completing k).hostMissing = []) ∧
    (∃ p, (completing { doneTask with parent := 0x10000 }).task? 0 0x10000 = some p ∧ p.waitAt = none ∧ p.phase = .waiting ∧
      p.agreed.map (·.kind) = some 1 ∧ p.pending = 1) ∧
    ∃ x, (completing { doneTask with launch := some 4 }).launches.find? (fun l => l.id == 4) = some x ∧ x.remaining = 1 := by
  refine ⟨?_, ⟨_, rfl, rfl, rfl, rfl, rfl⟩, ⟨_, rfl, rfl⟩⟩
  intro k hk
  simp only [List.mem_cons, List.not_mem_nil, or_false] at hk
  obtain rfl | rfl := hk
  all_goals exact ⟨unique_of (by decide +kernel), by decide +kernel, by decide +kernel, rfl, by decide +kernel, by decide +kernel⟩

/-- A task waits in the dispatcher. -/
def queued : State :=
  { world 0 with
    issue := none, waiting := [(0, 0x14000)]
    tasks := [plainTask, { ctx := 0, frame := 0x14000, width := 8, nreg := 128, phase := .queued, granules := 33, entry := 0x2008, arg := 9, tix := 2, nkid := 3 }] }

theorem witness_placement : ∃ k, queued.Unique ∧ queued.spilled = [] ∧ queued.task? 0 0x14000 = some k ∧ k.phase = .queued ∧
    queued.chosen k 5 = true ∧ queued.tenantOk 5 (queued.vfOf 0) = true ∧ queued.room 5 k.width k.nreg = true :=
  ⟨_, unique_of (by decide +kernel), rfl, rfl, rfl, by decide +kernel, by decide +kernel, by decide +kernel⟩

/-- Another VF has a halted group on the core, and the tenant's slice is over. -/
def sliced : State :=
  { world 0 with
    ctxs := [{ id := 0, vf := 0, priv := true }, { id := 1, vf := 1 }], tide := { now := 2 ^ 40 }
    groups := [{ core := 0, berth := 0, ctx := 0, frame := 0x10000, width := 8, nreg := 128 },
               { core := 0, berth := 1, ctx := 1, frame := 0x10000, width := 8, nreg := 128, halted := true }] }

theorem witness_slice : sliced.Unique ∧ sliced.spilled = [] ∧ sliced.sliceEnds 0 1 = true ∧
    (sliced.coreAt 0).tenant ≠ some 1 ∧ (sliced.coreAt 0).splitTake = none ∧
    fits217 (sizeOf3 (sliced.groups.filter fun g => g.core == 0)) = true :=
  ⟨unique_of (by decide +kernel), rfl, by decide +kernel⟩

/-- A group that a slice has halted, with a lane at `signal` whose publication is acknowledged. -/
def lateWorld : State :=
  { sliced with
    issue := none
    threads := [{ id := ⟨0, 1, 0⟩, ctx := 1, pc := 0x1000, wait := .stalled .stamps }] }

theorem witness_late_signal : ∃ u, lateWorld.lateSignal 0 = some u ∧ lateWorld.issue = none ∧ lateWorld.signalLanes u = [⟨0, 1, 0⟩] :=
  ⟨_, by rfl, rfl, by decide +kernel⟩

def ringed : State :=
  { world 0 with issue := none }.modCore 0 fun k => { k with ring := [{ ctx := 0, pc := 0x1000, lanes := [me false], isOpen := true }] }

theorem witness_pick : (∃ e r, ringed.issue = none ∧ ringed.lateSignal 0 = none ∧ (ringed.coreAt 0).ring = e :: r) ∧
    (let s : State := { world 0 with issue := none, threads := [{ id := ⟨0, quayBerth, 2⟩, ctx := 0, pc := 0x1000 }] }
     s.quayReady 0 (s.thread ⟨0, quayBerth, 2⟩) = true ∧ ∀ j, j < 2 → s.quayReady 0 (s.thread ⟨0, quayBerth, j % 4⟩) = false) :=
  ⟨⟨_, _, rfl, by decide +kernel, rfl⟩, by decide +kernel⟩

/-- A load of host memory has been asked for. -/
def awaiting : State :=
  { worldWith [{ thr 0 0 .ready 0x1000 with windows := [{ phys := 20, count := 3, arrival := .waiting, tag := 11 }] }] with
    pendings := [{ ttag := 5, packet := {}, lane := some ⟨0, 0, 0⟩, bytes := 4, signed := true }] }

theorem witness_result : ∃ p x, awaiting.thread ⟨0, 0, 0⟩ ∈ awaiting.threads ∧
    awaiting.pendings.find? (fun q => q.ttag == 5 && awaiting.answerable q) = some p ∧ p.lane = some ⟨0, 0, 0⟩ ∧ p.packet.kind = 0 ∧ p.own = 0 ∧
    (awaiting.thread ⟨0, 0, 0⟩).ctx = p.ctx ∧ (awaiting.thread ⟨0, 0, 0⟩).wait ≠ .held ∧
    (awaiting.thread ⟨0, 0, 0⟩).windows = [] ++ x :: [] ∧ x.tag = 2 * p.ttag + 1 ∧ x.arrival = .waiting ∧
    awaiting.hostBad p.packet.gpa p.bytes = false ∧ awaiting.hostBad (p.packet.gpa / 128 * 128) 128 = false ∧
    (awaiting.l1.filter fun y => y.core == p.core).length < l1Lines (awaiting.coreAt p.core).split :=
  ⟨_, _, by decide +kernel, by rfl, rfl, rfl, rfl, rfl, by decide +kernel, rfl, rfl, rfl, rfl, rfl, by decide +kernel⟩

theorem test_group : ((nextOf (.gred .smin 20 21) pair2).thread (me false)).rd 20 = -3 ∧ ((nextOf (.elect 20) pair2).thread ⟨0, 0, 1⟩).rd 20 = 0 ∧
    ((nextOf (.shflRot 20 21 22) pair2).thread (me false)).rd 20 = -3 ∧ ((nextOf (.voteCnt 20 21) pair2).thread (me false)).rd 20 = 2 := by decide +kernel
theorem test_spawn : let t := nextOf (.spawn .any 20 21 22) (spawnWorld [(20, 0x2008), (21, 1), (22, 9)])
    t.waiting = [(0, 0x12100)] ∧ (t.task? 0 0x10000).map (·.pending) = some 1 ∧ (t.task? 0 0x12100).map (fun k => (k.entry, k.arg, k.parent)) = some (0x2008, 9, 0x10000) := by
  decide +kernel
theorem test_exit : ((nextOf (.exit 0) (ending .exited)).task? 0 0x10000).map (·.phase) = some .ending ∧
    ((nextOf (.exit 0) (ending .ready)).thread (me false)).wait = .exited := by decide +kernel
theorem test_barl : ((nextOf (.barl 20) (atBarrier .ready)).thread (me false)).wait = .atBarl barlWord ∧
    ((nextOf (.barl 20) (atBarrier (.atBarl barlWord))).barriers.map (·.arrived)) = [[(0, 0)]] := by decide +kernel
theorem test_complete : let t := nextOf (.taskComplete 0 0x14000) (completing { doneTask with parent := 0x10000 })
    t.waiting = [(0, 0x10000)] ∧ (t.task? 0 0x14000) = none := by decide +kernel
theorem test_placed : let t := nextOf (.taskPlacement 0 0x14000 5) queued
    (t.threads.filter fun u => u.id.core == 5).map (fun u => (u.id.tid, u.pc)) = (List.range 8).map (fun n => (n, 0x2008)) := by decide +kernel

/-! ### Hypotheses that are met: memory (spec/07, spec/12) -/

theorem fresh_of {s : State} {core ctx va a : Nat} (h : (decide (s.line? core ctx (lineOf va) = none) &&
    decide ((s.l1.filter fun l => l.core == core).length < l1Lines (s.coreAt core).split) &&
    s.l1.all (fun l => !decide (l.home = .device (a / 128 * 128))) && decide (va % 128 = a % 128)) = true) : s.Fresh core ctx va a := by
  simp only [Bool.and_eq_true, decide_eq_true_eq, List.all_eq_true, Bool.not_eq_true', decide_eq_false_iff_not] at h
  exact ⟨h.1.1.1, h.1.1.2, h.1.2, h.2⟩

/-- x21 holds the address; device memory holds a doubleword at 0x3000 in a block of the VF. -/
def loading (ea : Word) : State := withRegs (mem8 (world 0) 0x3000 0x8877665544332211) [(20, 0xaabbccdd), (21, ea)]

/-- A mapping of 2 MiB at 0x400000 onto something else. -/
def mapped (s : State) (t : Target) : State :=
  { s.modVf 0 (fun v => { v with fen := true }) with
           tlb := { llt := false, core := 0, ctx := 0, vf := 0, base := 0x400000, size := 2 ^ 21, target := t, gpa := 0x400000, key := 0,
                    ce := false, r := true, w := true, x := true, w1 := true, x1 := true } :: s.tlb }

/-- The first and last places of a line, for each size. -/
theorem witness_load (n : Nat) (ea : Word) (hn : (n, ea) ∈ [(1, (0x3000 : Word)), (1, 0x307f), (2, 0x307e), (4, 0x307c), (8, 0x3078), (8, 0x3000)]) :
    ∃ q, Issued (loading ea) (alone false) .both [20, 21] ∧ (loading ea).batched.check (me false) ea n .load true = (.ok (plainTrans ea.toNat), q) ∧
      q.Fresh 0 0 ea.toNat ea.toNat ∧ q.bad ea.toNat = false ∧ q.slowAt ea.toNat = false := by
  refine ⟨((loading ea).batched.check (me false) ea n .load true).2, withRegs_issued rfl (by decide), pair_eq ?_, fresh_of ?_, ?_, ?_⟩
  all_goals
    simp only [List.mem_cons, List.not_mem_nil, or_false, Prod.mk.injEq] at hn
    obtain ⟨rfl, rfl⟩ | ⟨rfl, rfl⟩ | ⟨rfl, rfl⟩ | ⟨rfl, rfl⟩ | ⟨rfl, rfl⟩ | ⟨rfl, rfl⟩ := hn <;> decide +kernel

/-- A line of the core's L1, at 0x3000. -/
def cached (st : LineSt) (dirty : BitVec 128) : L1Line :=
  { core := 0, ctx := 0, line := 0x60, st := st, gpa := 0x3000, home := .device 0x3000, valid := BitVec.allOnes 128, dirty := dirty, data := 0x1122 }

theorem witness_load_cached : ∃ q ln, (({ loading 0x3078 with l1 := [cached .shared 0] } : State)).batched.check (me false) 0x3078 8 .load true =
      (.ok (plainTrans 0x3078), q) ∧ q.line? 0 0 (0x3078 / 128) = some ln ∧ (∀ j, j < 8 → ln.valid.getLsbD (0x3078 % 128 + j) = true) ∧ q.struckLine ln = false :=
  ⟨_, cached .shared 0, pair_eq (by decide +kernel), by decide +kernel, by decide, by decide +kernel⟩

theorem witness_load_away (g : Target) (hg : g = .host 0x7000 ∨ g = .fabric 3 0x9000) :
    ∃ q tr, (mapped (loading 0x400010) g).batched.check (me false) 0x400010 8 .load true = (.ok tr, q) ∧ q.line? 0 0 (0x400010 / 128) = none ∧
      q.tagsFull tr = false ∧ (tr.target = .host 0x7010 ∨ tr.target = .fabric 3 0x9010) := by
  obtain rfl | rfl := hg
  · exact ⟨_, ⟨.host 0x7010, 0x400010, 0, false, 0⟩, pair_eq (by decide +kernel), by decide +kernel, by decide +kernel, .inl rfl⟩
  · exact ⟨_, ⟨.fabric 3 0x9010, 0x400010, 0, false, 0⟩, pair_eq (by decide +kernel), by decide +kernel, by decide +kernel, .inr rfl⟩

theorem witness_external_load : (loading 0x3000).sealedOn (dieOf 0) 0 0x3000 8 = false ∧
    ((loading 0x3000).batched.check (me false) 0x3000 8 .load true).2.NoneBefore (me false) 0 := by
  refine ⟨by decide +kernel, ?_⟩
  unfold State.NoneBefore; decide +kernel

theorem test_load_signed : ((nextOf (.ldBS 20 21 0 0) (loading 0x3007)).thread (me false)).rd 20 = 0xffffffffffffff88 := by decide +kernel
theorem test_load_order : ((nextOf (.ldH 20 21 1 0) (loading 0x3000)).thread (me false)).rd 20 = 0x4433 := by decide +kernel
theorem test_load_window : ((nextOf (.ldW 20 21 0 3) (loading 0x3000)).thread (me false)).rd 20 = 0xaabbccdd ∧
    (((nextOf (.ldW 20 21 0 3) (loading 0x3000)).thread (me false)).windows.map fun w => (w.count, w.arrival)) = [(3, .value 0x44332211)] := by
  decide +kernel

/-- Nothing to grow, and a growth that has no sector to take. -/
theorem witness_store (n : Nat) (ea : Word) (hn : (n, ea) ∈ [(1, (0x307f : Word)), (2, 0x307e), (4, 0x3000), (8, 0x3078)]) :
    ∃ q r, (loading ea).batched.check (me false) ea n .store true = (.ok (plainTrans ea.toNat), q) ∧
      q.growLane false (me false) ea (plainTrans ea.toNat) = (false, .ok (plainTrans ea.toNat), r) := by
  refine ⟨_, ((loading ea).batched.check (me false) ea n .store true).2, pair_eq (a := Except.ok (plainTrans ea.toNat)) ?_, ?_⟩
  · simp only [List.mem_cons, List.not_mem_nil, or_false, Prod.mk.injEq] at hn
    obtain ⟨rfl, rfl⟩ | ⟨rfl, rfl⟩ | ⟨rfl, rfl⟩ | ⟨rfl, rfl⟩ := hn <;> decide +kernel
  · simp [State.growLane, plainTrans, State.needsGrowth]

theorem test_store_bytes : (((nextOf (.stH 20 21 0) (loading 0x307e)).line? 0 0 0x60).map fun l =>
    (l.bytesAt 126 2, l.valid.toNat, l.dirty.toNat)) = some ([0xdd, 0xcc], 3 * 2 ^ 126, 3 * 2 ^ 126) := by decide +kernel

/-- The mapping of 0x400000 is one of compressible memory, and the VF has no sector left. -/
def full : State :=
  let s := mapped (loading 0x400010) (.device 0x8000)
  { s with tlb := s.tlb.map fun e => { e with ce := true } }

theorem growth_refused : ((full.batched.check (me false) 0x400010 8 .store true).2.growLane false (me false) 0x400010 ⟨.device 0x8010, 0x400010, 0, true, 0⟩).1 = true ∧
    ((full.batched.check (me false) 0x400010 8 .store true).2.growLane false (me false) 0x400010 ⟨.device 0x8010, 0x400010, 0, true, 0⟩).2.1 =
      .error (.fault 17 (0x8010 / 2 ^ 38) 0x400010 0x400010) := by decide +kernel

theorem witness_access_faults : ∃ f q q' r, (loading 0x400000).batched.translate 0 0 0x400000 .load = (.error f, q) ∧ f.waits = false ∧ (0x3004 : Word).toNat % 8 ≠ 0 ∧
    ((loading 0x400000).group? 0 0).isSome = true ∧
    full.batched.check (me false) 0x400010 8 .store true = (.ok ⟨.device 0x8010, 0x400010, 0, true, 0⟩, q') ∧
    q'.growLane false (me false) 0x400010 ⟨.device 0x8010, 0x400010, 0, true, 0⟩ = (true, .error (.fault 17 (0x8010 / 2 ^ 38) 0x400010 0x400010), r) := by
  have hf : ∃ f, ((loading 0x400000).batched.translate 0 0 0x400000 .load).1 = .error f ∧ f.waits = false := ⟨⟨8, 0⟩, by decide +kernel, rfl⟩
  obtain ⟨f, hf, hw⟩ := hf
  exact ⟨f, _, _, _, pair_eq hf, hw, by decide, by decide +kernel, pair_eq (by decide +kernel), Prod.ext growth_refused.1 (Prod.ext growth_refused.2 rfl)⟩

/-- A store into a sealed region. -/
theorem witness_access_sealed : let s : State := { loading 0x3000 with seals := [{ die := 0, ctx := 0, base := 0x3000, lg := 12 }] }
    ∃ q, s.batched.translate 0 0 0x3000 .store = (.ok (plainTrans 0x3000), q) ∧ q.sealed 0 0 0x3000 8 = true :=
  ⟨_, pair_eq (by decide +kernel), by decide +kernel⟩

theorem test_store_misaligned : ((nextOf (.stW 20 21 0) (loading 0x3002)).ctx? 0).map (·.stopped.isSome) = some true := by decide +kernel
theorem test_load_faulted : ((nextOf (.ldD 20 21 0 0) (loading 0x400000)).thread (me false)).wait = .faulted ∧
    ((nextOf (.ldD 20 21 0 0) (loading 0x400000)).vf 0).fqWaiting.map (fun r => (r.cause, r.fva, r.ifa, r.lanes)) = [(16, 0x400000, 0x1000, 1)] := by
  decide +kernel

/-- The array of core 0 belongs to the context; the group holds a pair of cores or not. -/
def buffers (ea : Word) : State :=
  { withRegs (world 0) [(20, 0x0102030405060708), (21, ea)] with
    groups := [{ core := 0, berth := 0, ctx := 0, frame := 0x10000, width := 8, nreg := 128, pair := true }] }.modCore 0
      (fun k => { k with rowA := some 0, rowC := some 0 }) |>.modCore 1 (fun k => { k with rowC := some 0 })

theorem witness_buffers (ea : Word) (h : ea = 0 ∨ ea = 0xfff8) : Issued (buffers ea) (alone false) .both [20, 21] ∧
    ((buffers ea).coreAt 0).rowA = some 0 ∧ ea.toNat % 8 = 0 ∧ ea.toNat + 8 ≤ 65536 * ((buffers ea).coreAt 0).split ∧
    (buffers ea).behindCopy 0 0 1 ea.toNat 8 = false ∧ (buffers ea).heldByQueue 0 ea.toNat 8 = false := by
  refine ⟨issued_one (l := me false) rfl rfl (calm_of ?_) (by decide), ?_, ?_, ?_, ?_, ?_⟩
  all_goals obtain rfl | rfl := h <;> decide +kernel

/-- The first cell of the own core and the last of the second one. -/
theorem witness_cells : (∀ p ∈ [(0, 0), (1, 65535)], p.1 < 2 ∧ p.2 < 65536 ∧ (BitVec.ofNat 64 (2 ^ 19 * p.1 + 8 * p.2) : Word).toNat = 2 ^ 19 * p.1 + 8 * p.2 ∧
      ((buffers 0).coreAt (0 + p.1)).rowC = some 0 ∧ (buffers 0).tileBusy (0 + p.1) (p.2 / 16384) = false) ∧
    ((buffers 0).group? 0 0).map (·.pair) = some true := by decide +kernel

theorem test_sta_lda : readMap 0 ((nextOf (.sta 20 21 1) (buffers 0)).coreAt 0).abuf 8 8 = [8, 7, 6, 5, 4, 3, 2, 1] := by decide +kernel
theorem test_stc_pair : SMap.get 0 ((nextOf (.stc 20 21 0) (buffers 0xffff8)).coreAt 1).tiles 65535 = 0x02030405060708 := by decide +kernel

theorem witness_prefetch : ∃ q, (loading 0x3010).picked.translate 0 0 0x3010 .load = (.ok (plainTrans 0x3010), q) ∧
    q.Fresh 0 0 0x3010 0x3010 ∧ q.bad 0x3010 = false :=
  ⟨_, pair_eq (by decide +kernel), fresh_of (by decide +kernel), by decide +kernel⟩

/-- An atomic on a line that nobody holds, and on one that the L1 owns. -/
theorem witness_atomic (n : Nat) (ea : Word) (b : Bool) (hn : (n, ea) ∈ [(4, (0x307c : Word)), (8, 0x3078), (16, 0x3070), (16, 0x3000)]) :
    ∃ q r, (loading ea).batched.check (me false) ea n .atomic b = (.ok (plainTrans ea.toNat), q) ∧
      q.growLane false (me false) ea (plainTrans ea.toNat) = (false, .ok (plainTrans ea.toNat), r) ∧ r.bad ea.toNat = false ∧ r.slowAt ea.toNat = false ∧ r.Fresh 0 0 ea.toNat ea.toNat ∧
      r.NoneBefore (me false) 0 := by
  refine ⟨_, ((loading ea).batched.check (me false) ea n .atomic b).2, pair_eq (a := Except.ok (plainTrans ea.toNat)) ?_, ?_, ?_, ?_, fresh_of ?_, ?_⟩
  rotate_left
  · simp [State.growLane, plainTrans, State.needsGrowth]
  all_goals
    try unfold State.NoneBefore
    simp only [List.mem_cons, List.not_mem_nil, or_false, Prod.mk.injEq] at hn
    cases b <;> obtain ⟨rfl, rfl⟩ | ⟨rfl, rfl⟩ | ⟨rfl, rfl⟩ | ⟨rfl, rfl⟩ := hn <;> decide +kernel

theorem witness_atomic_owned : ∃ ln, ({ loading 0x3000 with l1 := [cached .owned 3] } : State).line? 0 0 0x60 = some ln ∧ ln.st = .owned ∧
    ln.valid = BitVec.allOnes 128 ∧ ({ loading 0x3000 with l1 := [cached .owned 3] } : State).struckLine ln = false :=
  ⟨cached .owned 3, by decide +kernel, rfl, rfl, by decide +kernel⟩

/-- The old word comes back, the sum stands in the owned line, and the home is as it was. -/
theorem test_atom_add : let t := nextOf (.atom .add false false 22 21 20 0) (loading 0x3004)
    (t.thread (me false)).rd 22 = 0x88776655 ∧ ((t.line? 0 0 0x60).map fun l => (l.bytesAt 4 4, l.st)) = some ([0x32, 0x33, 0x33, 0x33], .owned) ∧
      t.homeBytes 0 0x3004 4 = [0x55, 0x66, 0x77, 0x88] := by decide +kernel
theorem test_cas_fails : ((nextOf (.cas false true 22 21 20 0) (loading 0x3000)).line? 0 0 0x60).map (·.bytesAt 0 8) =
    some [0x11, 0x22, 0x33, 0x44, 0x55, 0x66, 0x77, 0x88] := by decide +kernel

/-! ### Hypotheses that are met: sealed regions, lines and homes (spec/07, spec/12, spec/13) -/

/-- A region of 4 KiB, with room for its entry or without: x20 holds its base, x21 its size. -/
def sealing (es : List SealEntry) : State := { withRegs (world 0) [(20, 0x3000), (21, 0x1000)] with seals := es, l1 := [cached .owned 0] }

/-- A die with every entry taken. -/
def noRoom : List SealEntry := (List.range 256).map fun j => { die := 0, ctx := 0, base := 2 ^ 20 * (j + 1), lg := 12 }

theorem witness_seal (es : List SealEntry) (h : es = [] ∨ es = noRoom) : Issued (sealing es) (alone false) .thread [20, 21] ∧
    (((sealing es).thread (me false)).rd 21).toNat = 2 ^ 12 ∧ (((sealing es).thread (me false)).rd 20).toNat % 2 ^ 12 = 0 ∧
    ((sealing es).picked.publishRegion 0 0 0x10000 0x3000 12).unacked 0 0 = false ∧
    ((sealing es).sealRoom 0 = true ↔ es = []) ∧ 0 ∈ (sealing es).partDies ((sealing es).partOf 0) ∧
    ∀ e ∈ (sealing es).seals, ¬(e.ctx = 0 ∧ e.base = 0x3000 ∧ e.lg = 12) := by
  refine ⟨issued_one (l := me false) rfl rfl (calm_of ?_) (by decide), ?_, ?_, ?_, ?_, ?_, ?_⟩
  all_goals obtain rfl | rfl := h <;> decide +kernel

theorem test_seal : let t := nextOf (.seal 20 21) (sealing [])
    t.seals.map (fun e => (e.die, e.base, e.lg)) = ((List.range 8).map fun d => (d, 0x3000, 12)) ∧
      (t.thread (me false)).pc = 0x1008 := by decide +kernel

/-- The region is sealed, and a sealed copy of one of its lines is held. -/
def sealedWorld : State :=
  { sealing [{ die := 0, ctx := 0, base := 0x3000, lg := 12, copies := 1 }] with
    l1 := [{ cached .shared 0 with sealed := true }]
    unsealWaits := [{ ctx := 0, base := 0x3000, lg := 12, lanes := [me false] }]
    sealWaits := [{ ctx := 0, base := 0x200000, lg := 12, dies := [0], lanes := [me false] }] }

theorem witness_unseal : ∃ e ∈ sealedWorld.seals, e.ctx = 0 ∧ e.base = 0x3000 ∧ e.lg = 12 := by decide +kernel

theorem test_unseal : let t := nextOf (.unseal 20 21) sealedWorld
    t.l1 = [] ∧ (t.thread (me false)).wait = .engine ∧ t.seals.map (·.copies) = [0] := by decide +kernel

theorem witness_seal_steps : (∃ w, sealedWorld.sealWaits.find? (fun w => has w.dies 0) = some w ∧ sealedWorld.sealRoom 0 = true ∧ w.lanes = [me false]) ∧
    (let s := nextOf (.unseal 20 21) { sealedWorld with unsealWaits := [] }
     (s.thread (me false)).reissue = none ∧ (s.thread (me false)).windows = [] ∧ (s.thread (me false)).wait = .engine ∧
     ∃ w, s.unsealWaits.find? (fun w => w.ctx == 0 && w.base == 0x3000 && 2 ^ w.lg == 2 ^ 12) = some w ∧ w.lanes = [me false] ∧
      (∀ e ∈ (s.dropSealed 0 0x3000 12).seals, e.ctx = 0 → e.base = 0x3000 → e.lg = 12 → e.copies = 0) ∧
      (s.dropSealed 0 0x3000 12).seals.length ≤ 1) ∧
    ∃ q, ({ sealedWorld with l1 := [] } : State).lineHome 0 0 0x60 .load = (some (plainTrans 0x3000, 0x3000), q) ∧ q.line? 0 0 0x60 = none ∧
      q.sealedOn (stackOf 0x3000) 0 (0x60 * 128) 128 = true ∧ q.bad 0x3000 = false ∧ (q.l1.filter fun l => l.core == 0).length < l1Lines (q.coreAt 0).split :=
  ⟨⟨_, by rfl, by decide +kernel, rfl⟩,
    ⟨by decide +kernel, by decide +kernel, by decide +kernel, { ctx := 0, base := 0x3000, lg := 12, lanes := [me false] }, by decide +kernel, rfl,
      by decide +kernel, by decide +kernel⟩,
    ⟨_, pair_eq (by decide +kernel), by decide +kernel, by decide +kernel, by decide +kernel, by decide +kernel⟩⟩

/-- Another core owns the line of 0x3000 and has written its first two bytes. -/
def elsewhere (own : List L1Line) : State := { loading 0x3000 with l1 := { cached .owned 3 with core := 1 } :: own }

theorem witness_lines : (((elsewhere []).l1.map L1Line.tag).Nodup ∧
      (∃ q, (elsewhere []).lineHome 0 0 0x60 .load = (some (plainTrans 0x3000, 0x3000), q) ∧ q.bad 0x3000 = false ∧
        q.sealedOn (stackOf 0x3000) 0 (0x60 * 128) 128 = false) ∧
      (elsewhere []).line? 0 0 0x60 = none ∧
      ((elsewhere []).l1.filter fun l => l.core == 0).length < l1Lines ((elsewhere []).coreAt 0).split) ∧
    ((elsewhere [cached .shared 0]).l1.map L1Line.tag).Nodup ∧ (elsewhere [cached .shared 0]).line? 0 0 0x60 = some (cached .shared 0) ∧
    (∃ q, (elsewhere [cached .shared 0]).lineHome 0 0 0x60 .atomic = (some (plainTrans 0x3000, 0x3000), q) ∧ q.bad 0x3000 = false) ∧
    ((loading 0x3000).l1.map L1Line.tag).Nodup ∧ ({ loading 0x3000 with l1 := [cached .owned 3] } : State).line? 0 0 0x60 = some (cached .owned 3) ∧
    (cached .owned 3).dirty ≠ 0 :=
  ⟨⟨by decide +kernel, ⟨_, pair_eq (by decide +kernel), by decide +kernel, by decide +kernel⟩, by decide +kernel, by decide +kernel⟩,
    by decide +kernel, by decide +kernel, ⟨_, pair_eq (by decide +kernel), by decide +kernel⟩, by decide +kernel, by decide +kernel, by decide⟩

theorem witness_writeback : let s : State := { loading 0x3000 with l1 := [cached .owned 3] }
    let p := s.putLine { cached .owned 3 with dirty := 0 }
    s.struckLine (cached .owned 3) = false ∧ (p.homeWrite { vf := 0, gpa := 0x3000, key := 0, ce := false, fund := .resv (.inl 0) (!p.keepsResv 0 24) }
      0x3000 ((maskBytes 3).map fun i => (0x3000 + i, lineByte 0x1122 i))).1 = .done := by decide +kernel

/-- The write is performed: the two dirty bytes reach the home, and no other. -/
theorem test_writeback : let t := nextOf (.writeback 0 0 0x60) { loading 0x3000 with l1 := [cached .owned 3] }
    t.homeBytes 0 0x3000 4 = [0x22, 0x11, 0x33, 0x44] ∧ (t.line? 0 0 0x60).map (·.dirty) = some 0 := by decide +kernel
theorem test_load_miss : ((nextOf (.loadMiss 0 0 0x60) (elsewhere [])).line? 0 0 0x60).map (fun l => (l.bytesAt 0 3, l.st)) =
    some ([0x22, 0x11, 0x33], .shared) := by decide +kernel
theorem test_ownership : (nextOf (.ownershipRequest 0 0 0x60) (elsewhere [cached .shared 0])).l1.map (fun l => (l.core, l.st, l.bytesAt 0 2)) =
    [(0, .owned, [0x22, 0x11])] := by decide +kernel

/-- Stage 2 of VF 0 maps its first 2 MiB onto themselves; the table stands at 0x5000. -/
def staged (e : Nat) : State :=
  { mem8 (mem8 (world 0) 0x5000 e) 0x3000 0x1122 with }.modVf 0 fun v => { v with s2base := 0x5000, gpab := 21 }

theorem witness_home_write (gpa len : Nat) (h : (gpa, len) = (0x3000, 1) ∨ (gpa, len) = (0x3078, 8) ∨ (gpa, len) = (0x3080, 128)) :
    0 < len ∧ gpa % 128 + len ≤ 128 ∧ (∃ tr q, (staged 0x7).translateGpa 0 gpa .store = (.ok tr, q) ∧ tr.target = .device gpa) ∧
      ∀ x ∈ (staged 0x7).l1, x.home ≠ .device (gpa / 128 * 128) := by
  refine ⟨?_, ?_, ⟨⟨.device gpa, gpa, 0, false, 0⟩, _, pair_eq ?_, rfl⟩, ?_⟩
  all_goals
    simp only [Prod.mk.injEq] at h
    obtain ⟨rfl, rfl⟩ | ⟨rfl, rfl⟩ | ⟨rfl, rfl⟩ := h <;> decide +kernel

theorem test_home_write : let t := nextOf (.homeWrite 0 0x3001 2 0xbbaa) (staged 0x7)
    t.homeBytes 0 0x3000 4 = [0x22, 0xaa, 0xbb, 0] := by decide +kernel

theorem witness_scrub : ({ world 0 with descs := [(24, { scrub := true, owned := true, count := 8, codec := 3 })] } : State).desc 24 =
    { scrub := true, owned := true, count := 8, codec := 3 } := by decide +kernel

theorem test_scrub_clear : ((nextOf (.scrubClear 24) { world 0 with descs := [(24, { scrub := true, owned := true, count := 8, codec := 3 })] }).desc 24).count = 0 := by
  decide +kernel

/-! ### Hypotheses that are met: the matrix array and the quay processor (spec/08, spec/09) -/

/-- The array belongs to the context: x20 a format word, x21 and x22 panel addresses. -/
def matrixWorld (f a b : Word) : State :=
  { withRegs (world 0) [(20, f), (21, a), (22, b)] with
    ctxs := [{ id := 0, vf := 0, priv := true, hbase := 0x10000, hsize := 0x10000
               layouts := [(3, 1 + 2 * 2 ^ 8 + 2 ^ (8 * 0x18) + 2 ^ (8 * 0x18 + 32) + 2 ^ (8 * 0x18 + 48) + 2 ^ (8 * 0x28 + 32) +
                 2 ^ (8 * 0x28 + 40) + 2 ^ (8 * 0x28 + 48) + 2 ^ (8 * 0x28 + 56) + 2 ^ (8 * 0x30 + 32) + 2 ^ (8 * 0x30 + 48))] }] }.modCore 0 fun k =>
    { k with rowA := some 0, rowW := some 0, rowC := some 0 }

theorem matrix_issued (f a b : Word) {rs : List Reg} (h : engineOk .thread rs false = true) :
    Issued (matrixWorld f a b) (alone false) .thread rs :=
  issued_one (l := me false) rfl rfl (by
    have : (matrixWorld f a b).thread (me false) = { id := me false, ctx := 0, pc := 0x1000, regs := [(20, f), (21, a), (22, b)] } := by
      simp [matrixWorld, withRegs, State.thread, State.modCore, State.setCore]
    rw [this]; exact ⟨rfl, rfl, rfl, Nat.le_refl 16, by simp⟩) h

/-- The layout record of handle 3. -/
def oneRow : Conv := ((matrixWorld 0 3 0).convRec? 0 3).getD ⟨0, 0, 0, 0, 0, 0, 0, 0, 0, 0, 0, 0, 0, 0, 0, 0, 0, 0, 0⟩

/-- The panels at the ends of the buffers, for every operation. -/
theorem witness_matrix_op : isLeader 0 = true ∧ ((matrixWorld 0 0 0).coreAt 0).matQ.length < 8 ∧ ((matrixWorld 0 0 0).coreAt 0).rowA = some 0 ∧
    (∀ h ∈ halves2 0 ((matrixWorld 0 0 0).pairOf (alone false)), ((matrixWorld 0 0 0).coreAt h).rowW = some 0 ∧ ((matrixWorld 0 0 0).coreAt h).rowC = some 0) ∧
    (fmtLegal .mm (fmtWord 0x9022) = true ∧ tileOk .mm (fmtWord 0x9022) 3 = true ∧
      0xf000 % 128 = 0 ∧ 0xf000 + panelA .mm (fmtWord 0x9022) ≤ 65536 * ((matrixWorld 0 0 0).coreAt 0).split ∧
      0x3e000 % 128 = 0 ∧ 0x3e000 + panelB .mm (fmtWord 0x9022) ≤ 262144) ∧
    (fmtLegal .mms (fmtWord 0x49044) = true ∧ panelA .mms (fmtWord 0x49044) ≤ 65536 * ((matrixWorld 0 0 0).coreAt 0).split ∧
      panelB .mms (fmtWord 0x49044) ≤ 262144) ∧ fmtLegal .mmc (fmtWord 0x9100) = true ∧
    (fmtLegal .mmconv (fmtWord 0x9022) = true ∧ tileOk .mmconv (fmtWord 0x9022) 0 = true ∧
      (∃ c, (matrixWorld 0 3 0).convRec? 0 3 = some c ∧ c.etype = 2 ∧ (3 / 65536 % 256) < c.kh * c.kw ∧
        convAddrs c (depth (fmtWord 0x9022)) 3 = [0] ∧ 0 + elBytes 2 ≤ 65536 * ((matrixWorld 0 0 0).coreAt 0).split)) ∧
    (ctlAload (ctlOf 0x10) false 3 = true ∧ imgBytes (ctlOf 0x10) ≤ 65536 * ((matrixWorld 0 0 0).coreAt 0).split) ∧ ctlAcvt (ctlOf 0x11) false = true ∧ ctlAmax (ctlOf 3) false = true := by
  refine ⟨?_, ?_, ?_, ?_, ?_, ?_, ?_, ⟨?_, ?_, ⟨oneRow, ?_⟩⟩, ?_, ?_, ?_⟩ <;> decide +kernel

theorem test_mm_queued : ((nextOf (.mm 1 20 21 22) (matrixWorld 0x9022 0x80 0x100)).coreAt 0).matQ.map (fun o => (o.kind, o.reads.map fun r => (r.lo, r.hi))) =
    [(.mm 1 0x9022 0x80 0x100, [(0x80, 0x80 + 4096), (0x100, 0x100 + 8192)])] := by decide +kernel

/-- A follower; two lanes that disagree; a word that is illegal; panels out of line. -/
theorem witness_matrix_checks : isLeader 1 = false ∧
    (∃ s : State, s = { matrixWorld 0 0 0 with
        threads := [thr 0 0 .ready 0x1000 [(20, 0x9022)], thr 0 1 .ready 0x1000 [(20, 0x9023), (21, 1), (22, 1)]] } ∧
      ((s.thread ⟨0, 0, 1⟩).rd 20).setWidth 32 ≠ ((s.thread ⟨0, 0, 0⟩).rd 20).setWidth 32 ∧ (s.thread ⟨0, 0, 1⟩).rd 21 ≠ (s.thread ⟨0, 0, 0⟩).rd 21) ∧
    (∀ op, fmtLegal op (fmtWord 0) = false) ∧ (0x40 : Nat) % 128 ≠ 0 ∧ (0x100 : Nat) % 128 = 0 ∧
    0x100 + panelB .mm (fmtWord 0x9022) ≤ 262144 ∧ 0x100 + panelA .mm (fmtWord 0x9022) ≤ 65536 * ((matrixWorld 0 0 0).coreAt 0).split ∧
    fmtLegal .mmconv (fmtWord 0x9022) = true ∧ tileOk .mmconv (fmtWord 0x9022) 1 = true ∧
    (matrixWorld 0x9022 4 0).convRec? 0 ((4 : Word).toNat % 65536) = none ∧
    (matrixWorld 0x9022 0xff0003 0).convRec? 0 ((0xff0003 : Word).toNat % 65536) = some oneRow ∧
    oneRow.kh * oneRow.kw ≤ (0xff0003 : Word).toNat / 65536 % 256 := by
  refine ⟨by decide +kernel, ⟨_, rfl, by decide +kernel⟩, fun op => ?_, by decide +kernel⟩
  cases op <;> decide +kernel

theorem test_fvote_illegal : ((nextOf (.fvote 20) (matrixWorld 0 0 0)).ctx? 0).map (·.stopped.isSome) = some true ∧
    ((nextOf (.fvote 20) (matrixWorld 0x9022 0 0)).thread (me false)).pc = 0x1004 := by decide +kernel
theorem test_tmark : ((nextOf (.tmark 9) (matrixWorld 0 0 0)).coreAt 0).liveMask = 9 := by decide +kernel

def queuedOp (k : MatKind) : MatOp := { seq := 0, kind := k, ctx := 0, pair := false, lanes := [me false] }

/-- An operation waits in the queue, or has executed. -/
theorem witness_array (k : MatKind) : let s := (matrixWorld 0 0 0).modCore 0 fun c => { c with matQ := [queuedOp k] }
    s.spilled = [] ∧ (s.coreAt 0).matQ = queuedOp k :: [] ∧ (queuedOp k).executed = false ∧ s.buffersBad 0 (queuedOp k) = false :=
  ⟨rfl, by rfl, rfl, by rfl⟩

/-- The same with an error in a tile that the operation reads. -/
def errored : State := { (matrixWorld 0 0 0).modCore 0 fun c => { c with matQ := [queuedOp (.amax 0x3)] } with struck := [.buffer 0 2, .buffer 0 5] }

theorem witness_array_kinds : (matrixWorld 0 3 0).convRec? 0 ((3 : Word).toNat % 65536) = some oneRow ∧
    errored.spilled = [] ∧ (errored.coreAt 0).matQ = queuedOp (.amax 0x3) :: [] ∧ errored.buffersBad 0 (queuedOp (.amax 0x3)) = true ∧
    ∃ c, errored.ctx? 0 = some c ∧ c.stopped = none :=
  ⟨by decide +kernel, by rfl, by rfl, by decide +kernel, _, by rfl, rfl⟩

theorem test_array_error : let t := nextOf (.matrixOpExecute 0) errored
    (t.ctx? 0).map (fun c => c.stopped.map fun r => (r.cause, r.sub)) = some (some (18, 4)) := by decide +kernel

/-- The lane waits for the result in a window. -/
def retiring : State :=
  ({ worldWith [{ thr 0 0 .ready 0x1000 with windows := [{ phys := 20, count := 3, arrival := .waiting, tag := 2 }] }] with issue := none } : State).modCore 0 fun c =>
    { c with matQ := [{ queuedOp (.amax 3) with executed := true, result := 0x4000000000000000, flags := 1 }] }

theorem witness_retires : ∃ o x, retiring.Unique ∧ (retiring.coreAt 0).matQ = o :: [] ∧ o.executed = true ∧ o.lanes = [me false] ∧
    retiring.thread (me false) ∈ retiring.threads ∧ (retiring.thread (me false)).ctx = o.ctx ∧ (retiring.thread (me false)).wait = .ready ∧
    (retiring.thread (me false)).windows = [] ++ x :: [] ∧ x.tag = 2 * o.seq + 2 ∧ x.arrival = .waiting :=
  ⟨_, _, unique_of (by decide +kernel), by rfl, rfl, rfl, by decide +kernel, by rfl, by rfl, by rfl, rfl, rfl⟩

theorem test_matrix_retires : let t := nextOf (.matrixOpRetire 0) retiring
    (t.coreAt 0).matQ = [] ∧ (t.thread (me false)).flags = 1 ∧ (t.thread (me false)).windows.map (·.arrival) = [.value 0x4000000000000000] := by
  decide +kernel

/-- A quay thread waits for a kick. -/
def quayWaits : State :=
  (worldWith [thr 0 0 .ready 0x1000, { id := ⟨0, quayBerth, 2⟩, ctx := 0, pc := 0x1000, wait := .qwaiting 0 20 }]).modCore 0 fun k =>
    { k with qctx := some 0, rowA := some 0 }

/-- The last mailbox of the buffer, with a quay thread that waits or none. -/
theorem witness_kick : (matrixWorld 0 0xffc0 0).firstWaiter 0 = none ∧ (0xffc0 : Word).toNat % 64 = 0 ∧
    (0xffc0 : Word).toNat + 64 ≤ 65536 * ((matrixWorld 0 0 0).coreAt 0).split ∧ ((matrixWorld 0 0 0).coreAt 0).kicks.length < 32 ∧
    (me false).berth < 32 ∧ (matrixWorld 0 0xffc0 0).unacked 0 0 = false ∧
    ∃ u, quayWaits.firstWaiter 0 = some (u, 20) ∧ u.id.berth = quayBerth ∧ (quayWaits.coreAt 0).qctx = some 0 ∧
      (quayWaits.coreAt 0).kicks = [] ∧ (quayWaits.coreAt 0).rowA = some 0 ∧ quayWaits.unacked 0 0 = false :=
  ⟨by decide +kernel, by decide, by decide +kernel, by decide +kernel, by decide, by decide +kernel,
    { id := ⟨0, quayBerth, 2⟩, ctx := 0, pc := 0x1000, wait := .qwaiting 0 20 }, by rfl, rfl, by decide +kernel, by decide +kernel,
    by decide +kernel, by decide +kernel⟩

theorem test_kick : let t := nextOf (.qkick 20 21 0) (matrixWorld 0 0x80 0)
    (t.thread (me false)).rd 20 = 1 ∧ (t.coreAt 0).kicks.map (·.mailbox) = [0x80] := by decide +kernel

/-- A quay thread with a descriptor at 0x80 of the A-buffer. -/
def quayWorld (desc : List Nat) (a b : Word) : State :=
  ({ world 0 with issue := some (alone true), threads := [{ id := me true, ctx := 0, pc := 0x1000, regs := [(21, a), (22, b)] }] } : State).modCore 0 fun k =>
    { k with rowA := some 0, rowW := some 0, abuf := writeMap 0 [] 0x80 (desc.flatMap fun n => toBytes n 8) }

theorem quay_issued (d : List Nat) (a b : Word) {rs : List Reg} (h : engineOk .quay rs true = true) : Issued (quayWorld d a b) (alone true) .quay rs :=
  issued_one (l := me true) rfl rfl (by
    have : (quayWorld d a b).thread (me true) = { id := me true, ctx := 0, pc := 0x1000, regs := [(21, a), (22, b)] } := by
      simp [quayWorld, State.thread, State.modCore, State.setCore, me]
    rw [this]; exact ⟨rfl, rfl, rfl, Nat.le_refl 16, by simp⟩) h

theorem witness_take_kick : takeKick 0 [⟨1, 0x40, {}⟩, ⟨0, 0x80, {}⟩] = some (⟨0, 0x80, {}⟩, [⟨1, 0x40, {}⟩]) ∧
    takeKick ((quayWorld [] 0 0).thread (me true)).ctx ((quayWorld [] 0 0).coreAt 0).kicks = none := by decide +kernel

/-- A fill of the A-buffer, a copy into it, a gather, a scatter, a reduction and a codebook of whole units; a descriptor out of line. -/
theorem witness_copies : (quayWorld [1, 0x100, 16, 7] 0x80 0x3000).Unique ∧ (quayWorld [] 0x80 0x3000).inFlight 0 < 64 ∧ (0x80 : Word).toNat % 64 = 0 ∧
    (0x88 : Word).toNat % 64 ≠ 0 ∧ (0x80 : Word).toNat + 64 ≤ 65536 * ((quayWorld [] 0 0).coreAt 0).split ∧
    ((quayWorld [] 0 0).coreAt 0).rowA = some 0 ∧ ((quayWorld [] 0 0).coreAt 0).rowW = some 0 ∧ ((quayWorld [] 0 0).coreAt 0).copies = [] ∧
    (quayWorld [] 0 0).wroteBy 0 (quayFrame 0) = [] ∧ ((0x3000 : Word).toNat % 8 = 0 ∧ (0x3000 : Word).toNat < 2 ^ 48) :=
  ⟨unique_of (by decide +kernel), by decide +kernel⟩

theorem witness_jobs : (∀ p ∈ [(CopyKind.qfill, [1, 0x100, 16, 7]), (.qlin, [4, 0x3000, 0x200, 16]), (.qgath, [0, 0x3000, 0x200, 2, 0x300]),
        (.qscat, [0, 0x3000, 0x200, 0, 0x300]), (.qred, [0, 0x200, 0x3000, 16]), (.qcbk, [3, 0x3000])],
      ∃ j, ((quayWorld p.2 0x80 0x3000).picked.otherJob 0 0 0x80 p.1
          ((List.range 8).map fun n => BitVec.ofNat 64 (p.2[n]?.getD 0))) = .ok j ∧ copyAddrBad j.bufs 65536 0x3000 = none ∧ j.pair = false) := by
  have h : ∀ (k : CopyKind) (ds : List Nat), fine ((quayWorld ds 0x80 0x3000).picked.otherJob 0 0 0x80 k
        ((List.range 8).map fun n => BitVec.ofNat 64 (ds[n]?.getD 0))) = true →
      (match (quayWorld ds 0x80 0x3000).picked.otherJob 0 0 0x80 k ((List.range 8).map fun n => BitVec.ofNat 64 (ds[n]?.getD 0)) with
        | .ok j => decide (copyAddrBad j.bufs 65536 0x3000 = none) && !j.pair
        | .error _ => false) = true →
      ∃ j, ((quayWorld ds 0x80 0x3000).picked.otherJob 0 0 0x80 k ((List.range 8).map fun n => BitVec.ofNat 64 (ds[n]?.getD 0))) = .ok j ∧
        copyAddrBad j.bufs 65536 0x3000 = none ∧ j.pair = false := by
    intro k ds _ h
    generalize (quayWorld ds 0x80 0x3000).picked.otherJob 0 0 0x80 k ((List.range 8).map fun n => BitVec.ofNat 64 (ds[n]?.getD 0)) = r at h
    cases r with
    | error e => cases h
    | ok j => exact ⟨j, rfl, by simpa using h⟩
  intro p hp
  simp only [List.mem_cons, List.not_mem_nil, or_false] at hp
  obtain rfl | rfl | rfl | rfl | rfl | rfl := hp <;> exact h _ _ (by decide +kernel) (by decide +kernel)

theorem test_copy_starts : let t := nextOf (.qfill 20 21 22) (quayWorld [1, 0x100, 16, 7] 0x80 0)
    (t.thread (me true)).rd 20 = 1 ∧ (t.coreAt 0).copies.map (fun c => (c.num, c.total)) = [(1, 2)] := by decide +kernel
theorem test_copy_misaligned : ((nextOf (.qfill 20 21 22) (quayWorld [] 0x88 0)).vf 0).fqWaiting.map (fun r => (r.src, r.cause, r.fva)) = [(3, 2, 0x88)] := by
  decide +kernel

theorem witness_drain : ((quayWorld [] 0 0).coreAt 0).timeline ≤ ((quayWorld [] 0 0).coreAt 0).stamped ∧
    (let s := (quayWorld [] 0 0).modCore 0 fun k => { k with timeline := 2, stamped := 1 }
     (s.coreAt 0).stamped < (s.coreAt 0).timeline) := by decide +kernel

/-- One line, with quota and without; a range that is no whole number of lines. -/
def moorWorld (n : Nat) : State := (quayWorld [] 0x3000 128).modVf 0 fun v => { v with mquota := n }

/-- No way of the mask is a way of the cache. -/
def noWay : State := (moorWorld 1).modVf 0 fun v => { v with masks := [(1, 0)] }

theorem witness_mooring : (∃ q, (moorWorld 1).picked.moorLines 0 0 0x3000 1 = ([some (0x3000, 0)], q) ∧
      (q.sc.map fun x => (x.stack, x.slice, x.set, x.way)).Nodup ∧ (q.sc.map fun x => (x.stack, x.off)).Nodup ∧
      ((moorWorld 1).vf 0).mused + 1 ≤ ((moorWorld 1).vf 0).mquota ∧ ¬16 ≤ q.mooredIn [0x3000] 0x3000 + 1 ∧ (q.moorAll 0 0 [(0x3000, 0)]).isSome = true) ∧
    (∃ q, noWay.picked.moorLines 0 0 0x3000 1 = ([some (0x3000, 0)], q) ∧ ¬16 ≤ q.mooredIn [0x3000] 0x3000 + 1 ∧ q.moorAll 0 0 [(0x3000, 0)] = none) ∧
    ((moorWorld 0).vf 0).mquota < ((moorWorld 0).vf 0).mused + 1 ∧
    (((quayWorld [] 0x400000 128).picked.moorLines 0 0 0x400000 1).1 = [none]) ∧ ¬((0x3000 : Word).toNat % 128 = 0 ∧ (64 : Word).toNat % 128 = 0) :=
  ⟨⟨_, pair_eq (by decide +kernel), by decide +kernel, by decide +kernel, by decide +kernel, by decide +kernel, by decide +kernel⟩,
    ⟨_, pair_eq (by decide +kernel), by decide +kernel, Option.isNone_iff_eq_none.mp (by decide +kernel)⟩,
    by decide +kernel, by decide +kernel, by decide⟩

theorem test_moor : ((nextOf (.qmoor 20 21 22) (moorWorld 1)).thread (me true)).rd 20 = 0 ∧ ((nextOf (.qmoor 20 21 22) (moorWorld 1)).vf 0).mused = 1 ∧
    ((nextOf (.qmoor 20 21 22) (moorWorld 0)).thread (me true)).rd 20 = 1 := by decide +kernel
theorem test_unmoor : ((nextOf (.qunmoor 20 21 22) { nextOf (.qmoor 20 21 22) (moorWorld 1) with
    issue := some (alone true), threads := (quayWorld [] 0x3000 128).threads }).thread (me true)).rd 20 = 1 := by decide +kernel

theorem witness_quay_starts : let s := (world 0).modCore 0 fun k => { k with kicks := [⟨0, 0x80, {}⟩], qctx := none }
    ∃ c, (s.coreAt 0).kicks = ⟨0, 0x80, {}⟩ :: [] ∧ s.ctx? 0 = some c ∧ (s.coreAt 0).qctx ≠ some 0 ∧ s.quayFree 0 = true :=
  ⟨_, by rfl, by rfl, by decide +kernel, by decide +kernel⟩

/-- A copy in flight on core 0. -/
def copying (c : Copy) : State := (loading 0x3000).modCore 0 fun k => { k with copies := [c], timeline := 1, rowA := some 0, rowW := some 0 }

def fillA : Copy := { num := 1, kind := .qfill, ctx := 0, quay := 0, desc := [1, 0x100, 16, 7, 0, 0, 0, 0], total := 2 }
def fillG : Copy := { fillA with desc := [0, 0x3000, 16, 7, 0, 0, 0, 0] }
def linear : Copy := { fillA with kind := .qlin, desc := [4, 0x3000, 0x200, 16, 0, 0, 0, 0] }

theorem witness_copy_steps : (∀ c ∈ [fillA, fillG, linear, { fillA with done := 2 }, { fillA with done := 2, retired := true, stamp := 0x3000 }],
      (copying c).Unique ∧ (copying c).spilled = [] ∧ (copying c).copy? 0 1 = some c ∧ (((copying c).coreAt 0).copies.map (·.num)).Nodup ∧
        firstCopy ((copying c).coreAt 0).copies = some c ∧ (copying c).copyAwaits 0 1 = false ∧ (copying c).framesBehind 0 c = [] ∧ c.stampSent = false) ∧
    ((copying fillA).copyMoves 0 fillA = true ∧ dw fillA.desc 0 % 4 = 1 ∧ flag (dw fillA.desc 0) 2 = false ∧ (copying fillA).heldUnit fillA ((copying fillA).unitOf 0 fillA 0) 8 = false) ∧
    (∃ q, (copying fillG).copyMoves 0 fillG = true ∧ dw fillG.desc 0 % 4 = 0 ∧ (copying fillG).translate 0 0 0x3000 .store = (.ok (plainTrans 0x3000), q) ∧
      q.sealedOn (dieOf 0) 0 0x3000 8 = false ∧ (∀ x ∈ q.l1, x.home ≠ .device (0x3000 / 128 * 128)) ∧
      (q.homeWrite { vf := 0, gpa := 0x3000, key := 0, ce := false, tc := 1 } 0x3000 (withAddrs 0x3000 (toBytes 7 8))).1 = .done) ∧
    (∃ q, (copying linear).copyMoves 0 linear = true ∧ (∀ x ∈ q.l1, x.home ≠ .device (0x3000 / 128 * 128)) ∧ dw linear.desc 0 = 4 ∧ dw linear.desc 1 % 8 = 0 ∧ (copying linear).translate 0 0 0x3000 .load = (.ok (plainTrans 0x3000), q) ∧ q.bad 0x3000 = false ∧
      (copying linear).heldUnit linear ((copying linear).unitOf 0 linear 0) 8 = false) := by
  refine ⟨?_, by decide +kernel,
    ⟨((copying fillG).translate 0 0 0x3000 .store).2, by decide +kernel, by decide +kernel, pair_eq (by decide +kernel), by decide +kernel,
      by decide +kernel, by decide +kernel⟩,
    ⟨((copying linear).translate 0 0 0x3000 .load).2, by decide +kernel, by decide +kernel, by decide +kernel, by decide +kernel,
      pair_eq (by decide +kernel), by decide +kernel, by decide +kernel⟩⟩
  intro c hc
  simp only [List.mem_cons, List.not_mem_nil, or_false] at hc
  obtain rfl | rfl | rfl | rfl | rfl := hc
  all_goals exact ⟨unique_of (by decide +kernel), by decide +kernel, by decide +kernel, by decide +kernel, by decide +kernel, by decide +kernel,
    by decide +kernel, rfl⟩

theorem witness_stamps : (∃ q, (copying { fillA with done := 2, retired := true, stamp := 0x3000 }).translate 0 0 0x3000 .store = (.ok (plainTrans 0x3000), q) ∧
      q.sealedOn (dieOf 0) 0 0x3000 8 = false ∧
      (q.writeAt { vf := 0, gpa := 0x3000, key := 0, ce := false, tc := 1, kind := .stamp 0 (q.stampNotice 0 0) } 0x3000 (withAddrs 0x3000 (toBytes 1 8))).1 = .done) ∧
    (let c : Copy := { fillA with kind := .qcbk, desc := [3, 0x3000, 0, 0, 0, 0, 0, 0], total := 2, done := 1, after := 0 }
     (copying c).copy? 0 1 = some c ∧ ∀ o ∈ ((copying c).coreAt (leaderOf 0)).matQ, c.after ≤ o.seq) :=
  ⟨⟨_, pair_eq (by decide +kernel), by decide +kernel, by decide +kernel⟩, by decide +kernel⟩

theorem test_copy_unit : readMap 0 ((nextOf (.copyUnit 0 1) (copying linear)).coreAt 0).abuf 0x200 8 = [0x11, 0x22, 0x33, 0x44, 0x55, 0x66, 0x77, 0x88] := by
  decide +kernel
theorem test_stamp_write : let t := nextOf (.stampWrite 0) (copying { fillA with done := 2, retired := true, stamp := 0x3000 })
    t.homeBytes 0 0x3000 8 = [1, 0, 0, 0, 0, 0, 0, 0] ∧ (t.coreAt 0).stamped = 1 ∧ (t.coreAt 0).copies = [] := by decide +kernel

/-! ### Hypotheses that are met: translation, faults, sectors (spec/15, spec/16) -/

/-- No TLB entry; tables at 0x6000 to 0x9000, read through stage 2 at 0x5000, map page 0 onto 0x3000. -/
def walking (e0 e3 : Nat) : State :=
  let s := { mem8 (mem8 (mem8 (mem8 (mem8 (world 0) 0x5000 0x7) 0x6000 e0) 0x7000 0x8003) 0x8000 0x9003) 0x9000 e3 with
    tlb := [], ctxs := [{ id := 0, vf := 0, s1root := 0x6000 }] }
  s.modVf 0 fun v => { v with s2base := 0x5000, gpab := 21 }

/-- The walk reads the table entry at a GPA that is its own home, under key slot 0. -/
def readAt0 (s : State) (a : Nat) : State :=
  let u := (s.walkRead 0 a).2
  u.scAccess 0 3 0 a (u.viewMark 0 0 a)

def walked0 (e0 e3 : Nat) : State := readAt0 (walking e0 e3) 0x6000
def walked1 (e0 e3 : Nat) : State := readAt0 (walked0 e0 e3) 0x7000
def walked2 (e0 e3 : Nat) : State := readAt0 (walked1 e0 e3) 0x8000
def walked3 (e0 e3 : Nat) : State := readAt0 (walked2 e0 e3) 0x9000

/-- What `readAt0` reads. -/
def entryAt (s : State) (a : Nat) : Nat := (s.walkRead 0 a).2.readTable 0 0 a

/-- A page of all permissions; entries that are invalid, malformed or lack a permission; an address above 48 bits. -/
theorem witness_walk : (∀ e ∈ (walking 0x7003 0x301b).tlb, e.ctx ≠ 0) ∧ (walking 0x7003 0x301b).ctx? 0 = some { id := 0, vf := 0, s1root := 0x6000 } ∧
    (∀ x ∈ [(walking 0x7003 0x301b, 0x6000, 0x7003), (walked0 0x7003 0x301b, 0x7000, 0x8003), (walked1 0x7003 0x301b, 0x8000, 0x9003),
        (walked2 0x7003 0x301b, 0x9000, 0x301b), (walking 0x7002 0, 0x6000, 0x7002), (walking 0x7007 0, 0x6000, 0x7007)],
      ∃ u, x.1.walkRead 0 x.2.1 = (.ok (x.2.1, 0), u) ∧ entryAt x.1 x.2.1 = x.2.2) ∧
    e1Legal 0 0x7003 = true ∧ e1Addr 0x7003 = 0x7000 ∧ e1Legal 1 0x8003 = true ∧ e1Legal 2 0x9003 = true ∧ e1Legal 3 0x301b = true ∧
    (∀ p ∈ (walked3 0x7003 0x301b).walkGroup 0 0 0x9000, ¬(flag p.2 0 = true ∧ e1Legal 3 p.2 = true ∧ flag p.2 2 = true)) ∧
    flag 0x301b 3 = true ∧ flag 0x301b 4 = true := by
  refine ⟨by decide +kernel, by decide +kernel, ?_, by decide +kernel⟩
  intro x hx
  simp only [List.mem_cons, List.not_mem_nil, or_false] at hx
  obtain rfl | rfl | rfl | rfl | rfl | rfl := hx <;> exact ⟨_, pair_eq (by decide +kernel), by decide +kernel⟩

theorem witness_walk_end : (∃ q, (walked3 0x7003 0x301b).stage2 0 0x3000 = (.ok { addr := 0x3000, cls := 0, key := 0, ce := false, r := true, w := true, x := false, size := 2 ^ 21, span := 2 ^ 21 }, q) ∧
      q.mapDevice (q.vfPart 0) 0x3000 = some 0x3000) ∧
    (∃ q, (walked3 0x7003 0x40001b).stage2 0 0x400000 = (.error 3, q)) ∧ e1Legal 0 0x7007 = false ∧ flag 0x3013 3 = false :=
  ⟨⟨_, pair_eq (by decide +kernel), by decide +kernel⟩, ⟨_, pair_eq (by decide +kernel)⟩, by decide, by decide⟩

theorem test_walk : ((walking 0x7003 0x301b).translate 0 0 0xabc .store).1 = .ok ⟨.device 0x3abc, 0x3abc, 0, false, 0⟩ ∧
    ((walking 0x7003 0x301b).translate 0 0 0xabc .fetch).1 = .error ⟨5, 0x3abc⟩ ∧ ((walking 0x7003 0x3013).translate 0 0 0xabc .store).1 = .error ⟨2, noGpa⟩ ∧
    ((walking 0x7002 0).translate 0 0 0xabc .load).1 = .error ⟨0, noGpa⟩ ∧ ((walking 0x7003 0x301b).translate 0 0 (2 ^ 48) .load).1 = .error ⟨6, noGpa⟩ := by
  decide +kernel

def record : FaultRec := { src := 0, width := 8, sub := 3, cause := 16, fva := 0x400000, ifa := 0x1000, gpa := 0x400000, lanes := 1, info := 0x10000 }

/-- A record waits, with a place in the ring; another has been written, and its lane is parked. -/
def faulting (live : List FaultRec) (byte : Byte) : State :=
  { worldWith [thr 0 0 .faulted 0x1000] with hostMem := [(0x8005, byte)], issue := none }.modVf 0 fun v =>
    { v with fqbase := 0x8000, fqEn := true, fqLg := 4, fqWaiting := [record], fqLive := live, fqWr := BitVec.ofNat 32 live.length }

theorem witness_record : ((faulting [] 0).vf 0).fqWaiting = record :: [] ∧ ((faulting [] 0).vf 0).fqEn = true ∧
    (((faulting [] 0).vf 0).fqWr - ((faulting [] 0).vf 0).fqRp).toNat ≠ 2 ^ ((faulting [] 0).vf 0).fqLg ∧ ((faulting [] 0).vf 0).fqLg ≤ 20 := by
  decide +kernel

theorem witness_replay (b : Byte) (hb : b = 0 ∨ b = 2) : (faulting [record] b).Unique ∧ ((faulting [record] b).vf 0).fqWr ≠ ((faulting [record] b).vf 0).fqRp ∧
    ((faulting [record] b).vf 0).fqLive.find? (fun y => y.index == ((faulting [record] b).vf 0).fqRp.toNat) = some record ∧ record.src ≤ 1 ∧
    record.laneIds = [me false] ∧ (faulting [record] b).thread (me false) ∈ (faulting [record] b).threads ∧
    ((faulting [record] b).thread (me false)).wait = .faulted ∧ (SMap.get 0 (faulting [record] b).hostMem (0x8000 + 5)).toNat = b.toNat := by
  obtain rfl | rfl := hb
  all_goals refine ⟨unique_of (by decide +kernel), ?_⟩
  all_goals decide +kernel

theorem test_record : let t := nextOf (.faultRecordWrite 0) (faulting [] 0)
    readMap 0 t.hostMem 0x8000 16 = [16, 3, 8, 0, 0, 0, 0, 0, 0, 0, 0x40, 0, 0, 0, 0, 0] ∧ (t.vf 0).fqWr = 1 := by decide +kernel
theorem test_replay : ((nextOf (.replayPointerWrite 0 1) (faulting [record] 0)).thread (me false)).wait = .ready ∧
    ((nextOf (.replayPointerWrite 0 1) (faulting [record] 2)).ctx? 0).map (·.stopped) = some (some { cause := 16, sub := 3, value := 0x400000 }) := by
  decide +kernel

theorem witness_shootdown : ((world 0).vf 0).sdbusy = false ∧
    (∀ b, ∃ d, ({ world 0 with shootdowns := [{ kind := 1, ctx := 0, vf := 0, addr := 0, register := b, lanes := if b then [] else [me false] }] } : State).shootdowns.find?
      ({ world 0 with shootdowns := [{ kind := 1, ctx := 0, vf := 0, addr := 0, register := b, lanes := if b then [] else [me false] }] } : State).shootDone = some d ∧ d.register = b) ∧
    ((world 0).thread (me false)).reissue = none ∧ ((world 0).thread (me false)).windows = [] := by
  refine ⟨by decide +kernel, ?_, by decide +kernel, by decide +kernel⟩
  intro b; cases b <;> exact ⟨_, by rfl, rfl⟩

theorem test_shootdown : (nextOf (.stage2ShootdownVf 0) (world 0)).tlb = [] ∧ ((nextOf (.stage2ShootdownVf 0) (world 0)).vf 0).sdbusy = true := by
  decide +kernel

/-- Sectors that VF 0 may take or give back, at the bounds. -/
def sectors (held burst guar : Nat) : State :=
  let s := world 0
  (s.setCnt 0 0 { s.cnt 0 0 with pool := held, burst := burst, guar := guar }).setFree 0 4

theorem witness_sectors : (sectors 2 6 1).ownStack 0 0 = true ∧ (sectors 2 6 1).ownStack 0 9 = false ∧
    (4 ≤ (sectors 2 6 1).freeAt 0 ∧ ((sectors 2 6 1).cnt 0 0).held + 4 ≤ ((sectors 2 6 1).cnt 0 0).burst) ∧ (sectors 2 6 1).freeAt 0 < 5 ∧
    ((sectors 2 5 1).cnt 0 0).burst < ((sectors 2 5 1).cnt 0 0).held + 4 ∧
    (1 ≤ ((sectors 2 6 1).cnt 0 0).pool ∧ ((sectors 2 6 1).cnt 0 0).guar + 1 ≤ ((sectors 2 6 1).cnt 0 0).held) ∧
    ((sectors 2 6 1).cnt 0 0).held < ((sectors 2 6 1).cnt 0 0).guar + 2 := by decide +kernel

theorem test_transfer : let t := nextOf (.transfer 0 0 4) (sectors 2 6 1)
    (t.vf 0).cmdResult = 0 ∧ (t.cnt 0 0).pool = 6 ∧ t.freeAt 0 = 0 := by decide +kernel
theorem test_reclaim : let t := nextOf (.reclaim 0 0 2) (sectors 2 6 1)
    (t.vf 0).cmdResult = 3 ∧ (t.cnt 0 0).pool = 2 ∧ ((nextOf (.reclaim 0 0 1) (sectors 2 6 1)).vf 0).cmdResult = 0 := by decide +kernel

/-- The command register names the frame at 2 MiB, or an address inside it. -/
def commanded (a : Word) : State := (world 0).modVf 0 fun v => { v with cmdAddr := a }

theorem allSome_map {f : Nat → Option Nat} {g : Nat → Nat} : ∀ l : List Nat, (∀ x ∈ l, f x = some (g x)) → allSome (l.map f) = some (l.map g)
  | [], _ => rfl
  | a :: r, h => by
    have ha := h a (by simp)
    have hr := allSome_map (f := f) (g := g) r fun x hx => h x (by simp [hx])
    simp [allSome, ha, hr]

theorem maps_low {s : State} {p D : Nat} (hd : s.partDies p = [0, 1, 2, 3, 4, 5, 6, 7]) (h : D < 2 ^ 37) : s.mapDevice p D = some D := by
  have h1 : D / 2 ^ 43 % 2 = 0 := by omega
  have h2 : bits D 42 41 = 0 := by simp only [bits]; omega
  have h3 : bits D 40 38 = 0 := by simp only [bits]; omega
  have h4 : D % 2 ^ 38 = D := by omega
  simp only [State.mapDevice, hd, h1, h2, h3, h4, if_true]
  simp [has]
  omega

theorem frame_blocks : (commanded 0x200000).frameBlocks 0 = some ((List.range 4096).map fun i => 4096 + i) := by
  have hm : ∀ i, i < 4096 → ((commanded 0x200000).mapDevice ((commanded 0x200000).vfPart 0) (0x200000 + 512 * i)).map blockOf = some (4096 + i) :=
    fun i hi => by
      rw [maps_low (by decide +kernel) (by omega)]
      simp only [Option.map_some, blockOf]
      congr 1; omega
  have ha : ((commanded 0x200000).vf 0).cmdAddr.toNat = 0x200000 := by decide +kernel
  unfold State.frameBlocks
  simp only [ha, ne_eq]
  rw [if_neg (by decide)]
  exact allSome_map _ fun x hx => hm x (List.mem_range.mp hx)

theorem witness_frames_commands : ∃ bs, (commanded 0x200000).frameBlocks 0 = some bs ∧ bs.Nodup ∧ (∀ b ∈ bs, ((commanded 0x200000).desc b).owned = false) ∧
    (commanded 0x200000).overFull ((commanded 0x200000).vfPart 0) = false ∧ (commanded 0x200200).frameBlocks 0 = none := by
  refine ⟨_, frame_blocks, List.Nodup.map (fun a b h => by simpa using h) List.nodup_range, ?_, by decide +kernel, by decide +kernel⟩
  have : ∀ i, i < 4096 → ((commanded 0x200000).desc (4096 + i)).owned = false := fun i hi => by
    have hd : (commanded 0x200000).descs = [(8, { owned := true, vf := 0, count := 8, codec := 3 })] := by decide +kernel
    simp only [State.desc, hd, SMap.get]
    have : ¬(4096 + i = 8) := by omega
    simp [this, Desc.init]
  intro b hb
  obtain ⟨i, hi, rfl⟩ := List.mem_map.mp hb
  exact this i (List.mem_range.mp hi)

theorem witness_read_descriptor : (commanded 0x1000).mapDevice ((commanded 0x1000).vfPart 0) ((commanded 0x1000).vf 0).cmdAddr.toNat = some 0x1000 ∧
    ((commanded 0x1000).desc 8).codec < 4 ∧ ((commanded 0x1000).desc 8).count ≤ 8 ∧ ((commanded 0x1000).desc 8).vf < 1024 := by decide +kernel

theorem test_read_descriptor : ((nextOf (.readDescriptor 0) (commanded 0x1000)).vf 0).cmdDesc = 3 + 8 * 4 + 2 ^ 49 := by decide +kernel

/-- A posted write that came first, and the place of a discard of one block behind it. -/
def inWrite : InPacket := { req := .pcie 0, line := 0x3000, mask := 1, data := 0, write := 0 }
def inDiscard : InPacket := { req := .pcie 0, line := 0x3000, mask := 0, data := 0, write := 1, discard := some (0x3000, 1) }

/-- A discard of one block whose entry is writable and compressed, writable only, or not writable; of none; behind a posted write. -/
def discarding (e n : Nat) (posted : List InPacket) : State :=
  (staged e).modVf 0 fun v => { v with dgpa := 0x3000, dcount := BitVec.ofNat 32 n, inbound := posted }

theorem witness_discard : ((discarding 0x47 0 []).vf 0).dcount = 0 ∧ ((discarding 0x47 1 []).vf 0).dcount = 1 ∧
    nth? ((discarding 0x47 1 [inDiscard]).vf 0).inbound 0 = some inDiscard ∧ (discarding 0x47 1 [inDiscard]).mayPerform 0 inDiscard = true ∧
    (∀ y ∈ ((discarding 0x47 1 [inDiscard]).vf 0).inbound.erase inDiscard, y.discard = none) ∧
    nth? ((discarding 0x47 1 [inWrite, inDiscard]).vf 0).inbound 1 = some inDiscard ∧
    (∀ y ∈ ((discarding 0x47 1 [inWrite, inDiscard]).vf 0).inbound.erase inDiscard, y.discard = none) ∧
    (discarding 0x47 1 [inWrite, inDiscard]).mayPerform 0 inDiscard = false ∧
    (∃ e q, (discarding 0x47 1 [inDiscard]).stage2 0 0x3000 = (.ok e, q) ∧ e.w = true ∧ e.cls ≠ 3 ∧ e.ce = true ∧
      q.mapDevice (q.vfPart 0) e.addr = some 0x3000 ∧ (q.desc (0x3000 / 512)).owned = true ∧
      ∀ n, n < 4 → ∀ x ∈ q.l1, x.home ≠ .device (0x3000 + 128 * n)) ∧
    (∀ w, ∃ e q, (discarding (if w then 0x7 else 0x3) 1 [inDiscard]).stage2 0 0x3000 = (.ok e, q) ∧ e.w = w ∧ e.cls ≠ 3 ∧ e.ce = false) ∧
    ∃ sub q, (discarding 0 1 [inDiscard]).stage2 0 0x3000 = (.error sub, q) := by
  refine ⟨by decide +kernel, by decide +kernel, by decide +kernel, by decide +kernel, by decide +kernel, by decide +kernel, by decide +kernel,
    by decide +kernel,
    ⟨{ addr := 0x3000, cls := 0, key := 0, ce := true, r := true, w := true, x := false, size := 2 ^ 21, span := 2 ^ 21 }, _, pair_eq (by decide +kernel),
      rfl, by decide, rfl, by decide +kernel, by decide +kernel, by decide +kernel⟩, ?_, ⟨4, _, pair_eq (by decide +kernel)⟩⟩
  intro w
  refine ⟨{ addr := 0x3000, cls := 0, key := 0, ce := false, r := true, w := w, x := false, size := 2 ^ 21, span := 2 ^ 21 }, _, pair_eq ?_, rfl, (by decide : (0 : Nat) ≠ 3), rfl⟩
  cases w <;> decide +kernel

theorem test_discard_refused : ((nextOf (.inboundPacketAck 0 0) (discarding 0x3 1 [inDiscard])).vf 0).dstat = 2 ∧
    ((nextOf (.discard (.pcie 0, 0)) (discarding 0x47 0 [])).vf 0).dstat = 3 := by
  decide +kernel

/-! ### Hypotheses that are met: launch queues, gangs, partitions, the host link (spec/18 to spec/21) -/

/-- The record at the head of a queue whose ring lies in host memory. -/
def recorded (q : QueueId) (ws : List Nat) : State :=
  let s := world 0
  let s : State := { s with issue := none, hostMem := writeMap 0 [] 0x8000 (ws.flatMap fun n => toBytes n 8), gangs := [(0, { valid := true, gid := 3, members := 1, isIn := true })] }
  (s.modVf 0 fun v => { v with en := true }).setQueue q { base := 0x8000, host := true, en := true, lg := 4, tail := 2, head := 0 }

theorem witness_records (q : QueueId) (hq : q = .vf 0 2 ∨ q = .pf 1 3) (k : Nat) (hk : k ∈ [0, 3, 4, 6, 9]) :
    (recorded q [k, 0]).ringInHost q = true ∧ (recorded q [k, 0]).served q = true ∧
    recWord (readMap 0 (recorded q [k, 0]).hostMem 0x8000 128) 0 % 256 = k ∧ queueForeign q 0 = false ∧
    (∃ c, (recorded q [k, 0]).ctx? 0 = some c) ∧ (recorded q [k, 0]).ctx? 7 = none ∧ 2 ≤ (((recorded q [k, 0]).queue q).tail - ((recorded q [k, 0]).queue q).head).toNat ∧
    (recorded q [k, 0]).spilled = [] ∧ (recorded q [k, 0]).spawnHeld = [] ∧ (recorded q [k, 0]).launches = [] ∧
    (recorded q [k, 0]).hostBad 0x8000 128 = false ∧ (recorded q [k, 0]).hostBad 0x8080 128 = false ∧
    ((recorded q [k, 0]).cores.all fun c => decide (c.2.matQ = [])) = true ∧ SMap.wf {} (recorded q [k, 0]).cores = true ∧
    queueForeign (.vf 0 2) (2 ^ 16) = true := by
  simp only [List.mem_cons, List.not_mem_nil, or_false] at hk
  obtain rfl | rfl := hq <;> obtain rfl | rfl | rfl | rfl | rfl := hk
  all_goals
    refine ⟨?_, ?_, ?_, ?_, ⟨_, by rfl⟩, ?_⟩
    all_goals decide +kernel

/-- A codebook record behind an operation that was queued before it. -/
def behindOp : State := { (recorded (.vf 0 2) [4, 0]).modCore 0 fun c => { c with matQ := [queuedOp (.mmz 1)] } with matSeq := 1 }

theorem witness_codebook_waits : (∃ o ∈ (behindOp.coreAt 0).matQ, o.seq < ((behindOp.queue (.vf 0 2)).cbkSeq).getD behindOp.matSeq) ∧
    0 ∈ (behindOp.partCores (behindOp.partOf 0)).filter isLeader := ⟨⟨_, List.mem_singleton.mpr rfl, by decide +kernel⟩, by decide +kernel⟩

theorem test_codebook_waits : ((nextOf (.setCodebook (.vf 0 2)) behindOp).queue (.vf 0 2)).head = 0 ∧
    ((nextOf (.setCodebook (.vf 0 2)) (recorded (.vf 0 2) [4, 0])).queue (.vf 0 2)).head = 1 := by decide +kernel

/-- A legal switch that puts gang 3 out and no gang in, and a queue that has stopped. -/
theorem witness_switch_record : (recorded (.pf 0 0) [5, 100, 3, 0, 0x9001]).served (.pf 0 0) = true ∧
    (recorded (.pf 0 0) [5, 100, 3, 0, 0x9001]).switchLegal (.pf 0 0) (readMap 0 (recorded (.pf 0 0) [5, 100, 3, 0, 0x9001]).hostMem 0x8000 128) = true ∧
    SMap.wf {} (recorded (.pf 0 0) [5, 100, 3, 0, 0x9001]).gangs = true ∧ queueReal (.pf 0 0) = true ∧
    (((recorded (.pf 0 0) [3, 0]).setQueue (.pf 0 0) { base := 0x8000, en := true, tail := 2, stop := true, err := 2 }).queue (.pf 0 0)).stop = true := by
  decide +kernel

theorem test_nop : ((nextOf (.nopRecord (.vf 0 2)) (recorded (.vf 0 2) [0])).queue (.vf 0 2)).head = 1 ∧
    ((nextOf (.nopRecord (.vf 0 2)) (recorded (.vf 0 2) [9])).queue (.vf 0 2)).err = 1 := by decide +kernel
theorem test_tear_down : let t := nextOf (.tearDown (.vf 0 2)) (recorded (.vf 0 2) [6, 0])
    t.groups = [] ∧ t.ctx? 0 = none ∧ readMap 0 t.hostMem 0x8028 8 = [1, 0, 0, 0, 0, 0, 0, 0] := by decide +kernel
theorem test_gang_switch : let t := nextOf (.gangSwitch (.pf 0 0)) (recorded (.pf 0 0) [5, 100, 3, 0, 0x9001])
    t.switches.map (fun w => (w.t, w.gout, w.gin)) = [(100, 3, 0)] ∧ (t.gangEntry 3).map (·.2.gstate) = some 2 := by decide +kernel
theorem test_stop_clear : let q := (nextOf (.queueStopClear (.pf 0 0))
      ((recorded (.pf 0 0) [3, 0]).setQueue (.pf 0 0) { base := 0x8000, en := true, tail := 2, stop := true, err := 2 })).queue (.pf 0 0)
    (q.head, q.err, q.stop) = (2, 0, false) := by decide +kernel

/-- A launch of one root group in the context of the world, whose heap has room for just its frame. -/
def launching (kind gang : Nat) : State :=
  let s := mem8 (recorded (.vf 0 2) [kind, 0, 0x2008, 9, 1 + 2 ^ 32 * 0 + 2 ^ 40 * 8, 0, 0, 0, 0, 0, 0, 0, 0xa000, if kind = 2 then 50 else 0, gang, 0]) 0x2000 0x800
  { s with ctxs := [{ id := 0, vf := 0, hbase := 0x10000, hsize := 0x4200 }]
           tlb := s.tlb.map fun e => { e with core := noCore } }

def launchCtx : Ctx := { id := 0, vf := 0, hbase := 0x10000, hsize := 0x4200 }

theorem witness_launch (kind : Nat) (hk : kind = 1 ∨ kind = 2) : ∃ q' r, (launching kind 0).ringInHost (.vf 0 2) = true ∧ (launching kind 0).served (.vf 0 2) = true ∧
    (launching kind 0).Unique ∧ (kind = 1 ∨ (kind = 2 ∧ (launching kind 0).gangLegal 0 0 = true)) ∧
    launchLegal (readMap 0 (launching kind 0).hostMem 0x8000 128) (.vf 0 2) kind = true ∧ (launching kind 0).behindPf (.vf 0 2) 0 = false ∧
    (launching kind 0).ctx? 0 = some launchCtx ∧ (launching kind 0).peek noCore 0 0x2000 8 .load = (.bytes [0, 8, 0, 0, 0, 0, 0, 0], q') ∧
    taskDesc (ofBytes [0, 8, 0, 0, 0, 0, 0, 0]) = some ⟨8, 128, false, 0x800⟩ ∧ 1 ≤ fits (granulesOf (frameSize 8 128 0)) [(0x10000 / 256, 0x4200 / 256)] ∧
    q'.heapHolds launchCtx 1 (frameSize 8 128 0) = true ∧ (q'.allocFrames launchCtx 1 (frameSize 8 128 0)).1 = [0x12100] ∧
    (launching kind 0).task? 0 0x12100 = none ∧
    (q'.allocFrames launchCtx 1 (frameSize 8 128 0)).2.reserveFrames noCore 0 8 128 [0x12100] = .ok r ∧ (launching kind 0).hostBad 0x8000 128 = false := by
  obtain ⟨r, hr⟩ := reserved_ok (r := (((launching kind 0).peek noCore 0 0x2000 8 .load).2.allocFrames launchCtx 1 (frameSize 8 128 0)).2.reserveFrames
    noCore 0 8 128 [0x12100]) (by obtain rfl | rfl := hk <;> decide +kernel)
  refine ⟨_, r, ?_, ?_, unique_of ?_, ?_, ?_, ?_, ?_, pair_eq ?_, ?_, ?_, ?_, ?_, ?_, hr, ?_⟩
  all_goals obtain rfl | rfl := hk <;> decide +kernel

/-- A record that creates its context, on the far side of every check of its fields. -/
theorem witness_new_context : let bs := ([1, 1, 0x2008, 9, 1 + 2 ^ 40 * 8, 0x10000, 0x5000, 0x1000, 0, 0x200000, 16, 0, 0xa000].flatMap fun n => toBytes n 8) ++ List.replicate 24 0
    launchLegal bs (.vf 0 2) 1 = true ∧ newCtxLegal bs = true ∧ (launching 1 0).ctx? 1 = none := by decide +kernel

theorem test_launch : let t := nextOf (.launch (.vf 0 2)) (launching 1 0)
    t.waiting = [(0, 0x12100)] ∧ (t.queue (.vf 0 2)).head = 1 ∧ (t.task? 0 0x12100).map (fun k => (k.entry, k.arg, k.nkid)) = some (0x2008, 9, 1) := by
  decide +kernel

def timed (st : Nat) (now : Nat) (good : Nat) (ever : Bool) : State :=
  { State.reset with tide := { now := now, state := st, en := true, good := good, everLocked := ever }, gangs := [(0, { valid := true, gid := 3, members := 3, master := 0 })] }

/-- The four states of the tideline, near and far Syncs, and the gang's master. -/
theorem witness_tideline : (timed 0 0 15 false).tide.en = true ∧ (1000 : Int).natAbs ≤ 1000 ∧ ¬((1001 : Int).natAbs ≤ 1000) ∧ 16 ≤ (timed 0 0 15 false).tide.good + 1 ∧
    ((timed 1 (2000000000 * 65536) 0 true).tide.state = 1 ∧ (timed 1 (2000000000 * 65536) 0 true).tide.lastSync + 2000000000 * 65536 ≤ (timed 1 (2000000000 * 65536) 0 true).tide.now) ∧
    ((timed 2 (10000000000 * 65536) 0 true).tide.lostAt + 10000000000 * 65536 ≤ (timed 2 (10000000000 * 65536) 0 true).tide.now) ∧
    (1000000 * 65536 ≤ (timed 0 (1000000 * 65536) 0 true).tide.now ∧ (timed 0 (1000000 * 65536) 0 true).tide.beaconsCome = false) ∧
    (∃ g, (timed 3 0 0 true).firstGang = some g ∧ g.master = 0) ∧ ((0x10000 : BitVec 64).toNat / 65536 % 8 = 1) ∧
    (((timed 1 0 0 true).gang 0).valid = true ∧ ((timed 1 0 0 true).gang 0).master = (timed 1 0 0 true).hm.pkgid ∧ ((timed 1 0 0 true).gang 0).beaconAt ≤ (timed 1 0 0 true).tide.now) := by
  refine ⟨?_, ?_, ?_, ?_, ?_, ?_, ?_, ⟨_, by rfl, rfl⟩, ?_⟩ <;> decide +kernel

theorem test_tideline_locks : (nextOf (.ptpSync 5) (timed 0 7 15 false)).tide.state = 1 ∧ (nextOf (.ptpSync 5) (timed 0 7 15 false)).tide.now = 7 + 5 * 65536 ∧
    (nextOf (.ptpSync 5) (timed 0 7 14 false)).tide.state = 0 ∧ (nextOf (.ptpSync 1001) (timed 1 0 0 true)).tide.state = 2 := by decide +kernel
theorem test_tideline_lost : (nextOf .lockLossTimeout (timed 1 (2000000000 * 65536) 0 true)).tide.state = 2 ∧
    (nextOf .holdoverExpiry (timed 2 (10000000000 * 65536) 0 true)).tide.state = 4 ∧ (nextOf .beaconLossTimeout (timed 0 (1000000 * 65536) 0 true)).tide.state = 4 := by
  decide +kernel
theorem test_beacon : (nextOf (.timeBeacon { kind := 9, opd0 := 9, opd1 := 0x10003 }) (timed 4 0 0 true)).tide.state = 3 ∧
    (nextOf (.timeBeacon { kind := 9, opd0 := 9, opd1 := 0x10003 }) (timed 4 0 0 true)).tide.slew = 9 * 65536 + 3 := by decide +kernel

/-- A timed launch whose instant has come, and a switch that puts gang 3 out. -/
def switching (acted : Option Nat) (reports : List Nat) : State :=
  { world 0 with
    issue := none, tide := { now := 40000 * 65536, state := 1 }
    ctxs := [{ id := 0, vf := 0, gang := 3 }], gangs := [(0, { valid := true, gid := 3, members := 5, isIn := true })]
    launches := [{ id := 4, queue := .vf 0 2, ctx := 0, remaining := 1, timed := some (50, 3), frames := [0x12100] }]
    switches := [{ t := 100, gout := 3, gin := 0, full := false, restore := false, irq := false, rpt := 0x9001, port := 0, acted := acted, reports := reports }] }

theorem witness_timed : (switching none []).spilled = [] ∧ SMap.wf {} (switching none []).gangs = true ∧
    (∃ l, (switching none []).launches.find? (fun l => l.id == 4 && l.due (switching none [])) = some l ∧ l.timed = some (50, 3) ∧ 0 < l.remaining) ∧
    ((switching none []).gangEntry 3).isSome = true ∧ (switching none []).Unique ∧
    (∃ w, (switching none []).switches[0]? = some w ∧ w.acted = none ∧ (switching none []).due ((switching none []).governs w) w.t = true ∧ w.full = false ∧ w.restore = false ∧
      w.timedOut = false ∧ w.gin = 0 ∧ w.gout ≠ w.gin) ∧
    (∃ c, (switching none []).member 3 = some c ∧ (switching none []).ctx? c.id = some c ∧ ((switching none []).coreAt 0).tenant = some c.vf) :=
  ⟨rfl, by decide +kernel, ⟨_, by rfl, rfl, by decide⟩, by decide +kernel, unique_of (by decide +kernel),
    ⟨_, by rfl, rfl, by decide +kernel, rfl, rfl, rfl, rfl, by decide⟩, ⟨_, by rfl, by rfl, by decide +kernel⟩⟩

theorem test_timed_release : let t := nextOf (.timedRelease 4) (switching none [])
    t.waiting = [(0, 0x12100)] ∧ t.launches.map (·.timed) = [none] := by decide +kernel
theorem test_switch : let t := nextOf (.gangSwitchInstant 0) (switching none [])
    t.groups.map (·.halted) = [true] ∧ (t.gangEntry 3).map (·.2.isIn) = some false ∧ t.switches.map (·.acted) = [some 40000] := by decide +kernel

theorem witness_reports : (∃ w, ({ switching (some 200) [] with groups := [], threads := [] } : State).switches[0]? = some w ∧
      ({ switching (some 200) [] with groups := [], threads := [] } : State).reportDue w = true) ∧
    (let p : Packet := { kind := 10, op := 1, src := 2, opd0 := 100, opd1 := 3 }
     lastAbout p 0 (switching (some 200) []).switches = some 0 ∧ ∃ w, (switching (some 200) []).switches[0]? = some w ∧ p.src ∉ w.reports ∧ w.timedOut = false ∧
       w.t.toNat + 20000 ≤ (switching (some 200) []).tlNow ∧ (switching (some 200) []).outstanding w = [2]) ∧
    (∃ w, (switching (some 200) [2]).switches[0]? = some w ∧ (switching (some 200) [2]).outstanding w = [] ∧ w.rpt ≠ 0) ∧
    (∀ w ∈ (switching none []).switches, w.about { kind := 10, op := 1, src := 2, opd0 := 101, opd1 := 3 } = false) ∧
    (switching none []).coordOf 3 = 0 ∧ (2 : Nat) ≠ (switching none []).coordOf 3 :=
  ⟨⟨_, by rfl, by decide +kernel⟩, ⟨by decide +kernel, ⟨_, by rfl, by decide +kernel, rfl, by decide +kernel, by decide +kernel⟩⟩,
    ⟨_, by rfl, by decide +kernel, by decide⟩, by decide +kernel, by decide +kernel, by decide +kernel⟩

theorem test_straggler : ((nextOf (.stragglerTimeout 0) (switching (some 200) [])).gangEntry 3).map (fun g => (g.2.sv, g.2.strag)) = some (true, 2) ∧
    readMap 0 (nextOf (.stragglerTimeout 0) (switching (some 200) [2])).hostMem 0x9000 9 = [200, 0, 0, 0, 0, 0, 0, 0, 33] := by decide +kernel

/-! ### Partitions -/

/-- Two quarters of the package, and two halves. -/
def parted (a b c d : Nat) : State :=
  ((((world 0).setPart 0 { (world 0).part 0 with shape := a, margin := 1, oper := 3 }).setPart 1 { (world 0).part 1 with shape := b }).setPart 2
    { (world 0).part 2 with shape := c }).setPart 3 { (world 0).part 3 with shape := d }

theorem witness_partitions : (parted 1 1 1 1).mergePart 0 = some 1 ∧ (parted 2 0 2 0).mergePart 0 = some 2 ∧ (parted 1 1 1 1).mergePart 1 = none ∧
    (parted 1 1 1 1).firstBusy ((parted 1 1 1 1).vfsOf 0 ++ (parted 1 1 1 1).vfsOf 1) = none ∧
    (parted 1 1 1 1).spreadOn ((parted 1 1 1 1).partDies 0 ++ (parted 1 1 1 1).partDies 1) = false ∧
    ((parted 1 1 1 1).sealKeys ((parted 1 1 1 1).vfsOf 0 ++ (parted 1 1 1 1).vfsOf 1)).length ≤ 256 ∧
    ((parted 2 0 2 0).splitPart 0 = some 1 ∧ (parted 2 0 2 0).splitOk 0 1 1 = true ∧ (parted 3 0 0 0).splitPart 0 = some 2) ∧ (parted 1 1 1 1).splitPart 0 = none ∧
    (parted 1 1 1 1).adjacent 0 1 = true ∧ (parted 1 1 1 1).adjacent 0 0 = false ∧ ((parted 1 1 1 1).part 0).shape ≠ 0 ∧ ((parted 2 0 2 0).part 1).shape = 0 ∧
    (∀ c, c < 4 → (parted 1 1 1 1).coreBusy c = false) ∧ ((parted 1 1 1 1).modCore 1 fun k => { k with matQ := [queuedOp (.mmz 1)] }).coreBusy 1 = true := by
  decide +kernel

/-- A step that has begun: a queue has a record to read, a frame is spread, or there are more seals than entries. -/
def joined (m : Bool) : State := (parted 1 1 1 1).setPart 0 { (parted 1 1 1 1).part 0 with joining := some m }
def busyQueue : State := (joined true).setQueue (.vf 0 2) { base := 0x8000, en := true, lg := 4, tail := 1 }

theorem witness_joining : ((joined true).part 0).joining = some true ∧ (joined true).mergePart 0 = some 1 ∧
    busyQueue.firstBusy (busyQueue.vfsOf 0 ++ busyQueue.vfsOf 1) = some 2 ∧
    ({ joined true with descs := [(9, { owned := true, spread := true })] } : State).spreadOn ((joined true).partDies 0 ++ (joined true).partDies 1) = true ∧
    (let p := (parted 2 0 2 0).setPart 0 { (parted 2 0 2 0).part 0 with joining := some false }
     (p.part 0).joining = some false ∧ p.splitPart 0 = some 1 ∧ p.splitOk 0 1 1 = true ∧ p.firstBusy (p.vfsOf 0) = none ∧ p.spreadOn (p.partDies 0) = false ∧
     ({ p with descs := [(2 ^ 30, { owned := true, vf := 0 })] } : State).splitOk 0 1 1 = false) := by decide +kernel

theorem dups_length {α : Type} [BEq α] [LawfulBEq α] : ∀ l bs : List α, (∀ x ∈ l, x ∉ bs) → l.Nodup →
    (List.eraseDupsBy.loop (fun x y => x == y) l bs).length = l.length + bs.length
  | [], bs, _, _ => by simp [List.eraseDupsBy.loop]
  | a :: r, bs, h, hn => by
    have ha : bs.any (fun y => a == y) = false := by
      simp only [List.any_eq_false, beq_iff_eq]
      intro y hy e
      exact h a (by simp) (e ▸ hy)
    have := dups_length r (a :: bs) (fun x hx => by
      simp only [List.mem_cons, not_or]
      exact ⟨fun e => (List.nodup_cons.mp hn).1 (e ▸ hx), h x (by simp [hx])⟩) (List.nodup_cons.mp hn).2
    simp only [List.eraseDupsBy.loop, ha, this, List.length_cons]
    omega

/-- More seals than a die has entries. -/
def manySeals : State := { joined true with seals := (List.range 257).map fun j => { die := 0, ctx := 0, base := 2 ^ 20 * j, lg := 12 } }

theorem witness_many_seals : 256 < (manySeals.sealKeys (manySeals.vfsOf 0 ++ manySeals.vfsOf 1)).length := by
  have h0 : has (manySeals.vfsOf 0 ++ manySeals.vfsOf 1) (manySeals.vfOf 0) = true := by decide +kernel
  have hf : (manySeals.seals.filter fun e => has (manySeals.vfsOf 0 ++ manySeals.vfsOf 1) (manySeals.vfOf e.ctx)) = manySeals.seals :=
    List.filter_eq_self.mpr fun e he => by
      obtain ⟨j, _, rfl⟩ := List.mem_map.mp he
      exact h0
  have hm : (manySeals.seals.map fun e => (e.ctx, e.base, e.lg)) = (List.range 257).map fun j => (0, 2 ^ 20 * j, 12) := List.map_map
  have hn : ((List.range 257).map fun j => ((0 : Nat), 2 ^ 20 * j, (12 : Nat))).Nodup :=
    List.Nodup.map (fun a b h => by simp only [Prod.mk.injEq] at h; omega) List.nodup_range
  unfold State.sealKeys
  rw [hf, hm]
  have := dups_length _ [] (by simp) hn
  simp only [List.eraseDups, List.eraseDupsBy, this]
  simp

theorem test_merge_begins : let t := nextOf (.merge 0) (parted 1 1 1 1)
    (t.part 0).status = 1 ∧ (t.part 0).shape = 1 ∧ (t.part 0).joining = some true := by decide +kernel

theorem test_merge_split_refused : ((nextOf (.merge 1) (parted 1 1 1 1)).part 1).status = 5 ∧ ((nextOf (.split 0) (parted 1 1 1 1)).part 0).status = 5 := by
  decide +kernel
theorem test_lend : let t := nextOf (.lend 0 1) { parted 1 1 1 1 with groups := [], cores := [] }
    (t.part 0).lent = 1 ∧ (t.part 1).borrowed = 1 ∧ ((nextOf (.revoke 0) t).part 0).lent = 0 ∧ ((nextOf (.revoke 0) t).part 1).borrowed = 0 := by decide +kernel

theorem witness_drain_halt : ∃ c, ({ world 0 with ctxs := [{ id := 0, vf := 0, dbg := 1 }], issue := none, cores := [] } : State).ctx? 0 = some c ∧ c.dbg = 1 ∧
    SMap.wf Core.init (world 0).cores = true := ⟨{ id := 0, vf := 0, dbg := 1 }, by rfl, rfl, by decide +kernel⟩

theorem test_halt_drain : ((nextOf (.haltDrainComplete 0) { world 0 with ctxs := [{ id := 0, vf := 0, dbg := 1 }] }).ctx? 0).map (·.dbg) = some 2 := by decide +kernel

/-! ### Hypotheses that are met: the host link, the fabric, the harbourmaster (spec/19 to spec/23) -/

/-- Stage 2 maps the first 2 MiB; the VF is on the fabric under tag 4; its interface runs inside a session. -/
def linked (ps : List InPacket) : State :=
  (staged 0x7).modVf 0 fun v => { v with fen := true, ftag := 4, inbound := ps, tdisp := .run, session := true }

def posted (r : Requester) : InPacket := { req := r, line := 0x3000, mask := 3, data := 0xbbaa, write := 0 }

/-- One VF is presented; a register write waits that came through the VF's port. -/
def fewVfs : State := { linked [] with numVfs := (1, 0) }
def heldBack : State := { linked [] with deferred := [.registerWrite (.pcie 9, .vfOwn 0) 0x218 1] }

theorem witness_inbound : (0x307f % 128 + [(7 : Byte)].length ≤ 128) ∧
    (((linked [posted (.pcie 9)]).vf 0).inbound[0]? = some (posted (.pcie 9)) ∧
      (linked [posted (.pcie 9)]).mayPerform 0 (posted (.pcie 9)) = true ∧
      ∃ q, (linked [posted (.pcie 9)]).translateGpa 0 0x3000 .store = (.ok (plainTrans 0x3000), q) ∧ (∀ x ∈ q.l1, x.home ≠ .device 0x3000) ∧
        (q.homeWrite { vf := 0, gpa := 0x3000, key := 0, ce := false, tc := 2, kind := .inbound false } 0x3000 (lineWrites 0x3000 3 0xbbaa)).1 = .done) ∧
    ((linked []).presented 0 = true ∧ (fewVfs.presented 1 = false) ∧ (linked []).portHeld ((linked []).vfPort 0) = false ∧
      heldBack.presented 0 = true ∧ heldBack.portHeld (heldBack.vfPort 0) = true ∧
      (linked [posted (.pcie 9)]).behindWrites 0 (.pcie 9) = true ∧ (linked [posted (.pcie 9)]).behindWrites 0 (.pcie 8) = false) ∧
    ∃ q, (linked []).translateGpa 0 0x3000 .atomic = (.ok (plainTrans 0x3000), q) ∧ q.bad 0x3000 = false ∧ (∀ x ∈ q.l1, x.home ≠ .device (0x3000 / 128 * 128)) ∧
      ofBytes ((linked []).viewBytes 0 0 0x3000 8) = 0x1122 ∧
      (q.homeWrite { vf := 0, gpa := 0x3000, key := 0, ce := false, tc := 2, atomic := true } 0x3000 (withAddrs 0x3000 (toBytes 0x1123 8))).1 = .done :=
  ⟨by decide, ⟨by decide +kernel, by decide +kernel, ⟨_, pair_eq (by decide +kernel), by decide +kernel, by decide +kernel⟩⟩, by decide +kernel,
    ⟨_, pair_eq (by decide +kernel), by decide +kernel, by decide +kernel, by decide +kernel, by decide +kernel⟩⟩

theorem test_inbound_ack : let t := nextOf (.inboundPacketAck 0 0) (linked [posted (.pcie 9)])
    t.homeBytes 0 0x3000 3 = [0xaa, 0xbb, 0] ∧ (t.vf 0).inbound = [] := by decide +kernel
theorem test_inbound_atomic : let t := nextOf (.inboundAtomicop (.pcie 9) 0 0x3000 .add false true 1 0) (linked [])
    t.homeBytes 0 0x3000 2 = [0x23, 0x11] ∧ t.out = [.completion 0 [0x22, 0x11, 0, 0, 0, 0, 0, 0]] := by decide +kernel

/-- The body of a key message. -/
def keyObj (code slot key : Nat) : List Byte := toBytes (code + 2 ^ 16 * slot) 8 ++ toBytes key 64

/-- A slot that is empty, one of the VF, one of another function; inside and outside a session. -/
def keyed : State := { linked [] with keys := [(0, some { owner := none, key := 1 }), (5, some { owner := some 0, key := 2 }), (6, some { owner := some 1, key := 3 })] }

/-- A reset of the function waits for its shoot-down to end. -/
def erasing : State := keyed.eraseAll 0

theorem witness_keys : keyed.hm.recovery = false ∧ (keyed.vf 0).tdisp = .run ∧ (keyed.vf 0).session = true ∧ keyed.key? 4095 = none ∧
    (∃ k, keyed.key? 5 = some k ∧ k.owner = some 0) ∧ keyed.slotNamed 5 = false ∧ (∀ k, keyed.key? 6 = some k → k.owner ≠ some 0) ∧
    (keyed.modVf 0 fun v => { v with session := false }).keysOpen true 0 = false ∧ keyed.keysOpen false 0 = false ∧
    doeField (keyObj 1 4095 9) 0 1 = 1 ∧ doeField (keyObj 1 4095 9) 2 2 = 4095 ∧ doeField (keyObj 9 1 1) 0 1 = 9 ∧
    (let chunk := [(1 : Byte), 2, 3, 4, 5].take 4
     (3 + 2 ^ 8 * 2) % 256 = 3 ∧ (3 + 2 ^ 8 * 2) / 256 % 4 = 2 ∧ chunk.length = 4 ∧ 4096 + chunk.length = 4100) ∧
    (∃ d, erasing.shootdowns.find? erasing.shootDone = some d ∧ d.erase = true ∧ d.register = false ∧ SMap.wf none erasing.keys = true) ∧
    ({ keyed with hm := { keyed.hm with recovery := true } } : State).hm.recovery = true ∧
    (∀ n, 4 ≤ n → n = Config.imageStore → [(1 : Byte), 2, 3, 4].length ≤ Config.imageStore) := by
  refine ⟨by decide +kernel, by decide +kernel, by decide +kernel, by decide +kernel, ⟨{ owner := some 0, key := 2 }, by rfl, rfl⟩, by decide +kernel, ?_,
    by decide +kernel, by decide +kernel, by decide +kernel, by decide +kernel, by decide +kernel, by decide +kernel,
    ⟨(erasing.shootdowns[0]?).getD { kind := 0, ctx := 0, vf := 0, addr := 0 }, by decide +kernel, by decide +kernel, by decide +kernel, by decide +kernel⟩,
    rfl, fun n h hn => hn ▸ h⟩
  have : keyed.key? 6 = some { owner := some 1, key := 3 } := by rfl
  intro k hk
  rw [this] at hk
  cases hk; decide

theorem test_set_key : ((nextOf (.setKey true 0 (keyObj 1 7 9)) keyed).key? 7).map (fun k => (k.owner, k.key)) = some (some 0, 9) ∧
    (nextOf (.setKey true 0 (keyObj 1 5 9)) keyed).out = [.doe 0x81 1] ∧ (nextOf (.setKey true 0 (keyObj 1 0 9)) keyed).out = [.doe 0x81 2] ∧
    (nextOf (.setKey true 0 (keyObj 9 7 9)) keyed).out = [.doe 0x89 7] := by decide +kernel
theorem test_erase_key : (nextOf (.eraseKey (true, 0) (keyObj 2 5 0)) keyed).key? 5 = none ∧ (nextOf (.eraseKey (true, 0) (keyObj 2 6 0)) keyed).out = [.doe 0x82 1] ∧
    (erasing.key? 5).isSome = true ∧ (nextOf .shootdownCompletion erasing).key? 5 = none := by decide +kernel
theorem test_refused_page : ((nextOf (.priPageResponse 0 0x7000 false) keyed).reach 0 0 (.host 0x7010)).1 = .error ⟨9, 0⟩ := by decide +kernel

/-- A request under the tag of the VF, and under none. -/
def request (k : Nat) (tag : Nat) : Packet := { kind := k, src := 2, ftag := tag, ttag := 6, gpa := 0x3000, size := 1, opd0 := 1, mask := 3, data := 0xbbaa }

theorem witness_fabric : (linked []).vfByTag 4 = some 0 ∧ (linked []).vfByTag 5 = none ∧ (linked []).behindWrites 0 (.fabric 2 4) = false ∧
    (linked [posted (.fabric 2 4)]).behindWrites 0 (.fabric 2 4) = true ∧
    ∃ q, (linked []).translateGpa 0 (0x3000 / 128 * 128) .load = (.ok (plainTrans 0x3000), q) ∧ q.bad 0x3000 = false ∧ ∀ x ∈ q.l1, x.home ≠ .device 0x3000 :=
  ⟨by decide +kernel, by decide +kernel, by decide +kernel, by decide +kernel, ⟨_, pair_eq (by decide +kernel), by decide +kernel, by decide +kernel⟩⟩

theorem test_fabric_atomic : let t := nextOf (.fabricAtomic (request 5 4)) (linked [])
    t.homeBytes 0 0x3000 2 = [0x23, 0x11] ∧ t.out = [.packet (framed { kind := 6, dst := 2, ftag := 4, ttag := 6, gpa := 0x3000, size := 1, opd0 := 0x1122 })] := by
  decide +kernel
theorem test_fabric_no_tag : (2, 4, 6) ∈ ((nextOf (.fabricRead (request 1 5)) (linked [])).out.map fun
    | .packet p => (p.kind, p.status, p.ttag)
    | _ => (0, 0, 0)) := by decide +kernel

/-- A lane waits for the answer under transaction tag 5. -/
def answering (kind : Nat) : State :=
  { worldWith [{ thr 0 0 .ready 0x1000 with windows := [{ phys := 20, count := 3, arrival := .waiting, tag := 11 }] }] with
    issue := none, pendings := [{ ttag := 5, packet := { kind := kind, dst := 2, gpa := 0x9000 }, lane := some (me false), bytes := 4, off := 8, fva := 0x400008 }] }

theorem witness_answers (k : Nat) (hk : k ∈ [1, 5, 3]) : ∃ q x, (answering k).Unique ∧ (answering k).thread (me false) ∈ (answering k).threads ∧
    (answering k).pendingFor { src := 2, ttag := 5 } [k] = some q ∧ q.lane = some (me false) ∧ (answering k).thread (me false) = { thr 0 0 .ready 0x1000 with windows := [x] } ∧
    x.tag = 2 * q.ttag + 1 ∧ x.arrival = .waiting ∧ x.closing.ext = false ∧ (answering k).spilled = [] ∧ q.own = 0 ∧ q.off + q.bytes ≤ 128 ∧
    ((answering k).l1.filter fun y => y.core == q.core).length < l1Lines ((answering k).coreAt q.core).split ∧ (answering k).pendings.Nodup := by
  simp only [List.mem_cons, List.not_mem_nil, or_false] at hk
  obtain rfl | rfl | rfl := hk
  all_goals exact ⟨_, _, unique_of (by decide +kernel), by decide +kernel, by rfl, rfl, by rfl, rfl, rfl, rfl, rfl, rfl, by decide, by decide +kernel, by decide +kernel⟩

theorem test_read_response : ((nextOf (.fabricReadResponse { src := 2, ttag := 5, data := 0x11223344556677889900aabb }) (answering 1)).thread (me false)).windows.map (·.arrival) =
    [.value 0x11223344] := by decide +kernel
theorem test_read_failed : ((nextOf (.fabricReadResponse { src := 2, ttag := 5, status := 2 }) (answering 1)).thread (me false)).windows.map (fun w => match w.arrival with
    | .error c _ g => (c, g)
    | _ => (0, 0)) = [(17, 0x9008)] := by decide +kernel

/-- A member context of gang 3, whose heap has room for a child, and a parent that waits for it. -/
def ganged : State :=
  let s := mem8 (world 0) 0x2000 0x800
  { s with issue := none, ctxs := [{ id := 0, vf := 0, hbase := 0x10000, hsize := 0x4200, gang := 3 }]
           tlb := s.tlb.map fun e => { e with core := noCore }, gangs := [(0, { valid := true, gid := 3, members := 5, isIn := true })]
           barriers := [{ level := 5, inst := 3, ctx := 0, slot := 2, registered := [(0, 0)], arrived := [(0, 0)] }]
           threads := [thr 0 0 (.atBarl 0x15) 0x1000], tasks := [{ plainTask with pending := 1 }] }

theorem witness_gang : ∃ c q r k, ganged.member 3 = some c ∧ ganged.ctx? c.id = some c ∧ ganged.peek noCore 0 0x2000 8 .load = (.bytes [0, 8, 0, 0, 0, 0, 0, 0], q) ∧
    taskDesc (ofBytes [0, 8, 0, 0, 0, 0, 0, 0]) = some ⟨8, 128, false, 0x800⟩ ∧ q.heapHolds c 1 (frameSize 8 128 0) = true ∧
    (q.allocFrames c 1 (frameSize 8 128 0)).2.reserveFrames noCore 0 8 128 (q.allocFrames c 1 (frameSize 8 128 0)).1 = .ok r ∧ ganged.Unique ∧
    ganged.task? 0 0x10000 = some k ∧ k.waitAt = none ∧ (0x10 : Word).toNat / 256 % 2 ^ 24 = (ganged.podBarrier 3 ((0x10 : Word).toNat / 8 % 16)).generation % 2 ^ 24 ∧
    ganged.spilled = [] ∧ (ganged.podBarrier 3 2).arrived = [(0, 0)] := by
  obtain ⟨r, hr⟩ := reserved_ok (r := ((ganged.peek noCore 0 0x2000 8 .load).2.allocFrames { id := 0, vf := 0, hbase := 0x10000, hsize := 0x4200, gang := 3 } 1
    (frameSize 8 128 0)).2.reserveFrames noCore 0 8 128 ((ganged.peek noCore 0 0x2000 8 .load).2.allocFrames { id := 0, vf := 0, hbase := 0x10000, hsize := 0x4200, gang := 3 } 1
    (frameSize 8 128 0)).1) (by decide +kernel)
  exact ⟨{ id := 0, vf := 0, hbase := 0x10000, hsize := 0x4200, gang := 3 }, _, r, { plainTask with pending := 1 }, by decide +kernel, by decide +kernel,
    pair_eq (by decide +kernel), by decide +kernel, by decide +kernel, hr, unique_of (by decide +kernel), by decide +kernel, rfl, by decide +kernel, rfl, by decide +kernel⟩

theorem test_spawn_packet : let t := nextOf (.spawnPacket { kind := 10, op := 7, gid := 3, src := 2, opd0 := 0x2008, opd1 := 9, data := 0x40000 }) ganged
    t.waiting = [(0, 0x12100)] ∧ (t.task? 0 0x12100).map (fun k => (k.arg, k.parent, k.parentPkg)) = some (9, 0x40000, 3) := by decide +kernel
theorem test_pod_release : ((nextOf (.podBarrierRelease { kind := 10, op := 6, gid := 3, src := 2, opd0 := 0x10 }) ganged).thread (me false)).wait = .ready := by
  decide +kernel
theorem test_echo : (nextOf (.echoRequest { kind := 10, op := 3, gid := 3, src := 2, opd0 := 77 }) ganged).out =
    [.packet (framed { dst := 2, kind := 10, gid := 3, op := 4, opd0 := 77, opd1 := 0 })] := by decide +kernel

/-- Seven replays already, and a packet that waits for the link. -/
def linking : State := { State.reset with links := [(3, { replays := 7 })], hm := { State.reset.hm with routes := [(2, 0x83)] } }

theorem witness_links : linking.portOf 2 = some 3 ∧ 8 ≤ (SMap.get ({} : Link) linking.links 3).replays + 1 ∧
    ({ linking with heldPackets := [{ dst := 2, kind := 10 }] } : State).mustHold { dst := 2, kind := 10 } = false := by decide +kernel

theorem test_flit_replay : SMap.get ({} : Link) (nextOf (.flitReplay 3) linking).links 3 = { retraining := true, replays := 0 } ∧
    (nextOf (.linkRetrainComplete 3) { linking with links := [(3, { retraining := true })], heldPackets := [{ dst := 2, kind := 10 }] }).out =
      [.packet (framed { dst := 2, kind := 10 })] := by decide +kernel

/-- Every image verifies or does not, and a state of each number of failed warm starts. -/
theorem witness_starts (n : Nat) (t : Bool) : ({ State.reset with hm := { State.reset.hm with failedWarm := n, trained := t } } : State).hm.failedWarm = n ∧
    ((State.reset.imageGood State.reset.hm.fwImage = true) ∨ State.reset.imageGood State.reset.hm.fwImage = false) := by
  refine ⟨rfl, ?_⟩
  cases State.reset.imageGood State.reset.hm.fwImage
  · exact .inr rfl
  · exact .inl rfl

theorem test_blank : ((world 0).blank (world 0).hm).threads = [] ∧ ((world 0).blank (world 0).hm).mem = [] ∧ ((world 0).blank (world 0).hm).tlb = [] := by
  decide +kernel

/-- The harbourmaster's request area, with a proposal of each kind of state. -/
def asking (bs : List Byte) : State :=
  { State.reset with hm := { State.reset.hm with
      req := writeMap 0 [] 0 bs
      proposals := [{ id := 0, kind := 2, unit := ⟨3, 1⟩, count := 3, first := 0 }, { id := 1, kind := 4, unit := ⟨0, 1⟩, count := 3, first := 0 },
                    { id := 2, kind := 3, unit := ⟨2, 4⟩, state := 1, count := 3, first := 0 }] } }

theorem witness_mailbox : (asking [2]).hm.recovery = false ∧ 1 < (asking [2]).req 0 1 ∧ (asking [0]).req 0 1 = 0 ∧ (asking [1]).req 0 1 = 1 ∧
    (800 ≤ (asking [0x20, 3, 0, 0]).req 0 4 ∧ (asking [0x28, 10, 0, 0]).req 0 4 ≤ 2600) ∧ ¬(800 ≤ (asking [0x1f, 3, 0, 0]).req 0 4) ∧
    (∀ g ∈ (asking []).gangs, g.2.valid = false) ∧ ((asking [1, 0, 5, 0, 1, 0, 16, 1, 240, 0]).req 8 2 ≤ 240 ∧ (asking [1, 0, 5, 0, 1, 0, 16, 1, 240, 0]).req 6 2 + 240 ≤ 512) ∧
    240 < (asking [1, 0, 5, 0, 1, 0, 0, 0, 241, 0]).req 8 2 ∧ (∀ p ∈ (asking [9]).hm.proposals, p.id ≠ (asking [9]).req 0 4) ∧
    (∃ p, ((asking []).hm.proposals.find? fun p => p.id == (asking []).req 0 4) = some p ∧ p.state = 0 ∧ p.kind = 2) ∧
    (∃ p, ((asking [1]).hm.proposals.find? fun p => p.id == (asking [1]).req 0 4) = some p ∧ p.state = 0 ∧ p.kind = 4) ∧
    (∃ p, ((asking [2]).hm.proposals.find? fun p => p.id == (asking [2]).req 0 4) = some p ∧ p.state ≠ 0) := by
  refine ⟨?_, ?_, ?_, ?_, ?_, ?_, ?_, ?_, ?_, ?_, ⟨_, by rfl, rfl, rfl⟩, ⟨_, by rfl, rfl, rfl⟩, ⟨_, by rfl, by decide⟩⟩ <;> decide +kernel

theorem test_power_cap : (nextOf .setPowerCap (asking [0x20, 3, 0, 0])).hm.cap = 800 ∧ (nextOf .setPowerCap (asking [0x1f, 3, 0, 0])).hm.status = 3 := by
  decide +kernel
theorem test_authorise : (nextOf .authoriseProposal (asking [0, 0, 0, 0, 0, 0, 0, 0, 1])).hm.proposals.map (·.state) = [3, 0, 1] ∧
    (nextOf .authoriseProposal (asking [1, 0, 0, 0, 0, 0, 0, 0, 1])).hm.status = 3 := by decide +kernel
theorem test_routes : let t := nextOf .setIdentityAndRoutes (asking ([1, 0, 5, 0, 1, 0, 2, 0, 1, 0] ++ List.replicate 6 0 ++ [0x83]))
    t.hm.pkgid = 5 ∧ SMap.get 0 t.hm.routes 2 = 0x83 := by decide +kernel

/-- Two corrected errors within a day, and a pair that may retire. -/
theorem witness_repairs : (({ asking [] with hm := { (asking []).hm with errors := [(⟨2, 4⟩, 0), (⟨2, 4⟩, 0)] } } : State).errorTimes ⟨2, 4⟩).length = 2 ∧
    (({ asking [] with tide := { now := 86400000000001 * 65536 }, hm := { (asking []).hm with errors := [(⟨2, 4⟩, 1), (⟨2, 4⟩, 0)] } } : State).errorTimes ⟨2, 4⟩).length = 1 ∧
    ∃ i p, (asking []).retirable i = some p := by
  refine ⟨by decide +kernel, by decide +kernel, ?_⟩
  refine ⟨((asking []).hm.proposals[2]?.map (·.island)).getD 0, { id := 2, kind := 3, unit := ⟨2, 4⟩, state := 1, count := 3, first := 0 }, by decide +kernel⟩

/-- A pair that is lent. -/
def lending : State :=
  let i := ((asking []).hm.proposals[2]?.map (·.island)).getD 0
  (asking []).setPart 1 { (asking []).part 1 with lent := bitAt i, margin := bitAt i }

theorem witness_lent_retirement : ∃ i p, lending.retirable i = some p ∧ lending.lender i = some 1 :=
  ⟨((asking []).hm.proposals[2]?.map (·.island)).getD 0, { id := 2, kind := 3, unit := ⟨2, 4⟩, state := 1, count := 3, first := 0 },
    by decide +kernel, by decide +kernel⟩

theorem test_lent_retirement : let i := ((asking []).hm.proposals[2]?.map (·.island)).getD 0
    let t := nextOf (.pairRetirement i) lending
    t.hm.retiredPairs = [i] ∧ (t.part 1).lent = 0 := by decide +kernel

theorem test_thermal : SMap.get fullSpeed (nextOf (.thermalStep 1 1050) State.reset).hm.islands 16 = fullSpeed - 100 ∧
    SMap.get fullSpeed (nextOf (.thermalStep 1 1049) State.reset).hm.islands 16 = fullSpeed ∧
    SMap.get fullSpeed (nextOf (.powerCapStep 3 2470) { State.reset with hm := { State.reset.hm with islands := [(3, 1500)] } }).hm.islands 3 = 1600 := by
  decide +kernel

/-- One island alone is above its lowest clock, and so draws most; which of two draws more is open. -/
theorem witness_draws_most : let s : State := { State.reset with hm := { State.reset.hm with islands := (List.range 128).map fun j => (j, if j = 3 then 1500 else 1200) } }
    s.hm.cap < 2601 ∧ ∀ j, j < 128 → 1200 < SMap.get fullSpeed s.hm.islands j → j = 3 := by decide +kernel

/-! ### Hypotheses that are met: registers and the machine as a whole -/

/-- Commands that have not ended. -/
def busyEverywhere : State :=
  let s : State := { State.reset with hm := { State.reset.hm with status := 1 } }
  (s.modVf 9 fun v => { v with cmdResult := 1, sdbusy := true }).setPart 0 { s.part 0 with shape := 1, status := 1 }

theorem witness_busy : busyEverywhere.hm.status = 1 ∧ (busyEverywhere.vf 9).cmdResult = 1 ∧ (busyEverywhere.vf 9).sdbusy = true ∧
    (busyEverywhere.part 0).status = 1 ∧ (busyEverywhere.part 0).shape ≠ 0 ∧ busyEverywhere.portHeld 0 = false ∧ heldBack.portHeld (spacePort heldBack (.vfOwn 0)) = true ∧
    (State.reset.vf 9).cmdResult ≠ 1 ∧ (State.reset.vf 9).sdbusy = false ∧ State.reset.hm.status ≠ 1 ∧ (1024 : Word).toNat % 2 ^ 16 + State.reset.numVfs.2 ≤ 1024 ∧
    RegSpace.real (resolve (.pf 1) 0x13ff400).1 (resolve (.pf 1) 0x13ff400).2 = true ∧ resolve (.pf 1) 0x13ff100 = (.translation 1023, 0x100) := by
  decide +kernel

theorem witness_registers_of_the_host : State.reset.hm.recovery = false ∧ ({ State.reset with hm := { State.reset.hm with recovery := true } } : State).hm.recovery = true ∧
    RegSpace.real (resolve (.vfOwn 1024) 0x400).1 (resolve (.vfOwn 1024) 0x400).2 = false ∧ ((State.reset.vf 0).fqWr = (State.reset.vf 0).fqRp) ∧
    ((State.reset.setQueue (.vf 3 15) { stop := true }).queue (.vf 3 15)).stop = true ∧ ((parted 1 1 1 1).part 0).shape ≠ 0 ∧ ((parted 1 1 1 1).part 0).status ≠ 1 ∧
    ((5 * 2 ^ 32 + 2 * 2 ^ 16 + 1 : Nat) % 16, Instr.transfer 9 2 5) ∈ [(1, Instr.transfer 9 ((5 * 2 ^ 32 + 2 * 2 ^ 16 + 1) / 2 ^ 16 % 8) ((5 * 2 ^ 32 + 2 * 2 ^ 16 + 1) / 2 ^ 32))] := by
  decide +kernel

theorem test_register_fields : ((nextOf (.registerWrite (.pcie 9, .vfOwn 3) 0x400 0xffffffffffffffff) State.reset).readRegister (.vfOwn 3) 0x400).1 = 0x3fffffffe00 ∧
    ((nextOf (.registerWrite (.pcie 9, .translation 3) 0x108 0) State.reset).readRegister (.translation 3) 0x108).1 = 21 ∧
    (nextOf (.registerWrite (.pcie 9, .translation 3) 0x600 0x300020001) State.reset).agenda = [.transfer 3 2 3] := by decide +kernel

def goesOn : Host.Outcome State Fault Refusal → Bool
  | .next _ => true
  | _ => false

/-- Memory that is canonical, and a step from it that goes on. -/
theorem witness_memory : (world 0).memOk ∧ State.reset.memOk ∧ ∃ t, StepsTo (world 0) t := by
  have h : goesOn (step (world 0)) = true := by decide +kernel
  refine ⟨by unfold State.memOk; decide +kernel, by unfold State.memOk; decide +kernel, ?_⟩
  cases hs : step (world 0) with
  | next t => exact ⟨t, hs⟩
  | fault f => rw [hs] at h; cases h
  | refused r => rw [hs] at h; cases h

/-- One step fetches, decodes and runs the word `0x0058a000` at 0x1000. -/
theorem test_step : (match step (world 0x0e50a963) with
    | .next t => (t.thread (me false)).pc == 0x1004
    | _ => false) = true := by decide +kernel

theorem witness_goes_on : (∀ i, (world 0).issue = some i → i.real = true) ∧
    ∃ i, ({ world 0 with issue := some { alone true with lanes := [⟨0, quayBerth, 4⟩] } } : State).issue = some i ∧ i.real = false := by
  refine ⟨fun i h => ?_, ⟨_, rfl, by decide⟩⟩
  have : i = alone false := by cases h; rfl
  subst this; decide

theorem test_no_engine : step { world 0 with issue := some { alone true with lanes := [⟨0, quayBerth, 4⟩] } } = .fault .noSuchEngine := by
  simp only [step]
  rw [if_neg (by decide)]

theorem test_firmware_chunks : (nextOf (.fwWrite 0x203 0 8 4 [1, 2, 3, 4]) keyed).out = [.doe 0x83 6] ∧
    (nextOf (.fwWrite 0x09 0 8 4 [1, 2, 3, 4]) keyed).out = [.doe 0x89 7] := by decide +kernel

/-! ### Hypotheses that are met: further forms -/

/-- Rows of the context of the world stand in its spill slot, at the bottom of its memory. -/
def spilledWorld (a w : Option (SMap Byte)) : State :=
  { world 0 with spilled := [{ core := 0, ctx := 0, a := a, w := w, split := 1 }] }

/-- What the TLB of the world holds. -/
def worldEntry : TlbEntry :=
  { llt := false, core := 0, ctx := 0, vf := 0, base := 0, size := 2 ^ 21, target := .device 0, gpa := 0, key := 0,
    ce := false, r := true, w := true, x := true, w1 := true, x1 := true }

theorem spilled_translate {a w : Option (SMap Byte)} {va : Nat} (h : va < 2 ^ 21) :
    (spilledWorld a w).translate 0 0 va .load = (.ok (plainTrans va), spilledWorld a w) := by
  have hv : (spilledWorld a w).vfPart 0 = 0 := by rfl
  have ht : (spilledWorld a w).tlb = [worldEntry] := by rfl
  have hm : (spilledWorld a w).mapDevice 0 va = some va := maps_low (by rfl) (by omega)
  have h' : va < 2097152 := h
  unfold State.translate
  rw [if_neg (by omega), ht]
  simp [worldEntry, TlbEntry.covers, TlbEntry.permits, permits1, permits2, h', State.reach, Target.plus, hv, hm, plainTrans]

theorem spilled_home {a w : Option (SMap Byte)} (x n : Nat) : (spilledWorld a w).linesHome x n = spilledWorld a w := by
  have h : ∀ y, (spilledWorld a w).comeHome y = spilledWorld a w := fun y => by rfl
  unfold State.linesHome
  generalize List.range _ = is
  induction is with
  | nil => rfl
  | cons i r ih => rw [List.foldl_cons, h]; exact ih

theorem view_length (s : State) (v k a n : Nat) : (s.viewBytes v k a n).length = n := by
  induction n generalizing a with
  | zero => rfl
  | succ n ih => simp [State.viewBytes, ih]

theorem read_back_all {a w : Option (SMap Byte)} {va n : Nat} (hp : ∀ p ∈ cut va (List.replicate n 0), p.1 < 2 ^ 21) :
    ∃ bs, (spilledWorld a w).readBack 0 0 va n = (.bytes bs, spilledWorld a w) ∧
      bs.length = ((cut va (List.replicate n 0)).map (·.2.length)).sum := by
  unfold State.readBack
  generalize cut va (List.replicate n 0) = ps at hp ⊢
  suffices h : ∀ ps : List (Nat × List Byte), (∀ p ∈ ps, p.1 < 2 ^ 21) → ∀ b : List Byte, ∃ bs, ps.foldl _ (Peek.bytes b, spilledWorld a w) =
      (.bytes bs, spilledWorld a w) ∧ bs.length = b.length + (ps.map (·.2.length)).sum by
    simpa using h ps hp []
  intro ps
  induction ps with
  | nil => intro _ b; exact ⟨b, rfl, by simp⟩
  | cons p r ih =>
    intro hp b
    have hb : (spilledWorld a w).bad p.1 = false := by rfl
    have ht := spilled_translate (a := a) (w := w) (hp p (by simp))
    obtain ⟨bs, he, hl⟩ := ih (fun q hq => hp q (by simp [hq])) (b ++ (spilledWorld a w).viewBytes 0 0 p.1 p.2.length)
    refine ⟨bs, ?_, ?_⟩
    · rw [List.foldl_cons]
      simp only [ht, plainTrans, spilled_home, hb, Bool.false_eq_true, if_false]
      exact he
    · rw [hl]
      simp [view_length, Nat.add_assoc]

theorem pieces_lengths : ∀ (n a : Nat) (bs : List Byte), a % 512 = 0 → bs.length ≤ 512 * n →
    ((pieces n a bs).map (·.2.length)).sum = bs.length ∧ ∀ p ∈ pieces n a bs, p.1 < a + 512 * n
  | 0, a, bs, _, h => by
    have : bs = [] := List.length_eq_zero_iff.mp (by omega)
    simp [pieces, this]
  | n + 1, a, bs, ha, h => by
    obtain rfl | hne := eq_or_ne bs []
    · simp [pieces]
    · have ih := pieces_lengths n (a + 512) (bs.drop 512) (by omega) (by simp; omega)
      have hb : bs.isEmpty = false := by simpa using hne
      simp only [pieces, hb, Bool.false_eq_true, if_false, ha, Nat.sub_zero, List.map_cons, List.sum_cons, List.mem_cons, ih.1]
      refine ⟨by simp; omega, ?_⟩
      rintro p (rfl | hp)
      · simp
      · have := ih.2 p hp; omega

theorem cut_lengths {n a : Nat} (ha : a % 512 = 0) (h : a + n + 1024 ≤ 2 ^ 21) :
    ((cut a (List.replicate n (0 : Byte))).map (·.2.length)).sum = n ∧ ∀ p ∈ cut a (List.replicate n (0 : Byte)), p.1 < 2 ^ 21 := by
  have hn : a + 512 * (n / 512 + 2) ≤ a + n + 1024 := by have := Nat.div_mul_le_self n 512; clear h; omega
  have hp := pieces_lengths (n / 512 + 2) a (List.replicate n (0 : Byte)) ha (by simp; omega)
  rw [List.length_replicate] at hp
  rw [cut, List.length_replicate]
  exact ⟨hp.1, fun p hm => Nat.lt_of_lt_of_le (hp.2 p hm) (Nat.le_trans hn h)⟩

/-- Rows that were never there, and rows that were spilled. -/
theorem witness_spilled_rows : ((world 0).coreAt 0).rowA = none ∧ ((world 0).coreAt 0).rowW = none ∧ ((world 0).coreAt 0).rowC = none ∧
    ((world 0).spillOf 0 0).a = none ∧ ((world 0).spillOf 0 0).w = none ∧ ((world 0).spillOf 0 0).c = none ∧
    (∃ bs q, (spilledWorld (some []) none).readBack 0 0 ((spilledWorld (some []) none).slotBase 0 0) (65536 * 1) = (.bytes bs, q) ∧
      bs.length = 65536 * 1 ∧ (q.spillOf 0 0).a.isSome = true ∧ q.coreAt 0 = (spilledWorld (some []) none).coreAt 0) ∧
    ∃ bs q, (spilledWorld none (some [])).readBack 0 0 ((spilledWorld none (some [])).slotBase 0 0 + 0x60000) 262144 = (.bytes bs, q) ∧
      bs.length = 262144 ∧ (q.spillOf 0 0).w.isSome = true ∧ q.coreAt 0 = (spilledWorld none (some [])).coreAt 0 := by
  refine ⟨by decide +kernel, by decide +kernel, by decide +kernel, by decide +kernel, by decide +kernel, by decide +kernel, ?_, ?_⟩
  · have hc := cut_lengths (n := 65536 * 1) (a := 0) rfl (by norm_num)
    obtain ⟨bs, h, hl⟩ := read_back_all (a := some []) (w := none) hc.2
    refine ⟨bs, _, ?_, hl.trans hc.1, by decide +kernel, rfl⟩
    rw [show (spilledWorld (some []) none).slotBase 0 0 = 0 by decide +kernel]; exact h
  · have hc := cut_lengths (n := 262144) (a := 0x60000) rfl (by norm_num)
    obtain ⟨bs, h, hl⟩ := read_back_all (a := none) (w := some []) hc.2
    refine ⟨bs, _, ?_, hl.trans hc.1, by decide +kernel, rfl⟩
    rw [show (spilledWorld none (some [])).slotBase 0 0 + 0x60000 = 0x60000 by decide +kernel]; exact h
/-- Context 1 holds the A-buffer of core 0, and its spill slot lies in pages of the host that have been asked for. -/
def leaving : State :=
  { (world 0).modCore 0 (fun k => { k with rowA := some 1 }) with
    ctxs := [{ id := 0, vf := 0 }, { id := 1, vf := 0 }]
    tlb := [{ llt := false, core := 0, ctx := 1, vf := 0, base := 0, size := 2 ^ 21, target := .host 0, gpa := 0, key := 0, ce := false, r := true, w := true, x := true, w1 := true, x1 := true }]
    hostMissing := (List.range 16).map fun p => (0, p), priAsked := (List.range 16).map fun p => (0, p) }

theorem witness_rows_leave : ∃ u, (leaving.coreAt 0).rowA = some 1 ∧ (leaving.spillOf 0 0).a = none ∧ (leaving.coreAt (leaderOf 0)).matQ = [] ∧
    leaving.spillBytes 0 1 (leaving.spillBase 0 1) (readMap 0 (leaving.coreAt 0).abuf 0 (65536 * (leaving.coreAt 0).split)) = some u ∧
    u.coreAt 0 = leaving.coreAt 0 ∧ u.spilled = leaving.spilled := by
  have h : ((leaving.spillBytes 0 1 (leaving.spillBase 0 1) (readMap 0 (leaving.coreAt 0).abuf 0 (65536 * (leaving.coreAt 0).split))).map fun u =>
    decide (u.coreAt 0 = leaving.coreAt 0) && decide (u.spilled = leaving.spilled)) = some true := by decide +kernel
  obtain ⟨u, hu, hb⟩ := Option.map_eq_some_iff.mp h
  simp only [Bool.and_eq_true, decide_eq_true_eq] at hb
  exact ⟨u, by decide +kernel, by decide +kernel, by decide +kernel, hu, hb.1, hb.2⟩

/-- An image that stands on a core of another partition, and a core that can take it. -/
def homelessWorld : State := { parted 1 1 1 1 with groups := [], spilled := [{ core := 200, ctx := 0 }] }

theorem witness_berths : (∃ g ∈ (nextOf (.sliceEnd 0 1) sliced).groups, g.halted = true) ∧ (nextOf (.sliceEnd 0 1) sliced).Unique ∧
    homelessWorld.canAdopt 5 { core := 200, ctx := 0 } = true ∧ homelessWorld.pairImage { core := 200, ctx := 0 } = false :=
  ⟨by decide +kernel, unique_of (by decide +kernel), by decide +kernel, by decide +kernel⟩

theorem test_adopt : (homelessWorld.adopt 5 0).spilled.map (fun x => (x.core, x.ctx)) = [(5, 0)] := by decide +kernel

/-- A panel that begins at the last line of the A-buffer, and control words that are legal for no operation. -/
theorem witness_matrix_panels : let lim := 65536 * ((matrixWorld 0 0 0).coreAt 0).split
    (lim - 128) % 128 = 0 ∧ panelA .mm (fmtWord 0x9022) ≠ 0 ∧ lim < (lim - 128) + panelA .mm (fmtWord 0x9022) ∧ max (lim - 128) lim = lim ∧
    panelB .mm (fmtWord 0x9022) ≠ 0 ∧ 262144 < 0x3ff80 + panelB .mm (fmtWord 0x9022) ∧ imgBytes (ctlOf 0x10) ≠ 0 ∧ imgBytes (ctlOf 0x11) ≠ 0 ∧
    ctlAload (ctlOf 0xffff) false 3 = false ∧ ctlAcvt (ctlOf 0xffff) false = false ∧ ctlAmax (ctlOf 0xffff) false = false ∧
    (∃ z, z = convAddrs oneRow (depth (fmtWord 0x9022)) 3 ∧ z ≠ []) := by
  refine ⟨?_, ?_, ?_, ?_, ?_, ?_, ?_, ?_, ?_, ?_, ?_, ⟨_, rfl, ?_⟩⟩ <;> decide +kernel

theorem test_aload_votes : ((nextOf (.aload 0 21 22) { matrixWorld 0 0 0 with
    threads := [thr 0 0 .ready 0x1000 [(21, 0x80)], thr 0 1 .ready 0x1000 [(21, 0x80), (22, 1)]]
    issue := some { alone false with lanes := [me false, ⟨0, 0, 1⟩] } }).ctx? 0).map (fun c => c.stopped.map (·.cause)) =
      some (some 3) := by decide +kernel

/-- The C-buffer of the core is another context's, which the core served last: its mark stays with its cells. -/
def marked : State := (matrixWorld 0 0 0).modCore 0 fun k => { k with rowC := some 1, lastCtx := some 1, liveMask := 5 }

theorem test_tmark_keeps : let t := nextOf (.tmark 9) marked
    (t.coreAt 0).maskOf 0 = 9 ∧ (t.coreAt 0).maskOf 1 = 5 ∧ (marked.coreAt 0).maskOf 1 = 5 := by decide +kernel

theorem witness_kick_taken : (matrixWorld 0 0xffc0 0).quayOut 0 = false ∧ quayWaits.quayOut 0 = false := by decide +kernel

/-- A kick of a context that is off the core stands before one that is on it; the QP of a context comes back. -/
def kicked : State :=
  ({ world 0 with ctxs := [{ id := 0, vf := 0 }, { id := 1, vf := 1 }] } : State).modCore 0 fun k =>
    { k with kicks := [⟨1, 0x40, {}⟩, ⟨0, 0x80, {}⟩], qctx := none }

def quayImage : QpImage := { threads := [{ id := ⟨0, quayBerth, 1⟩, ctx := 0, pc := 0x1234 }], notice := {}, kicks := [⟨0, 0xc0, {}⟩] }

def quayAway : State := { ({ world 0 with threads := [] } : State).modCore 0 fun k => { k with qctx := none } with spilled := [{ core := 0, ctx := 0, quay := some quayImage }] }

theorem witness_quay_turns : (∃ c, (kicked.coreAt 0).kicks = [⟨1, 0x40, {}⟩] ++ ⟨0, 0x80, {}⟩ :: [] ∧ kicked.ctx? 0 = some c ∧ (kicked.coreAt 0).qctx ≠ some 0 ∧
      kicked.quayFree 0 = true) ∧ (kicked.coreAt 0).tenant = some (kicked.vfOf 0) ∧ kicked.gangIn 0 = true ∧ (kicked.coreAt 0).tenant ≠ some (kicked.vfOf 1) ∧
    kicked.spilled = [] ∧
    (∃ c, quayAway.ctx? 0 = some c ∧ (quayAway.coreAt 0).tenant = some c.vf) ∧ quayAway.gangIn 0 = true ∧ (quayAway.coreAt 0).qctx = none ∧
    (quayImage.threads.map (·.id)).Nodup ∧ ∀ u ∈ quayImage.threads, u.id.core = 0 ∧ u.id.berth = quayBerth ∧ u.wait ≠ .held :=
  ⟨⟨_, by rfl, by rfl, by decide +kernel, by decide +kernel⟩, by decide +kernel, by decide +kernel, by decide +kernel, rfl, ⟨_, by rfl, by decide +kernel⟩,
    by decide +kernel, by decide +kernel, by decide, by decide⟩

theorem test_quay_turns : let t := nextOf (.qpContextStart 0) kicked
    (t.coreAt 0).qctx = some 0 ∧ (nextOf (.qpContextStart 0) quayAway).threads.map (fun u => (u.id.tid, u.pc)) = [(1, 0x1234)] := by decide +kernel

/-- Copies between the other spaces: a linear one to memory, one between buffers, a gather, a scatter, a reduction. -/
def linearG : Copy := { fillA with kind := .qlin, desc := [1, 0x100, 0x3000, 16, 0, 0, 0, 0] }
def linearB : Copy := { fillA with kind := .qlin, desc := [9, 0x100, 0x200, 16, 0, 0, 0, 0] }
def gather : Copy := { fillA with kind := .qgath, desc := [0, 0x3000, 0x200, 2, 0x300, 0, 0, 0] }
def scatter : Copy := { fillA with kind := .qscat, desc := [0, 0x3000, 0x200, 2, 0x300, 0, 0, 0] }
def reduce : Copy := { fillA with kind := .qred, desc := [0, 0x200, 0x3000, 16, 0, 0, 0, 0] }

/-- A tensor of four halfwords at 0x3000. -/
def line4 : BitVec 1024 := BitVec.ofNat 1024 (2 * 2 ^ 8 + 2 ^ 12 + 0x3000 * 2 ^ 64 + (4 + 2 ^ 16 + 2 ^ 32 + 2 ^ 48) * 2 ^ 192 + 2 ^ 256 +
  (4 + 2 ^ 32) * 2 ^ 320 + (1 + 2 ^ 32) * 2 ^ 384 + 2 ^ 448)

def boxIn : Copy := { fillA with kind := .qcopy, record := line4, desc := [0, 0x200, 0, 0, 0, 0, 0, 0], total := 1 }
def boxOut : Copy := { boxIn with desc := [2 ^ 19, 0x200, 0, 0, 0, 0, 0, 0] }

/-- What a copy at unit 0 needs to read global memory at 0x3000 and to write there. -/
theorem witness_copy_spaces (c : Copy) (hc : c ∈ [linearG, linearB, gather, scatter, reduce, boxIn, boxOut]) :
    (copying c).Unique ∧ (copying c).spilled = [] ∧ c.rows = none ∧ (copying c).copy? 0 1 = some c ∧ (((copying c).coreAt 0).copies.map (·.num)).Nodup ∧
    (copying c).copyMoves 0 c = true ∧ (copying c).heldUnit c ((copying c).unitOf 0 c 0) 8 = false ∧
    (∃ r, (copying c).translate 0 0 0x3000 .load = (.ok (plainTrans 0x3000), r) ∧ r.bad 0x3000 = false ∧ ∀ l ∈ r.l1, l.home ≠ .device 0x3000) ∧
    (∃ r, (copying c).translate 0 0 0x3000 .atomic = (.ok (plainTrans 0x3000), r) ∧ r.bad 0x3000 = false) ∧
    ∃ r, (copying c).translate 0 0 0x3000 .store = (.ok (plainTrans 0x3000), r) ∧ r.sealedOn (dieOf 0) 0 0x3000 8 = false ∧
      (∀ l ∈ r.l1, l.home ≠ .device 0x3000) ∧
      (r.homeWrite { vf := 0, gpa := 0x3000, key := 0, ce := false, tc := 1 } 0x3000 (withAddrs 0x3000 (toBytes 7 8))).1 = .done ∧
      (r.homeWrite { vf := 0, gpa := 0x3000, key := 0, ce := false, tc := 1, atomic := true } 0x3000 (withAddrs 0x3000 (toBytes 7 8))).1 = .done := by
  simp only [List.mem_cons, List.not_mem_nil, or_false] at hc
  refine ⟨unique_of ?_, ?_, ?_, ?_, ?_, ?_, ?_, ⟨_, pair_eq ?_, ?_, ?_⟩, ⟨_, pair_eq ?_, ?_⟩, ⟨_, pair_eq ?_, ?_, ?_, ?_, ?_⟩⟩
  all_goals obtain rfl | rfl | rfl | rfl | rfl | rfl | rfl := hc <;> decide +kernel

theorem witness_copy_order : ((copying scatter).scatOrder 0 scatter.desc)[0]? = some (0x3000, 0) ∧
    (qoutUnits (qdescOf 0 boxOut.desc) (tensorOf line4))[0]? = some 0x600 ∧
    (match (copying boxIn).copyReads 0 boxIn ((copying boxIn).unitOf 0 boxIn 0) [] ((copying boxIn).unitOf 0 boxIn 0).fuel with
      | (.ok _, _) => true
      | _ => false) = true ∧
    (qdescOf 0 boxIn.desc).dir1 = false ∧ (qdescOf 0 boxIn.desc).planes = false ∧ (qdescOf 0 boxOut.desc).dir1 = true := by decide +kernel

theorem test_copy_spaces : (nextOf (.copyUnit 0 1) (copying reduce)).homeBytes 0 0x3000 8 = [0x11, 0x22, 0x33, 0x44, 0x55, 0x66, 0x77, 0x88] ∧
    readMap 0 ((nextOf (.copyUnit 0 1) (copying boxIn)).coreAt 0).abuf 0x200 8 = [0x11, 0x22, 0x33, 0x44, 0x55, 0x66, 0x77, 0x88] ∧
    readMap 0 ((nextOf (.copyUnit 0 1) (copying gather)).coreAt 0).abuf 0x300 8 = [0x11, 0x22, 0x33, 0x44, 0x55, 0x66, 0x77, 0x88] ∧
    (nextOf (.copyUnit 0 1) (copying boxOut)).homeBytes 0 0x3000 8 = List.replicate 8 0 := by decide +kernel

/-- Four levels of tables as in `walking`, with an entry for each, and the entries after the first of the last one. -/
def tables (e0 e1 e2 : Nat) (es : List Nat) : State :=
  let s := mem8 (mem8 (mem8 (mem8 (world 0) 0x5000 0x7) 0x6000 e0) 0x7000 e1) 0x8000 e2
  let s : State := { es.zipIdx.foldl (fun s p => mem8 s (0x9000 + 8 * p.2) p.1) s with
    tlb := [], ctxs := [{ id := 0, vf := 0, s1root := 0x6000 }] }
  s.modVf 0 fun v => { v with s2base := 0x5000, gpab := 21 }

/-- The sixteen pages of a 64 KiB group. -/
def sixteen : List Nat := (List.range 16).map fun j => 0x10000 + 4096 * j + 0x1f

def level1 (s : State) : State := readAt0 s 0x6000
def level2 (s : State) : State := readAt0 (level1 s) 0x7000
def level3 (s : State) : State := readAt0 (level2 s) 0x8000

theorem table_at (s : State) (h0 : (match (s.walkRead 0 0x6000).1 with | .ok x => decide (x = (0x6000, 0)) | _ => false) = true)
    (h1 : entryAt s 0x6000 % 4 = 3 ∧ e1Legal 0 (entryAt s 0x6000) = true ∧ e1Addr (entryAt s 0x6000) = 0x7000) :
    s.TableAt 0 0xabc 0x6000 1 0x7000 (level1 s) := by
  refine ⟨0x6000, s, (0x6000, 0), (s.walkRead 0 0x6000).2, ⟨rfl, rfl⟩, ?_, h1.1, h1.2.1, h1.2.2.symm, rfl⟩
  show s.walkRead 0 0x6000 = _
  generalize s.walkRead 0 0x6000 = r at h0
  obtain ⟨_ | x, u⟩ := r
  · cases h0
  · simp at h0; simp [h0]

/-- A TLB entry that serves the access alone. -/
theorem witness_tlb_hit : let serves (e : TlbEntry) : Prop := e.ctx = 0 ∧ (if e.llt then dieOf e.core = dieOf 0 else e.core = 0) ∧
      e.base ≤ 0xabc ∧ 0xabc < e.base + e.size ∧ e.permits .store = true
    ∃ e, e ∈ (world 0).tlb ∧ serves e ∧ (∀ x ∈ (world 0).tlb, serves x → x = e) ∧ e.target = .device 0 ∧
      (world 0).mapDevice ((world 0).vfPart e.vf) (0 + (0xabc - e.base)) = some 0xabc :=
  ⟨worldEntry, by decide +kernel, by decide +kernel, by decide +kernel, rfl, by decide +kernel⟩

/-- Entries of the second table that are invalid, malformed, a block, and a table that is not there. -/
theorem witness_levels : (∀ x ∈ [(0x8002, 0), (0x8007, 1), (0x19, 2), (0x400003, 3)],
      (tables 0x7003 x.1 0 []).TableAt 0 0xabc 0x6000 1 0x7000 (level1 (tables 0x7003 x.1 0 [])) ∧ entryAt (level1 (tables 0x7003 x.1 0 [])) 0x7000 = x.1) ∧
    0x8002 % 2 = 0 ∧ e1Legal 1 0x8007 = false ∧ e1Legal 1 0x19 = true ∧ flag 0x19 1 = false ∧ e1Legal 1 0x400003 = true ∧ walkIndex 1 0xabc = 0 ∧
    (match ((level2 (tables 0x7003 0x400003 0 [])).walkRead 0 0x400000).1 with
      | .error f => decide (f.sub = 3) || !f.waits
      | _ => false) = true := by
  refine ⟨?_, by decide +kernel⟩
  intro x hx
  simp only [List.mem_cons, List.not_mem_nil, or_false] at hx
  obtain rfl | rfl | rfl | rfl := hx
  all_goals exact ⟨table_at _ (by decide +kernel) (by decide +kernel), by decide +kernel⟩

/-- Sixteen entries that agree translate as one of 64 KiB. -/
theorem witness_page_group : let q := level3 (tables 0x7003 0x8003 0x9003 sixteen)
    (∀ j, j < 16 → let e := entryAt q (0x9000 + 8 * j)
      e % 2 = 1 ∧ e1Legal 3 e = true ∧ flag e 2 = true ∧ flag e 3 = true ∧ flag e 4 = true ∧ e1Addr e = 0x10000 + 4096 * j) ∧
    (match ((readAt0 q 0x9000).stage2 0 0x10abc).1 with
      | .ok d => decide (d.addr = 0x10abc) && d.r && d.w && decide (d.cls ≠ 3)
      | _ => false) = true := by
  decide +kernel

/-- A 64 KiB group, and a block of 2 MiB. -/
theorem test_groups : let t := (tables 0x7003 0x8003 0x9003 sixteen).translate 0 0 0x3abc .store
    t.1 = .ok ⟨.device 0x13abc, 0x13abc, 0, false, 0⟩ ∧ (t.2.tlb.map fun e => (e.base, e.size)).contains (0, 65536) = true ∧
    ((tables 0x7003 0x8003 0x19 []).translate 0 0 0x3abc .store).1 = .ok ⟨.device 0x3abc, 0x3abc, 0, false, 0⟩ ∧
    ((tables 0x7003 0x8002 0 []).translate 0 0 0xabc .load).1 = .error ⟨0, noGpa⟩ ∧ ((tables 0x7003 0x8007 0 []).translate 0 0 0xabc .load).1 = .error ⟨1, noGpa⟩ ∧
    ((tables 0x7003 0x400003 0 []).translate 0 0 0xabc .load).1 = .error ⟨8, 0x400000⟩ := by decide +kernel

/-- Windows that close in several ways: two at once behind a longer one, one that has no result, one of an `ld.d.ext`. -/
def several (ws : List Window) : State := { closing (.value 5) with threads := [{ id := me false, ctx := 0, pc := 0x1000, windows := ws }] }

def win (p n : Nat) (a : Arrival) : Window := { phys := p, count := n, arrival := a, closing := { flags := 1 } }
def winExt (fab : Bool) : Window := { phys := 20, count := 1, arrival := .value 5, closing := { ext := true, fabric := fab } }

theorem witness_windows (ws : List Window) (h : ws = [win 20 1 (.value 5), win 21 1 (.value 6), win 22 3 (.value 7)] ∨ ws = [win 20 3 .waiting] ∨
      ws = [winExt false] ∨ ws = [winExt true]) :
    (several ws).issue = some (alone false) ∧ ((several ws).thread (me false)).pc = 0x1000 ∧ ((several ws).thread (me false)).wait = .ready ∧
    ((several ws).thread (me false)).reissue = none ∧ ((several ws).thread (me false)).windows = ws ∧ 16 ≤ ((several ws).thread (me false)).wb ∧
    (∀ w ∈ ws, 1 ≤ w.count) := by
  refine ⟨rfl, ?_, ?_, ?_, ?_, ?_, ?_⟩
  all_goals obtain rfl | rfl | rfl | rfl := h <;> decide +kernel

theorem witness_window_context : ({ several [winExt true] with ctxs := [{ id := 0, vf := 0 }] } : State).ctx? 0 = some { id := 0, vf := 0 } := by rfl

/-- Two windows close, and the third goes on. -/
theorem test_windows : let t := (nextOf (.add 5 20 0) (several [win 20 1 (.value 5), win 21 1 (.value 6), win 22 3 (.value 7)])).thread (me false)
    t.physAt 20 = 5 ∧ t.physAt 21 = 6 ∧ t.windows.map (fun w => (w.phys, w.count)) = [(22, 2)] := by decide +kernel
theorem test_window_before : ((nextOf .yield (several [win 20 3 .waiting])).thread (me false)).wait = .held ∧
    ((nextOf .yield (several [win 20 3 .waiting])).thread (me false)).pc = 0x1000 ∧
    ((nextOf (.jmp 4) (several [win 20 1 .waiting])).thread (me false)).pc = 0x1010 := by decide +kernel

/-! Fault records that pass. -/

def copyRecord : FaultRec := { src := 2, width := 8, sub := 3, cause := 16, fva := 0x3000, ifa := 0x1000, info := 1 }
def quayRecord : FaultRec := { record with src := 3, qt := 0 }

/-- The copy of a record is parked; the quay thread of one is. -/
def copyFaulted (b : Byte) : State := { faulting [copyRecord] b with cores := (copying { fillA with parked := true, done := 1 }).cores }
def quayFaulted (b : Byte) : State := { faulting [quayRecord] b with threads := [{ id := me true, ctx := 0, pc := 0x1000, wait := .faulted }] }

theorem witness_dispositions (b : Byte) (hb : b = 0 ∨ b = 1 ∨ b = 2) : (copyFaulted b).Unique ∧ (quayFaulted b).Unique ∧
    (SMap.get 0 (copyFaulted b).hostMem (0x8000 + 5)).toNat = b.toNat ∧
    ((copyFaulted b).vf 0).fqWr ≠ ((copyFaulted b).vf 0).fqRp ∧
    ((copyFaulted b).vf 0).fqLive.find? (fun y => y.index == ((copyFaulted b).vf 0).fqRp.toNat) = some copyRecord ∧
    (∃ k, (copyFaulted b).copy? copyRecord.core copyRecord.info.toNat = some k ∧ k.ctx = copyRecord.ctx ∧ k.parked = true) ∧
    ((quayFaulted b).vf 0).fqLive.find? (fun y => y.index == ((quayFaulted b).vf 0).fqRp.toNat) = some quayRecord ∧
    me true = ⟨quayRecord.core, quayBerth, quayRecord.qt⟩ ∧ (quayFaulted b).thread (me true) ∈ (quayFaulted b).threads ∧
    ((quayFaulted b).thread (me true)).wait = .faulted ∧ (faulting [] b).presented 0 = true := by
  refine ⟨unique_of ?_, unique_of ?_, ?_, ?_, ?_, ⟨{ fillA with parked := true, done := 1 }, ?_, rfl, rfl⟩, ?_, ?_, ?_, ?_, ?_⟩
  all_goals obtain rfl | rfl | rfl := hb <;> decide +kernel

/-- A lane is faulted beside one that runs: its thread ends alone. -/
def halfFaulted : State := { faulting [record] 1 with threads := [thr 0 0 .faulted 0x1000, thr 0 1 .ready 0x1000] }

theorem witness_ended_thread : halfFaulted.Unique ∧ (halfFaulted.thread ⟨0, 0, 1⟩).wait = .ready ∧ halfFaulted.thread ⟨0, 0, 1⟩ ∈ halfFaulted.threads ∧
    (∀ b w, (halfFaulted.thread b).wait ≠ .atBarl w) ∧ halfFaulted.spilled = [] :=
  ⟨unique_of (by decide +kernel), by decide +kernel, by decide +kernel, no_barl (by decide +kernel), rfl⟩

theorem test_dispositions : ((nextOf (.replayPointerWrite 0 1) halfFaulted).thread (me false)).wait = .exited ∧
    ((nextOf (.replayPointerWrite 0 1) (copyFaulted 0)).copy? 0 1).map (fun c => (c.parked, c.abandoned)) = some (false, false) ∧
    ((nextOf (.replayPointerWrite 0 1) (quayFaulted 0)).thread (me true)).wait = .ready := by decide +kernel

/-! Cores at large. -/

theorem all_cores {s : State} (p : Core → Bool) (hi : p Core.init = true) (h : (s.cores.all fun c => p c.2) = true) : ∀ k, p (s.coreAt k) = true := by
  intro k
  unfold State.coreAt
  generalize s.cores = m at h
  induction m with
  | nil => exact hi
  | cons a r ih =>
    simp only [List.all_cons, Bool.and_eq_true] at h
    unfold SMap.get
    split
    · exact h.1
    · exact ih h.2

theorem witness_cores_at_large : (∀ k, ((switching none []).coreAt k).splitTake = none) ∧
    ∀ k, fits217 (sizeOf3 ((switching none []).groups.filter fun g => g.core == k)) = true := by
  refine ⟨fun k => ?_, fun k => ?_⟩
  · simpa using all_cores (s := switching none []) (fun c => c.splitTake.isNone) (by rfl) (by decide +kernel) k
  · obtain rfl | hk := eq_or_ne k 0
    · decide +kernel
    · have : (switching none []).groups.filter (fun g => g.core == k) = [] := by
        have hg : (switching none []).groups = [{ core := 0, berth := 0, ctx := 0, frame := 0x10000, width := 8, nreg := 128 }] := by decide +kernel
        rw [hg]; simpa using Ne.symm hk
      rw [this]; decide

/-- The outgoing member has acted and reported, its image is not complete, and one report is to come. -/
def fullOut : State :=
  let s := switching (some 200) []
  { s with switches := s.switches.map fun w => { w with full := true, reportSent := true }, gangs := [(0, { valid := true, gid := 3, members := 5 })] }

/-- The spare's area, at 0x2000_0000, holds the head of an image, or zeros. -/
def spareWorld (head : List Nat) : State :=
  let s := head.zipIdx.foldl (fun s p => mem8 s (8 * p.2) p.1) (world 0)
  { s with
    groups := [], tasks := [], ctxs := [{ id := 0, vf := 0, gang := 3, hbase := 0x10000, hsize := 0x10000 }]
    tlb := s.tlb.map fun e => { e with core := noCore, base := 0x20000000 }
    images := [{ ctx := 0, gid := 3, t := 100, layouts := [(3, 7)], cores := [{ core := 9, ctx := 0 }] }] }

def spareCtx : Ctx := { id := 0, vf := 0, gang := 3, hbase := 0x10000, hsize := 0x10000 }

theorem witness_full_switches : (let p : Packet := { kind := 10, op := 1, src := 2, opd0 := 100, opd1 := 3 }
      fullOut.deaf = false ∧ lastAbout p 0 fullOut.switches = some 0 ∧ (∃ w, fullOut.switches[0]? = some w ∧ p.src ∉ w.reports ∧ w.full = true ∧ w.sdone = false ∧
        w.reportSent = true ∧ (∀ m ∈ fullOut.otherMembers w, m ∈ w.reports ∨ m = p.src)) ∧ ∃ c, fullOut.member 3 = some c ∧ fullOut.gangIn c.id = false) ∧
    (spareWorld [0, 3, 100, 0]).ctx? 0 = some spareCtx ∧ ((spareWorld [0, 3, 100, 0]).imageAt spareCtx).1 = none ∧
    (∃ x, ((spareWorld [0, 3, 100, 1]).imageAt spareCtx).1 = some x ∧ x.tasks = []) ∧ ((spareWorld [0, 3, 100, 1]).restoreImage spareCtx).1 = true :=
  ⟨⟨by decide +kernel, by decide +kernel, ⟨_, by rfl, by decide +kernel⟩, ⟨{ id := 0, vf := 0, gang := 3 }, by rfl, by decide +kernel⟩⟩, by decide +kernel,
    by decide +kernel, ⟨{ ctx := 0, gid := 3, t := 100, layouts := [(3, 7)], cores := [{ core := 9, ctx := 0 }] }, by decide +kernel, rfl⟩, by decide +kernel⟩

theorem test_full_switches : let t := ((spareWorld [0, 3, 100, 1]).restoreImage spareCtx).2
    (t.ctx? 0).map (·.layouts) = some [(3, 7)] ∧ t.spilled.map (·.core) = [9] := by decide +kernel

/-- Engines that work and that do not, on a core that changes hands. -/
theorem witness_core_works : (parted 1 1 1 1).coreWorks 70 = false ∧
    ((parted 1 1 1 1).modCore 70 fun k => { k with matQ := [queuedOp (.mmz 1)] }).coreWorks 70 = true ∧ dieOf 70 ∈ shapeDies 1 ((parted 1 1 1 1).part 1).shape := by
  decide +kernel

theorem witness_halt_signals : ∀ u ∈ (world 0).threads, u.ctx = 0 → (world 0).signalling u = false := by decide +kernel

/-- A package in recovery, one whose start has failed, and one that serves. -/
theorem witness_deaf : State.reset.deaf = false ∧ ({ State.reset with hm := { State.reset.hm with recovery := true } } : State).deaf = true ∧
    ({ State.reset with hm := { State.reset.hm with stopped := true } } : State).deaf = true := by decide +kernel

theorem test_deaf : (nextOf (.fabricRead (request 1 4)) { linked [] with hm := { (linked []).hm with stopped := true } }).out = [] := by decide +kernel

/-- A release that names how many groups of the package it frees. -/
theorem witness_freed : (ganged.podBarrier 3 2).freedBy { kind := 10, op := 6, gid := 3, src := 2, opd0 := 0x10 } = (ganged.podBarrier 3 2).arrived ∧
    (ganged.gangIn 0 = true ∨ ganged.isSpare { id := 0, vf := 0, hbase := 0x10000, hsize := 0x4200, gang := 3 } = false) := by decide +kernel

/-- A destination that stays unreachable, with a lane that waits for it. -/
theorem witness_unreachable : ∃ q x, (answering 1).pendings = [q] ∧ (answering 1).outstandingTo 2 q = true ∧ q.lane = some (me false) ∧
    (∀ r ∈ (answering 1).pendings, r.ttag = q.ttag → r = q) ∧ ((answering 1).thread (me false)).windows = [] ++ x :: [] ∧ x.tag = 2 * q.ttag + 1 ∧ x.arrival = .waiting :=
  ⟨_, _, by rfl, by decide +kernel, by rfl, by decide +kernel, by rfl, by rfl, by rfl⟩

theorem test_unreachable : ((nextOf (.fabricUnreachableTimeout 2) (answering 1)).thread (me false)).windows.map (fun w => match w.arrival with
    | .error c u _ => (c, u)
    | _ => (0, 0)) = [(18, 2)] := by decide +kernel

/-- A start that failed serves the mailbox alone. -/
theorem test_stopped_registers : let s : State := { State.reset with hm := { State.reset.hm with stopped := true } }
    ((nextOf (.registerWrite (.pcie 9, .vfOwn 3) 0x400 0x200) s).readRegister (.vfOwn 3) 0x400).1 = 0 ∧
    ((nextOf (.registerWrite (.pcie 9, .pf 0) 0x8000 7) s).readRegister (.pf 0) 0x8000).1 = 7 := by decide +kernel

end Sys2Proof.Tests
end

section
/-! The encodings of the integer opcodes 0x00 to 0x09 (R79 to R86). -/

namespace Sys2Proof.Machine

/-- The instructions of each integer opcode by function code, from code 0 on. -/
def integerCodes (d a b : Reg) : BitVec 7 → List Instr
  | 0x00 => [.add d a b, .sub d a b, .and d a b, .or d a b, .xor d a b, .andn d a b, .orn d a b, .min d a b, .max d a b,
      .minu d a b, .maxu d a b]
  | 0x01 => [.shl d a b, .shr d a b, .sra d a b, .rot d a b]
  | 0x02 => [.mul d a b, .mulh d a b, .mulhu d a b]
  | 0x03 => [.div d a b, .divu d a b, .rem d a b, .remu d a b]
  | 0x04 => [.clz d a, .ctz d a, .popc d a, .brev d a]
  | 0x05 => [.cmpEq d a b, .cmpNe d a b, .cmpLt d a b, .cmpGe d a b, .cmpLtu d a b, .cmpGeu d a b]
  | 0x06 => [.sel d a b]
  | 0x07 => [.lea d a b 0, .lea d a b 1, .lea d a b 2, .lea d a b 3, .lea d a b 4]
  | 0x08 => [.bfx d a b, .bfxS d a b]
  | 0x09 => [.bfi d a b]
  | _ => []

variable {op : BitVec 7} {d a b : Reg} {k : BitVec 4} {i : Instr}

/-- The decoder looks an integer instruction up by its function code; a code beyond the opcode's last is unassigned. -/
theorem decodeWords_integer (hop : op.toNat < 10) (hb : op = 0x04 → b = 0) :
    decodeWords (wordT op d a b k) 0 = ((integerCodes d a b op)[k.toNat]?).elim (.error .function) .ok := by
  unfold decodeWords
  rw [opOf_wordT, d_wordT, a_wordT, b_wordT, k_wordT]
  obtain ⟨⟨op, _⟩⟩ := op
  obtain ⟨⟨k, _⟩⟩ := k
  change op < 10 at hop
  by_cases h4 : op = 4
  · subst h4
    obtain rfl := hb rfl
    interval_cases k <;> rfl
  · obtain h | h : op < 4 ∨ 4 < op := by omega
    all_goals interval_cases op <;> interval_cases k <;> rfl

theorem isLong_integer (hop : op.toNat < 10) : isLong op = false := by
  revert op
  decide

theorem isCode_integer (hop : op.toNat < 10) (hb : op = 0x04 → b = 0) (hi : (integerCodes d a b op)[k.toNat]? = some i) :
    IsCode [wordT op d a b k] i :=
  isCode_short (by rw [opOf_wordT]; exact isLong_integer hop) (by rw [decodeWords_integer hop hb, hi]; rfl)

theorem isNoCode_integer (hop : op.toNat < 10) (hb : op = 0x04 → b = 0) (hk : (integerCodes d a b op).length ≤ k.toNat) :
    IsNoCode [wordT op d a b k] :=
  isNoCode_short (by rw [opOf_wordT]; exact isLong_integer hop)
    (by rw [decodeWords_integer hop hb, List.getElem?_eq_none hk]; rfl)

/-- The b field of the bit opcode is zero (R82). -/
theorem isNoCode_bits_of_b_ne_zero (hb : b ≠ 0) : IsNoCode [wordT 0x04 d a b k] := by
  refine isNoCode_short (e := .zeroField) (by rw [opOf_wordT]; rfl) ?_
  unfold decodeWords
  rw [opOf_wordT, b_wordT]
  exact if_pos hb

/-- Each scale of `lea` up to 4 is its own function code (R85). -/
theorem integerCodes_lea (hk : k.toNat ≤ 4) : (integerCodes d a b 0x07)[k.toNat]? = some (.lea d a b k) := by
  obtain ⟨⟨k, _⟩⟩ := k
  change k ≤ 4 at hk
  interval_cases k <;> rfl

end Sys2Proof.Machine
end

section
/-! The results of the integer instructions as the library's operations on bit vectors (R79 to R86). -/

namespace Sys2Proof.Machine

variable (a b d : Word) (n : Nat)

/-! ### The control word -/

theorem shamt_eq : shamt b = (b.extractLsb' 0 6).toNat := by
  simp [shamt, BitVec.extractLsb'_toNat]

theorem shamt_lt : shamt b < 64 := Nat.mod_lt _ (by decide)

theorem bfPos_eq : bfPos b = (b.extractLsb' 0 6).toNat := shamt_eq b

theorem bfWidth_eq : bfWidth b = (b.extractLsb' 6 7).toNat := by
  simp [bfWidth, bits, BitVec.extractLsb'_toNat, Nat.shiftRight_eq_div_pow]

theorem fieldWidth_eq : fieldWidth b = Nat.min (b.extractLsb' 6 7).toNat (64 - bfPos b) := by
  rw [fieldWidth, bfWidth_eq]

/-! ### Shifts -/

theorem shlV_eq : shlV a n = a <<< n :=
  BitVec.eq_of_toNat_eq (by rw [shlV, BitVec.toNat_ofNat, BitVec.toNat_shiftLeft, Nat.shiftLeft_eq])

theorem shrV_eq : shrV a n = a >>> n := by
  apply BitVec.eq_of_toNat_eq
  rw [shrV, BitVec.toNat_ofNat, BitVec.toNat_ushiftRight, Nat.shiftRight_eq_div_pow,
    Nat.mod_eq_of_lt ((Nat.div_le_self _ _).trans_lt a.isLt)]

theorem sraV_eq : sraV a n = a.sshiftRight n := by
  rw [sraV, wrap64, BitVec.sshiftRight, Int.shiftRight_eq_div_pow]
  norm_cast

/-- The two parts of a rotation have no bit in common, so that their sum is their union. -/
theorem rotV_eq (hn : n < 64) : rotV a n = a.rotateRight n := by
  have disjoint : a >>> n &&& a <<< (64 - n) = 0 := by
    ext j hj
    rw [BitVec.getElem_and, BitVec.getElem_ushiftRight, BitVec.getElem_shiftLeft]
    by_cases hjn : j < 64 - n
    · simp [hjn]
    · simp [BitVec.getLsbD_of_ge a (n + j) (by omega)]
  calc rotV a n = shrV a n + shlV a (64 - n) := BitVec.ofNat_add _ _
    _ = a >>> n + a <<< (64 - n) := by rw [shrV_eq, shlV_eq]
    _ = a >>> n ||| a <<< (64 - n) := BitVec.add_eq_or_of_and_eq_zero _ _ disjoint
    _ = a.rotateRight n := by rw [BitVec.rotateRight, Nat.mod_eq_of_lt hn, BitVec.rotateRightAux]

theorem rotV_shamt : rotV a (shamt b) = a.rotateRight (shamt b) := rotV_eq a _ (shamt_lt b)

/-! ### Products and quotients -/

theorem wrap64_mul_toInt : wrap64 (a.toInt * b.toInt) = a * b :=
  BitVec.eq_of_toInt_eq (by rw [wrap64, BitVec.toInt_ofInt, BitVec.toInt_mul])

theorem extractLsb'_ofInt_high (z : Int) : (BitVec.ofInt 128 z).extractLsb' 64 64 = wrap64 (z / 2 ^ 64) := by
  apply BitVec.eq_of_toNat_eq
  rw [BitVec.extractLsb'_toNat, BitVec.toNat_ofInt, BitVec.toNat_ofInt, Nat.shiftRight_eq_div_pow]
  omega

theorem wrap64_mul_toInt_high :
    wrap64 (a.toInt * b.toInt / 2 ^ 64) = (a.signExtend 128 * b.signExtend 128).extractLsb' 64 64 := by
  rw [BitVec.signExtend, BitVec.signExtend, ← BitVec.ofInt_mul, extractLsb'_ofInt_high]

theorem ofNat_mul_toNat_high :
    BitVec.ofNat 64 (a.toNat * b.toNat / 2 ^ 64) = (a.setWidth 128 * b.setWidth 128).extractLsb' 64 64 := by
  rw [← BitVec.ofNat_toNat, ← BitVec.ofNat_toNat, ← BitVec.ofNat_mul]
  apply BitVec.eq_of_toNat_eq
  rw [BitVec.extractLsb'_toNat, BitVec.toNat_ofNat, BitVec.toNat_ofNat, Nat.shiftRight_eq_div_pow]
  omega

theorem divV_eq : divV a b = if b = 0 then BitVec.allOnes 64 else a.sdiv b := by
  have h : wrap64 (a.toInt.tdiv b.toInt) = a.sdiv b :=
    BitVec.eq_of_toInt_eq (by rw [wrap64, BitVec.toInt_ofInt, BitVec.toInt_sdiv])
  rw [divV, h]

theorem divuV_eq : divuV a b = if b = 0 then BitVec.allOnes 64 else a / b := by
  have h : BitVec.ofNat 64 (a.toNat / b.toNat) = a / b := BitVec.eq_of_toNat_eq (by
    rw [BitVec.toNat_ofNat, BitVec.toNat_udiv, Nat.mod_eq_of_lt ((Nat.div_le_self _ _).trans_lt a.isLt)])
  rw [divuV, h]

theorem remV_eq : remV a b = if b = 0 then a else a.srem b := by
  rw [remV, ← Int.tmod_def, ← BitVec.toInt_srem, wrap64, BitVec.ofInt_toInt]

theorem remuV_eq : remuV a b = if b = 0 then a else a % b := by
  rw [remuV, ← BitVec.toNat_umod, BitVec.ofNat_toNat, BitVec.setWidth_eq]

/-! ### Bit counts and the reversal -/

theorem clzAuxRec_eq_clzGo (hn : n < 64) : a.clzAuxRec n = BitVec.ofNat 64 (63 - n + clzGo a (n + 1)) := by
  induction n with
  | zero => rw [BitVec.clzAuxRec_zero, clzGo]; split <;> rfl
  | succ n ih =>
    rw [BitVec.clzAuxRec_succ, clzGo]
    split
    · rfl
    · rw [ih (by omega), show 63 - (n + 1) + (1 + clzGo a (n + 1)) = 63 - n + clzGo a (n + 1) by omega]

theorem ofNat_clzGo : BitVec.ofNat 64 (clzGo a 64) = a.clz := by
  rw [BitVec.clz, clzAuxRec_eq_clzGo a 63 (by decide), Nat.sub_self, Nat.zero_add]

theorem ctzGo_eq_clzGo_reverse (hn : n ≤ 64) : ctzGo a n = clzGo a.reverse n := by
  induction n with
  | zero => rfl
  | succ n ih =>
    rw [ctzGo, clzGo, ih (by omega), BitVec.getLsbD_reverse, BitVec.getMsbD, decide_eq_true (by omega), Bool.true_and]

theorem ofNat_ctzGo : BitVec.ofNat 64 (ctzGo a 64) = a.ctz := by
  rw [ctzGo_eq_clzGo_reverse a 64 le_rfl, ofNat_clzGo, BitVec.ctz]

theorem popCount_eq_cpopNatRec : popCount a n = a.cpopNatRec n 0 := by
  induction n with
  | zero => rfl
  | succ n ih =>
    rw [popCount, BitVec.cpopNatRec_succ, BitVec.cpopNatRec_eq, ih, Nat.zero_add]
    cases a.getLsbD n <;> rfl

theorem ofNat_popCount : BitVec.ofNat 64 (popCount a 64) = a.cpop := by
  rw [popCount_eq_cpopNatRec, BitVec.cpop]

/-- The low `n` bits, reversed, stand at the top of the word. -/
theorem brevGo_eq_mul_reverse (hn : n ≤ 64) : brevGo a n = 2 ^ (64 - n) * (a.setWidth n).reverse.toNat := by
  induction n with
  | zero => rw [brevGo, BitVec.toNat_of_zero_length rfl, Nat.mul_zero]
  | succ n ih =>
    have hlow : (a.setWidth (n + 1)).reverse.toNat = (a.setWidth n).reverse.toNat * 2 + (a.getLsbD n).toNat := by
      rw [BitVec.reverse, BitVec.toNat_concat, BitVec.truncate, BitVec.setWidth_setWidth_of_le _ (by omega),
        BitVec.msb_setWidth, decide_eq_true (by omega), Bool.true_and, Nat.add_sub_cancel]
    have hbit : (if a.getLsbD n then 2 ^ (63 - n) else 0) = 2 ^ (63 - n) * (a.getLsbD n).toNat := by
      cases a.getLsbD n <;> simp
    rw [brevGo, ih (by omega), hlow, hbit, show 64 - n = 63 - n + 1 by omega, show 64 - (n + 1) = 63 - n by omega]
    ring

theorem ofNat_brevGo : BitVec.ofNat 64 (brevGo a 64) = a.reverse := by
  rw [brevGo_eq_mul_reverse a 64 le_rfl, BitVec.setWidth_eq, Nat.sub_self, Nat.pow_zero, Nat.one_mul, BitVec.ofNat_toNat,
    BitVec.setWidth_eq]

/-! ### Comparisons -/

theorem b2w_cmpEqV : b2w (cmpEqV a b) = if a = b then 1 else 0 := by
  simp only [b2w, cmpEqV, decide_eq_true_eq]

theorem b2w_not (c : Bool) : b2w (!c) = if c then 0 else 1 := by
  cases c <;> rfl

theorem b2w_not_cmpEqV : b2w (!cmpEqV a b) = if a = b then 0 else 1 := by
  simp only [b2w_not, cmpEqV, decide_eq_true_eq]

theorem b2w_not_cmpLtV : b2w (!cmpLtV a b) = if a.slt b then 0 else 1 := b2w_not _

theorem b2w_not_cmpLtuV : b2w (!cmpLtuV a b) = if a.ult b then 0 else 1 := b2w_not _

/-! ### Bit fields -/

theorem fieldVal_eq : fieldVal a b = (a.extractLsb' (bfPos b) (fieldWidth b)).toNat := by
  rw [BitVec.extractLsb'_toNat, Nat.shiftRight_eq_div_pow, fieldVal]

theorem bfxV_eq_setWidth : bfxV a b = (a.extractLsb' (bfPos b) (fieldWidth b)).setWidth 64 := by
  rw [bfxV, fieldVal_eq, BitVec.ofNat_toNat]

theorem bfxSV_eq_signExtend : bfxSV a b = (a.extractLsb' (bfPos b) (fieldWidth b)).signExtend 64 := by
  simp only [bfxSV, fieldVal_eq]
  generalize a.extractLsb' (bfPos b) (fieldWidth b) = x
  generalize fieldWidth b = w at x
  cases w with
  | zero => rw [if_pos rfl, BitVec.eq_nil x]; rfl
  | succ w =>
    have hhalf : 2 * x.toNat < 2 ^ (w + 1) ↔ x.toNat < 2 ^ w := by rw [Nat.pow_succ]; omega
    simp only [if_neg (Nat.succ_ne_zero w), Nat.add_sub_cancel, BitVec.signExtend, BitVec.toInt_eq_toNat_cond, hhalf]
    split
    · exact (BitVec.ofInt_natCast _ _).symm
    · push_cast; rfl

theorem bfxV_eq : bfxV a b = BitVec.ofFnLE fun j : Fin 64 => decide (j.val < fieldWidth b) && a.getLsbD (bfPos b + j.val) := by
  ext j hj
  rw [BitVec.getElem_ofFnLE, bfxV_eq_setWidth, BitVec.getElem_setWidth, BitVec.getLsbD_extractLsb']

theorem bfxSV_eq : bfxSV a b = BitVec.ofFnLE fun j : Fin 64 =>
    decide (0 < fieldWidth b) && a.getLsbD (bfPos b + Nat.min j.val (fieldWidth b - 1)) := by
  ext j hj
  rw [BitVec.getElem_ofFnLE, bfxSV_eq_signExtend, BitVec.getElem_signExtend]
  split
  next h => simp [show min j (fieldWidth b - 1) = j by omega, show 0 < fieldWidth b by omega]
  next h => simp [show min j (fieldWidth b - 1) = fieldWidth b - 1 by omega, BitVec.msb_eq_getLsbD_last]

/-- The mask of `bfi` holds the bits of the field. -/
theorem getLsbD_fieldMask (w p : Nat) {j : Nat} (hj : j < 64) :
    (BitVec.ofNat 64 ((2 ^ w - 1) * 2 ^ p)).getLsbD j = decide (p ≤ j ∧ j < p + w) := by
  rw [BitVec.getLsbD_ofNat, Nat.testBit_mul_two_pow, Nat.testBit_two_pow_sub_one, decide_eq_true hj, Bool.true_and,
    ← Bool.decide_and, decide_eq_decide]
  omega

theorem bfiV_eq : bfiV d a b = BitVec.ofFnLE fun j : Fin 64 =>
    if bfPos b ≤ j.val ∧ j.val < bfPos b + fieldWidth b then a.getLsbD (j.val - bfPos b) else d.getLsbD j.val := by
  apply BitVec.eq_of_getLsbD_eq
  intro j hj
  simp only [bfiV, shlV_eq, BitVec.getLsbD_or, BitVec.getLsbD_and, BitVec.getLsbD_not, getLsbD_fieldMask _ _ hj,
    BitVec.getLsbD_shiftLeft, BitVec.getLsbD_ofFnLE, dif_pos hj]
  by_cases hf : bfPos b ≤ j ∧ j < bfPos b + fieldWidth b
  · simp [hf, hj]
  · simp [hf, hj]

end Sys2Proof.Machine
end

section
/-! The integer instructions meet the statements of R79 to R86. The claims' results are first written as the
model's own, and then every instruction is one that writes one register. -/

namespace Sys2Proof.Machine

theorem arithmeticLogic : Clause.ArithmeticLogic := by
  constructor
  · intro d a b
    have code {k i} := isCode_integer (op := 0x00) (d := d) (a := a) (b := b) (k := k) (i := i) (by decide) nofun
    exact ⟨code rfl, code rfl, code rfl, code rfl, code rfl, code rfl, code rfl, code rfl, code rfl, code rfl, code rfl,
      fun _ => isNoCode_integer (op := 0x00) (by decide) nofun⟩
  · intro s i d a b h
    simp only [BitVec.sle_iff_toInt_le, BitVec.ule_iff_toNat_le]
    and_intros <;> exact writes_plain _ h _ rfl

theorem shifts : Clause.Shifts := by
  constructor
  · intro d a b
    have code {k i} := isCode_integer (op := 0x01) (d := d) (a := a) (b := b) (k := k) (i := i) (by decide) nofun
    exact ⟨code rfl, code rfl, code rfl, code rfl, fun _ => isNoCode_integer (op := 0x01) (by decide) nofun⟩
  · intro s i d a b h
    simp only [← shamt_eq, ← shlV_eq, ← shrV_eq, ← sraV_eq, ← rotV_shamt]
    and_intros <;> exact writes_plain _ h _ rfl

theorem multiplyDivide : Clause.MultiplyDivide := by
  constructor
  · intro d a b
    have mul {k i} := isCode_integer (op := 0x02) (d := d) (a := a) (b := b) (k := k) (i := i) (by decide) nofun
    have div {k i} := isCode_integer (op := 0x03) (d := d) (a := a) (b := b) (k := k) (i := i) (by decide) nofun
    exact ⟨mul rfl, mul rfl, mul rfl, div rfl, div rfl, div rfl, div rfl,
      fun _ => isNoCode_integer (op := 0x02) (by decide) nofun, fun _ => isNoCode_integer (op := 0x03) (by decide) nofun⟩
  · intro s i d a b h
    simp only [← wrap64_mul_toInt, ← wrap64_mul_toInt_high, ← ofNat_mul_toNat_high, ← divV_eq, ← divuV_eq, ← remV_eq,
      ← remuV_eq]
    and_intros <;> exact writes_plain _ h _ rfl

theorem bitCounts : Clause.BitCounts := by
  constructor
  · intro d a
    have code {k i} := isCode_integer (op := 0x04) (d := d) (a := a) (b := 0) (k := k) (i := i) (by decide) fun _ => rfl
    exact ⟨code rfl, code rfl, code rfl, code rfl, fun _ => isNoCode_integer (op := 0x04) (by decide) fun _ => rfl,
      fun _ _ => isNoCode_bits_of_b_ne_zero⟩
  · intro s i d a h
    simp only [← ofNat_clzGo, ← ofNat_ctzGo, ← ofNat_popCount, ← ofNat_brevGo]
    and_intros <;> exact writes_plain _ h _ rfl

theorem compareSelectAddress : Clause.CompareSelectAddress := by
  constructor
  · intro d a b
    have cmp {k i} := isCode_integer (op := 0x05) (d := d) (a := a) (b := b) (k := k) (i := i) (by decide) nofun
    exact ⟨cmp rfl, cmp rfl, cmp rfl, cmp rfl, cmp rfl, cmp rfl, fun _ => isNoCode_integer (op := 0x05) (by decide) nofun,
      isCode_integer (op := 0x06) (by decide) nofun rfl,
      fun _ hk => isNoCode_integer (op := 0x06) (by decide) nofun (BitVec.toNat_pos_of_ne_zero hk),
      fun _ hk => isCode_integer (op := 0x07) (by decide) nofun (integerCodes_lea hk),
      fun _ => isNoCode_integer (op := 0x07) (by decide) nofun⟩
  · intro s i d a b n h
    have sel (t : Thread) : (if t.rd d = 0 then t.rd b else t.rd a) = if t.rd d ≠ 0 then t.rd a else t.rd b :=
      (ite_not _ _ _).symm
    simp only [← b2w_cmpEqV, ← b2w_not_cmpEqV, ← b2w_not_cmpLtV, ← b2w_not_cmpLtuV, sel, ← shlV_eq]
    and_intros <;> exact writes_plain _ h _ rfl

theorem bitFields : Clause.BitFields := by
  constructor
  · intro d a b
    have bfx {k i} := isCode_integer (op := 0x08) (d := d) (a := a) (b := b) (k := k) (i := i) (by decide) nofun
    exact ⟨bfx rfl, bfx rfl, isCode_integer (op := 0x09) (by decide) nofun rfl,
      fun _ => isNoCode_integer (op := 0x08) (by decide) nofun,
      fun _ hk => isNoCode_integer (op := 0x09) (by decide) nofun (BitVec.toNat_pos_of_ne_zero hk)⟩
  · intro s i d a b h
    simp only [← bfPos_eq, ← fieldWidth_eq, ← bfxV_eq, ← bfxSV_eq, ← bfiV_eq]
    and_intros <;> exact writes_plain _ h _ rfl

/-- Settles O27: each operation's result is the library's operation on words, and each lane writes it. -/
theorem registerIntegers : Obligations.RegisterIntegers := ⟨arithmeticLogic, shifts, multiplyDivide⟩

/-- Settles O28: counts by induction over the bits, fields bit by bit. -/
theorem bitsAndSelections : Obligations.BitsAndSelections := ⟨bitCounts, compareSelectAddress, bitFields⟩

end Sys2Proof.Machine
end

section
/-! The encodings of the group operations (R205, R206). -/

namespace Sys2Proof.Machine

variable (d a b : Reg) {k : BitVec 4} {op : AtomOp}

/-- Each operation of opcode 0x4c is its own function code, with its unused fields zero. -/
theorem isCode_group : IsCode [wordT 0x4c d 0 0 0] (.elect d) ∧ IsCode [wordT 0x4c d a 0 1] (.voteCnt d a) ∧
    IsCode [wordT 0x4c d a 0 2] (.voteRank d a) ∧ IsCode [wordT 0x4c d a 0 3] (.voteEq d a) ∧
    IsCode [wordT 0x4c d a b 4] (.shflFrom d a b) ∧ IsCode [wordT 0x4c d a b 5] (.shflRot d a b) ∧
    IsCode [wordT 0x4c d a b 6] (.shflMirror d a b) ∧ IsCode [wordT 0x4c d a b 7] (.shflLead d a b) := by
  and_intros
  all_goals
    refine isCode_short (by rw [opOf_wordT]; rfl) ?_
    unfold decodeWords
    rw [opOf_wordT, d_wordT, a_wordT, b_wordT, k_wordT]
    rfl

/-- The function code of a reduction is an atom code (R42), but that of the exchange is unassigned. -/
theorem decodeWords_gred : decodeWords (wordT 0x4d d a 0 k) 0 =
    ((Sys2Proof.atomOf k).filter (· != .exch)).elim (.error .function) fun op => .ok (.gred op d a) := by
  unfold decodeWords
  rw [opOf_wordT, d_wordT, a_wordT, b_wordT, k_wordT]
  obtain ⟨⟨k, hk⟩⟩ := k
  interval_cases k <;> rfl

theorem isCode_gred (hk : Sys2Proof.atomOf k = some op) (hop : op ≠ .exch) : IsCode [wordT 0x4d d a 0 k] (.gred op d a) :=
  isCode_short (by rw [opOf_wordT]; rfl) (by rw [decodeWords_gred, hk, Option.filter_some, if_pos (by simpa using hop)]; rfl)

theorem isNoCode_gred_exch : IsNoCode [wordT 0x4d d a 0 8] :=
  isNoCode_short (e := .function) (by rw [opOf_wordT]; rfl) (by rw [decodeWords_gred]; rfl)

end Sys2Proof.Machine
end

section
/-! A group operation at its issue: each lane writes one result of its group's participants (R205, R206). -/

namespace Sys2Proof.Machine

variable {s : State} {i : Issue} {rs : List Reg}

/-- The engines of thread cores take any register fields (R21). -/
theorem Issued.thread_fields (h : Issued s i .thread rs) (rs' : List Reg) : Issued s i .thread rs' where
  issue := h.issue
  lanes := h.lanes
  calm := h.calm
  engine := by
    obtain ⟨hquay, -⟩ : (!i.quay) = true ∧ _ := (Bool.and_eq_true ..).mp h.engine
    rw [(Bool.not_eq_true' _).mp hquay]
    rfl

/-- What one lane of a group operation does, whose operands are read in the state `s` of the issue. -/
def groupLane (s : State) (i : Issue) (d : Reg) (f : State → LaneId → List Thread → Thread → Word) (t : State) (l : LaneId) :
    State × LaneRes :=
  (t.putThread ((t.thread l).wr d (f s.picked l (mates s i l) (s.thread l))), .done [])

theorem groupOp_eq_perLane (h : s.issue = some i) (d : Reg) (f : State → LaneId → List Thread → Thread → Word) :
    groupOp s rs d f = perLane s .thread rs 4 (groupLane s i d f) := by
  unfold groupOp perLane issue
  rw [h]
  rfl

/-- Every lane writes its own result, for each of which the participants' registers are read as they stand at the issue. -/
theorem writes_groupOp {f : State → LaneId → List Thread → Thread → Word} {ins : Instr} {rs' : List Reg} {d : Reg}
    {v : Thread → Word} (h : Issued s i .thread rs) (hx : exec ins s = groupOp s rs' d f)
    (hv : ∀ l ∈ i.lanes, f s.picked l (mates s i l) (s.thread l) = v (s.thread l)) : Writes s i ins 4 d v := by
  obtain ⟨t, hrun, honly, hthread⟩ := perLane_local (len := 4) (f := groupLane s i d f) (h.thread_fields rs')
    (fun l => (s.thread l).wr d (v (s.thread l))) (fun l => ((s.thread l).wr d (v (s.thread l))).advance (i.pc + 4) []) (by
      intro t l hl _ ht
      have hid : ((s.thread l).wr d (v (s.thread l))).id = l := (Thread.wr_id ..).trans (s.thread_id l)
      have hput := Local.putThread t ((s.thread l).wr d (v (s.thread l)))
      have hsame := t.thread_putThread_same ((s.thread l).wr d (v (s.thread l)))
      rw [hid] at hput hsame
      rw [groupLane, ht, hv l hl]
      exact ⟨hput, hsame, Settles.done _ _ _ _ i.pc ((h.calm l hl).wr d _)⟩)
  refine ⟨t, by rw [hx, groupOp_eq_perLane h.issue, hrun], honly, fun l hl => ?_⟩
  have hwrote := Wrote.of_wr (pc := i.pc + 4) (h.calm l hl) d (v (s.thread l)) 0
  rw [Thread.raise_zero] at hwrote
  rw [hthread l hl]
  exact hwrote

end Sys2Proof.Machine
end

section
/-! The participants of a lane's group (R189, R205). -/

namespace Sys2Proof.Machine

/-- The lanes of an issue are of its core, and stand in lane order (R119). -/
structure Issue.Ordered (i : Issue) : Prop where
  order : i.lanes.Pairwise fun x y => laneLe x y = true
  core : ∀ l ∈ i.lanes, l.core = i.core

variable {s : State} {i : Issue} {l : LaneId} {u : Thread}

/-- The lane of the same group with another `tid`. -/
def LaneId.mate (l : LaneId) (n : Nat) : LaneId := ⟨l.core, l.berth, n⟩

theorem tid_le_of_laneLe {x y : LaneId} (hc : x.core = y.core) (hb : x.berth = y.berth) (h : laneLe x y = true) :
    x.tid ≤ y.tid := by
  simpa [laneLe, hc, hb] using h

theorem mates_thread_id : mates s i (s.thread l).id = mates s i l := by rw [s.thread_id]

theorem self_mem_mates (hl : l ∈ i.lanes) : s.thread l ∈ mates s i l :=
  List.mem_map_of_mem (List.mem_filter.mpr ⟨hl, beq_self_eq_true _⟩)

theorem Issue.Ordered.eq_mate (hi : i.Ordered) {x : LaneId} (hl : l ∈ i.lanes) (hx : x ∈ i.lanes) (hb : x.berth = l.berth) :
    x = l.mate x.tid := by
  have hc := (hi.core x hx).trans (hi.core l hl).symm
  cases x
  cases hc
  cases hb
  rfl

/-- A participant is the thread of one of the group's lanes. -/
theorem mem_mates_iff (hi : i.Ordered) (hl : l ∈ i.lanes) :
    u ∈ mates s i l ↔ l.mate u.id.tid ∈ i.lanes ∧ s.thread (l.mate u.id.tid) = u := by
  simp only [mates, List.mem_map, List.mem_filter, beq_iff_eq]
  constructor
  · rintro ⟨x, ⟨hx, hb⟩, rfl⟩
    rw [s.thread_id, ← hi.eq_mate hl hx hb]
    exact ⟨hx, rfl⟩
  · rintro ⟨hx, hu⟩
    exact ⟨_, ⟨hx, rfl⟩, hu⟩

theorem thread_mate_mem_mates (hi : i.Ordered) (hl : l ∈ i.lanes) {n : Nat} :
    s.thread (l.mate n) ∈ mates s i l ↔ l.mate n ∈ i.lanes := by
  rw [mem_mates_iff hi hl, s.thread_id]
  exact and_iff_left rfl

/-- The search for a `tid` finds the group's lane of that `tid`, where it takes part. -/
theorem find?_mates (hi : i.Ordered) (hl : l ∈ i.lanes) (n : Nat) :
    (mates s i l).find? (fun t => t.id.tid == n) = if l.mate n ∈ i.lanes then some (s.thread (l.mate n)) else none := by
  split
  next hn =>
    cases hf : (mates s i l).find? fun t => t.id.tid == n with
    | none =>
      have := List.find?_eq_none.mp hf _ ((thread_mate_mem_mates hi hl).mpr hn)
      simp [s.thread_id, LaneId.mate] at this
    | some u =>
      obtain rfl : u.id.tid = n := by simpa using List.find?_some hf
      rw [((mem_mates_iff hi hl).mp (List.mem_of_find?_eq_some hf)).2]
  next hn =>
    refine List.find?_eq_none.mpr fun u hu he => hn ?_
    obtain rfl := beq_iff_eq.mp he
    exact ((mem_mates_iff hi hl).mp hu).1

/-- The first participant is the one with the lowest `tid`. -/
theorem head?_mates_eq_self_iff (hi : i.Ordered) (hl : l ∈ i.lanes) :
    ((mates s i l).head?).map (·.id) = some l ↔ ∀ x ∈ i.lanes, x.berth = l.berth → l.tid ≤ x.tid := by
  have mem {x : LaneId} : x ∈ i.lanes.filter (fun x => x.berth == l.berth) ↔ x ∈ i.lanes ∧ x.berth = l.berth := by
    rw [List.mem_filter, beq_iff_eq]
  have order : (i.lanes.filter fun x => x.berth == l.berth).Pairwise fun x y => laneLe x y = true := hi.order.filter _
  unfold mates
  generalize i.lanes.filter (fun x => x.berth == l.berth) = ls at mem order
  cases ls with
  | nil => exact absurd (mem.mpr ⟨hl, rfl⟩) List.not_mem_nil
  | cons y r =>
    obtain ⟨hy, hyb⟩ := mem.mp List.mem_cons_self
    have tid_le {x : LaneId} (hx : x ∈ i.lanes) (hb : x.berth = l.berth) : y.tid ≤ x.tid := by
      obtain rfl | hr := List.mem_cons.mp (mem.mpr ⟨hx, hb⟩)
      · exact le_rfl
      · have hcore : y.core = x.core := (hi.core y hy).trans (hi.core x hx).symm
        exact tid_le_of_laneLe hcore (hyb.trans hb.symm) (List.rel_of_pairwise_cons order hr)
    simp only [List.map_cons, List.head?_cons, Option.map_some, s.thread_id, Option.some.injEq]
    constructor
    · rintro rfl x hx hb
      exact tid_le hx hb
    · intro h
      rw [hi.eq_mate hl hy hyb, le_antisymm (tid_le hl rfl) (h y hy hyb)]
      rfl

/-- The search for the lowest `tid` of a segment is a search for the least among the participants of the segment. -/
theorem lowestIn_eq_argmin (ts : List Thread) (lo n : Nat) :
    lowestIn ts lo n = (ts.filter fun t => decide (lo ≤ t.id.tid ∧ t.id.tid < lo + n)).argmin (·.id.tid) := by
  simp only [Bool.decide_and]
  unfold lowestIn List.argmin
  congr
  funext m t
  cases m <;> rfl

/-- The participant with the lowest `tid` of a segment stands at the first of the segment's lanes that takes part. -/
theorem lowestIn_mates (hi : i.Ordered) (hl : l ∈ i.lanes) (lo n : Nat) :
    lowestIn (mates s i l) lo n =
      (((List.range n).map (lo + ·)).find? fun t => decide (l.mate t ∈ i.lanes)).map fun t => s.thread (l.mate t) := by
  have mem {u : Thread} : u ∈ (mates s i l).filter (fun t => decide (lo ≤ t.id.tid ∧ t.id.tid < lo + n)) ↔
      ∃ j < n, l.mate (lo + j) ∈ i.lanes ∧ s.thread (l.mate (lo + j)) = u := by
    rw [List.mem_filter, decide_eq_true_eq, mem_mates_iff hi hl]
    constructor
    · rintro ⟨hu, hlo, hhi⟩
      exact ⟨u.id.tid - lo, by omega, by rwa [Nat.add_sub_cancel' hlo]⟩
    · rintro ⟨j, hj, hm, rfl⟩
      rw [s.thread_id]
      exact ⟨⟨hm, rfl⟩, Nat.le_add_right .., Nat.add_lt_add_left hj lo⟩
  rw [lowestIn_eq_argmin, List.find?_map]
  cases hf : (List.range n).find? ((fun t => decide (l.mate t ∈ i.lanes)) ∘ (lo + ·)) with
  | none =>
    refine List.argmin_eq_none.mpr (List.eq_nil_iff_forall_not_mem.mpr fun u hu => ?_)
    obtain ⟨j, hj, hm, -⟩ := mem.mp hu
    have := List.find?_eq_none.mp hf j (List.mem_range.mpr hj)
    simp [hm] at this
  | some j =>
    obtain ⟨hm, hj, hlow⟩ := List.find?_range_eq_some.mp hf
    have hseg := mem.mpr ⟨j, List.mem_range.mp hj, by simpa using hm, rfl⟩
    cases ha : ((mates s i l).filter fun t => decide (lo ≤ t.id.tid ∧ t.id.tid < lo + n)).argmin (·.id.tid) with
    | none => rw [List.argmin_eq_none.mp ha] at hseg; exact absurd hseg List.not_mem_nil
    | some u =>
      obtain ⟨j', hj', hm', rfl⟩ := mem.mp (List.argmin_mem ha)
      have hle : lo + j' ≤ lo + j := by
        simpa only [s.thread_id, LaneId.mate] using List.le_of_mem_argmin hseg ha
      obtain hlt | rfl : j' < j ∨ j' = j := by omega
      · simpa [hm'] using hlow j' hlt
      · rfl

end Sys2Proof.Machine
end

section
/-! Elections, votes and shuffles (R205). -/

namespace Sys2Proof.Machine

variable {s : State} {i : Issue} {rs : List Reg}

/-- x[a] of the participant with this `tid`, or the thread's own (R205). -/
def heldBy (s : State) (i : Issue) (a : Reg) (t : Thread) (n : Nat) : Word :=
  if t.id.mate n ∈ i.lanes then (s.thread (t.id.mate n)).rd a else t.rd a

theorem shflFrom_mates (hi : i.Ordered) {l : LaneId} (hl : l ∈ i.lanes) (a : Reg) (n : Nat) :
    shflFrom (mates s i l) (s.thread l) a n = heldBy s i a (s.thread l) n := by
  rw [shflFrom, find?_mates hi hl, heldBy, s.thread_id]
  split <;> rfl

/-- The size of a thread's segment, and its first `tid` (R205). -/
def segmentSize (s : State) (b : Reg) (t : Thread) : Nat := Nat.min (2 ^ ((t.rd b).extractLsb' 0 3).toNat) (s.gwd t.id)
def segmentStart (s : State) (b : Reg) (t : Thread) : Nat := t.id.tid - t.id.tid % segmentSize s b t

theorem segment_eq (b : Reg) (t : Thread) :
    segment (s.gwd t.id) t.id.tid (t.rd b) = (segmentSize s b t, segmentStart s b t) := by
  rw [segmentStart, segmentSize, BitVec.extractLsb'_toNat, Nat.shiftRight_zero]
  rfl

theorem lowestIn_rd (hi : i.Ordered) {l : LaneId} (hl : l ∈ i.lanes) (a : Reg) (lo n : Nat) :
    ((lowestIn (mates s i l) lo n).getD (s.thread l)).rd a =
      ((((List.range n).map (lo + ·)).find? fun t => decide (l.mate t ∈ i.lanes)).map (heldBy s i a (s.thread l))).getD
        ((s.thread l).rd a) := by
  rw [lowestIn_mates hi hl]
  cases hf : ((List.range n).map (lo + ·)).find? fun t => decide (l.mate t ∈ i.lanes) with
  | none => rfl
  | some t =>
    have ht : l.mate t ∈ i.lanes := by simpa using List.find?_some hf
    simp only [Option.map_some, Option.getD_some, heldBy, s.thread_id, if_pos ht]

section Arms

variable (s : State) (d a b : Reg) (op : AtomOp)

theorem exec_elect : exec (.elect d) s = execElect d s := rfl
theorem exec_voteCnt : exec (.voteCnt d a) s = execVoteCnt d a s := rfl
theorem exec_voteRank : exec (.voteRank d a) s = execVoteRank d a s := rfl
theorem exec_voteEq : exec (.voteEq d a) s = execVoteEq d a s := rfl
theorem exec_shflFrom : exec (.shflFrom d a b) s = execShflFrom d a b s := rfl
theorem exec_shflRot : exec (.shflRot d a b) s = execShflRot d a b s := rfl
theorem exec_shflMirror : exec (.shflMirror d a b) s = execShflMirror d a b s := rfl
theorem exec_shflLead : exec (.shflLead d a b) s = execShflLead d a b s := rfl
theorem exec_gred : exec (.gred op d a) s = execGred op d a s := rfl

end Arms

theorem State.gwd_picked (s : State) (l : LaneId) : s.picked.gwd l = s.gwd l := rfl

variable (h : Issued s i .thread rs) (hi : i.Ordered) (d a b : Reg)
include h

theorem writes_voteCnt : Writes s i (.voteCnt d a) 4 d fun t =>
    BitVec.ofNat 64 ((mates s i t.id).filter fun u => decide (u.rd a ≠ 0)).length := by
  refine writes_groupOp h (exec_voteCnt ..) fun l _ => ?_
  simp only [mates_thread_id, ne_eq, decide_not]
  rfl

theorem writes_voteRank : Writes s i (.voteRank d a) 4 d fun t =>
    BitVec.ofNat 64 ((mates s i t.id).filter fun u => decide (u.id.tid < t.id.tid ∧ u.rd a ≠ 0)).length := by
  refine writes_groupOp h (exec_voteRank ..) fun l _ => ?_
  simp only [s.thread_id, Bool.decide_and, ne_eq, decide_not]
  rfl

theorem writes_voteEq : Writes s i (.voteEq d a) 4 d fun t => if ∀ u ∈ mates s i t.id, u.rd a = t.rd a then 1 else 0 := by
  refine writes_groupOp h (exec_voteEq ..) fun l _ => if_congr ?_ rfl rfl
  simp only [mates_thread_id, List.all_eq_true, decide_eq_true_eq]

include hi

theorem writes_elect : Writes s i (.elect d) 4 d fun t =>
    if ∀ x ∈ i.lanes, x.berth = t.id.berth → t.id.tid ≤ x.tid then 1 else 0 := by
  refine writes_groupOp h (exec_elect ..) fun l hl => if_congr ?_ rfl rfl
  rw [head?_mates_eq_self_iff hi hl, s.thread_id]

theorem writes_shflFrom : Writes s i (.shflFrom d a b) 4 d fun t => heldBy s i a t ((t.rd b).toNat % s.gwd t.id) := by
  refine writes_groupOp h (exec_shflFrom ..) fun l hl => ?_
  rw [shflFrom_mates hi hl, s.thread_id]
  rfl

theorem writes_shflRot : Writes s i (.shflRot d a b) 4 d fun t =>
    heldBy s i a t ((t.id.tid + (t.rd b).toNat) % s.gwd t.id) := by
  refine writes_groupOp h (exec_shflRot ..) fun l hl => ?_
  rw [shflFrom_mates hi hl, s.thread_id]
  rfl

theorem writes_shflMirror : Writes s i (.shflMirror d a b) 4 d fun t =>
    heldBy s i a t (2 * segmentStart s b t + segmentSize s b t - 1 - t.id.tid) := by
  refine writes_groupOp h (exec_shflMirror ..) fun l hl => ?_
  have hseg := segment_eq (s := s) b (s.thread l)
  rw [s.thread_id] at hseg ⊢
  simp only [State.gwd_picked, hseg]
  exact shflFrom_mates hi hl a _

theorem writes_shflLead : Writes s i (.shflLead d a b) 4 d fun t =>
    ((((List.range (segmentSize s b t)).map (segmentStart s b t + ·)).find? fun n => decide (t.id.mate n ∈ i.lanes)).map
      (heldBy s i a t)).getD (t.rd a) := by
  refine writes_groupOp h (exec_shflLead ..) fun l hl => ?_
  have hseg := segment_eq (s := s) b (s.thread l)
  rw [s.thread_id] at hseg ⊢
  simp only [State.gwd_picked, hseg]
  exact lowestIn_rd hi hl a _ _

end Sys2Proof.Machine
end

section
/-! Reductions (R206): a fold over the participants from a value that leaves the first operand as it is. -/

namespace Sys2Proof.Machine

variable {op : AtomOp} {g : Word → Word → Word}

/-- A reduction that starts behind the first operand is one over all of them that starts from `e`. -/
theorem reduce_eq_foldl {e v : Nat} {r : List Nat} (hop : op ≠ .fadd)
    (he : atomApply op 64 e v = if op = .fmax ∨ op = .famax then atomApply op 64 v v else v) :
    reduce op (v :: r) = (v :: r).foldl (atomApply op 64) e := by
  rw [List.foldl_cons, he]
  unfold reduce
  split
  · exact absurd rfl hop
  · simp only [Bool.or_eq_true, decide_eq_true_eq]

/-- On words: `g` folded over the operands, from a word beside which the first operand stays as it is. -/
theorem ofNat_reduce {e : Word} {u : Thread} {ts : List Thread} {a : Reg} (hop : op ≠ .fadd ∧ op ≠ .fmax ∧ op ≠ .famax)
    (hg : ∀ x y : Word, atomApply op 64 x.toNat y.toNat = (g x y).toNat) (he : g e (u.rd a) = u.rd a) :
    BitVec.ofNat 64 (reduce op ((u :: ts).map fun t => (t.rd a).toNat)) = (u :: ts).foldl (fun x t => g x (t.rd a)) e := by
  obtain ⟨hadd, hmax, hamax⟩ := hop
  have hfold : ((u :: ts).map fun t => (t.rd a).toNat).foldl (atomApply op 64) e.toNat =
      ((u :: ts).foldl (fun x t => g x (t.rd a)) e).toNat := by
    rw [List.foldl_map]
    exact List.foldl_hom BitVec.toNat fun x t => hg x (t.rd a)
  rw [List.map_cons] at hfold ⊢
  rw [reduce_eq_foldl (e := e.toNat) hadd (by rw [hg, he, if_neg (by simp [hmax, hamax])]), hfold, BitVec.ofNat_toNat,
    BitVec.setWidth_eq]

/-! ### Minima and maxima -/

theorem sgn_toNat (x : Word) : sgn 64 x.toNat = x.toInt := by
  rw [BitVec.toInt_eq_toNat_cond, sgn]
  have := x.isLt
  split <;> split <;> omega

/-- Of two words the one that comes before the other; the first where neither does. -/
def pick (before : Word → Word → Bool) (x y : Word) : Word := if before y x then y else x

/-- The order of words by a key that tells them apart. -/
structure OrderedBy (before : Word → Word → Bool) (key : Word → Int) : Prop where
  lt_iff : ∀ x y, before x y = true ↔ key x < key y
  inj : Function.Injective key

variable {before : Word → Word → Bool} {key : Word → Int} (hb : OrderedBy before key)

theorem pick_self (x : Word) : pick before x x = x := ite_self x

include hb

theorem OrderedBy.toNat_pick (x y : Word) : (pick before x y).toNat = if key x ≤ key y then x.toNat else y.toNat := by
  rw [pick, apply_ite BitVec.toNat, ← ite_not]
  simp only [hb.lt_iff, not_lt]

theorem OrderedBy.key_pick (x y : Word) : key (pick before x y) = min (key x) (key y) := by
  rw [pick, apply_ite key, ← ite_not, min_def]
  simp only [hb.lt_iff, not_lt]

/-- A search from one of a list's words finds the least key of the list. -/
theorem OrderedBy.key_foldl_pick {v : Word} {ws : List Word} (hv : v ∈ ws) :
    (ws.map key).min? = some (key (ws.foldl (pick before) v)) := by
  have hfold : key (ws.foldl (pick before) v) = (ws.map key).foldl min (key v) := by
    rw [List.foldl_map]
    exact (List.foldl_hom key fun x y => (hb.key_pick x y).symm).symm
  have hmem : key v ∈ ws.map key := List.mem_map_of_mem hv
  obtain ⟨m, hm⟩ := Option.isSome_iff_exists.mp (List.isSome_min?_of_mem hmem)
  rw [hfold, List.foldl_min, hm, Option.getD_some, min_eq_right ((List.le_min?_iff hm).mp le_rfl _ hmem)]

theorem OrderedBy.foldl_pick_eq {v w : Word} {ws : List Word} (hv : v ∈ ws) (hw : w ∈ ws) :
    ws.foldl (pick before) v = ws.foldl (pick before) w :=
  hb.inj (Option.some.inj ((hb.key_foldl_pick hv).symm.trans (hb.key_foldl_pick hw)))

omit hb

theorem orderedBy_slt : OrderedBy (fun x y => x.slt y) BitVec.toInt where
  lt_iff _ _ := BitVec.slt_iff_toInt_lt
  inj _ _ := BitVec.eq_of_toInt_eq

theorem orderedBy_ult : OrderedBy (fun x y => x.ult y) fun x => x.toNat where
  lt_iff _ _ := BitVec.ult_iff_toNat_lt.trans Int.ofNat_lt.symm
  inj _ _ h := BitVec.eq_of_toNat_eq (Int.ofNat_inj.mp h)

theorem OrderedBy.flip (hb : OrderedBy before key) : OrderedBy (fun x y => before y x) fun x => -key x where
  lt_iff x y := (hb.lt_iff y x).trans neg_lt_neg_iff.symm
  inj _ _ h := hb.inj (neg_inj.mp h)

/-! ### Floating point -/

theorem rdF_d (w : Word) : rdF .d w = decodeF fp64 w.toNat := congrArg (decodeF fp64) (Nat.mod_eq_of_lt w.isLt)

/-- Beside a NaN the maximum is the other operand, canonical where it is a NaN too (R101). -/
theorem maxNum_canonNan (v : Nat) : (maxNum fp64 fp64.canonNan v).1 = (maxNum fp64 v v).1 := by
  have hnan : (decodeF fp64 fp64.canonNan).isNan = true := by decide
  unfold maxNum
  cases hv : (decodeF fp64 v).isNan <;> simp [hnan, hv]

/-- Every number but zero is above zero in magnitude. -/
theorem zero_lt_abs {x : Ext} {q : Int} (hx : x.isNan = false) : (Ext.fin false 0 q).lt x.abs = !x.isZero := by
  cases x with
  | nan _ => exact absurd hx (by simp [Ext.isNan])
  | inf _ => rfl
  | fin n m e => by_cases hm : m = 0 <;> simp [Ext.lt, Ext.abs, Ext.isZero, hm]

/-- The patterns of FP64 (R52, R53). -/
theorem decodeF_fp64 (v : Nat) : decodeF fp64 v =
    if v / 2 ^ 52 % 2 ^ 11 = 2 ^ 11 - 1 then
      if v % 2 ^ 52 = 0 then .inf (decide (v / 2 ^ 63 % 2 = 1)) else .nan (decide (v % 2 ^ 52 < 2 ^ 51))
    else if v / 2 ^ 52 % 2 ^ 11 = 0 then .fin (decide (v / 2 ^ 63 % 2 = 1)) (v % 2 ^ 52) (-1074)
    else .fin (decide (v / 2 ^ 63 % 2 = 1)) (2 ^ 52 + v % 2 ^ 52) ((v / 2 ^ 52 % 2 ^ 11 : Nat) - 1023 - 52) := rfl

/-- Only the pattern of a zero has the value zero. -/
theorem mod_eq_zero_of_isZero {v : Nat} (hv : (decodeF fp64 v).isZero = true) : v % 2 ^ 63 = 0 := by
  rw [decodeF_fp64] at hv
  split_ifs at hv
  · exact absurd hv Bool.false_ne_true
  · exact absurd hv Bool.false_ne_true
  all_goals
    have hsignificand := beq_iff_eq.mp hv
    omega

theorem atomApply_famax (x v : Nat) : atomApply .famax 64 x v =
    if (decodeF fp64 x).isNan || (decodeF fp64 v).isNan then fp64.canonNan
    else if (decodeF fp64 x).abs.lt (decodeF fp64 v).abs then v % 2 ^ 63 else x % 2 ^ 63 := rfl

/-- Beside +0 the greater magnitude is the operand's own, canonical where it is a NaN (R135). -/
theorem atomApply_famax_zero (v : Nat) : atomApply .famax 64 0 v = atomApply .famax 64 v v := by
  have hzero : decodeF fp64 0 = .fin false 0 fp64.qmin := by decide
  rw [atomApply_famax, atomApply_famax, ite_self, hzero]
  cases hv : (decodeF fp64 v).isNan with
  | true => simp
  | false =>
    have hlt : (Ext.fin false 0 fp64.qmin).abs.lt (decodeF fp64 v).abs = !(decodeF fp64 v).isZero := zero_lt_abs hv
    cases hz : (decodeF fp64 v).isZero with
    | true =>
      rw [mod_eq_zero_of_isZero hz]
      simp [hlt, hz, Ext.isNan]
    | false => simp [hlt, hz, Ext.isNan]

/-! ### The instructions -/

variable {s : State} {i : Issue} {rs : List Reg} (h : Issued s i .thread rs) (d a : Reg)

theorem mates_eq_cons {l : LaneId} (hl : l ∈ i.lanes) : ∃ u ts, mates s i l = u :: ts :=
  List.exists_cons_of_ne_nil (List.ne_nil_of_mem (self_mem_mates hl))

include h

/-- A reduction whose fold may start from a neutral word. -/
theorem writes_gred_neutral {e : Word} (hop : op ≠ .fadd ∧ op ≠ .fmax ∧ op ≠ .famax)
    (hg : ∀ x y : Word, atomApply op 64 x.toNat y.toNat = (g x y).toNat) (he : ∀ x, g e x = x) :
    Writes s i (.gred op d a) 4 d fun t => (mates s i t.id).foldl (fun x u => g x (u.rd a)) e := by
  refine writes_groupOp h (exec_gred ..) fun l hl => ?_
  obtain ⟨u, ts, hmates⟩ := mates_eq_cons (s := s) hl
  simp only [s.thread_id, hmates]
  exact ofNat_reduce hop hg (he _)

/-- A minimum in some order of the words, which each lane may start from its own. -/
theorem writes_gred_pick (hb : OrderedBy before key) (hop : op ≠ .fadd ∧ op ≠ .fmax ∧ op ≠ .famax)
    (hg : ∀ x y : Word, atomApply op 64 x.toNat y.toNat = if key x ≤ key y then x.toNat else y.toNat) :
    Writes s i (.gred op d a) 4 d fun t => (mates s i t.id).foldl (fun x u => pick before x (u.rd a)) (t.rd a) := by
  refine writes_groupOp h (exec_gred ..) fun l hl => ?_
  have hself := self_mem_mates (s := s) hl
  obtain ⟨u, ts, hmates⟩ := mates_eq_cons (s := s) hl
  simp only [s.thread_id, hmates] at hself ⊢
  rw [ofNat_reduce (g := pick before) hop (fun x y => (hg x y).trans (hb.toNat_pick x y).symm) (pick_self _)]
  simp only [← List.foldl_map (f := fun t : Thread => t.rd a)]
  exact hb.foldl_pick_eq (List.mem_map_of_mem List.mem_cons_self) (List.mem_map_of_mem hself)

theorem writes_gred_smin : Writes s i (.gred .smin d a) 4 d fun t =>
    (mates s i t.id).foldl (fun x u => pick (fun x y => x.slt y) x (u.rd a)) (t.rd a) := by
  refine writes_gred_pick h d a orderedBy_slt (by decide) fun x y => ?_
  rw [← sgn_toNat, ← sgn_toNat]
  rfl

theorem writes_gred_smax : Writes s i (.gred .smax d a) 4 d fun t =>
    (mates s i t.id).foldl (fun x u => pick (fun x y => y.slt x) x (u.rd a)) (t.rd a) := by
  refine writes_gred_pick h d a orderedBy_slt.flip (by decide) fun x y => ?_
  simp only [neg_le_neg_iff, ← sgn_toNat]
  rfl

theorem writes_gred_umin : Writes s i (.gred .umin d a) 4 d fun t =>
    (mates s i t.id).foldl (fun x u => pick (fun x y => x.ult y) x (u.rd a)) (t.rd a) := by
  refine writes_gred_pick h d a orderedBy_ult (by decide) fun x y => ?_
  simp only [Int.ofNat_le]
  exact min_def ..

theorem writes_gred_umax : Writes s i (.gred .umax d a) 4 d fun t =>
    (mates s i t.id).foldl (fun x u => pick (fun x y => y.ult x) x (u.rd a)) (t.rd a) := by
  refine writes_gred_pick h d a orderedBy_ult.flip (by decide) fun x y => ?_
  simp only [neg_le_neg_iff, Int.ofNat_le]
  exact (max_comm ..).trans (max_def ..)

/-- A maximum of floating-point values, whose fold may start from a pattern beside which an operand is taken as alone. -/
theorem writes_gred_float {e : Nat} (hop : op = .fmax ∨ op = .famax) (he : ∀ v, atomApply op 64 e v = atomApply op 64 v v) :
    Writes s i (.gred op d a) 4 d fun t =>
      BitVec.ofNat 64 ((mates s i t.id).foldl (fun x u => atomApply op 64 x (u.rd a).toNat) e) := by
  refine writes_groupOp h (exec_gred ..) fun l hl => ?_
  obtain ⟨u, ts, hmates⟩ := mates_eq_cons (s := s) hl
  simp only [s.thread_id, hmates, List.map_cons]
  rw [reduce_eq_foldl (by rintro rfl; simp at hop) ((he _).trans (if_pos hop).symm)]
  exact congrArg (BitVec.ofNat 64) (List.foldl_map (f := fun t : Thread => (t.rd a).toNat) (l := u :: ts))

theorem writes_gred_fadd : Writes s i (.gred .fadd d a) 4 d fun t =>
    BitVec.ofNat 64 (roundFmt (sumExt rne ((mates s i t.id).map fun u => rdF .d (u.rd a))).1 fp64 rne false).1 := by
  refine writes_groupOp h (exec_gred ..) fun l hl => ?_
  simp only [s.thread_id, rdF_d, reduce, List.map_map, Function.comp_def]

end Sys2Proof.Machine
end

section
/-! The group operations meet their statement. -/

namespace Sys2Proof.Machine

/-- Settles O7: each group's participants are the lanes that a search by `tid` finds, and a reduction is a fold over them. -/
theorem groupOperations : Obligations.GroupOperations := by
  unfold Obligations.GroupOperations
  refine ⟨fun d a b => ?_, fun d a p hp => ?_, fun s i d a b h order core => ?_⟩
  · obtain ⟨elect, cnt, rank, eq, src, rot, mirror, lead⟩ := isCode_group d a b
    exact ⟨elect, cnt, rank, eq, src, rot, mirror, lead, isNoCode_gred_exch d a⟩
  · obtain ⟨hcode, hop⟩ : Sys2Proof.atomOf p.1 = some p.2 ∧ p.2 ≠ .exch := by revert p; decide
    exact isCode_gred d a hcode hop
  · have hi : i.Ordered := ⟨order, core⟩
    refine ⟨writes_elect h hi d, writes_voteCnt h d a, writes_voteRank h d a, writes_voteEq h d a, writes_shflFrom h hi d a b,
      writes_shflRot h hi d a b, writes_shflMirror h hi d a b, writes_shflLead h hi d a b, ?add, ?and, ?or, ?xor,
      writes_gred_smin h d a, writes_gred_smax h d a, writes_gred_umin h d a, writes_gred_umax h d a,
      writes_gred_fadd h d a, ?fmax, ?famax⟩
    case add => exact writes_gred_neutral h d a (by decide) (fun x y => (BitVec.toNat_add x y).symm) BitVec.zero_add
    case and =>
      exact writes_gred_neutral h d a (by decide) (fun x y => (BitVec.toNat_and x y).symm) fun _ => BitVec.allOnes_and
    case or => exact writes_gred_neutral h d a (by decide) (fun x y => (BitVec.toNat_or x y).symm) fun _ => BitVec.zero_or
    case xor => exact writes_gred_neutral h d a (by decide) (fun x y => (BitVec.toNat_xor x y).symm) fun _ => BitVec.zero_xor
    case fmax => exact writes_gred_float h d a (.inl rfl) maxNum_canonNan
    case famax => exact writes_gred_float h d a (.inr rfl) atomApply_famax_zero

end Sys2Proof.Machine
end
